-- ==== Sys2Proof/Word.lean ====
section
/-!
DEFINITION. The word types of the block: command words, I/O words, FMT values, and the names of the ports and agents.
-/

namespace Sys2Proof

/-- A 32-bit command word (30_encoding.md R140). -/
abbrev Word := BitVec 32

/-- A 64-bit word of IN_MEM or OUT_MEM, or a read-port value (20_memory.md R100). -/
abbrev IoWord := BitVec 64

/-- The bit pattern of an FMT value, zero-extended to 64 bits: binary32 in bits [31:0], or binary64
(10_state.md R42, R46). -/
abbrev F := BitVec 64

/-- The two command ports (20_memory.md R104). -/
inductive Port where
  | audio
  | control
  deriving DecidableEq, Repr, Inhabited

/-- Who makes the next atomic step: the audio port (its next command, or the PROCESS in progress), the control port,
or the host (20_memory.md R110, R111; 60_exceptions.md R456). -/
inductive Agent where
  | audio
  | control
  | host
  deriving DecidableEq, Repr, Inhabited

end Sys2Proof
end

