-- ==== Sys2Proof/Config.lean ====
section
/-!
DEFINITION. What a build of the block fixes (00_scope.md R7, R8), and the free values: opaque constants with no body,
of which nothing can be proved (93_implementation_defined.md U2, U3, U5, U6, U7, U9).
-/

namespace Sys2Proof

/-- The internal floating-point format (00_scope.md R7, decision D2): binary32, or binary64 as a build option. -/
inductive Fmt where
  | binary32
  | binary64
  deriving DecidableEq, Repr, Inhabited

/-- A decimal constant of the spec as an exact fraction `num / den`. -/
structure Dec where
  num : Nat
  den : Nat
  deriving DecidableEq, Repr

/-- The build parameters that a model takes as arguments (00_scope.md R7). They are plain data held in the state, so a
statement about every state is a statement about every build. -/
structure Build where
  /-- FMT -/
  fmt : Fmt
  /-- N_MAX -/
  nMax : Nat
  /-- MAX_BLOCK -/
  maxBlock : Nat
  /-- REC_CAP -/
  recCap : Nat
  /-- CH_INIT -/
  chInit : Nat
  /-- FS_INIT, an FMT value -/
  fsInit : F
  /-- MAKEUP[1], …, MAKEUP[15], FMT values (43_bitcrusher.md R263) -/
  makeup : List F
  deriving DecidableEq, Repr

/-- The arithmetic operations whose result can be a NaN (00_scope.md R14, R15, R16). -/
inductive FpOp where
  | add
  | sub
  | mul
  | div
  | floor
  | convert
  deriving DecidableEq, Repr, Inhabited

namespace Config

/-- The build of the reference vectors (92_eei_decisions.md, "Parameters left OPEN"): binary32, N_MAX = 2,
MAX_BLOCK = 64, REC_CAP = 8, CH_INIT = 2, FS_INIT = 44100, MAKEUP = 1.0. DESIGN CHOICE (log 2): no value is normative.
Only `State.reset` uses it. -/
def referenceBuild : Build where
  fmt := .binary32
  nMax := 2
  maxBlock := 64
  recCap := 8
  chInit := 2
  fsInit := 0x472C4400#64
  makeup := List.replicate 15 0x3F800000#64

/-- The constant of the ID register (00_scope.md R3, 10_state.md R43). -/
def idValue : Word := 0x48430007#32

/-- FLOOR_HZ (00_scope.md R7). -/
def floorHz : Nat := 1000

/-- PMIN, the minimum playback speed. -/
def pMin : Dec := ⟨1, 2⟩

/-- LFO_MIN_HZ. -/
def lfoMinHz : Dec := ⟨1, 10⟩

/-- LFO_MAX_HZ. -/
def lfoMaxHz : Nat := 10

/-- RHO_MIN. -/
def rhoMin : Dec := ⟨1, 1000⟩

/-- RHO_MAX. -/
def rhoMax : Dec := ⟨45, 100⟩

/-- DENORM_EPS. -/
def denormEps : Dec := ⟨1, 10 ^ 18⟩

/-- ATT_US_MAX. -/
def attUsMax : Nat := 1564

/-- REL_MS_MAX. -/
def relMsMax : Nat := 1572

/-- KNEE_K. -/
def kneeK : Dec := ⟨1, 4⟩

/-- π to 40 significant digits, enough to round correctly to either format (00_scope.md R8). DEDUCED (log 16). -/
def pi : Dec := ⟨3141592653589793238462643383279502884197, 10 ^ 39⟩

/-- 2π to 40 significant digits (00_scope.md R8). DEDUCED (log 16). -/
def twoPi : Dec := ⟨6283185307179586476925286766559005768394, 10 ^ 39⟩

/-- √2 to 40 significant digits (00_scope.md R8). DEDUCED (log 16). -/
def sqrt2 : Dec := ⟨1414213562373095048801688724209698078570, 10 ^ 39⟩

/-- The sine of the build, a function of its operand alone (00_scope.md R17). Free (log 3). -/
opaque sinF : Fmt → F → F

/-- The tangent of the build (00_scope.md R17). Free (log 3). -/
opaque tanF : Fmt → F → F

/-- 2 to the operand (00_scope.md R17). Free (log 3). -/
opaque exp2F : Fmt → F → F

/-- 10 to the operand (00_scope.md R17). Free (log 3). -/
opaque pow10F : Fmt → F → F

/-- Sign and payload of the quiet NaN that an operation answers with in an atomic step, from the step's number, the
operation and its operands (00_scope.md R14, U2). Free (log 4). -/
opaque nanBits : Nat → FpOp → F → F → F

/-- What a half of an IN_MEM word that the host has not written since reset reads as, from the step's number, the read
within the step, and the half's index (20_memory.md R118, U3). Free (log 8). -/
opaque inHalf : Nat → Nat → Nat → Word

/-- What an OUT_MEM word that no PROCESS has written since reset reads as, from the step's number and the word's index
(70_reset_and_hazards.md R482, U5). Free (log 9). -/
opaque outWord : Nat → Nat → IoWord

/-- Which of the admitted values a race yields, from the step's number and the word's index (20_memory.md R118,
70_reset_and_hazards.md R482, U5, U6). Free (logs 9 and 10). -/
opaque race : Nat → Nat → Nat

/-- Which agent moves in an atomic step when several can and the schedule is used up (20_memory.md R111, U7).
Free (log 6). -/
opaque agent : Nat → Agent

end Config

end Sys2Proof
end

