-- ==== Sys2Proof/Syntax.lean ====
section
/-!
DEFINITION. The commands of HC-CMD version 1, one constructor per row of spec/opcode_table.json (30_encoding.md R146).
-/

namespace Sys2Proof

/-- A command. Operands `a` and `b` are binary32 bit patterns (30_encoding.md R143); NIN, NOUT and n of PROCESS are
counts (R144); the flag F is a Bool (R145). The words a format ignores (R151) are not part of a command. -/
inductive Instr where
  | nop
  | process (sw : Bool) (nin nout n : Nat)
  | resetPointers
  | clearBuffer
  | filterReset
  | setSampleRate (a : Word)
  | clearErr
  | setResampleRate (a : Word)
  | setResampleLfo (a b : Word)
  | setPlaybackRate (a : Word)
  | setPlaybackLfo (a b : Word)
  | setBitcrushAmount (a : Word)
  | setBitcrushLfo (a b : Word)
  | setBitcrushOutputMix (a : Word)
  | setDryMix (a : Word)
  | setWetMix (a : Word)
  | setBypass (on : Bool)
  | limSetAttackUs (a : Word)
  | limSetReleaseMs (a : Word)
  | limSetAttackNorm (a : Word)
  | limSetReleaseNorm (a : Word)
  | limSetThreshold (soft : Bool) (a : Word)
  | limSetTrim (a : Word)
  deriving DecidableEq, Repr

/-- The opcodes of 30_encoding.md R146, one per mnemonic. -/
inductive Opcode where
  | nop | process | resetPointers | clearBuffer | filterReset | setSampleRate | clearErr
  | setResampleRate | setResampleLfo | setPlaybackRate | setPlaybackLfo
  | setBitcrushAmount | setBitcrushLfo | setBitcrushOutputMix
  | setDryMix | setWetMix | setBypass
  | limSetAttackUs | limSetReleaseMs | limSetAttackNorm | limSetReleaseNorm | limSetThreshold | limSetTrim
  deriving DecidableEq, Repr

/-- The six formats (30_encoding.md R142). -/
inductive Format where
  | cn | ca | cab | cf | caf | cp
  deriving DecidableEq, Repr

/-- Three consecutive words of one port: header, operand A, operand B (30_encoding.md R140). -/
structure Command where
  w0 : Word
  w1 : Word
  w2 : Word
  deriving DecidableEq, Repr

end Sys2Proof
end

