-- ==== Sys2Proof/WellFormed.lean ====
section
/-!
DEFINITION. Which commands have an encoding: NIN and NOUT of PROCESS are 8-bit fields and n is a 32-bit word
(30_encoding.md R144). Every bit pattern of an operand is accepted (R143), so nothing else is checked.
-/

namespace Sys2Proof

/-- NIN fits W0[23:16] (30_encoding.md R144). -/
def ninFits : Instr → Bool
  | .process _ nin _ _ => nin < 256
  | _ => true

/-- NOUT fits W0[31:24] (30_encoding.md R144). -/
def noutFits : Instr → Bool
  | .process _ _ nout _ => nout < 256
  | _ => true

/-- n fits W1 (30_encoding.md R144). -/
def lengthFits : Instr → Bool
  | .process _ _ _ n => n < 4294967296
  | _ => true

/-- The command has an encoding (30_encoding.md R144). -/
def Instr.wellFormed (i : Instr) : Bool :=
  ninFits i && noutFits i && lengthFits i

end Sys2Proof
end

