-- ==== Sys2Proof/Decode.lean ====
section
/-!
DEFINITION. The decoder of 30_encoding.md R140 to R151, and after it the encoder, written from the same tables.
-/

namespace Sys2Proof

/-! ## The opcode map (30_encoding.md R146, R147) -/

/-- The OP column of R146. -/
def Opcode.code : Opcode → Nat
  | .nop => 0x00
  | .process => 0x01
  | .resetPointers => 0x02
  | .clearBuffer => 0x03
  | .filterReset => 0x04
  | .setSampleRate => 0x05
  | .clearErr => 0x0F
  | .setResampleRate => 0x10
  | .setResampleLfo => 0x11
  | .setPlaybackRate => 0x12
  | .setPlaybackLfo => 0x13
  | .setBitcrushAmount => 0x14
  | .setBitcrushLfo => 0x15
  | .setBitcrushOutputMix => 0x16
  | .setDryMix => 0x17
  | .setWetMix => 0x18
  | .setBypass => 0x19
  | .limSetAttackUs => 0x20
  | .limSetReleaseMs => 0x21
  | .limSetAttackNorm => 0x22
  | .limSetReleaseNorm => 0x23
  | .limSetThreshold => 0x24
  | .limSetTrim => 0x25

/-- The format column of R146. -/
def Opcode.format : Opcode → Format
  | .nop | .resetPointers | .clearBuffer | .filterReset | .clearErr => .cn
  | .process => .cp
  | .setResampleLfo | .setPlaybackLfo | .setBitcrushLfo => .cab
  | .setBypass => .cf
  | .limSetThreshold => .caf
  | .setSampleRate | .setResampleRate | .setPlaybackRate | .setBitcrushAmount | .setBitcrushOutputMix
  | .setDryMix | .setWetMix | .limSetAttackUs | .limSetReleaseMs | .limSetAttackNorm | .limSetReleaseNorm
  | .limSetTrim => .ca

/-- The port column of R146 (R147): whether the opcode is accepted on the port. -/
def Opcode.acceptedOn : Opcode → Port → Bool
  | .nop, _ | .clearErr, _ => true
  | .process, p | .resetPointers, p | .clearBuffer, p | .filterReset, p | .setSampleRate, p => p == .audio
  | _, p => p == .control

/-- The mnemonic column of R146. -/
def Opcode.mnemonic : Opcode → String
  | .nop => "NOP"
  | .process => "PROCESS"
  | .resetPointers => "RESET_POINTERS"
  | .clearBuffer => "CLEAR_BUFFER"
  | .filterReset => "FILTER_RESET"
  | .setSampleRate => "SET_SAMPLE_RATE"
  | .clearErr => "CLEAR_ERR"
  | .setResampleRate => "SET_RESAMPLE_RATE"
  | .setResampleLfo => "SET_RESAMPLE_LFO"
  | .setPlaybackRate => "SET_PLAYBACK_RATE"
  | .setPlaybackLfo => "SET_PLAYBACK_LFO"
  | .setBitcrushAmount => "SET_BITCRUSH_AMOUNT"
  | .setBitcrushLfo => "SET_BITCRUSH_LFO"
  | .setBitcrushOutputMix => "SET_BITCRUSH_OUTPUT_MIX"
  | .setDryMix => "SET_DRY_MIX"
  | .setWetMix => "SET_WET_MIX"
  | .setBypass => "SET_BYPASS"
  | .limSetAttackUs => "LIM_SET_ATTACK_US"
  | .limSetReleaseMs => "LIM_SET_RELEASE_MS"
  | .limSetAttackNorm => "LIM_SET_ATTACK_NORM"
  | .limSetReleaseNorm => "LIM_SET_RELEASE_NORM"
  | .limSetThreshold => "LIM_SET_THRESHOLD"
  | .limSetTrim => "LIM_SET_TRIM"

/-- The rows of R146. -/
def allOpcodes : List Opcode :=
  [.nop, .process, .resetPointers, .clearBuffer, .filterReset, .setSampleRate, .clearErr,
   .setResampleRate, .setResampleLfo, .setPlaybackRate, .setPlaybackLfo,
   .setBitcrushAmount, .setBitcrushLfo, .setBitcrushOutputMix,
   .setDryMix, .setWetMix, .setBypass,
   .limSetAttackUs, .limSetReleaseMs, .limSetAttackNorm, .limSetReleaseNorm, .limSetThreshold, .limSetTrim]

/-- The opcode that a value of OP names, if R146 lists it; every other value is illegal (R149). -/
def opcodeOf (op : Nat) : Option Opcode :=
  allOpcodes.find? (fun o => o.code == op)

/-! ## Header fields (30_encoding.md R141) -/

/-- OP = W0[7:0]. -/
def opField (w0 : Word) : Nat := w0.toNat % 256

/-- F = W0[8]. -/
def flagField (w0 : Word) : Bool := w0.toNat / 256 % 2 == 1

/-- NIN = W0[23:16]. -/
def ninField (w0 : Word) : Nat := w0.toNat / 65536 % 256

/-- NOUT = W0[31:24]. -/
def noutField (w0 : Word) : Nat := w0.toNat / 16777216

/-- The fixed header bits of a format (R142, R150). -/
def headerOk : Format → Word → Bool
  | .cn, w0 | .ca, w0 | .cab, w0 => w0.toNat / 256 == 0
  | .cf, w0 | .caf, w0 => w0.toNat / 512 == 0
  | .cp, w0 => w0.toNat / 512 % 128 == 0

/-! ## Decoding (30_encoding.md R148) -/

/-- The decode errors (60_exceptions.md R441, codes 1 to 3). -/
inductive DecodeError where
  | illegalOpcode
  | wrongPort
  | reservedField
  deriving DecidableEq, Repr

/-- The code of a decode error (60_exceptions.md R441). -/
def decodeErrorCode : DecodeError → BitVec 4
  | .illegalOpcode => 1#4
  | .wrongPort => 2#4
  | .reservedField => 3#4

/-- What decoding a command answers. -/
inductive Decoded where
  | ok (i : Instr)
  | error (e : DecodeError)
  deriving DecidableEq, Repr

/-- The command of an opcode, with the operands its format reads (R142 to R145). The other words are ignored (R151). -/
def assemble (o : Opcode) (c : Command) : Instr :=
  match o with
  | .nop => .nop
  | .process => .process (flagField c.w0) (ninField c.w0) (noutField c.w0) c.w1.toNat
  | .resetPointers => .resetPointers
  | .clearBuffer => .clearBuffer
  | .filterReset => .filterReset
  | .setSampleRate => .setSampleRate c.w1
  | .clearErr => .clearErr
  | .setResampleRate => .setResampleRate c.w1
  | .setResampleLfo => .setResampleLfo c.w1 c.w2
  | .setPlaybackRate => .setPlaybackRate c.w1
  | .setPlaybackLfo => .setPlaybackLfo c.w1 c.w2
  | .setBitcrushAmount => .setBitcrushAmount c.w1
  | .setBitcrushLfo => .setBitcrushLfo c.w1 c.w2
  | .setBitcrushOutputMix => .setBitcrushOutputMix c.w1
  | .setDryMix => .setDryMix c.w1
  | .setWetMix => .setWetMix c.w1
  | .setBypass => .setBypass (flagField c.w0)
  | .limSetAttackUs => .limSetAttackUs c.w1
  | .limSetReleaseMs => .limSetReleaseMs c.w1
  | .limSetAttackNorm => .limSetAttackNorm c.w1
  | .limSetReleaseNorm => .limSetReleaseNorm c.w1
  | .limSetThreshold => .limSetThreshold (flagField c.w0) c.w1
  | .limSetTrim => .limSetTrim c.w1

/-- Steps 2 to 5 of R148 on a command taken from a port: illegal opcode, wrong port, reserved field, in that order
(60_exceptions.md R444). Step 1, the halted block, is the sequencer's. -/
def decode (p : Port) (c : Command) : Decoded :=
  match opcodeOf (opField c.w0) with
  | none => .error .illegalOpcode
  | some o =>
    if o.acceptedOn p then
      if headerOk o.format c.w0 then .ok (assemble o c) else .error .reservedField
    else .error .wrongPort

/-- A port that accepts the opcode of a header word: the control port where the audio port does not (R147). An illegal
opcode is refused on both. -/
def portFor (w0 : Word) : Port :=
  match opcodeOf (opField w0) with
  | some o => if o.acceptedOn .audio then .audio else .control
  | none => .audio

/-- The three words of a command whose bits are `w`, numbered from the least significant bit of W0; the bits from
`nbits` on are 0. -/
def commandOfBits (nbits w : Nat) : Command :=
  let v := w % 2 ^ nbits
  { w0 := BitVec.ofNat 32 v, w1 := BitVec.ofNat 32 (v / 4294967296), w2 := BitVec.ofNat 32 (v / 18446744073709551616) }

/-- What the decoder reads from a command's bits on the port that accepts its opcode. -/
def decodeTableWord (nbits w : Nat) : Option Instr :=
  let c := commandOfBits nbits w
  match decode (portFor c.w0) c with
  | .ok i => some i
  | .error _ => none

/-! ## Encoding (30_encoding.md R170, third column) -/

/-- The opcode of a command. -/
def Instr.opcode : Instr → Opcode
  | .nop => .nop
  | .process .. => .process
  | .resetPointers => .resetPointers
  | .clearBuffer => .clearBuffer
  | .filterReset => .filterReset
  | .setSampleRate _ => .setSampleRate
  | .clearErr => .clearErr
  | .setResampleRate _ => .setResampleRate
  | .setResampleLfo .. => .setResampleLfo
  | .setPlaybackRate _ => .setPlaybackRate
  | .setPlaybackLfo .. => .setPlaybackLfo
  | .setBitcrushAmount _ => .setBitcrushAmount
  | .setBitcrushLfo .. => .setBitcrushLfo
  | .setBitcrushOutputMix _ => .setBitcrushOutputMix
  | .setDryMix _ => .setDryMix
  | .setWetMix _ => .setWetMix
  | .setBypass _ => .setBypass
  | .limSetAttackUs _ => .limSetAttackUs
  | .limSetReleaseMs _ => .limSetReleaseMs
  | .limSetAttackNorm _ => .limSetAttackNorm
  | .limSetReleaseNorm _ => .limSetReleaseNorm
  | .limSetThreshold .. => .limSetThreshold
  | .limSetTrim _ => .limSetTrim

/-- A flag in W0[8] (R141). -/
def flagBits (f : Bool) : Nat := if f then 256 else 0

/-- The header word W0 of a command (R141, R170). -/
def Instr.header (i : Instr) : Word :=
  BitVec.ofNat 32 (i.opcode.code +
    match i with
    | .process sw nin nout _ => flagBits sw + nin * 65536 + nout * 16777216
    | .setBypass on => flagBits on
    | .limSetThreshold soft _ => flagBits soft
    | _ => 0)

/-- Operand word W1 of a command; 0 where its format ignores it (R170). -/
def Instr.operandA : Instr → Word
  | .process _ _ _ n => BitVec.ofNat 32 n
  | .setSampleRate a | .setResampleRate a | .setResampleLfo a _ | .setPlaybackRate a | .setPlaybackLfo a _
  | .setBitcrushAmount a | .setBitcrushLfo a _ | .setBitcrushOutputMix a | .setDryMix a | .setWetMix a
  | .limSetAttackUs a | .limSetReleaseMs a | .limSetAttackNorm a | .limSetReleaseNorm a | .limSetThreshold _ a
  | .limSetTrim a => a
  | .nop | .resetPointers | .clearBuffer | .filterReset | .clearErr | .setBypass _ => 0#32

/-- Operand word W2 of a command; 0 where its format ignores it (R170). -/
def Instr.operandB : Instr → Word
  | .setResampleLfo _ b | .setPlaybackLfo _ b | .setBitcrushLfo _ b => b
  | .nop | .process .. | .resetPointers | .clearBuffer | .filterReset | .setSampleRate _ | .clearErr
  | .setResampleRate _ | .setPlaybackRate _ | .setBitcrushAmount _ | .setBitcrushOutputMix _ | .setDryMix _
  | .setWetMix _ | .setBypass _ | .limSetAttackUs _ | .limSetReleaseMs _ | .limSetAttackNorm _
  | .limSetReleaseNorm _ | .limSetThreshold .. | .limSetTrim _ => 0#32

/-- The three words of a command (R170). -/
def encode (i : Instr) : Command :=
  { w0 := i.header, w1 := i.operandA, w2 := i.operandB }

/-! ## Byte order on a byte-wide transport (20_memory.md R106) -/

/-- The bytes of a word of `n` bytes, little-endian: byte k carries bits [8k+7:8k]. -/
def bytesLE (n : Nat) (v : Nat) : List (BitVec 8) :=
  (List.range n).map (fun k => BitVec.ofNat 8 (v / 256 ^ k))

/-- The word that little-endian bytes carry. -/
def ofBytesLE : List (BitVec 8) → Nat
  | [] => 0
  | b :: bs => b.toNat + 256 * ofBytesLE bs

/-- The twelve bytes of a command, its words in order (20_memory.md R106, 30_encoding.md R140). -/
def Command.bytes (c : Command) : List (BitVec 8) :=
  bytesLE 4 c.w0.toNat ++ bytesLE 4 c.w1.toNat ++ bytesLE 4 c.w2.toNat

/-- The command that twelve transport bytes carry. -/
def commandOfBytes (bs : List (BitVec 8)) : Command :=
  { w0 := BitVec.ofNat 32 (ofBytesLE (bs.take 4))
    w1 := BitVec.ofNat 32 (ofBytesLE ((bs.drop 4).take 4))
    w2 := BitVec.ofNat 32 (ofBytesLE ((bs.drop 8).take 4)) }

/-! ## Pseudo-instructions (30_encoding.md R171, R176) -/

/-- `transport_start` (R171). -/
def transportStart : List Instr := [.clearBuffer, .resetPointers]

/-- `transport_stop` (R171). -/
def transportStop : List Instr := [.clearBuffer, .filterReset]

/-- `limiter_init_norm A, R, TH, K` (R171). -/
def limiterInitNorm (att rel th : Word) (soft : Bool) : List Instr :=
  [.limSetAttackNorm att, .limSetReleaseNorm rel, .limSetThreshold soft th]

/-- `limiter_init_units US, MS, TH, K` (R171). -/
def limiterInitUnits (us ms th : Word) (soft : Bool) : List Instr :=
  [.limSetAttackUs us, .limSetReleaseMs ms, .limSetThreshold soft th]

/-- `limiter_init_default` (R171): attack 0.15, release 0.5, threshold 0.5, soft. -/
def limiterInitDefault : List Instr :=
  limiterInitNorm 0x3E19999A#32 0x3F000000#32 0x3F000000#32 true

/-- `restore_state` (R176): the eleven control scalars and the bypass flag, in the order of R176. -/
def restoreState (rs bd pb rlr rld blr bld plr pld wet dry : Word) (byp : Bool) : List Instr :=
  [.setResampleRate rs, .setBitcrushAmount bd, .setPlaybackRate pb, .setResampleLfo rlr rld,
   .setBitcrushLfo blr bld, .setPlaybackLfo plr pld, .setWetMix wet, .setDryMix dry, .setBypass byp]

end Sys2Proof
end

