-- ==== Sys2Proof/Machine/Float.lean ====
section
/-!
DEFINITION. IEEE 754 arithmetic in FMT (00_scope.md R8, R14 to R17), on bit patterns. Every finite value is a whole
number of units, the unit being the smallest subnormal of the format, so that each operation is an exact computation on
integers followed by ONE rounding, `Fmt.roundQ`, to nearest with ties to even.
-/

namespace Sys2Proof.Machine

/-! ## The two formats -/

/-- Width of a pattern in bits. -/
def fmtWidth : Fmt → Nat
  | .binary32 => 32
  | .binary64 => 64

/-- Number of fraction bits. -/
def fracBits : Fmt → Nat
  | .binary32 => 23
  | .binary64 => 52

/-- The smallest subnormal, the unit of every finite value, is 2 to minus this. -/
def unitExp : Fmt → Nat
  | .binary32 => 149
  | .binary64 => 1074

/-- The pattern of +∞, without the sign bit. -/
def infMag : Fmt → Nat
  | .binary32 => 0x7F800000
  | .binary64 => 0x7FF0000000000000

/-- The weight of the sign bit. -/
def signWeight (f : Fmt) : Nat := 2 ^ (fmtWidth f - 1)

/-- The sign bit of a pattern. -/
def signOf (f : Fmt) (v : F) : Bool := v.toNat / signWeight f % 2 == 1

/-- The pattern without its sign bit. -/
def magOf (f : Fmt) (v : F) : Nat := v.toNat % signWeight f

/-- A sign and a magnitude pattern put together. -/
def packMag (f : Fmt) (neg : Bool) (mag : Nat) : F :=
  BitVec.ofNat 64 (mag % signWeight f + if neg then signWeight f else 0)

/-- What a pattern stands for: NaN, an infinity, or a sign and a number of units. -/
inductive Num where
  | nan
  | inf (neg : Bool)
  | fin (neg : Bool) (units : Nat)
  deriving DecidableEq, Repr

/-- The number of units of a finite magnitude pattern. -/
def unitsOf (f : Fmt) (mag : Nat) : Nat :=
  let e := mag / 2 ^ fracBits f
  if e = 0 then mag else (2 ^ fracBits f + mag % 2 ^ fracBits f) * 2 ^ (e - 1)

/-- What a pattern stands for (IEEE 754 interchange format, 20_memory.md R106). -/
def numOf (f : Fmt) (v : F) : Num :=
  let m := magOf f v
  if m < infMag f then .fin (signOf f v) (unitsOf f m)
  else if m = infMag f then .inf (signOf f v)
  else .nan

/-- The pattern is a NaN. -/
def isNaN (f : Fmt) (v : F) : Bool := infMag f < magOf f v

/-- The pattern is finite. -/
def isFinite (f : Fmt) (v : F) : Bool := magOf f v < infMag f

/-- How far a quotient's lowest kept bit lies above the unit: 0 in the subnormal range and the first normal binade. -/
def roundShift (f : Fmt) (q : Nat) : Nat :=
  if q < 2 ^ (fracBits f + 1) then 0 else Nat.log2 q - fracBits f

/-- `num / den` rounded to a whole number, to nearest, ties to even. -/
def roundHalfEven (num den : Nat) : Nat :=
  let q := num / den
  let r := num % den
  if 2 * r < den then q
  else if den < 2 * r then q + 1
  else if q % 2 = 0 then q else q + 1

/-- The magnitude pattern of `num / den` units rounded to the format, to nearest, ties to even, overflow to infinity
(00_scope.md R14): the ONE rounding of the model. -/
def roundQ (f : Fmt) (num den : Nat) : Nat :=
  let d := roundShift f (num / den)
  min (d * 2 ^ fracBits f + roundHalfEven num (den * 2 ^ d)) (infMag f)

/-- The quiet NaN with the sign and payload of a free pattern (00_scope.md R14). -/
def quietNaN (f : Fmt) (bits : F) : F :=
  let quiet := infMag f + 2 ^ (fracBits f - 1)
  BitVec.ofNat 64 (quiet + bits.toNat % 2 ^ (fracBits f - 1)
    + if bits.toNat / 2 ^ 63 = 1 then signWeight f else 0)

/-! ## The arithmetic unit

The transcendental functions and the free NaN patterns are arguments of every operation (00_scope.md R17: "A model may
take other functions as a parameter"). The machine's own unit is `configFpu`. -/

/-- A format, the four configuration functions, and the NaN patterns. -/
structure Fpu where
  fmt : Fmt
  sinF : F → F
  tanF : F → F
  exp2F : F → F
  pow10F : F → F
  nanBits : FpOp → F → F → F

/-- The arithmetic unit of a build in atomic step `k`: the opaque functions of Config (logs 3 and 4). -/
def configFpu (f : Fmt) (k : Nat) : Fpu where
  fmt := f
  sinF := Config.sinF f
  tanF := Config.tanF f
  exp2F := Config.exp2F f
  pow10F := Config.pow10F f
  nanBits := Config.nanBits k

/-- The low bits of a value that make a pattern of the format. -/
def fmtMask (f : Fmt) (v : F) : F := BitVec.ofNat 64 (v.toNat % 2 ^ fmtWidth f)

namespace Fpu

/-- The NaN an operation answers with: any quiet NaN (00_scope.md R14). -/
def nan (u : Fpu) (op : FpOp) (a b : F) : F := quietNaN u.fmt (u.nanBits op a b)

/-- An infinity. -/
def inf (u : Fpu) (neg : Bool) : F := packMag u.fmt neg (infMag u.fmt)

/-- `num / den` units with a sign, rounded. -/
def rounded (u : Fpu) (neg : Bool) (num den : Nat) : F := packMag u.fmt neg (roundQ u.fmt num den)

/-- A whole number, rounded to FMT (exact in every rule, 00_scope.md R15, R18). -/
def ofNat (u : Fpu) (n : Nat) : F := u.rounded false (n * 2 ^ unitExp u.fmt) 1

/-- A decimal constant rounded to FMT (00_scope.md R8). -/
def ofDec (u : Fpu) (q : Dec) : F := u.rounded false (q.num * 2 ^ unitExp u.fmt) q.den

/-- Unary minus: the sign bit flipped. DEDUCED (log 14). -/
def neg (u : Fpu) (a : F) : F := packMag u.fmt (!signOf u.fmt a) (magOf u.fmt a)

/-- The sum of two finite values, exact then rounded; an exact zero of opposite signs is +0. -/
def addFin (u : Fpu) (s : Bool) (m : Nat) (t : Bool) (n : Nat) : F :=
  if s = t then u.rounded s (m + n) 1
  else if n < m then u.rounded s (m - n) 1
  else if m < n then u.rounded t (n - m) 1
  else packMag u.fmt false 0

/-- The sum of two values (00_scope.md R14), `nanValue` being the answer where the sum is a NaN. -/
def addNum (u : Fpu) (nanValue : F) : Num → Num → F
  | .nan, _ => nanValue
  | _, .nan => nanValue
  | .inf s, .inf t => if s = t then u.inf s else nanValue
  | .inf s, .fin _ _ => u.inf s
  | .fin _ _, .inf t => u.inf t
  | .fin s m, .fin t n => u.addFin s m t n

/-- `a + b` (00_scope.md R14). -/
def add (u : Fpu) (a b : F) : F := u.addNum (u.nan .add a b) (numOf u.fmt a) (numOf u.fmt b)

/-- `a - b` (00_scope.md R14). -/
def sub (u : Fpu) (a b : F) : F := u.addNum (u.nan .sub a b) (numOf u.fmt a) (numOf u.fmt (u.neg b))

/-- `a × b` (00_scope.md R14). -/
def mul (u : Fpu) (a b : F) : F :=
  match numOf u.fmt a, numOf u.fmt b with
  | .nan, _ => u.nan .mul a b
  | _, .nan => u.nan .mul a b
  | .inf s, .inf t => u.inf (s != t)
  | .inf s, .fin t n => if n = 0 then u.nan .mul a b else u.inf (s != t)
  | .fin s m, .inf t => if m = 0 then u.nan .mul a b else u.inf (s != t)
  | .fin s m, .fin t n => u.rounded (s != t) (m * n) (2 ^ unitExp u.fmt)

/-- `a / b` (00_scope.md R14). -/
def div (u : Fpu) (a b : F) : F :=
  match numOf u.fmt a, numOf u.fmt b with
  | .nan, _ => u.nan .div a b
  | _, .nan => u.nan .div a b
  | .inf _, .inf _ => u.nan .div a b
  | .inf s, .fin t _ => u.inf (s != t)
  | .fin s _, .inf t => packMag u.fmt (s != t) 0
  | .fin s m, .fin t n =>
    if n = 0 then (if m = 0 then u.nan .div a b else u.inf (s != t))
    else u.rounded (s != t) (m * 2 ^ unitExp u.fmt) n

/-! ### Comparisons (00_scope.md R15) -/

/-- A finite value in units, as an integer. -/
def signedUnits (neg : Bool) (units : Nat) : Int := if neg then -(units : Int) else units

/-- `a < b`; false with a NaN. -/
def lt (u : Fpu) (a b : F) : Bool :=
  match numOf u.fmt a, numOf u.fmt b with
  | .nan, _ => false
  | _, .nan => false
  | .inf s, .inf t => s && !t
  | .inf s, .fin _ _ => s
  | .fin _ _, .inf t => !t
  | .fin s m, .fin t n => decide (signedUnits s m < signedUnits t n)

/-- `a == b`; false with a NaN, and +0 == -0. -/
def eq (u : Fpu) (a b : F) : Bool :=
  match numOf u.fmt a, numOf u.fmt b with
  | .nan, _ => false
  | _, .nan => false
  | .inf s, .inf t => s == t
  | .inf _, .fin _ _ => false
  | .fin _ _, .inf _ => false
  | .fin s m, .fin t n => decide (signedUnits s m = signedUnits t n)

/-- `a ≠ b`; true with a NaN. -/
def ne (u : Fpu) (a b : F) : Bool := !u.eq a b

/-- `a ≤ b`; false with a NaN. -/
def le (u : Fpu) (a b : F) : Bool := u.lt a b || u.eq a b

/-- `a > b`; false with a NaN. -/
def gt (u : Fpu) (a b : F) : Bool := u.lt b a

/-- `a ≥ b`; false with a NaN. -/
def ge (u : Fpu) (a b : F) : Bool := u.le b a

/-- `fmaxS(a, b)` is `(a < b) ? b : a` (00_scope.md R15). -/
def fmaxS (u : Fpu) (a b : F) : F := if u.lt a b then b else a

/-- `fminS(a, b)` is `(b < a) ? b : a` (00_scope.md R15). -/
def fminS (u : Fpu) (a b : F) : F := if u.lt b a then b else a

/-- `clampS(v, lo, hi)` (00_scope.md R15). -/
def clampS (u : Fpu) (v lo hi : F) : F := u.fminS (u.fmaxS v lo) hi

/-- `absS(v)` clears the sign bit (00_scope.md R15). -/
def absS (u : Fpu) (v : F) : F := packMag u.fmt false (magOf u.fmt v)

/-- The floor of a finite value, in whole numbers: of the magnitude for a positive value, the ceiling of the magnitude
for a negative one. -/
def floorUnits (u : Fpu) (neg : Bool) (units : Nat) : Nat :=
  let one := 2 ^ unitExp u.fmt
  if neg then (units + one - 1) / one else units / one

/-- `floorS(v)`: roundToIntegralTowardNegative, exact; a zero keeps its sign (00_scope.md R15). -/
def floorS (u : Fpu) (v : F) : F :=
  match numOf u.fmt v with
  | .nan => u.nan .floor v v
  | .inf s => u.inf s
  | .fin s m => u.rounded s (u.floorUnits s m * 2 ^ unitExp u.fmt) 1

/-- `toUInt(v)` for v ≥ 0 (00_scope.md R16): the floor as an unsigned integer. Its uses guard v against NaN and ∞. -/
def toUInt (u : Fpu) (v : F) : Nat :=
  match numOf u.fmt v with
  | .fin false m => m / 2 ^ unitExp u.fmt
  | _ => 0

/-! ### Constants (00_scope.md R8) and the configuration functions (R17) -/

/-- +0. -/
def zero (_ : Fpu) : F := 0#64

/-- 1. -/
def one (u : Fpu) : F := u.ofNat 1

/-- 2. -/
def two (u : Fpu) : F := u.ofNat 2

/-- 0.5. -/
def half (u : Fpu) : F := u.ofDec ⟨1, 2⟩

/-- PI = FMT(π). -/
def pi (u : Fpu) : F := u.ofDec Config.pi

/-- TWO_PI = FMT(2π). -/
def twoPi (u : Fpu) : F := u.ofDec Config.twoPi

/-- SQRT2 = FMT(√2). -/
def sqrt2 (u : Fpu) : F := u.ofDec Config.sqrt2

/-- INV4K = FMT(1 / (4·KNEE_K)). -/
def inv4k (u : Fpu) : F := u.ofDec ⟨Config.kneeK.den, 4 * Config.kneeK.num⟩

/-- `sinF(x)`, an FMT value. -/
def sin (u : Fpu) (x : F) : F := fmtMask u.fmt (u.sinF x)

/-- `tanF(x)`, an FMT value. -/
def tan (u : Fpu) (x : F) : F := fmtMask u.fmt (u.tanF x)

/-- `exp2F(x)`, an FMT value. -/
def exp2 (u : Fpu) (x : F) : F := fmtMask u.fmt (u.exp2F x)

/-- `pow10F(x)`, an FMT value. -/
def pow10 (u : Fpu) (x : F) : F := fmtMask u.fmt (u.pow10F x)

end Fpu

end Sys2Proof.Machine
end

