-- ==== Sys2Proof/Machine/Crusher.lean ====
section
/-!
DEFINITION. The bit crusher's quantizer (43_bitcrusher.md R262 to R264).
-/

namespace Sys2Proof.Machine

/-- `MAKEUP[b]` of a build (43_bitcrusher.md R263); 1.0 where the build's table has no entry. -/
def makeupGain (u : Fpu) (makeup : List F) (b : Nat) : F :=
  makeup.getD (b - 1) u.one

/-- The quantizer at bit depth b: round half up to a multiple of 2^-(b-1), clipped to [-1, 1]
(43_bitcrusher.md R262). -/
def quantize (u : Fpu) (b : Nat) (x : F) : F :=
  let l := u.ofNat (2 ^ (b - 1))
  let q := u.div (u.floorS (u.add (u.mul x l) u.half)) l
  u.clampS q (u.neg u.one) u.one

/-- `crush(x)` (43_bitcrusher.md R262). -/
def crush (u : Fpu) (makeup : List F) (bits : BitVec 8) (outMix x : F) : F :=
  if 16 ≤ bits.toNat then x
  else u.mul (u.mul (quantize u bits.toNat x) (makeupGain u makeup bits.toNat)) outMix

end Sys2Proof.Machine
end

