-- ==== Sys2Proof/Machine/Regs.lean ====
section
/-!
DEFINITION. The register groups of 10_state.md R42, as plain data. A field's docstring gives the register's name.
-/

namespace Sys2Proof.Machine

/-- The fields of STATUS (10_state.md R44). Every other bit reads 0, so none is held. -/
structure Status where
  /-- ERR [0] -/
  err : Bool
  /-- FATAL [1] -/
  fatal : Bool
  /-- DS_ACTIVE [2] -/
  dsActive : Bool
  /-- RATE_ACTIVE [3] -/
  rateActive : Bool
  /-- BUSY [4] -/
  busy : Bool
  /-- ERR_CODE [11:8] -/
  errCode : BitVec 4
  deriving DecidableEq, Repr

/-- Downsample registers (10_state.md R49). -/
structure DsRegs where
  /-- DS_CTRL -/
  ctrl : F
  /-- DS_TARGET -/
  target : F
  /-- DS_ACTUAL -/
  actual : F
  /-- SAMPLE_INCR -/
  incr : Word
  /-- LPF_RHO -/
  rho : F
  deriving DecidableEq, Repr

/-- Playback registers (10_state.md R52). -/
structure PbRegs where
  /-- PB_CTRL -/
  ctrl : F
  /-- PB_TARGET -/
  target : F
  /-- PB_ACTUAL -/
  actual : F
  /-- PB_STEP, 32 fractional bits -/
  step : BitVec 64
  deriving DecidableEq, Repr

/-- Bit-crusher registers (10_state.md R54). -/
structure BcRegs where
  /-- BC_AMOUNT -/
  amount : F
  /-- BC_ACTUAL -/
  actual : F
  /-- BC_BITS -/
  bits : BitVec 8
  /-- BC_OUTPUT_MIX -/
  outMix : F
  deriving DecidableEq, Repr

/-- Mixer registers (10_state.md R55). -/
structure MixRegs where
  /-- DRY -/
  dry : F
  /-- WET -/
  wet : F
  /-- BYPASS -/
  bypass : Bool
  deriving DecidableEq, Repr

/-- Limiter registers (10_state.md R56). -/
structure LimRegs where
  /-- LIM_ATT_MODE: given in µs -/
  attMode : Bool
  /-- LIM_REL_MODE: given in ms -/
  relMode : Bool
  /-- LIM_ATT_PARAM -/
  attParam : F
  /-- LIM_REL_PARAM -/
  relParam : F
  /-- LIM_ATT -/
  att : F
  /-- LIM_REL -/
  rel : F
  /-- LIM_THR_PARAM -/
  thrParam : F
  /-- LIM_SOFT -/
  soft : Bool
  /-- LIM_T -/
  t : F
  /-- LIM_INV_T -/
  invT : F
  /-- LIM_TRIM -/
  trim : F
  /-- LIM_ENV -/
  env : F
  /-- LIM_GAIN -/
  gain : F
  deriving DecidableEq, Repr

/-- Pointers and hold counter (10_state.md R58 to R60). -/
structure PtrRegs where
  /-- WP -/
  wp : Word
  /-- RP, 32 fractional bits -/
  rp : BitVec 64
  /-- HOLD_CNT -/
  hold : Word
  deriving DecidableEq, Repr

/-- The three oscillators (41_oscillator.md R200). -/
inductive LfoId where
  | ds
  | pb
  | bc
  deriving DecidableEq, Repr

/-- The registers of one oscillator (10_state.md R53). -/
structure Lfo where
  /-- LFO_EN -/
  en : Bool
  /-- LFO_RATE_PCT -/
  ratePct : F
  /-- LFO_DEPTH -/
  depth : F
  /-- LFO_INC -/
  inc : F
  /-- LFO_PHASE -/
  phase : F
  /-- LFO_LO -/
  lo : F
  /-- LFO_HI -/
  hi : F
  deriving DecidableEq, Repr

/-- The registers of one channel (10_state.md R57). -/
structure Chan where
  /-- LPF_B0 -/
  b0 : F
  /-- LPF_B1 -/
  b1 : F
  /-- LPF_B2 -/
  b2 : F
  /-- LPF_A0 -/
  a0 : F
  /-- LPF_A1 -/
  a1 : F
  /-- LPF_A2 -/
  a2 : F
  /-- LPF_X1 -/
  x1 : F
  /-- LPF_X2 -/
  x2 : F
  /-- LPF_Y1 -/
  y1 : F
  /-- LPF_Y2 -/
  y2 : F
  /-- HELD -/
  held : F
  /-- LAST_OUT -/
  lastOut : F
  deriving DecidableEq, Repr, Inhabited

/-- A word of IN_MEM by its halves; `none` is a half the host has not written since reset (20_memory.md R107, R118). -/
structure InWord where
  lo : Option Word
  hi : Option Word
  deriving DecidableEq, Repr

/-- A space of elements: (index, element) pairs with indices strictly rising, and no pair whose element is what an
unlisted index holds. -/
abbrev Memory (α : Type) := List (Nat × α)

/-- An IN_MEM word that the host has overwritten after a PROCESS that may read it was issued (70_reset_and_hazards.md
R488). -/
structure OldIn where
  /-- the index of the word -/
  index : Nat
  /-- what it held -/
  word : InWord
  /-- how many of the commands that wait in the audio port were issued before the write -/
  left : Nat
  deriving DecidableEq, Repr

/-- The PROCESS in progress, between its prologue and its epilogue (10_state.md R41; 46_engine_process.md R380, R381). -/
structure Proc where
  /-- SW: the I/O sample width, true for binary64 -/
  sw : Bool
  /-- NIN -/
  nin : Nat
  /-- NOUT -/
  nout : Nat
  /-- n -/
  n : Nat
  /-- the index of the next frame -/
  i : Nat
  /-- OUT_MEM words this PROCESS has overwritten, with what they held (70_reset_and_hazards.md R482) -/
  outOld : List (Nat × Option IoWord)
  deriving DecidableEq, Repr

/-- What the host and the platform can do to the block between two atomic steps (20_memory.md R104, R107;
70_reset_and_hazards.md R480). -/
inductive HostEvent where
  /-- a word delivered on a port -/
  | push (p : Port) (w : Word)
  /-- a whole IN_MEM word written -/
  | writeIn (index : Nat) (w : IoWord)
  /-- a half of an IN_MEM word written: bits [63:32] where `high`, else bits [31:0] -/
  | writeInHalf (index : Nat) (high : Bool) (w : Word)
  /-- reset asserted -/
  | reset
  deriving DecidableEq, Repr

end Sys2Proof.Machine
end

