-- ==== Sys2Proof/Machine/Memory.lean ====
section
/-!
DEFINITION. The operations on a space of elements in canonical form (20_memory.md R100). `d` is what an index that is not
listed holds: +0 for REC, unspecified for IN_MEM and OUT_MEM (70_reset_and_hazards.md R482).
-/

namespace Sys2Proof.Machine

variable {α : Type}

/-- The element at an index. -/
def Memory.read (d : α) : Memory α → Nat → α
  | [], _ => d
  | (k, v) :: m, i => if i = k then v else Memory.read d m i

/-- The space without an index. -/
def Memory.erase : Memory α → Nat → Memory α
  | [], _ => []
  | (k, v) :: m, i => if i = k then Memory.erase m i else (k, v) :: Memory.erase m i

/-- The space with an element put at an index, in order. -/
def Memory.insert : Memory α → Nat → α → Memory α
  | [], i, v => [(i, v)]
  | (k, w) :: m, i, v =>
    if i < k then (i, v) :: (k, w) :: m
    else if i = k then (i, v) :: m
    else (k, w) :: Memory.insert m i v

/-- The space after a write: writing what an unlisted index holds removes the entry. -/
def Memory.write [DecidableEq α] (d : α) (m : Memory α) (i : Nat) (v : α) : Memory α :=
  if v = d then Memory.erase m i else Memory.insert m i v

/-- Every index of the space lies above `lo`, and the indices rise strictly. -/
def Memory.rising : Option Nat → Memory α → Bool
  | _, [] => true
  | none, (k, _) :: m => Memory.rising (some k) m
  | some lo, (k, _) :: m => decide (lo < k) && Memory.rising (some k) m

/-- The canonical form: indices strictly rising, and no entry equal to what an unlisted index holds. -/
def Memory.wf [DecidableEq α] (d : α) (m : Memory α) : Bool :=
  Memory.rising none m && m.all (fun e => decide (e.2 ≠ d))

/-- Every listed index lies below `n`. -/
def Memory.within (n : Nat) (m : Memory α) : Bool :=
  m.all (fun e => decide (e.1 < n))

end Sys2Proof.Machine
end

