-- ==== Sys2Proof/Machine/Filter.lean ====
section
/-!
DEFINITION. The low-pass filter datapath (42_lowpass_filter.md): coefficients, difference equation, denormal flush.
-/

namespace Sys2Proof.Machine

/-- What `lpfCoeffs()` computes (42_lowpass_filter.md R231). -/
structure Coeffs where
  b0 : F
  b1 : F
  b2 : F
  a1 : F
  a2 : F
  rho : F
  deriving DecidableEq, Repr

/-- The proportional rate of a downsample amount, clamped to [RHO_MIN, RHO_MAX]; a NaN gives RHO_MIN
(42_lowpass_filter.md R231). -/
def lpfRho (u : Fpu) (dsActual : F) : F :=
  let ratio := u.div u.one dsActual
  let rho := u.mul ratio u.half
  let rho := if !u.ge rho (u.ofDec Config.rhoMin) then u.ofDec Config.rhoMin else rho
  if u.gt rho (u.ofDec Config.rhoMax) then u.ofDec Config.rhoMax else rho

/-- The coefficients of a downsample amount (42_lowpass_filter.md R231). -/
def lpfDesign (u : Fpu) (dsActual : F) : Coeffs :=
  let rho := lpfRho u dsActual
  let t := u.tan (u.mul u.pi rho)
  let c := u.div u.one t
  let c2 := u.mul c c
  let cs := u.mul u.sqrt2 c
  let d := u.add (u.add c2 cs) u.one
  let b0 := u.div u.one d
  { b0 := b0
    b1 := u.add b0 b0
    b2 := b0
    a1 := u.div (u.mul u.two (u.sub u.one c2)) d
    a2 := u.div (u.add (u.sub c2 cs) u.one) d
    rho := rho }

/-- A channel with new coefficients, its history kept (42_lowpass_filter.md R231, R232). -/
def setCoeffs (u : Fpu) (k : Coeffs) (ch : Chan) : Chan :=
  { ch with b0 := k.b0, b1 := k.b1, b2 := k.b2, a0 := u.one, a1 := k.a1, a2 := k.a2 }

/-- The denormal flush (42_lowpass_filter.md R234). -/
def flush (u : Fpu) (y : F) : F :=
  u.sub (u.add y (u.ofDec Config.denormEps)) (u.ofDec Config.denormEps)

/-- The output of the filter for one sample (42_lowpass_filter.md R233, R234). -/
def lpfOut (u : Fpu) (ch : Chan) (x : F) : F :=
  flush u
    (u.sub
      (u.sub
        (u.add (u.add (u.mul ch.b0 x) (u.mul ch.b1 ch.x1)) (u.mul ch.b2 ch.x2))
        (u.mul ch.a1 ch.y1))
      (u.mul ch.a2 ch.y2))

/-- The channel after the filter has taken one sample (42_lowpass_filter.md R233). -/
def lpfShift (u : Fpu) (ch : Chan) (x : F) : Chan :=
  { ch with x2 := ch.x1, x1 := x, y2 := ch.y1, y1 := lpfOut u ch x }

/-- The channel with its filter history at zero (42_lowpass_filter.md R236). -/
def clearHistory (ch : Chan) : Chan :=
  { ch with x1 := 0#64, x2 := 0#64, y1 := 0#64, y2 := 0#64 }

end Sys2Proof.Machine
end

