-- ==== Sys2Proof/Machine/LimiterPath.lean ====
section
/-!
DEFINITION. The limiter datapath (44_limiter.md R301 to R309): time constants, threshold, detector, knees, read-out.
-/

namespace Sys2Proof.Machine

/-- The mapping that R301 and R302 share: the time bounded by `bound`, and 1 - exp2F(-(scale / (tc × fs))). -/
def timeCoeff (u : Fpu) (bound scale : Nat) (t fs : F) : F :=
  let tc := u.fminS t (u.ofNat bound)
  if !u.gt tc u.zero then u.one
  else u.sub u.one (u.exp2 (u.neg (u.div (u.ofNat scale) (u.mul tc fs))))

/-- `attUs(t, fs)` (44_limiter.md R301). -/
def attUs (u : Fpu) (t fs : F) : F := timeCoeff u Config.attUsMax 1000000 t fs

/-- `relMs(t, fs)` (44_limiter.md R302). -/
def relMs (u : Fpu) (t fs : F) : F := timeCoeff u Config.relMsMax 1000 t fs

/-- `attNorm(p)` (44_limiter.md R303). -/
def attNorm (u : Fpu) (p : F) : F := u.pow10 (u.mul (u.neg u.two) p)

/-- `relNorm(p)` (44_limiter.md R303). -/
def relNorm (u : Fpu) (p : F) : F := u.pow10 (u.sub (u.neg u.two) (u.mul (u.ofNat 3) p))

/-- The linear threshold of a normalized threshold (44_limiter.md R304). -/
def threshold (u : Fpu) (p : F) : F := u.pow10 (u.sub (u.mul u.two p) u.one)

/-- `thrSet(p, soft)` (44_limiter.md R304). -/
def thrSet (u : Fpu) (l : LimRegs) (p : F) (soft : Bool) : LimRegs :=
  { l with thrParam := p, soft := soft, t := threshold u p, invT := u.div u.one (threshold u p) }

/-- The linked detector: the largest magnitude of the frame's samples; a NaN never wins (44_limiter.md R305). -/
def peak (u : Fpu) (sig : List F) : F :=
  sig.foldl (fun m x => if u.gt (u.absS x) m then u.absS x else m) u.zero

/-- The envelope after a frame whose detector reads `m` (44_limiter.md R305). -/
def envelope (u : Fpu) (l : LimRegs) (m : F) : F :=
  if u.gt m l.env then u.add l.env (u.mul l.att (u.sub m l.env))
  else u.add l.env (u.mul l.rel (u.sub m l.env))

/-- `gainHard(q)` (44_limiter.md R306). -/
def gainHard (u : Fpu) (q : F) : F := if u.gt q u.one then q else u.one

/-- `gainSoft(q)` (44_limiter.md R307). -/
def gainSoft (u : Fpu) (q : F) : F :=
  if !u.gt q u.one then u.one
  else if u.lt q (u.add u.one (u.mul u.two (u.ofDec Config.kneeK))) then
    let d := u.sub q u.one
    let o := u.sub q (u.mul (u.mul d d) u.inv4k)
    u.div q o
  else u.div q (u.add u.one (u.ofDec Config.kneeK))

/-- The reduction divisor G of an envelope (44_limiter.md R306, R307). -/
def gainOf (u : Fpu) (l : LimRegs) (env : F) : F :=
  let q := u.mul env l.invT
  if l.soft then gainSoft u q else gainHard u q

/-- The limiter registers after a frame's samples: LIM_ENV, then LIM_GAIN from it (44_limiter.md R305 to R307). -/
def detect (u : Fpu) (l : LimRegs) (sig : List F) : LimRegs :=
  let env := envelope u l (peak u sig)
  { l with env := env, gain := gainOf u l env }

/-- The limiter output of one sample (44_limiter.md R308). -/
def limit (u : Fpu) (l : LimRegs) (x : F) : F :=
  u.clampS (u.div (u.mul x l.trim) l.gain) (u.neg u.one) u.one

/-- `linearGR(G)` (44_limiter.md R309). -/
def linearGR (u : Fpu) (g : F) : F := if u.le g u.one then u.one else u.div u.one g

end Sys2Proof.Machine
end

