-- ==== Sys2Proof/Machine/Oscillator.lean ====
section
/-!
DEFINITION. The oscillator datapath (41_oscillator.md): rate, waveform, phase, band.
-/

namespace Sys2Proof.Machine

/-- The phase increment of a rate percentage at a sample rate (41_oscillator.md R202). -/
def lfoInc (u : Fpu) (ratePct fs : F) : F :=
  let hz := u.add (u.ofDec Config.lfoMinHz)
    (u.mul ratePct (u.sub (u.ofNat Config.lfoMaxHz) (u.ofDec Config.lfoMinHz)))
  u.div (u.mul u.twoPi hz) fs

/-- The phase after one increment, wrapped once (41_oscillator.md R204). -/
def phaseAdvance (u : Fpu) (phase inc : F) : F :=
  let p := u.add phase inc
  if u.ge p u.twoPi then u.sub p u.twoPi else p

/-- The value of an oscillator at its phase, mapped into its band (41_oscillator.md R203, R205, R207). -/
def lfoValue (u : Fpu) (l : Lfo) : F :=
  let w := u.sin l.phase
  let x := u.mul (u.add w u.one) u.half
  u.add l.lo (u.mul (u.sub l.hi l.lo) x)

/-- An oscillator after one step (41_oscillator.md R204, R205). -/
def lfoAdvance (u : Fpu) (l : Lfo) : Lfo :=
  { l with phase := phaseAdvance u l.phase l.inc }

/-- Half the full range of the downsample amount: (DSMAX - 1) × 0.5 (41_oscillator.md R206). -/
def dsHalfRange (u : Fpu) (dsmax : F) : F := u.mul (u.sub dsmax u.one) u.half

/-- Half the full range of the playback rate: (1 - PMIN) × 0.5 (41_oscillator.md R206). -/
def pbHalfRange (u : Fpu) : F := u.mul (u.sub u.one (u.ofDec Config.pMin)) u.half

/-- An oscillator with the band of a target, clipped to the parameter's range (41_oscillator.md R206). -/
def withBand (u : Fpu) (l : Lfo) (target halfRange lower upper : F) : Lfo :=
  let half := u.mul l.depth halfRange
  { l with
    lo := u.fmaxS (u.sub target half) lower
    hi := u.fminS (u.add target half) upper }

/-- The registers that `lfoSet` writes before the band (41_oscillator.md R208): enabled exactly when A > 0. -/
def lfoWrite (u : Fpu) (l : Lfo) (a b fs : F) : Lfo :=
  { l with en := u.gt a u.zero, ratePct := a, depth := b, inc := lfoInc u a fs }

/-- Whether `lfoSet` recomputes the band (41_oscillator.md R208): the enable or the depth changed. -/
def lfoChanged (u : Fpu) (l : Lfo) (a b : F) : Bool :=
  (u.gt a u.zero != l.en) || u.ne b l.depth

end Sys2Proof.Machine
end

