-- ==== Sys2Proof/Machine/ResetValues.lean ====
section
/-!
DEFINITION. The reset value of every register group (70_reset_and_hazards.md R481).
-/

namespace Sys2Proof.Machine

/-- STATUS at reset: every field 0. -/
def resetStatus : Status :=
  { err := false, fatal := false, dsActive := false, rateActive := false, busy := false, errCode := 0#4 }

/-- DSMAX at reset: FS_INIT / FLOOR_HZ. -/
def resetDsmax (u : Fpu) (b : Build) : F := u.div b.fsInit (u.ofNat Config.floorHz)

/-- The downsample registers at reset; LPF_RHO by lpfCoeffs at DS_ACTUAL = 1. -/
def resetDs (u : Fpu) : DsRegs :=
  { ctrl := u.one, target := u.one, actual := u.one, incr := 1#32, rho := (lpfDesign u u.one).rho }

/-- The playback registers at reset. -/
def resetPb (u : Fpu) : PbRegs :=
  { ctrl := u.one, target := u.one, actual := u.one, step := BitVec.ofNat 64 (2 ^ 32) }

/-- The bit-crusher registers at reset. -/
def resetBc (u : Fpu) : BcRegs :=
  { amount := u.one, actual := u.one, bits := 16#8, outMix := u.one }

/-- The mixer registers at reset. -/
def resetMix (u : Fpu) : MixRegs := { dry := 0#64, wet := u.one, bypass := false }

/-- The limiter registers at reset: attack 0.15, release 0.5, threshold 0.5 soft, trim 1. The 0.15 is rounded to FMT: DESIGN
CHOICE (log 26) where FMT is binary64, since `limiter_init_default` (R485) would convert its binary32 operand instead. -/
def resetLim (u : Fpu) : LimRegs :=
  { attMode := false
    relMode := false
    attParam := u.ofDec ⟨15, 100⟩
    relParam := u.half
    att := attNorm u (u.ofDec ⟨15, 100⟩)
    rel := relNorm u u.half
    thrParam := u.half
    soft := true
    t := threshold u u.half
    invT := u.div u.one (threshold u u.half)
    trim := u.one
    env := 0#64
    gain := u.one }

/-- The pointers at reset. -/
def resetPtr : PtrRegs := { wp := 0#32, rp := 0#64, hold := 0#32 }

/-- An oscillator at reset before its band: disabled, rate 0, depth 0, phase 0, INC recomputed at FS_INIT. -/
def resetLfo (u : Fpu) (b : Build) : Lfo :=
  { en := false, ratePct := 0#64, depth := 0#64, inc := lfoInc u 0#64 b.fsInit, phase := 0#64, lo := 0#64, hi := 0#64 }

/-- The DS oscillator at reset, with its band at DS_TARGET = 1. -/
def resetDsLfo (u : Fpu) (b : Build) : Lfo :=
  withBand u (resetLfo u b) u.one (dsHalfRange u (resetDsmax u b)) u.one (resetDsmax u b)

/-- The PB oscillator at reset, with its band at PB_TARGET = 1. -/
def resetPbLfo (u : Fpu) (b : Build) : Lfo :=
  withBand u (resetLfo u b) u.one (pbHalfRange u) (u.ofDec Config.pMin) u.one

/-- The BC oscillator at reset, with its band at BC_AMOUNT = 1. -/
def resetBcLfo (u : Fpu) (b : Build) : Lfo :=
  withBand u (resetLfo u b) u.one u.half u.zero u.one

/-- A channel at reset: the coefficients at DS_ACTUAL = 1, everything else +0 (10_state.md R57). -/
def resetChan (u : Fpu) : Chan :=
  setCoeffs u (lpfDesign u u.one)
    { b0 := 0#64, b1 := 0#64, b2 := 0#64, a0 := 0#64, a1 := 0#64, a2 := 0#64,
      x1 := 0#64, x2 := 0#64, y1 := 0#64, y2 := 0#64, held := 0#64, lastOut := 0#64 }

end Sys2Proof.Machine
end

