-- ==== Sys2Proof/Machine/State.lean ====
section
/-!
DEFINITION. The state of the block (10_state.md, 20_memory.md), the reasons a step can stop, and reset
(70_reset_and_hazards.md R480 to R482).
-/

namespace Sys2Proof.Machine

/-- Why the machine stops. The block itself never traps (60_exceptions.md R440), and no access is ever outside its space
(20_memory.md R117): a fault is raised only in a state that breaks 10_state.md R62, which no run reaches (log 17). Safe:
the model stops where the spec gives no element to access. -/
inductive Fault where
  /-- Raised by a PROCESS frame where CH_COUNT exceeds N_MAX or the channel groups held (10_state.md R45, R57). Safe. -/
  | channel
  /-- Raised by a PROCESS frame whose IN_MEM or OUT_MEM words lie outside their space (20_memory.md R100). Safe. -/
  | ioIndex
  /-- Raised by a PROCESS frame where WP or RP lies outside REC (20_memory.md R117). Safe. -/
  | recIndex
  deriving DecidableEq, Repr

/-- Why an instruction has no meaning. -/
inductive Refusal where
  /-- Raised by exec for an instruction whose meaning is not written. Safe. No arm raises it. -/
  | notModelled (mnemonic : String)
  deriving DecidableEq, Repr

/-- The state of the block. -/
structure State where
  /-- The build parameters: the constant registers N_MAX, MAX_BLOCK, REC_CAP and FMT_ID, with CH_INIT, FS_INIT and MAKEUP
  (00_scope.md R7; 10_state.md R43) -/
  build : Build
  /-- STATUS (10_state.md R44) -/
  status : Status
  /-- CH_COUNT (10_state.md R45) -/
  chCount : BitVec 8
  /-- FS (10_state.md R47) -/
  fs : F
  /-- DSMAX (10_state.md R47) -/
  dsmax : F
  /-- GR (10_state.md R48) -/
  gr : F
  /-- DS_CTRL, DS_TARGET, DS_ACTUAL, SAMPLE_INCR, LPF_RHO (10_state.md R49) -/
  ds : DsRegs
  /-- PB_CTRL, PB_TARGET, PB_ACTUAL, PB_STEP (10_state.md R52) -/
  pb : PbRegs
  /-- BC_AMOUNT, BC_ACTUAL, BC_BITS, BC_OUTPUT_MIX (10_state.md R54) -/
  bc : BcRegs
  /-- DRY, WET, BYPASS (10_state.md R55) -/
  mix : MixRegs
  /-- the LIM_ registers (10_state.md R56) -/
  lim : LimRegs
  /-- WP, RP, HOLD_CNT (10_state.md R58 to R60) -/
  ptr : PtrRegs
  /-- the DS_LFO_ group (10_state.md R53) -/
  dsLfo : Lfo
  /-- the PB_LFO_ group (10_state.md R53) -/
  pbLfo : Lfo
  /-- the BC_LFO_ group (10_state.md R53) -/
  bcLfo : Lfo
  /-- the channel groups 0 .. N_MAX-1 (10_state.md R57) -/
  chans : List Chan
  /-- REC: cell j of channel c at index c · REC_CAP + j (20_memory.md R100, R101) -/
  recMem : Memory F
  /-- IN_MEM (20_memory.md R102) -/
  inMem : Memory InWord
  /-- OUT_MEM (20_memory.md R103); `none` is a word no PROCESS has written since reset -/
  outMem : Memory (Option IoWord)
  /-- the words waiting in the audio port (20_memory.md R104) -/
  audioQ : List Word
  /-- the words waiting in the control port (20_memory.md R104) -/
  controlQ : List Word
  /-- the PROCESS in progress (10_state.md R41) -/
  proc : Option Proc
  /-- IN_MEM words overwritten after a PROCESS that may read them was issued (70_reset_and_hazards.md R488; log 10) -/
  inOld : List OldIn
  /-- the model's own: the host's inputs still to come (log 7) -/
  hostIn : List HostEvent
  /-- the model's own: the agents that move next (log 6) -/
  sched : List Agent
  /-- the model's own: how many atomic steps have run, the index of the free values (log 5) -/
  free : Nat
  deriving DecidableEq, Repr

/-- The state after reset of a build, with the arithmetic unit that computes the derived values
(70_reset_and_hazards.md R481, R482). The model's own fields are empty and 0 (log 23). -/
def State.resetWith (u : Fpu) (b : Build) : State where
  build := b
  status := resetStatus
  chCount := BitVec.ofNat 8 b.chInit
  fs := b.fsInit
  dsmax := resetDsmax u b
  gr := u.one
  ds := resetDs u
  pb := resetPb u
  bc := resetBc u
  mix := resetMix u
  lim := resetLim u
  ptr := resetPtr
  dsLfo := resetDsLfo u b
  pbLfo := resetPbLfo u b
  bcLfo := resetBcLfo u b
  chans := List.replicate b.nMax (resetChan u)
  recMem := []
  inMem := []
  outMem := []
  audioQ := []
  controlQ := []
  proc := none
  inOld := []
  hostIn := []
  sched := []
  free := 0

/-- The machine right after reset: the reference build (log 2) at the values of 70_reset_and_hazards.md R481. -/
def State.reset : State :=
  State.resetWith (configFpu Config.referenceBuild.fmt 0) Config.referenceBuild

end Sys2Proof.Machine
end

