-- ==== Sys2Proof/Machine/Flags.lean ====
section
/-!
DEFINITION. STATUS, the block's only flag register (10_state.md R44): its fields, their computation, and the recording of
errors (60_exceptions.md R443).
-/

namespace Sys2Proof.Machine

/-- A bit at a position, as a number. -/
def flagAt (b : Bool) (pos : Nat) : Nat := if b then 2 ^ pos else 0

/-- STATUS as its 32-bit register value; every bit outside the fields reads 0 (10_state.md R44). -/
def statusWord (f : Status) : Word :=
  BitVec.ofNat 32 (flagAt f.err 0 + flagAt f.fatal 1 + flagAt f.dsActive 2 + flagAt f.rateActive 3 + flagAt f.busy 4
    + f.errCode.toNat * 256)

/-- What DS_ACTIVE is recomputed as: `(DS_TARGET > 1) or (DS_LFO_EN = 1)` (10_state.md R50). -/
def dsActiveNow (u : Fpu) (s : State) : Bool := u.gt s.ds.target u.one || s.dsLfo.en

/-- `rateActive()` (10_state.md R51; 45_engine_setters.md R343). -/
def rateActiveNow (u : Fpu) (s : State) : Bool :=
  u.gt s.ds.target u.one || s.dsLfo.en || u.lt s.pb.target u.one || s.pbLfo.en

/-- `record(code)`: the first error since the last clear keeps its code (60_exceptions.md R443). -/
def recordError (code : BitVec 4) (f : Status) : Status :=
  { f with err := true, errCode := if f.err then f.errCode else code }

end Sys2Proof.Machine
end

