-- ==== Sys2Proof/Machine/Operands.lean ====
section
/-!
DEFINITION. Operand forms and conversions: command operands and samples to FMT and back (00_scope.md R16;
30_encoding.md R143), and the integer images of FMT values (46_engine_process.md R386, R387; 43_bitcrusher.md R261).
-/

namespace Sys2Proof.Machine

/-- A pattern of one format as a pattern of another, rounded to nearest even; a NaN gives any quiet NaN
(00_scope.md R14, R16). -/
def convert (u : Fpu) (src dst : Fmt) (v : F) : F :=
  match numOf src v with
  | .nan => quietNaN dst (u.nanBits .convert v v)
  | .inf s => packMag dst s (infMag dst)
  | .fin s n => packMag dst s (roundQ dst (n * 2 ^ unitExp dst) (2 ^ unitExp src))

/-- `toFMT32(w)` (00_scope.md R16; 30_encoding.md R143). With FMT = binary32 the pattern itself, a NaN included:
DEDUCED (log 13). -/
def toFmt32 (u : Fpu) (w : Word) : F :=
  match u.fmt with
  | .binary32 => w.setWidth 64
  | .binary64 => convert u .binary32 .binary64 (w.setWidth 64)

/-- `toFMT64(w)` (00_scope.md R16): a NaN stays a quiet NaN, any one (log 13). -/
def toFmt64 (u : Fpu) (w : IoWord) : F := convert u .binary64 u.fmt w

/-- `toFMT(w, SW)` (46_engine_process.md R385). -/
def toFmt (u : Fpu) (sw : Bool) (w : IoWord) : F :=
  if sw then toFmt64 u w else toFmt32 u (w.setWidth 32)

/-- `fromFMT(v, SW)` (00_scope.md R16): to the same format the pattern itself (log 13). With SW = 0 bits [63:32] are
zero. -/
def fromFmt (u : Fpu) (sw : Bool) (v : F) : IoWord :=
  match sw, u.fmt with
  | false, .binary32 => fmtMask .binary32 v
  | false, .binary64 => convert u .binary64 .binary32 v
  | true, .binary32 => convert u .binary32 .binary64 v
  | true, .binary64 => v

/-- `incr(a)`, the hold length (46_engine_process.md R386). The bound 4294967295 is compared exactly: DEDUCED
(log 15). -/
def incr (u : Fpu) (a : F) : Word :=
  match numOf u.fmt a with
  | .fin false m =>
    let n := m / 2 ^ unitExp u.fmt
    if n < 1 then 1#32 else BitVec.ofNat 32 (min n 4294967295)
  | .inf false => 4294967295#32
  | _ => 1#32

/-- `fx(r)`, the read-pointer step (46_engine_process.md R387): the exact product with 2^32, rounded to an integer, ties
to even, at most 2^33. -/
def fx (u : Fpu) (r : F) : BitVec 64 :=
  match numOf u.fmt r with
  | .fin false m => BitVec.ofNat 64 (min (roundHalfEven (m * 2 ^ 32) (2 ^ unitExp u.fmt)) (2 ^ 33))
  | .inf false => BitVec.ofNat 64 (2 ^ 33)
  | _ => 0#64

/-- `bits(a)`, the effective bit depth (43_bitcrusher.md R261). -/
def bitDepth (u : Fpu) (a : F) : BitVec 8 :=
  if !u.gt a u.zero then 1#8
  else if u.ge a u.one then 16#8
  else BitVec.ofNat 8 (1 + u.toUInt (u.floorS (u.mul a (u.ofNat 15))))

end Sys2Proof.Machine
end

