-- ==== Sys2Proof/Machine/Traffic.lean ====
section
/-!
DEFINITION. The traffic of the block: the ports and the words in them, which agent makes the next atomic step, and the
host's writes (20_memory.md R104, R105, R107, R110, R111, R118).
-/

namespace Sys2Proof.Machine

/-! ## The ports and the schedule -/

/-- The words waiting in a port. -/
def queueOf (p : Port) (s : State) : List Word :=
  match p with
  | .audio => s.audioQ
  | .control => s.controlQ

/-- The state with a port's waiting words replaced. -/
def putQueue (p : Port) (q : List Word) (s : State) : State :=
  match p with
  | .audio => { s with audioQ := q }
  | .control => { s with controlQ := q }

/-- A port holds a whole command (20_memory.md R108). -/
def hasCommand (p : Port) (s : State) : Bool := decide (3 ≤ (queueOf p s).length)

/-- The agent has a step to make: the PROCESS in progress or a whole command, or an input of the host's script. -/
def canMove (s : State) : Agent → Bool
  | .audio => s.proc.isSome || hasCommand .audio s
  | .control => hasCommand .control s
  | .host => !s.hostIn.isEmpty

/-- The agents that have a step to make. -/
def movers (s : State) : List Agent := [Agent.audio, Agent.control, Agent.host].filter (canMove s)

/-- The agent that the schedule names, or a free choice where the schedule is used up (20_memory.md R111; log 6). -/
def scheduled (s : State) : Agent := s.sched.headD (Config.agent s.free)

/-- The agent that makes the next atomic step: the only one that can, else the scheduled one if it can, else the first
that can. None moves in an idle block (60_exceptions.md R458). -/
def mover (s : State) : Option Agent :=
  match movers s with
  | [] => none
  | [a] => some a
  | a :: _ :: _ => some (if canMove s (scheduled s) then scheduled s else a)

/-- An atomic step is counted and its schedule entry used. -/
def tick (s : State) : State := { s with free := s.free + 1, sched := s.sched.tail }

/-- The overwritten IN_MEM words that the next audio command may read: those overwritten after it was issued
(70_reset_and_hazards.md R488; log 10). -/
def ageIn (l : List OldIn) : List OldIn :=
  (l.filter (fun e => decide (0 < e.left))).map (fun e => { e with left := e.left - 1 })

/-- The three words of a command taken from its port, in a new atomic step (20_memory.md R105, R108). -/
def takeCommand (p : Port) (s : State) : State :=
  tick (putQueue p ((queueOf p s).drop 3)
    { s with inOld := match p with | .audio => ageIn s.inOld | .control => s.inOld })

/-! ## The window on IN_MEM -/

/-- The index of frame `i` of channel `c` in IN_MEM and OUT_MEM. -/
def ioIndex (s : State) (c i : Nat) : Nat := c * s.build.maxBlock + i

/-- The size of IN_MEM and of OUT_MEM in words (20_memory.md R100). -/
def ioSize (s : State) : Nat := s.build.nMax * s.build.maxBlock

/-- An IN_MEM word no half of which the host has written. -/
def noInWord : InWord := { lo := none, hi := none }

/-- How many audio commands have been issued and not yet taken. A command of which some words have arrived counts:
DESIGN CHOICE (log 10). -/
def issued (s : State) : Nat := (s.audioQ.length + 2) / 3

/-- An IN_MEM word put in place. What it held is kept while a PROCESS is in progress or an audio command waits, for the
commands issued before the write (70_reset_and_hazards.md R488; 20_memory.md R118; log 10). -/
def putIn (idx : Nat) (w : InWord) (s : State) : State :=
  { s with
    inMem := Memory.write noInWord s.inMem idx w
    inOld :=
      if s.proc.isSome || !s.audioQ.isEmpty then
        { index := idx, word := Memory.read noInWord s.inMem idx, left := issued s } :: s.inOld
      else s.inOld }

/-- The host writes a whole IN_MEM word; outside the space the bus refuses and nothing changes (20_memory.md R107). -/
def hostWriteIn (idx : Nat) (w : IoWord) (s : State) : State :=
  if idx < ioSize s then
    putIn idx { lo := some (w.setWidth 32), hi := some ((w >>> 32).setWidth 32) } s
  else s

/-- The host writes a half of an IN_MEM word (20_memory.md R107). -/
def hostWriteInHalf (idx : Nat) (high : Bool) (w : Word) (s : State) : State :=
  if idx < ioSize s then
    let now := Memory.read noInWord s.inMem idx
    putIn idx (if high then { now with hi := some w } else { now with lo := some w }) s
  else s

/-! ## The ports -/

/-- A word arrives on a port (20_memory.md R104, R105). -/
def pushWord (p : Port) (w : Word) (s : State) : State :=
  match p with
  | .audio => { s with audioQ := s.audioQ ++ [w] }
  | .control => { s with controlQ := s.controlQ ++ [w] }

/-- The platform's signal that a port's FIFO is empty (20_memory.md R112). -/
def portEmpty (s : State) (p : Port) : Bool :=
  match p with
  | .audio => s.audioQ.isEmpty
  | .control => s.controlQ.isEmpty

/-- What the host observes as completion: the audio FIFO empty and STATUS.BUSY = 0 (46_engine_process.md R399). -/
def completed (s : State) : Bool := portEmpty s .audio && !s.status.busy

/-- The effect of an input of the host but for reset, which `assertReset` gives. -/
def deliver (e : HostEvent) (s : State) : State :=
  match e with
  | .push p w => pushWord p w s
  | .writeIn idx w => hostWriteIn idx w s
  | .writeInHalf idx high w => hostWriteInHalf idx high w s
  | .reset => s

end Sys2Proof.Machine
end

