-- ==== Sys2Proof/Machine/Ops.lean ====
section
/-!
DEFINITION. The named operations over registers and memories that the meanings share.
-/

namespace Sys2Proof.Machine

/-- The arithmetic unit of the current atomic step. -/
def State.fpu (s : State) : Fpu := configFpu s.build.fmt s.free

/-! ## Errors: the block's only exceptions (60_exceptions.md) -/

/-- `raise Error(code)`: the command is abandoned and the code recorded; nothing but STATUS changes
(00_scope.md R13; 60_exceptions.md R440, R443). -/
def raiseError (code : BitVec 4) (s : State) : State :=
  { s with status := recordError code s.status }

/-- `raise Fatal(code)`: the code is recorded and the block halts (60_exceptions.md R446). -/
def raiseFatal (code : BitVec 4) (s : State) : State :=
  { s with status := { recordError code s.status with fatal := true } }

/-- The acknowledgment of an error: ERR and ERR_CODE to 0 (60_exceptions.md R448, R450). -/
def acknowledgeError (s : State) : State :=
  { s with status := { s.status with err := false, errCode := 0#4 } }

/-! ## REC (20_memory.md R100, R101, R117) -/

/-- Where cell `j` of channel `c` lies in REC. -/
def recIndex (s : State) (c j : Nat) : Nat := c * s.build.recCap + j

/-- `MemRead(REC[c], j)`. -/
def recRead (s : State) (c j : Nat) : F := Memory.read 0#64 s.recMem (recIndex s c j)

/-- `MemWrite(REC[c], j, v)`. -/
def recWrite (s : State) (c j : Nat) (v : F) : State :=
  { s with recMem := Memory.write 0#64 s.recMem (recIndex s c j) v }

/-- Every REC cell to +0 (46_engine_process.md R402). -/
def clearRec (s : State) : State := { s with recMem := [] }

/-! ## IN_MEM and OUT_MEM (20_memory.md R102, R103, R118) -/

/-- One of the values a race admits: the current one where there is no race (20_memory.md R118, U6). -/
def admitted {α : Type} (now : α) (old : List α) (choice : Nat) : α :=
  match old with
  | [] => now
  | _ :: _ => (now :: old).getD (choice % (old.length + 1)) now

/-- The entries of a journal for an index. -/
def journalAt {α : Type} (journal : List (Nat × α)) (idx : Nat) : List α :=
  (journal.filter (fun e => e.1 == idx)).map (fun e => e.2)

/-- What an IN_MEM index held before the host overwrote it, after the command at work was issued (R488). -/
def inOverwritten (s : State) (idx : Nat) : List InWord :=
  (s.inOld.filter (fun e => e.index == idx)).map (fun e => e.word)

/-- The event writes an IN_MEM word or a half of it. -/
def writesIndex (idx : Nat) : HostEvent → Bool
  | .writeIn i _ => i == idx
  | .writeInHalf i _ _ => i == idx
  | .push _ _ => false
  | .reset => false

/-- What the host still writes at an IN_MEM index before the PROCESS in progress completes, in the order of steps that the
schedule gives: the steps of the PROCESS and of the control port are followed as far as they decide that order. -/
def inAhead : Nat → Nat → State → List InWord
  | 0, _, _ => []
  | k + 1, idx, s =>
    match s.hostIn, s.proc, mover s with
    | _ :: _, some p, some .audio =>
      if p.i < p.n then inAhead k idx (tick { s with proc := some { p with i := p.i + 1 } }) else []
    | _ :: _, some _, some .control => inAhead k idx (takeCommand .control s)
    | e :: es, some _, some .host =>
      if e = .reset then []
      else
        let t := deliver e (tick { s with hostIn := es })
        if writesIndex idx e then Memory.read noInWord t.inMem idx :: inAhead k idx t else inAhead k idx t
    | _, _, _ => []

/-- More steps than the PROCESS in progress can take to complete: its frames and epilogue, the waiting control commands,
and the host's inputs with the control commands that they push. -/
def stepsAhead (s : State) : Nat :=
  (match s.proc with | some p => p.n - p.i + 2 | none => 0) + s.controlQ.length + 2 * s.hostIn.length

/-- What a PROCESS may see at an IN_MEM index beside its present contents: the words overwritten after it was issued, and
those that the host writes between this frame and its epilogue (70_reset_and_hazards.md R488; log 10). -/
def inRace (s : State) (idx : Nat) : List InWord :=
  inOverwritten s idx ++
    match s.proc with
    | some p => inAhead (stepsAhead s) idx { s with proc := some { p with i := p.i + 1 } }
    | none => []

/-- A half of an IN_MEM word, free where it was never written (93_implementation_defined.md U3). -/
def halfOr (k site idx : Nat) (h : Option Word) : Word := h.getD (Config.inHalf k site idx)

/-- `MemRead(IN_MEM, idx)` in read `site` of the current atomic step. -/
def inRead (s : State) (site idx : Nat) : IoWord :=
  let w := admitted (Memory.read noInWord s.inMem idx) (inRace s idx) (Config.race s.free (2 * idx))
  halfOr s.free site (2 * idx + 1) w.hi ++ halfOr s.free site (2 * idx) w.lo

/-- `MemWrite(OUT_MEM, idx, w)`. -/
def outWrite (m : Memory (Option IoWord)) (idx : Nat) (w : IoWord) : Memory (Option IoWord) :=
  Memory.write none m idx (some w)

/-- What an OUT_MEM index held before the PROCESS in progress overwrote it (R118). -/
def outOverwritten (s : State) (idx : Nat) : List (Option IoWord) :=
  match s.proc with
  | some p => journalAt p.outOld idx
  | none => []

/-! ## Oscillators (41_oscillator.md) -/

/-- `lfoBounds(DS)` (41_oscillator.md R206). -/
def boundsDs (u : Fpu) (s : State) : State :=
  { s with dsLfo := withBand u s.dsLfo s.ds.target (dsHalfRange u s.dsmax) u.one s.dsmax }

/-- `lfoBounds(PB)` (41_oscillator.md R206). -/
def boundsPb (u : Fpu) (s : State) : State :=
  { s with pbLfo := withBand u s.pbLfo s.pb.target (pbHalfRange u) (u.ofDec Config.pMin) u.one }

/-- `lfoBounds(BC)` (41_oscillator.md R206). -/
def boundsBc (u : Fpu) (s : State) : State :=
  { s with bcLfo := withBand u s.bcLfo s.bc.amount u.half u.zero u.one }

/-- `lfoBounds(p)` (41_oscillator.md R206). -/
def lfoBounds (u : Fpu) (p : LfoId) (s : State) : State :=
  match p with
  | .ds => boundsDs u s
  | .pb => boundsPb u s
  | .bc => boundsBc u s

/-- The oscillator group of a name (41_oscillator.md R200). -/
def lfoOf (p : LfoId) (s : State) : Lfo :=
  match p with
  | .ds => s.dsLfo
  | .pb => s.pbLfo
  | .bc => s.bcLfo

/-- The state with an oscillator group replaced. -/
def putLfo (p : LfoId) (l : Lfo) (s : State) : State :=
  match p with
  | .ds => { s with dsLfo := l }
  | .pb => { s with pbLfo := l }
  | .bc => { s with bcLfo := l }

/-- `lfoSet(p, A, B)` (41_oscillator.md R208). -/
def lfoSet (u : Fpu) (p : LfoId) (a b : F) (s : State) : State :=
  let t := putLfo p (lfoWrite u (lfoOf p s) a b s.fs) s
  if lfoChanged u (lfoOf p s) a b then lfoBounds u p t else t

/-- `lfoSet` has turned the oscillator off: oldEn = 1 and newEn = 0 (41_oscillator.md R208). -/
def turnedOff (u : Fpu) (p : LfoId) (a : F) (s : State) : Bool :=
  (lfoOf p s).en && !u.gt a u.zero

/-! ## Targets, coefficients, resynchronisation -/

/-- `dsTarget(v)` (45_engine_setters.md R341). -/
def dsTarget (u : Fpu) (dsmax v : F) : F :=
  u.add u.one (u.mul (u.sub u.one v) (u.sub dsmax u.one))

/-- `pbTarget(v)` (45_engine_setters.md R342). -/
def pbTarget (u : Fpu) (v : F) : F :=
  u.add (u.ofDec Config.pMin) (u.mul v (u.sub u.one (u.ofDec Config.pMin)))

/-- `lpfCoeffs()`: every channel group and LPF_RHO, from DS_ACTUAL (42_lowpass_filter.md R231). -/
def lpfCoeffs (u : Fpu) (s : State) : State :=
  { s with
    ds := { s.ds with rho := (lpfDesign u s.ds.actual).rho }
    chans := s.chans.map (setCoeffs u (lpfDesign u s.ds.actual)) }

/-- RP after `resyncEval()`: WP << 32 on the 1 → 0 transition of RATE_ACTIVE (45_engine_setters.md R343). -/
def resyncRp (u : Fpu) (s : State) : BitVec 64 :=
  if s.status.rateActive && !rateActiveNow u s then s.ptr.wp.setWidth 64 <<< 32 else s.ptr.rp

/-- `resyncEval()` (45_engine_setters.md R343). -/
def resyncEval (u : Fpu) (s : State) : State :=
  { s with
    ptr := { s.ptr with rp := resyncRp u s }
    status := { s.status with rateActive := rateActiveNow u s, dsActive := dsActiveNow u s } }

/-- DS_ACTUAL and SAMPLE_INCR written together (46_engine_process.md R386). -/
def putDsActual (u : Fpu) (a : F) (s : State) : State :=
  { s with ds := { s.ds with actual := a, incr := incr u a } }

/-- PB_ACTUAL and PB_STEP written together (46_engine_process.md R387). -/
def putPbActual (u : Fpu) (a : F) (s : State) : State :=
  { s with pb := { s.pb with actual := a, step := fx u a } }

/-- BC_ACTUAL and BC_BITS written together (43_bitcrusher.md R261). -/
def putBcActual (u : Fpu) (a : F) (s : State) : State :=
  { s with bc := { s.bc with actual := a, bits := bitDepth u a } }

/-- An actual value on a change of target: rescaled by new / old while the oscillator runs, else the target
(45_engine_setters.md R344, R346, R352). -/
def retarget (u : Fpu) (running : Bool) (actual oldTarget newTarget : F) : F :=
  if running then u.mul actual (u.div newTarget oldTarget) else newTarget

/-- A new downsample target and everything computed from it: the actual amount, the band, the hold length and the
coefficients (45_engine_setters.md R344, R352). -/
def moveDsTarget (u : Fpu) (newT : F) (s : State) : State :=
  let actual := retarget u s.dsLfo.en s.ds.actual s.ds.target newT
  lpfCoeffs u (putDsActual u actual (boundsDs u { s with ds := { s.ds with target := newT } }))

/-! ## Pointers and channels -/

/-- WP, RP and HOLD_CNT to 0 (46_engine_process.md R401). -/
def zeroPointers (s : State) : State := { s with ptr := { wp := 0#32, rp := 0#64, hold := 0#32 } }

/-- The channel group `c`. -/
def chanAt (s : State) (c : Nat) : Chan := s.chans.getD c default

end Sys2Proof.Machine
end

