-- ==== Sys2Proof/Machine/Buffer.lean ====
section
/-!
DEFINITION. The commands without operands: NOP, RESET_POINTERS, CLEAR_BUFFER, FILTER_RESET, CLEAR_ERR.
-/

namespace Sys2Proof.Machine

/-- NOP has no effect (46_engine_process.md R403). -/
def execNop (s : State) : Host.Outcome State Fault Refusal := .next s

/-- RESET_POINTERS (46_engine_process.md R401). -/
def execResetPointers (s : State) : Host.Outcome State Fault Refusal := .next (zeroPointers s)

/-- CLEAR_BUFFER (46_engine_process.md R402). -/
def execClearBuffer (s : State) : Host.Outcome State Fault Refusal := .next (clearRec s)

/-- The filter history of every channel group to 0 (42_lowpass_filter.md R236). -/
def clearFilters (s : State) : State := { s with chans := s.chans.map clearHistory }

/-- FILTER_RESET (42_lowpass_filter.md R236). -/
def execFilterReset (s : State) : Host.Outcome State Fault Refusal := .next (clearFilters s)

/-- CLEAR_ERR (60_exceptions.md R448). -/
def execClearErr (s : State) : Host.Outcome State Fault Refusal := .next (acknowledgeError s)

end Sys2Proof.Machine
end

