-- ==== Sys2Proof/Machine/Converter.lean ====
section
/-!
DEFINITION. The sample-rate converter's setters (45_engine_setters.md R344 to R347) and SET_SAMPLE_RATE (R352). Each is a
function of the arithmetic unit and the operand values, which the meaning applies to the machine's own unit.
-/

namespace Sys2Proof.Machine

/-- The effect of SET_RESAMPLE_RATE with operand value `a` (45_engine_setters.md R344). -/
def setResampleRate (u : Fpu) (a : F) (s : State) : State :=
  let t := { s with ds := { s.ds with ctrl := a } }
  let newT := dsTarget u s.dsmax a
  if u.eq newT s.ds.target then t else resyncEval u (moveDsTarget u newT t)

/-- SET_RESAMPLE_RATE (45_engine_setters.md R344). -/
def execSetResampleRate (a : Word) (s : State) : Host.Outcome State Fault Refusal :=
  .next (setResampleRate s.fpu (toFmt32 s.fpu a) s)

/-- The effect of SET_RESAMPLE_LFO (45_engine_setters.md R345). -/
def setResampleLfo (u : Fpu) (a b : F) (s : State) : State :=
  let t := lfoSet u .ds a b s
  resyncEval u (if turnedOff u .ds a s then lpfCoeffs u (putDsActual u t.ds.target t) else t)

/-- SET_RESAMPLE_LFO (45_engine_setters.md R345). -/
def execSetResampleLfo (a b : Word) (s : State) : Host.Outcome State Fault Refusal :=
  .next (setResampleLfo s.fpu (toFmt32 s.fpu a) (toFmt32 s.fpu b) s)

/-- A new playback target and everything computed from it (45_engine_setters.md R346). -/
def movePbTarget (u : Fpu) (newT : F) (s : State) : State :=
  let actual := retarget u s.pbLfo.en s.pb.actual s.pb.target newT
  putPbActual u actual (boundsPb u { s with pb := { s.pb with target := newT } })

/-- The effect of SET_PLAYBACK_RATE (45_engine_setters.md R346). -/
def setPlaybackRate (u : Fpu) (a : F) (s : State) : State :=
  let t := { s with pb := { s.pb with ctrl := a } }
  let newT := pbTarget u a
  if u.eq newT s.pb.target then t else resyncEval u (movePbTarget u newT t)

/-- SET_PLAYBACK_RATE (45_engine_setters.md R346). -/
def execSetPlaybackRate (a : Word) (s : State) : Host.Outcome State Fault Refusal :=
  .next (setPlaybackRate s.fpu (toFmt32 s.fpu a) s)

/-- The effect of SET_PLAYBACK_LFO (45_engine_setters.md R347). -/
def setPlaybackLfo (u : Fpu) (a b : F) (s : State) : State :=
  let t := lfoSet u .pb a b s
  resyncEval u (if turnedOff u .pb a s then putPbActual u t.pb.target t else t)

/-- SET_PLAYBACK_LFO (45_engine_setters.md R347). -/
def execSetPlaybackLfo (a b : Word) (s : State) : Host.Outcome State Fault Refusal :=
  .next (setPlaybackLfo s.fpu (toFmt32 s.fpu a) (toFmt32 s.fpu b) s)

/-- A sample rate that SET_SAMPLE_RATE accepts: finite and at least FLOOR_HZ (45_engine_setters.md R352). -/
def rateAccepted (u : Fpu) (a : F) : Bool := isFinite u.fmt a && u.ge a (u.ofNat Config.floorHz)

/-- An oscillator with its increment at a new sample rate (41_oscillator.md R202). -/
def reclock (u : Fpu) (fs : F) (l : Lfo) : Lfo := { l with inc := lfoInc u l.ratePct fs }

/-- The limiter coefficients given in physical units, at a new sample rate (45_engine_setters.md R352). -/
def relimit (u : Fpu) (fs : F) (l : LimRegs) : LimRegs :=
  { l with
    att := if l.attMode then attUs u l.attParam fs else l.att
    rel := if l.relMode then relMs u l.relParam fs else l.rel }

/-- The part of SET_SAMPLE_RATE after the targets: the increments and the limiter coefficients
(45_engine_setters.md R352). -/
def reclockAll (u : Fpu) (fs : F) (s : State) : State :=
  { s with
    dsLfo := reclock u fs s.dsLfo
    pbLfo := reclock u fs s.pbLfo
    bcLfo := reclock u fs s.bcLfo
    lim := relimit u fs s.lim }

/-- The effect of SET_SAMPLE_RATE (45_engine_setters.md R352). -/
def setSampleRate (u : Fpu) (a : F) (s : State) : State :=
  if rateAccepted u a then
    let t := { s with fs := a, dsmax := u.div a (u.ofNat Config.floorHz) }
    resyncEval u (reclockAll u a (moveDsTarget u (dsTarget u t.dsmax s.ds.ctrl) t))
  else raiseError 5#4 s

/-- SET_SAMPLE_RATE (45_engine_setters.md R352). -/
def execSetSampleRate (a : Word) (s : State) : Host.Outcome State Fault Refusal :=
  .next (setSampleRate s.fpu (toFmt32 s.fpu a) s)

end Sys2Proof.Machine
end

