-- ==== Sys2Proof/Machine/Limiter.lean ====
section
/-!
DEFINITION. The limiter's commands (44_limiter.md R311 to R316). None writes LIM_ENV or LIM_GAIN.
-/

namespace Sys2Proof.Machine

/-- LIM_ATT_MODE, LIM_ATT_PARAM and LIM_ATT written together (44_limiter.md R311, R313). -/
def putAttack (mode : Bool) (param coeff : F) (s : State) : State :=
  { s with lim := { s.lim with attMode := mode, attParam := param, att := coeff } }

/-- LIM_REL_MODE, LIM_REL_PARAM and LIM_REL written together (44_limiter.md R312, R314). -/
def putRelease (mode : Bool) (param coeff : F) (s : State) : State :=
  { s with lim := { s.lim with relMode := mode, relParam := param, rel := coeff } }

/-- LIM_SET_ATTACK_US (44_limiter.md R311). -/
def execLimSetAttackUs (a : Word) (s : State) : Host.Outcome State Fault Refusal :=
  .next (putAttack true (toFmt32 s.fpu a) (attUs s.fpu (toFmt32 s.fpu a) s.fs) s)

/-- LIM_SET_RELEASE_MS (44_limiter.md R312). -/
def execLimSetReleaseMs (a : Word) (s : State) : Host.Outcome State Fault Refusal :=
  .next (putRelease true (toFmt32 s.fpu a) (relMs s.fpu (toFmt32 s.fpu a) s.fs) s)

/-- LIM_SET_ATTACK_NORM (44_limiter.md R313). -/
def execLimSetAttackNorm (a : Word) (s : State) : Host.Outcome State Fault Refusal :=
  .next (putAttack false (toFmt32 s.fpu a) (attNorm s.fpu (toFmt32 s.fpu a)) s)

/-- LIM_SET_RELEASE_NORM (44_limiter.md R314). -/
def execLimSetReleaseNorm (a : Word) (s : State) : Host.Outcome State Fault Refusal :=
  .next (putRelease false (toFmt32 s.fpu a) (relNorm s.fpu (toFmt32 s.fpu a)) s)

/-- LIM_SET_THRESHOLD (44_limiter.md R315). -/
def execLimSetThreshold (soft : Bool) (a : Word) (s : State) : Host.Outcome State Fault Refusal :=
  .next { s with lim := thrSet s.fpu s.lim (toFmt32 s.fpu a) soft }

/-- LIM_SET_TRIM (44_limiter.md R316). -/
def execLimSetTrim (a : Word) (s : State) : Host.Outcome State Fault Refusal :=
  .next { s with lim := { s.lim with trim := toFmt32 s.fpu a } }

end Sys2Proof.Machine
end

