-- ==== Sys2Proof/Machine/Process.lean ====
section
/-!
DEFINITION. PROCESS (46_engine_process.md R380 to R399): its first atomic step, one frame, and the epilogue. The first
step holds the checks, the fast paths, the geometry change and the prologue (log 12).
-/

namespace Sys2Proof.Machine

/-! ## The first atomic step (R382 to R385, R388) -/

/-- The geometry exceeds the built limits (R382). -/
def geometryExceeds (s : State) (nin nout n : Nat) : Bool :=
  decide (s.build.nMax < nin) || decide (s.build.nMax < nout) || decide (s.build.maxBlock < n)

/-- The word a fast path copies to frame `i` of output channel `c` (R383). -/
def copiedWord (s : State) (sw : Bool) (nin c i : Nat) : IoWord :=
  let w := if c < nin then inRead s 1 (ioIndex s c i) else 0#64
  if sw then w else (w.setWidth 32).setWidth 64

/-- The copy of the bypass and silence paths: IN_MEM to OUT_MEM bit for bit, zero for channels with no input
(R383, R385). -/
def copyBlock (sw : Bool) (nin nout n : Nat) (s : State) : State :=
  { s with
    outMem := (List.range nout).foldl (fun m c =>
      (List.range n).foldl (fun m i => outWrite m (ioIndex s c i) (copiedWord s sw nin c i)) m) s.outMem }

/-- A channel group after a geometry change (R384). -/
def clearChan (ch : Chan) : Chan :=
  { clearHistory ch with held := 0#64, lastOut := 0#64 }

/-- The geometry change (R384): only a new output channel count is one. -/
def changeGeometry (nout : Nat) (s : State) : State :=
  if nout = s.chCount.toNat then s
  else
    zeroPointers (clearRec { s with chCount := BitVec.ofNat 8 nout, chans := s.chans.map clearChan })

/-- Input channel 0 is all zero over the block, as this step reads it (R385). -/
def silentBlock (u : Fpu) (sw : Bool) (nin n : Nat) (s : State) : Bool :=
  decide (1 ≤ nin) && (List.range n).all (fun i => u.eq (toFmt u sw (inRead s 0 (ioIndex s 0 i))) u.zero)

/-- A PROCESS about to run its first frame. -/
def startProc (sw : Bool) (nin nout n : Nat) : Proc :=
  { sw := sw, nin := nin, nout := nout, n := n, i := 0, outOld := [] }

/-- A PROCESS at its first step, for what the host may still write while it runs: the step counts as one frame more. -/
def openingProc (sw : Bool) (nin nout n : Nat) : Proc := startProc sw nin nout (n + 1)

/-- The silence path is taken (R385). A word that the host writes while the PROCESS runs races with the test too, and may
only keep the PROCESS running, since the silence path is complete in its first step (70_reset_and_hazards.md R488; log 10). -/
def takesSilence (u : Fpu) (sw : Bool) (nin nout n : Nat) (s : State) : Bool :=
  silentBlock u sw nin n s && silentBlock u sw nin n { s with proc := some (openingProc sw nin nout n) }

/-- The prologue (R388). -/
def prologue (u : Fpu) (p : Proc) (s : State) : State :=
  let t := if s.dsLfo.en then lpfCoeffs u s else s
  { t with status := { t.status with busy := true }, proc := some p }

/-- The first atomic step of a PROCESS (R380 to R385, R388). -/
def startProcess (u : Fpu) (sw : Bool) (nin nout n : Nat) (s : State) : State :=
  if geometryExceeds s nin nout n then raiseFatal 4#4 s
  else if n = 0 ∨ nout = 0 then s
  else if s.mix.bypass then copyBlock sw nin nout n s
  else
    let t := changeGeometry nout s
    if takesSilence u sw nin nout n t then copyBlock sw nin nout n t
    else prologue u (startProc sw nin nout n) t

/-- PROCESS: its first atomic step. The frames and the epilogue are the audio port's next steps (R381). -/
def execProcess (sw : Bool) (nin nout n : Nat) (s : State) : Host.Outcome State Fault Refusal :=
  .next (startProcess s.fpu sw nin nout n s)

/-! ## One frame (R389 to R398) -/

/-- The DS oscillator's step in a frame (R389). -/
def modulateDs (u : Fpu) (s : State) : State :=
  if s.dsLfo.en then putDsActual u (lfoValue u s.dsLfo) { s with dsLfo := lfoAdvance u s.dsLfo } else s

/-- The PB oscillator's step in a frame (R389). -/
def modulatePb (u : Fpu) (s : State) : State :=
  if s.pbLfo.en then putPbActual u (lfoValue u s.pbLfo) { s with pbLfo := lfoAdvance u s.pbLfo } else s

/-- The BC oscillator's step in a frame (R389). -/
def modulateBc (u : Fpu) (s : State) : State :=
  if s.bcLfo.en then putBcActual u (lfoValue u s.bcLfo) { s with bcLfo := lfoAdvance u s.bcLfo } else s

/-- The hold clamp (R389). -/
def clampHold (s : State) : State :=
  if s.ds.incr.toNat ≤ s.ptr.hold.toNat then { s with ptr := { s.ptr with hold := 0#32 } } else s

/-- Modulation and hold clamp (R389). -/
def modulate (u : Fpu) (s : State) : State :=
  clampHold (modulateBc u (modulatePb u (modulateDs u s)))

/-- The frame fetches a new sample (R390). -/
def fetching (s : State) : Bool := s.ptr.hold == 0#32

/-- The REC index the frame reads: the floor of RP (R390). -/
def readIndex (s : State) : Nat := s.ptr.rp.toNat / 2 ^ 32

/-- `dry[c]`: the input sample of frame `i`, 0 for a channel with no input (R391). -/
def drySample (u : Fpu) (p : Proc) (s : State) (c : Nat) : F :=
  if c < p.nin then toFmt u p.sw (inRead s 1 (ioIndex s c p.i)) else 0#64

/-- What the frame records for channel `c`: the input, or the last emitted sample (R391). -/
def recSample (u : Fpu) (p : Proc) (s : State) (c : Nat) : F :=
  if c < p.nin then drySample u p s c else (chanAt s c).lastOut

/-- The record write of every channel (R391). -/
def recordFrame (u : Fpu) (p : Proc) (s : State) : State :=
  { s with
    recMem := (List.range s.chCount.toNat).foldl
      (fun m c => Memory.write 0#64 m (recIndex s c s.ptr.wp.toNat) (recSample u p s c)) s.recMem }

/-- HELD of channel `c` in this frame (R392). -/
def heldSample (s : State) (c : Nat) (ch : Chan) : F :=
  if fetching s then recRead s c (readIndex s) else ch.held

/-- Channel `c` after the sample-and-hold and the filter (R392). -/
def holdChan (u : Fpu) (s : State) (c : Nat) (ch : Chan) : Chan :=
  let v := heldSample s c ch
  let held := { ch with held := v }
  if s.status.dsActive then lpfShift u held v else held

/-- `s[c]` after the sample-and-hold and the filter (R392). -/
def filteredSample (u : Fpu) (s : State) (c : Nat) : F :=
  let v := heldSample s c (chanAt s c)
  if s.status.dsActive then lpfOut u (chanAt s c) v else v

/-- `s[c]` after the bit crusher (R393). -/
def crushedSample (u : Fpu) (s : State) (c : Nat) : F :=
  crush u s.build.makeup s.bc.bits s.bc.outMix (filteredSample u s c)

/-- The signals of the frame's channels, at the limiter's input (R392, R393). -/
def frameSignals (u : Fpu) (s : State) : List F :=
  (List.range s.chCount.toNat).map (crushedSample u s)

/-- The channels after the sample-and-hold and the filter (R392). -/
def holdFrame (u : Fpu) (s : State) : State :=
  { s with chans := s.chans.mapIdx (fun c ch => if c < s.chCount.toNat then holdChan u s c ch else ch) }

/-- The mixer's output of one sample (R395). -/
def mixSample (u : Fpu) (s : State) (dry x : F) : F :=
  u.add (u.mul s.mix.dry dry) (u.mul s.mix.wet (limit u s.lim x))

/-- The OUT_MEM words of the frame, and LAST_OUT (R395). -/
def emitFrame (u : Fpu) (p : Proc) (out : Nat → F) (s : State) : State :=
  { s with
    chans := s.chans.mapIdx (fun c ch => if c < s.chCount.toNat then { ch with lastOut := out c } else ch)
    outMem := (List.range s.chCount.toNat).foldl
      (fun m c => outWrite m (ioIndex s c p.i) (fromFmt u p.sw (out c))) s.outMem }

/-- The pointers and the hold counter after a frame (R396 to R398). -/
def advancePtr (s : State) : PtrRegs :=
  { wp := BitVec.ofNat 32 ((s.ptr.wp.toNat + 1) % s.build.recCap)
    rp := BitVec.ofNat 64 ((s.ptr.rp.toNat + s.pb.step.toNat) % (s.build.recCap * 2 ^ 32))
    hold := if s.ds.incr.toNat ≤ s.ptr.hold.toNat + 1 then 0#32 else s.ptr.hold + 1#32 }

/-- The PROCESS after a frame: the next frame's index, and the overwritten OUT_MEM words kept
(70_reset_and_hazards.md R482). -/
def advanceProc (p : Proc) (s : State) : Proc :=
  { p with
    i := p.i + 1
    outOld := (List.range s.chCount.toNat).map
      (fun c => (ioIndex s c p.i, Memory.read none s.outMem (ioIndex s c p.i))) ++ p.outOld }

/-- The limiter registers after the frame's signals (R394). `r` is the state they are computed in. -/
def detectFrame (u : Fpu) (r h : State) : State := { h with lim := detect u h.lim (frameSignals u r) }

/-- `o` of channel `c`: `m` holds the frame's dry samples, `r` its signals, `l` the limiter and mixer (R395). -/
def outSample (u : Fpu) (p : Proc) (m r l : State) (c : Nat) : F :=
  mixSample u l (drySample u p m c) (crushedSample u r c)

/-- The end of a frame that began in `s` (R396 to R398). -/
def closeFrame (p : Proc) (s e : State) : State :=
  { e with ptr := advancePtr e, proc := some (advanceProc p s) }

/-- The record write and the limiter registers of a frame, from its modulated state (R391 to R394). -/
def wetFrame (u : Fpu) (p : Proc) (m : State) : State :=
  let r := recordFrame u p m
  detectFrame u r (holdFrame u r)

/-- A frame from its modulated state `m` (R391 to R398). -/
def playFrame (u : Fpu) (p : Proc) (s m : State) : State :=
  closeFrame p s (emitFrame u p (outSample u p m (recordFrame u p m) (wetFrame u p m)) (wetFrame u p m))

/-- One frame (R389 to R398). -/
def frame (u : Fpu) (p : Proc) (s : State) : State := playFrame u p s (modulate u s)

/-- The access outside a space that a frame would make, which 10_state.md R62 rules out (20_memory.md R117; log 17). -/
def frameFault (p : Proc) (s : State) : Option Fault :=
  if s.build.nMax < s.chCount.toNat ∨ s.chans.length < s.chCount.toNat then some .channel
  else if s.build.nMax < p.nin ∨ s.build.maxBlock ≤ p.i then some .ioIndex
  else if s.build.recCap ≤ s.ptr.wp.toNat ∨ s.build.recCap ≤ readIndex s then some .recIndex
  else none

/-! ## Epilogue (R399) -/

/-- The epilogue (R399). -/
def epilogue (u : Fpu) (s : State) : State :=
  { s with gr := linearGR u s.lim.gain, status := { s.status with busy := false }, proc := none }

/-- The next atomic step of the PROCESS in progress (R381): a frame, or the epilogue after the last. -/
def continueProcess (p : Proc) (s : State) : Host.Outcome State Fault Refusal :=
  if p.i < p.n then
    match frameFault p s with
    | some f => .fault f
    | none => .next (frame s.fpu p s)
  else .next (epilogue s.fpu s)

end Sys2Proof.Machine
end

