-- ==== Sys2Proof/Machine/Shaper.lean ====
section
/-!
DEFINITION. The setters of the bit crusher (43_bitcrusher.md R265 to R267), the mixer and the bypass
(45_engine_setters.md R348 to R350).
-/

namespace Sys2Proof.Machine

/-- The effect of SET_BITCRUSH_AMOUNT (43_bitcrusher.md R265). -/
def setBitcrushAmount (u : Fpu) (a : F) (s : State) : State :=
  let t := boundsBc u { s with bc := { s.bc with amount := a } }
  if s.bcLfo.en then t else putBcActual u a t

/-- SET_BITCRUSH_AMOUNT (43_bitcrusher.md R265). -/
def execSetBitcrushAmount (a : Word) (s : State) : Host.Outcome State Fault Refusal :=
  .next (setBitcrushAmount s.fpu (toFmt32 s.fpu a) s)

/-- The effect of SET_BITCRUSH_LFO (43_bitcrusher.md R266). -/
def setBitcrushLfo (u : Fpu) (a b : F) (s : State) : State :=
  let t := lfoSet u .bc a b s
  if turnedOff u .bc a s then putBcActual u t.bc.amount t else t

/-- SET_BITCRUSH_LFO (43_bitcrusher.md R266). -/
def execSetBitcrushLfo (a b : Word) (s : State) : Host.Outcome State Fault Refusal :=
  .next (setBitcrushLfo s.fpu (toFmt32 s.fpu a) (toFmt32 s.fpu b) s)

/-- SET_BITCRUSH_OUTPUT_MIX (43_bitcrusher.md R267). -/
def execSetBitcrushOutputMix (a : Word) (s : State) : Host.Outcome State Fault Refusal :=
  .next { s with bc := { s.bc with outMix := toFmt32 s.fpu a } }

/-- SET_DRY_MIX (45_engine_setters.md R348). -/
def execSetDryMix (a : Word) (s : State) : Host.Outcome State Fault Refusal :=
  .next { s with mix := { s.mix with dry := toFmt32 s.fpu a } }

/-- SET_WET_MIX (45_engine_setters.md R349). -/
def execSetWetMix (a : Word) (s : State) : Host.Outcome State Fault Refusal :=
  .next { s with mix := { s.mix with wet := toFmt32 s.fpu a } }

/-- SET_BYPASS (45_engine_setters.md R350). -/
def execSetBypass (on : Bool) (s : State) : Host.Outcome State Fault Refusal :=
  .next { s with mix := { s.mix with bypass := on } }

end Sys2Proof.Machine
end

