-- ==== Sys2Proof/Machine/Dispatch.lean ====
section
/-! DEFINITION. exec: one arm per command, each one call of its meaning. -/

namespace Sys2Proof.Machine

def exec (i : Instr) (s : State) : Host.Outcome State Fault Refusal :=
  match i with
  | .nop => Sys2Proof.Machine.execNop s
  | .process sw nin nout n => Sys2Proof.Machine.execProcess sw nin nout n s
  | .resetPointers => Sys2Proof.Machine.execResetPointers s
  | .clearBuffer => Sys2Proof.Machine.execClearBuffer s
  | .filterReset => Sys2Proof.Machine.execFilterReset s
  | .setSampleRate a => Sys2Proof.Machine.execSetSampleRate a s
  | .clearErr => Sys2Proof.Machine.execClearErr s
  | .setResampleRate a => Sys2Proof.Machine.execSetResampleRate a s
  | .setResampleLfo a b => Sys2Proof.Machine.execSetResampleLfo a b s
  | .setPlaybackRate a => Sys2Proof.Machine.execSetPlaybackRate a s
  | .setPlaybackLfo a b => Sys2Proof.Machine.execSetPlaybackLfo a b s
  | .setBitcrushAmount a => Sys2Proof.Machine.execSetBitcrushAmount a s
  | .setBitcrushLfo a b => Sys2Proof.Machine.execSetBitcrushLfo a b s
  | .setBitcrushOutputMix a => Sys2Proof.Machine.execSetBitcrushOutputMix a s
  | .setDryMix a => Sys2Proof.Machine.execSetDryMix a s
  | .setWetMix a => Sys2Proof.Machine.execSetWetMix a s
  | .setBypass on => Sys2Proof.Machine.execSetBypass on s
  | .limSetAttackUs a => Sys2Proof.Machine.execLimSetAttackUs a s
  | .limSetReleaseMs a => Sys2Proof.Machine.execLimSetReleaseMs a s
  | .limSetAttackNorm a => Sys2Proof.Machine.execLimSetAttackNorm a s
  | .limSetReleaseNorm a => Sys2Proof.Machine.execLimSetReleaseNorm a s
  | .limSetThreshold soft a => Sys2Proof.Machine.execLimSetThreshold soft a s
  | .limSetTrim a => Sys2Proof.Machine.execLimSetTrim a s

end Sys2Proof.Machine
end

