-- ==== Sys2Proof/Machine/HostPort.lean ====
section
/-!
DEFINITION. The register read port (10_state.md R42, R46), reset (70_reset_and_hazards.md R480 to R482), and the inputs of
the host.
-/

namespace Sys2Proof.Machine

/-! ## The register read port -/

/-- A flag register of one bit, zero-extended. -/
def readBit (b : Bool) : IoWord := if b then 1#64 else 0#64

/-- A register of the oscillator group at offset `k` (10_state.md R53). -/
def readLfo (f : Fmt) (l : Lfo) (k : Nat) : IoWord :=
  match k with
  | 0 => readBit l.en
  | 1 => fmtMask f l.ratePct
  | 2 => fmtMask f l.depth
  | 3 => fmtMask f l.inc
  | 4 => fmtMask f l.phase
  | 5 => fmtMask f l.lo
  | 6 => fmtMask f l.hi
  | _ => 0#64

/-- A register of a channel group at offset `k` (10_state.md R57). -/
def readChan (f : Fmt) (ch : Chan) (k : Nat) : IoWord :=
  match k with
  | 0 => fmtMask f ch.b0
  | 1 => fmtMask f ch.b1
  | 2 => fmtMask f ch.b2
  | 3 => fmtMask f ch.a0
  | 4 => fmtMask f ch.a1
  | 5 => fmtMask f ch.a2
  | 6 => fmtMask f ch.x1
  | 7 => fmtMask f ch.x2
  | 8 => fmtMask f ch.y1
  | 9 => fmtMask f ch.y2
  | 10 => fmtMask f ch.held
  | 11 => fmtMask f ch.lastOut
  | _ => 0#64

/-- FMT_ID (10_state.md R43). -/
def fmtId : Fmt → IoWord
  | .binary32 => 0#64
  | .binary64 => 1#64

/-- The global and unit registers of 10_state.md R42, addresses 0x000 to 0x062. -/
def readUnit (s : State) (a : Nat) : IoWord :=
  let f := s.build.fmt
  match a with
  | 0x000 => Config.idValue.setWidth 64
  | 0x001 => (statusWord s.status).setWidth 64
  | 0x002 => s.chCount.setWidth 64
  | 0x003 => BitVec.ofNat 64 s.build.nMax
  | 0x004 => BitVec.ofNat 64 s.build.maxBlock
  | 0x005 => BitVec.ofNat 64 s.build.recCap
  | 0x006 => fmtId f
  | 0x007 => fmtMask f s.fs
  | 0x008 => fmtMask f s.dsmax
  | 0x009 => fmtMask f s.gr
  | 0x010 => fmtMask f s.ds.ctrl
  | 0x011 => fmtMask f s.ds.target
  | 0x012 => fmtMask f s.ds.actual
  | 0x013 => s.ds.incr.setWidth 64
  | 0x014 => fmtMask f s.ds.rho
  | 0x020 => fmtMask f s.pb.ctrl
  | 0x021 => fmtMask f s.pb.target
  | 0x022 => fmtMask f s.pb.actual
  | 0x023 => s.pb.step
  | 0x030 => fmtMask f s.bc.amount
  | 0x031 => fmtMask f s.bc.actual
  | 0x032 => s.bc.bits.setWidth 64
  | 0x033 => fmtMask f s.bc.outMix
  | 0x040 => fmtMask f s.mix.dry
  | 0x041 => fmtMask f s.mix.wet
  | 0x042 => readBit s.mix.bypass
  | 0x050 => readBit s.lim.attMode
  | 0x051 => readBit s.lim.relMode
  | 0x052 => fmtMask f s.lim.attParam
  | 0x053 => fmtMask f s.lim.relParam
  | 0x054 => fmtMask f s.lim.att
  | 0x055 => fmtMask f s.lim.rel
  | 0x056 => fmtMask f s.lim.thrParam
  | 0x057 => readBit s.lim.soft
  | 0x058 => fmtMask f s.lim.t
  | 0x059 => fmtMask f s.lim.invT
  | 0x05A => fmtMask f s.lim.trim
  | 0x05B => fmtMask f s.lim.env
  | 0x05C => fmtMask f s.lim.gain
  | 0x060 => s.ptr.wp.setWidth 64
  | 0x061 => s.ptr.rp
  | 0x062 => s.ptr.hold.setWidth 64
  | _ => 0#64

/-- The register read port: a 64-bit value for a 12-bit address, 0 where no register is named, and no side effect
(10_state.md R42, R46). -/
def readPort (s : State) (addr : BitVec 12) : IoWord :=
  let a := addr.toNat
  if a < 0x080 then readUnit s a
  else if a < 0x090 then readLfo s.build.fmt s.dsLfo (a - 0x080)
  else if a < 0x0A0 then readLfo s.build.fmt s.pbLfo (a - 0x090)
  else if a < 0x0B0 then readLfo s.build.fmt s.bcLfo (a - 0x0A0)
  else if a < 0x100 then 0#64
  else if (a - 0x100) / 16 < s.build.nMax then readChan s.build.fmt (chanAt s ((a - 0x100) / 16)) ((a - 0x100) % 16)
  else 0#64

/-! ## Reset -/

/-- OUT_MEM after reset: unspecified, but for the words an abandoned PROCESS has written, each of which holds its old or
its new value (70_reset_and_hazards.md R482, U5). -/
def outAfterReset (s : State) : Memory (Option IoWord) :=
  match s.proc with
  | none => []
  | some p => p.outOld.foldl (fun m e =>
      Memory.write none m e.1 (admitted (Memory.read none s.outMem e.1) [e.2] (Config.race s.free (2 * e.1 + 1)))) []

/-- Reset asserted between two atomic steps: the FIFOs are emptied, a PROCESS in progress is abandoned, every register
and REC cell takes its reset value (70_reset_and_hazards.md R480 to R482). The model's own fields go on (log 23). -/
def assertReset (s : State) : State :=
  { State.resetWith s.fpu s.build with
    outMem := outAfterReset s, hostIn := s.hostIn, sched := s.sched, free := s.free }

/-- One input of the host or the platform. -/
def hostEvent (e : HostEvent) (s : State) : State :=
  match e with
  | .reset => assertReset s
  | .push p w => deliver (.push p w) s
  | .writeIn idx w => deliver (.writeIn idx w) s
  | .writeInHalf idx high w => deliver (.writeInHalf idx high w) s

end Sys2Proof.Machine
end

