-- ==== Sys2Proof/Machine/Sequencer.lean ====
section
/-!
DEFINITION. The sequencing of atomic steps: what a command from a port does, the halted block, and the decode errors (20_memory.md R105, R110, R111; 30_encoding.md R148; 60_exceptions.md R447).
-/

namespace Sys2Proof.Machine

/-- The command at the head of a port. -/
def headCommand (p : Port) (s : State) : Command :=
  { w0 := (queueOf p s).getD 0 0#32, w1 := (queueOf p s).getD 1 0#32, w2 := (queueOf p s).getD 2 0#32 }

/-- A command taken from a port runs: discarded by a halted block (60_exceptions.md R447), an error where it does not
decode (30_encoding.md R148), else its meaning. -/
def runCommand (p : Port) (s : State) : Host.Outcome State Fault Refusal :=
  if s.status.fatal then .next (takeCommand p s)
  else
    match decode p (headCommand p s) with
    | .error e => .next (raiseError (decodeErrorCode e) (takeCommand p s))
    | .ok i => exec i (takeCommand p s)

/-- The audio port's next atomic step: of the PROCESS in progress, else its next command (20_memory.md R105). -/
def audioStep (s : State) : Host.Outcome State Fault Refusal :=
  match s.proc with
  | some p => continueProcess p (tick s)
  | none => runCommand .audio s

/-- The next input of the host's script. -/
def hostStep (s : State) : Host.Outcome State Fault Refusal :=
  match s.hostIn with
  | [] => .next s
  | e :: es => .next (hostEvent e (tick { s with hostIn := es }))

/-- The next atomic step of an agent. -/
def agentStep (s : State) : Agent → Host.Outcome State Fault Refusal
  | .audio => audioStep s
  | .control => runCommand .control s
  | .host => hostStep s

/-- One atomic step; an idle block keeps its state (60_exceptions.md R458; log 21). -/
def nextStep (s : State) : Host.Outcome State Fault Refusal :=
  match mover s with
  | none => .next s
  | some a => agentStep s a

/-- The state with a command at the head of a port, that port next to move and no PROCESS in progress (log 19). -/
def offerCommand (p : Port) (c : Command) (s : State) : State :=
  let t := putQueue p (c.w0 :: c.w1 :: c.w2 :: queueOf p s) s
  { t with
    sched := (match p with | .audio => Agent.audio | .control => Agent.control) :: t.sched
    proc := match p with | .audio => none | .control => t.proc
    status := match p with | .audio => { t.status with busy := false } | .control => t.status }

end Sys2Proof.Machine
end

