-- ==== Sys2Proof/Machine/Step.lean ====
section
/-! DEFINITION. The step of the machine, and how the host places a command for it. -/

namespace Sys2Proof.Machine

/-- One atomic step of the block or of its host (20_memory.md R110, R111). -/
def step (s : State) : Host.Outcome State Fault Refusal := nextStep s

/-- The state with a command's bits where the next step takes a command: at the head of the port that accepts its opcode.
Bits from `nbits` on are 0 (log 19). -/
def State.withFetchWord (s : State) (nbits w : Nat) : State :=
  offerCommand (portFor (commandOfBits nbits w).w0) (commandOfBits nbits w) s

end Sys2Proof.Machine
end

