-- ==== Sys2Proof/Machine/Assembler.lean ====
section
/-!
DEFINITION. The assembler (30_encoding.md R170, R171, R176): a line of text to the three-word commands it stands for. The
block never sees the text.
-/

namespace Sys2Proof.Machine

/-! ## Splitting a line -/

/-- The text without its leading spaces. -/
def skipSpaces : List Char → List Char
  | [] => []
  | c :: cs => if c = ' ' then skipSpaces cs else c :: cs

/-- The text without spaces at either end. -/
def trimSpaces (t : List Char) : List Char := (skipSpaces (skipSpaces t).reverse).reverse

/-- The pieces of a text between the commas. -/
def splitCommas : List Char → List (List Char)
  | [] => [[]]
  | c :: cs =>
    if c = ',' then [] :: splitCommas cs
    else
      match splitCommas cs with
      | [] => [[c]]
      | t :: ts => (c :: t) :: ts

/-- The mnemonic of a line and the text after it. -/
def splitName (line : List Char) : List Char × List Char :=
  let t := trimSpaces line
  (t.takeWhile (fun c => c ≠ ' '), t.dropWhile (fun c => c ≠ ' '))

/-- The operands after a mnemonic: none, or texts separated by commas (R170). -/
def splitOperands (t : List Char) : List (List Char) :=
  if trimSpaces t = [] then [] else (splitCommas t).map trimSpaces

/-! ## Operands -/

/-- The value of a digit below 16, in either case of the letters; `_`, which 00_scope.md R10 has as a digit separator, is no
digit. DESIGN CHOICE (log 25). -/
def digitValue (c : Char) : Option Nat :=
  if '0' ≤ c ∧ c ≤ '9' then some (c.toNat - 48)
  else if 'A' ≤ c ∧ c ≤ 'F' then some (c.toNat - 55)
  else if 'a' ≤ c ∧ c ≤ 'f' then some (c.toNat - 87)
  else none

/-- The number that digits spell after the number `acc`. -/
def spelledAfter (base : Nat) : Nat → List Char → Option Nat
  | acc, [] => some acc
  | acc, c :: cs =>
    match digitValue c with
    | some d => if d < base then spelledAfter base (acc * base + d) cs else none
    | none => none

/-- The number that one digit or more spell. -/
def spelled (base : Nat) (t : List Char) : Option Nat :=
  match t with
  | [] => none
  | _ :: _ => spelledAfter base 0 t

/-- The binary32 pattern nearest to a fraction, ties to even (R170). -/
def roundLiteral (neg : Bool) (num den : Nat) : Word :=
  (packMag .binary32 neg (roundQ .binary32 (num * 2 ^ unitExp .binary32) den)).setWidth 32

/-- An unsigned decimal literal: digits, or digits, a point and digits. DESIGN CHOICE (log 25). -/
def decimalLiteral (neg : Bool) (t : List Char) : Option Word :=
  let whole := t.takeWhile (fun c => c ≠ '.')
  match t.dropWhile (fun c => c ≠ '.') with
  | [] => (spelled 10 whole).map (fun n => roundLiteral neg n 1)
  | _ :: frac =>
    match spelled 10 whole, spelled 10 frac with
    | some _, some _ =>
      (spelled 10 (whole ++ frac)).map (fun n => roundLiteral neg n (10 ^ frac.length))
    | _, _ => none

/-- An operand A or B: a decimal literal, or a raw bit pattern after #0x (R170). That the pattern is one hexadecimal digit or
more, its value below 2^32, is a DESIGN CHOICE (log 25): R170 shows eight digits. -/
def operandLiteral (t : List Char) : Option Word :=
  match t with
  | '#' :: '0' :: 'x' :: hex =>
    match spelled 16 hex with
    | some n => if n < 4294967296 then some (BitVec.ofNat 32 n) else none
    | none => none
  | '-' :: rest => decimalLiteral true rest
  | _ => decimalLiteral false t

/-- A flag operand: one of two names (R170). -/
def flagName (yes no : String) (t : List Char) : Option Bool :=
  if t = yes.toList then some true else if t = no.toList then some false else none

/-! ## Commands (R170) -/

/-- The opcode of a mnemonic: the lowercase form of the name in R146. -/
def opcodeNamed (name : List Char) : Option Opcode :=
  allOpcodes.find? (fun o => name == o.mnemonic.toList.map Char.toLower)

/-- A command of an opcode with a flag and its operand words, the other words 0 (R170). -/
def commandOf (o : Opcode) (flag : Bool) (a b : Word) : Command :=
  { w0 := BitVec.ofNat 32 (o.code + flagBits flag), w1 := a, w2 := b }

/-- `process.f32` or `process.f64` with NIN, NOUT and n; none where one does not fit its field (R144, R170). That the three
are decimal digits and nothing else is a DESIGN CHOICE (log 25). -/
def processLine (sw : Bool) (ops : List (List Char)) : Option Command :=
  match ops with
  | [a, b, c] =>
    match spelled 10 a, spelled 10 b, spelled 10 c with
    | some nin, some nout, some n =>
      if (Instr.process sw nin nout n).wellFormed then some (encode (.process sw nin nout n)) else none
    | _, _, _ => none
  | _ => none

/-- A line of an opcode other than PROCESS, by its format (R170). -/
def formatLine (o : Opcode) (ops : List (List Char)) : Option Command :=
  match o.format, ops with
  | .cn, [] => some (commandOf o false 0#32 0#32)
  | .ca, [a] => (operandLiteral a).map (fun w => commandOf o false w 0#32)
  | .cab, [a, b] =>
    match operandLiteral a, operandLiteral b with
    | some v, some w => some (commandOf o false v w)
    | _, _ => none
  | .cf, [f] => (flagName "on" "off" f).map (fun x => commandOf o x 0#32 0#32)
  | .caf, [a, f] =>
    match operandLiteral a, flagName "soft" "hard" f with
    | some w, some x => some (commandOf o x w 0#32)
    | _, _ => none
  | _, _ => none

/-- One command of the opcode table. -/
def commandLine (name : List Char) (ops : List (List Char)) : Option Command :=
  if name = "process.f32".toList then processLine false ops
  else if name = "process.f64".toList then processLine true ops
  else
    match opcodeNamed name with
    | some o => formatLine o ops
    | none => none

/-! ## Pseudo-instructions (R171, R176) -/

/-- The words of all the operands, where every one is a literal. -/
def literals : List (List Char) → Option (List Word)
  | [] => some []
  | t :: ts =>
    match operandLiteral t, literals ts with
    | some w, some ws => some (w :: ws)
    | _, _ => none

/-- The limiter's construction variants with four operands (R171). -/
def limiterInitLine (expand : Word → Word → Word → Bool → List Instr) (ops : List (List Char)) : Option (List Instr) :=
  match literals (ops.take 3), ops.drop 3 with
  | some [a, r, th], [k] => (flagName "soft" "hard" k).map (expand a r th)
  | _, _ => none

/-- `restore_state` with its twelve operands (R176). -/
def restoreLine (ops : List (List Char)) : Option (List Instr) :=
  match literals (ops.take 11), ops.drop 11 with
  | some [rs, bd, pb, rlr, rld, blr, bld, plr, pld, wet, dry], [byp] =>
    (flagName "on" "off" byp).map (restoreState rs bd pb rlr rld blr bld plr pld wet dry)
  | _, _ => none

/-- The expansion of a pseudo-instruction (R171, R176). -/
def pseudoLine (name : List Char) (ops : List (List Char)) : Option (List Instr) :=
  if name = "transport_start".toList then (if ops = [] then some transportStart else none)
  else if name = "transport_stop".toList then (if ops = [] then some transportStop else none)
  else if name = "limiter_init_norm".toList then limiterInitLine limiterInitNorm ops
  else if name = "limiter_init_units".toList then limiterInitLine limiterInitUnits ops
  else if name = "limiter_init_default".toList then (if ops = [] then some limiterInitDefault else none)
  else if name = "restore_state".toList then restoreLine ops
  else none

/-- The commands that a line of text stands for, in order; none where it is no line of R170, R171 or R176. -/
def assembleLine (line : List Char) : Option (List Command) :=
  let name := (splitName line).1
  let ops := splitOperands (splitName line).2
  match commandLine name ops with
  | some c => some [c]
  | none => (pseudoLine name ops).map (fun is => is.map encode)

end Sys2Proof.Machine
end

