-- ==== Sys2Proof/Machine/HostRead.lean ====
section
/-!
DEFINITION. The window on OUT_MEM (20_memory.md R107, R118; 70_reset_and_hazards.md R488): what the host reads there, the
races with the PROCESS commands it has issued included. A read has no effect on the block.
-/

namespace Sys2Proof.Machine

/-- What the audio port's steps leave at an OUT_MEM index until the PROCESS in progress and the next `left` audio commands
have completed, in the order of steps that the schedule gives, or until a reset. -/
def outAhead : Nat → Nat → Nat → State → List (Option IoWord)
  | 0, _, _, _ => []
  | k + 1, left, idx, s =>
    if left = 0 ∧ s.proc = none then []
    else
      match mover s with
      | none => []
      | some .audio =>
        match audioStep s with
        | .next t =>
          Memory.read none t.outMem idx :: outAhead k (if s.proc = none then left - 1 else left) idx t
        | _ => []
      | some .control =>
        match runCommand .control s with
        | .next t => outAhead k left idx t
        | _ => []
      | some .host =>
        if s.hostIn.head? = some .reset then []
        else
          match hostStep s with
          | .next t => outAhead k left idx t
          | _ => []

/-- What an OUT_MEM index may show the host beside its present contents: what it held before the PROCESS in progress
overwrote it, and what the PROCESS in progress and the audio commands already issued are still to write there (R488; log 10). -/
def outRace (s : State) (idx : Nat) : List (Option IoWord) :=
  outOverwritten s idx ++
    outAhead (stepsAhead s + issued s * (s.build.maxBlock + 2)) (issued s) idx s

/-- The OUT_MEM word the host reads at an index: free where no PROCESS has written it since reset
(93_implementation_defined.md U5), the old or the new word during a race (U6). -/
def outRead (s : State) (idx : Nat) : IoWord :=
  (admitted (Memory.read none s.outMem idx) (outRace s idx) (Config.race s.free (2 * idx + 1))).getD
    (Config.outWord s.free idx)

/-- The host reads a whole OUT_MEM word; `none` is the bus error outside the space (20_memory.md R107). -/
def hostReadOut (s : State) (idx : Nat) : Option IoWord :=
  if idx < ioSize s then some (outRead s idx) else none

/-- The host reads a half of an OUT_MEM word (20_memory.md R107). -/
def hostReadOutHalf (s : State) (idx : Nat) (high : Bool) : Option Word :=
  (hostReadOut s idx).map (fun (w : IoWord) => if high then (w >>> 32).setWidth 32 else w.setWidth 32)

end Sys2Proof.Machine
end

