-- ==== Sys2Proof/Safety.lean ====
section
/-!
DEFINITION. What a good state of the block is (10_state.md R62) and what a safe outcome is, in the terms the statements
use.
-/

namespace Sys2Proof.Machine

/-- The build parameters are in the ranges of 00_scope.md R7 and 92_eei_decisions.md ("Parameters left OPEN"). -/
structure Build.Valid (b : Build) : Prop where
  nMaxPos : 1 ≤ b.nMax
  nMaxLe : b.nMax ≤ 16
  maxBlockPos : 1 ≤ b.maxBlock
  maxBlockLt : b.maxBlock < 2 ^ 32
  recCapPos : 1 ≤ b.recCap
  recCapLe : b.recCap ≤ 2 ^ 24
  chInitPos : 1 ≤ b.chInit
  chInitLe : b.chInit ≤ b.nMax

/-- The PROCESS in progress fits the block (46_engine_process.md R382 to R384). -/
structure ProcFits (p : Proc) (b : Build) (channels : BitVec 8) : Prop where
  nin : p.nin ≤ b.nMax
  nout : p.nout = channels.toNat
  length : p.n ≤ b.maxBlock
  started : 1 ≤ p.n
  index : p.i ≤ p.n

/-- What holds between any two atomic steps (10_state.md R62, R44, R41; 60_exceptions.md R441, R446), and the canonical
form of the three memories. -/
structure State.Inv (s : State) : Prop where
  build : Build.Valid s.build
  chCountPos : 1 ≤ s.chCount.toNat
  chCountLe : s.chCount.toNat ≤ s.build.nMax
  chans : s.chans.length = s.build.nMax
  wp : s.ptr.wp.toNat < s.build.recCap
  rp : s.ptr.rp.toNat < s.build.recCap * 2 ^ 32
  incrPos : 1 ≤ s.ds.incr.toNat
  stepLe : s.pb.step.toNat ≤ 2 ^ 33
  bitsPos : 1 ≤ s.bc.bits.toNat
  bitsLe : s.bc.bits.toNat ≤ 16
  coeffA0 : ∀ ch ∈ s.chans, ch.a0 = s.fpu.one
  recWf : Memory.wf 0#64 s.recMem = true
  recWithin : Memory.within (s.build.nMax * s.build.recCap) s.recMem = true
  inWf : Memory.wf noInWord s.inMem = true
  inWithin : Memory.within (ioSize s) s.inMem = true
  outWf : Memory.wf none s.outMem = true
  outWithin : Memory.within (ioSize s) s.outMem = true
  outOldWithin : ∀ p, s.proc = some p → ∀ e ∈ p.outOld, e.1 < ioSize s
  proc : ∀ p, s.proc = some p → ProcFits p s.build s.chCount
  busy : s.status.busy = s.proc.isSome
  fatal : s.status.fatal = true → s.proc = none
  noError : s.status.err = false → s.status.errCode = 0#4
  errCode : s.status.errCode.toNat ≤ 5

/-- What the flags and the derived registers are a function of (10_state.md R50, R51; 46_engine_process.md R386, R387;
43_bitcrusher.md R261), and what a disabled oscillator leaves (45_engine_setters.md R353 (a)). -/
structure State.Derived (s : State) : Prop where
  dsActive : s.status.dsActive = dsActiveNow s.fpu s
  rateActive : s.status.rateActive = rateActiveNow s.fpu s
  incr : s.ds.incr = incr s.fpu s.ds.actual
  step : s.pb.step = fx s.fpu s.pb.actual
  bits : s.bc.bits = bitDepth s.fpu s.bc.actual
  dsOff : s.dsLfo.en = false → s.ds.actual = s.ds.target
  pbOff : s.pbLfo.en = false → s.pb.actual = s.pb.target
  bcOff : s.bcLfo.en = false → s.bc.actual = s.bc.amount

/-- The outcome is a next state: no fault and no refusal. -/
def goesOn (o : Host.Outcome State Fault Refusal) : Prop := ∃ t, o = .next t

/-- The setters of 45_engine_setters.md R340, 43_bitcrusher.md R265 to R267 and 44_limiter.md R311 to R316: every command
but PROCESS, the buffer commands, FILTER_RESET, NOP and CLEAR_ERR. -/
def isSetter : Instr → Bool
  | .nop | .process .. | .resetPointers | .clearBuffer | .filterReset | .clearErr => false
  | _ => true

/-- The six limiter commands (44_limiter.md R311 to R316). -/
def isLimiterCommand : Instr → Bool
  | .limSetAttackUs _ | .limSetReleaseMs _ | .limSetAttackNorm _ | .limSetReleaseNorm _ | .limSetThreshold ..
  | .limSetTrim _ => true
  | _ => false

/-- The agent that moves for a port. -/
def agentOf : Port → Agent
  | .audio => .audio
  | .control => .control

/-- Every element of the three memories reads as before. -/
def memoriesKept (s t : State) : Prop :=
  (∀ c j, recRead t c j = recRead s c j) ∧
  (∀ i, Memory.read noInWord t.inMem i = Memory.read noInWord s.inMem i) ∧
  (∀ i, Memory.read none t.outMem i = Memory.read none s.outMem i)

/-- The number a finite FMT pattern stands for, in units of 1 (0 for a NaN or an infinity, which no statement uses). -/
def valueOf (f : Fmt) (v : F) : ℚ :=
  match numOf f v with
  | .fin s m => (if s then -(m : ℚ) else (m : ℚ)) / 2 ^ unitExp f
  | _ => 0

/-- `r` is a finite pattern nearest to the number `x` among the finite patterns of the format. -/
def nearest (f : Fmt) (r : F) (x : ℚ) : Prop := ∀ c : F, isFinite f c = true → |valueOf f r - x| ≤ |valueOf f c - x|

/-- The magnitude from which on a number rounds to an infinity: half a unit in the last place above the largest finite
value (IEEE 754, 00_scope.md R14). -/
def overflowBound : Fmt → ℚ
  | .binary32 => (2 ^ 25 - 1) * 2 ^ 103
  | .binary64 => (2 ^ 54 - 1) * 2 ^ 970

/-- `r` is the number `x`, whose sign is `neg`, rounded to nearest, ties to even, overflow to infinity (00_scope.md R14). -/
structure RoundedTo (f : Fmt) (r : F) (neg : Bool) (x : ℚ) : Prop where
  sign : signOf f r = neg
  finite : isFinite f r = true ↔ |x| < overflowBound f
  overflow : overflowBound f ≤ |x| → numOf f r = .inf neg
  near : isFinite f r = true → nearest f r x
  even : isFinite f r = true → ∀ c : F, isFinite f c = true → valueOf f c ≠ valueOf f r →
    |valueOf f c - x| = |valueOf f r - x| → magOf f r % 2 = 0

/-- `r` is the pattern `v` of one format converted to another (00_scope.md R16): a finite value rounded, an infinity kept
with its sign, a NaN a NaN. -/
structure Converted (src dst : Fmt) (v r : F) : Prop where
  finite : isFinite src v = true → RoundedTo dst r (signOf src v) (valueOf src v)
  infinite : ∀ neg, numOf src v = .inf neg → numOf dst r = .inf neg
  nan : isNaN src v = true → isNaN dst r = true

/-- Every host input still to come is something other than reset. -/
def noReset (s : State) : Prop := ∀ e ∈ s.hostIn, e ≠ HostEvent.reset

/-- The running state of a channel: history, held sample, last output (45_engine_setters.md R340). -/
def runningChan (ch : Chan) : F × F × F × F × F × F := (ch.x1, ch.x2, ch.y1, ch.y2, ch.held, ch.lastOut)

end Sys2Proof.Machine
end

