-- ==== Sys2Proof/Certificates/Slice0/Obligations.lean ====
section
/-!
DEFINITION. The statements for the provers. A rule R<n> is a rule of spec/; "log n" is notes/assumptions/n.md. `u` is an
arithmetic unit: a statement about every `u` holds for every format and for every choice of the free functions and NaN
patterns.
-/

open Sys2Proof Sys2Proof.Machine

/-! ## Encoding -/

/-- Decoding the encoding of a well-formed command on a port that accepts it gives the command back (R140 to R148,
R170). -/
def Obligations.DecodeEncodeRoundTrip : Prop :=
  ∀ (i : Instr) (p : Port), i.wellFormed = true → i.opcode.acceptedOn p = true → decode p (encode i) = .ok i

/-- A decoded command is well-formed, its port accepts it, and it encodes to the words it came from, but for the words its
format ignores (R142, R144, R147, R151). -/
def Obligations.EncodeDecodeRoundTrip : Prop :=
  ∀ (p : Port) (c : Command) (i : Instr), decode p c = .ok i →
    i.wellFormed = true ∧ i.opcode.acceptedOn p = true ∧ (encode i).w0 = c.w0 ∧
    ((i.opcode.format = .ca ∨ i.opcode.format = .cab ∨ i.opcode.format = .caf ∨ i.opcode.format = .cp) →
      (encode i).w1 = c.w1) ∧
    (i.opcode.format = .cab → (encode i).w2 = c.w2)

/-- R106: byte k of a transfer carries bits [8k+7:8k] of the word, and the words come back. -/
def Obligations.TransportIsLittleEndian : Prop :=
  (∀ (w : Word) (k : Nat), k < 4 → (bytesLE 4 w.toNat)[k]? = some (w.extractLsb' (8 * k) 8)) ∧
  (∀ (w : IoWord) (k : Nat), k < 8 → (bytesLE 8 w.toNat)[k]? = some (w.extractLsb' (8 * k) 8)) ∧
  (∀ w : IoWord, ofBytesLE (bytesLE 8 w.toNat) = w.toNat) ∧
  (∀ c : Command, commandOfBytes c.bytes = c)

/-- R149: the illegal opcodes are exactly 0x06 to 0x0E, 0x1A to 0x1F and 0x26 to 0xFF, on either port. R147: 0x01 to 0x05
only on the audio port, the opcodes of 0x10 to 0x25 only on the control port, 0x00 and 0x0F on both; WRONG_PORT is exactly
the rest. Both whatever the reserved fields hold (R148). -/
def Obligations.IllegalOpcodesAndWrongPorts : Prop :=
  ∀ (p : Port) (c : Command),
    (decode p c = .error .illegalOpcode ↔
      ((0x06 ≤ (c.w0.extractLsb' 0 8).toNat ∧ (c.w0.extractLsb' 0 8).toNat ≤ 0x0E) ∨
       (0x1A ≤ (c.w0.extractLsb' 0 8).toNat ∧ (c.w0.extractLsb' 0 8).toNat ≤ 0x1F) ∨
       0x26 ≤ (c.w0.extractLsb' 0 8).toNat)) ∧
    (decode p c = .error .wrongPort ↔
      ((p = .control ∧ 0x01 ≤ (c.w0.extractLsb' 0 8).toNat ∧ (c.w0.extractLsb' 0 8).toNat ≤ 0x05) ∨
       (p = .audio ∧ 0x10 ≤ (c.w0.extractLsb' 0 8).toNat ∧ (c.w0.extractLsb' 0 8).toNat ≤ 0x19) ∨
       (p = .audio ∧ 0x20 ≤ (c.w0.extractLsb' 0 8).toNat ∧ (c.w0.extractLsb' 0 8).toNat ≤ 0x25)))

/-- R150: on a port that accepts the opcode, RESERVED_FIELD is exactly RSV not 0, or F not 0 in CN, CA and CAB, or NIN or
NOUT not 0 outside CP. -/
def Obligations.ReservedFields : Prop :=
  ∀ (p : Port) (c : Command) (o : Opcode),
    opcodeOf (c.w0.extractLsb' 0 8).toNat = some o → o.acceptedOn p = true →
    (decode p c = .error .reservedField ↔
      (c.w0.extractLsb' 9 7 ≠ 0#7 ∨
       (c.w0.getLsbD 8 = true ∧ (o.format = .cn ∨ o.format = .ca ∨ o.format = .cab)) ∨
       ((c.w0.extractLsb' 16 8 ≠ 0#8 ∨ c.w0.extractLsb' 24 8 ≠ 0#8) ∧ o.format ≠ .cp)))

/-- R151: the operand words that a format ignores change nothing about the decoding. -/
def Obligations.IgnoredWords : Prop :=
  ∀ (p : Port) (w0 w1 w2 v1 v2 : Word) (o : Opcode), opcodeOf (opField w0) = some o →
    ((o.format = .cn ∨ o.format = .cf) → decode p ⟨w0, w1, w2⟩ = decode p ⟨w0, v1, v2⟩) ∧
    ((o.format = .ca ∨ o.format = .caf ∨ o.format = .cp) → decode p ⟨w0, w1, w2⟩ = decode p ⟨w0, w1, v2⟩)

/-- Words written out from the spec's encodings (R170; 95_test_vectors.md V30.1 to V30.10) decode to their commands. -/
def Obligations.DecodeWordsOfSpec : Prop :=
  decode .control ⟨0x00000010#32, 0x00000000#32, 0x00000000#32⟩ = .ok (.setResampleRate 0x00000000#32) ∧
  decode .audio ⟨0x02020001#32, 0x00000040#32, 0x00000000#32⟩ = .ok (.process false 2 2 64) ∧
  decode .audio ⟨0x02010101#32, 0x00000010#32, 0x00000000#32⟩ = .ok (.process true 1 2 16) ∧
  decode .control ⟨0x00000011#32, 0x3F000000#32, 0x3E800000#32⟩ = .ok (.setResampleLfo 0x3F000000#32 0x3E800000#32) ∧
  decode .control ⟨0x00000119#32, 0x00000000#32, 0x00000000#32⟩ = .ok (.setBypass true) ∧
  decode .control ⟨0x00000124#32, 0x3F000000#32, 0x00000000#32⟩ = .ok (.limSetThreshold true 0x3F000000#32) ∧
  decode .audio ⟨0x00000005#32, 0x473B8000#32, 0x00000000#32⟩ = .ok (.setSampleRate 0x473B8000#32) ∧
  decode .audio ⟨0x00000002#32, 0xDEADBEEF#32, 0xDEADBEEF#32⟩ = .ok .resetPointers

/-- Lines of text assemble to the words of R170 and 95_test_vectors.md V30.1 to V30.8, and pseudo-instructions to their
expansions (R171, R176). Raw patterns are written with the eight digits R170 shows. The grammar of literals and counts,
of which the spec shows examples only, is the model's choice (notes/assumptions/25.md). -/
def Obligations.AssemblerLinesOfSpec : Prop :=
  assembleLine "nop".toList = some [⟨0x00000000#32, 0x00000000#32, 0x00000000#32⟩] ∧
  assembleLine "set_resample_rate 0.0".toList = some [⟨0x00000010#32, 0x00000000#32, 0x00000000#32⟩] ∧
  assembleLine "process.f32 2, 2, 64".toList = some [⟨0x02020001#32, 0x00000040#32, 0x00000000#32⟩] ∧
  assembleLine "process.f64 1, 2, 16".toList = some [⟨0x02010101#32, 0x00000010#32, 0x00000000#32⟩] ∧
  assembleLine "set_resample_lfo 0.5, 0.25".toList = some [⟨0x00000011#32, 0x3F000000#32, 0x3E800000#32⟩] ∧
  assembleLine "set_bypass off".toList = some [⟨0x00000019#32, 0x00000000#32, 0x00000000#32⟩] ∧
  assembleLine "lim_set_threshold 0.5, soft".toList = some [⟨0x00000124#32, 0x3F000000#32, 0x00000000#32⟩] ∧
  assembleLine "set_sample_rate 44100".toList = some [⟨0x00000005#32, 0x472C4400#32, 0x00000000#32⟩] ∧
  assembleLine "set_wet_mix #0x3F800000".toList = some [⟨0x00000018#32, 0x3F800000#32, 0x00000000#32⟩] ∧
  assembleLine "transport_start".toList =
    some [⟨0x00000003#32, 0x00000000#32, 0x00000000#32⟩, ⟨0x00000002#32, 0x00000000#32, 0x00000000#32⟩] ∧
  assembleLine "transport_stop".toList =
    some [⟨0x00000003#32, 0x00000000#32, 0x00000000#32⟩, ⟨0x00000004#32, 0x00000000#32, 0x00000000#32⟩] ∧
  assembleLine "limiter_init_norm 0.25, 0.5, 1, hard".toList =
    some [⟨0x00000022#32, 0x3E800000#32, 0x00000000#32⟩, ⟨0x00000023#32, 0x3F000000#32, 0x00000000#32⟩,
      ⟨0x00000024#32, 0x3F800000#32, 0x00000000#32⟩] ∧
  assembleLine "limiter_init_units 1000, 100, 0.5, soft".toList =
    some [⟨0x00000020#32, 0x447A0000#32, 0x00000000#32⟩, ⟨0x00000021#32, 0x42C80000#32, 0x00000000#32⟩,
      ⟨0x00000124#32, 0x3F000000#32, 0x00000000#32⟩] ∧
  assembleLine "limiter_init_default".toList = assembleLine "limiter_init_norm 0.15, 0.5, 0.5, soft".toList ∧
  assembleLine ("restore_state #0x00000001, #0x00000002, #0x00000003, #0x00000004, #0x00000005, #0x00000006, ".toList ++
      "#0x00000007, #0x00000008, #0x00000009, #0x0000000A, #0x0000000B, on".toList) =
    some [⟨0x00000010#32, 0x1#32, 0x0#32⟩, ⟨0x00000014#32, 0x2#32, 0x0#32⟩, ⟨0x00000012#32, 0x3#32, 0x0#32⟩,
      ⟨0x00000011#32, 0x4#32, 0x5#32⟩, ⟨0x00000015#32, 0x6#32, 0x7#32⟩, ⟨0x00000013#32, 0x8#32, 0x9#32⟩,
      ⟨0x00000018#32, 0xA#32, 0x0#32⟩, ⟨0x00000017#32, 0xB#32, 0x0#32⟩, ⟨0x00000119#32, 0x0#32, 0x0#32⟩]

/-! ## Sequencing -/

/-- R148, R105: where a port moves whose first three words decode to `i` and the block is not halted, `i` is well-formed
and the step is `exec i` on the state with those three words consumed. The model's own fields go on: one schedule entry is
used, the step is counted, and an audio command leaves the overwritten IN_MEM words that it was issued before (logs 5, 6
and 10). -/
def Obligations.StepRunsDecoded : Prop :=
  ∀ (s : State) (p : Port) (i : Instr),
    mover s = some (agentOf p) → (p = .audio → s.proc = none) → s.status.fatal = false →
    decode p (headCommand p s) = .ok i →
    i.wellFormed = true ∧ 3 ≤ (queueOf p s).length ∧ step s = exec i (takeCommand p s) ∧
    queueOf p (takeCommand p s) = (queueOf p s).drop 3 ∧
    takeCommand p s =
      { s with
        audioQ := (if p = .audio then s.audioQ.drop 3 else s.audioQ)
        controlQ := (if p = .control then s.controlQ.drop 3 else s.controlQ)
        inOld := (if p = .audio then ageIn s.inOld else s.inOld)
        sched := s.sched.tail, free := s.free + 1 }

/-- R443, R440: the three sources of an error. The command is abandoned: nothing changes but ERR, set, and ERR_CODE, which
the first error since the last clear keeps. The codes are those of R441: (a) 1, 2 and 3 for a decode error, (b) 5 for
SET_SAMPLE_RATE refused, (c) 4 for PROCESS beyond the geometry, which also sets FATAL. -/
def Obligations.ErrorsKeepTheFirstCode : Prop :=
  (∀ (s : State) (p : Port) (e : DecodeError),
    mover s = some (agentOf p) → (p = .audio → s.proc = none) → s.status.fatal = false →
    decode p (headCommand p s) = .error e →
    step s = .next { takeCommand p s with
      status := { s.status with
        err := true, errCode := if s.status.err then s.status.errCode else
          (match e with | .illegalOpcode => 1#4 | .wrongPort => 2#4 | .reservedField => 3#4) } }) ∧
  (∀ (s : State) (a : Word),
    (isFinite s.build.fmt (toFmt32 s.fpu a) && s.fpu.ge (toFmt32 s.fpu a) (s.fpu.ofNat 1000)) = false →
    exec (.setSampleRate a) s = .next { s with
      status := { s.status with err := true, errCode := if s.status.err then s.status.errCode else 5#4 } }) ∧
  (∀ (s : State) (sw : Bool) (nin nout n : Nat),
    (s.build.nMax < nin ∨ s.build.nMax < nout ∨ s.build.maxBlock < n) →
    exec (.process sw nin nout n) s = .next { s with
      status := { s.status with
        err := true, fatal := true, errCode := if s.status.err then s.status.errCode else 4#4 } })

/-- R447: a halted block consumes a command and discards it, with no effect on any register, memory element or STATUS bit;
and the halted state is final: however many steps run, and whatever the host pushes or writes short of a reset, every
register of the read port, REC and OUT_MEM keep the values of the halt. -/
def Obligations.HaltedIsFinal : Prop :=
  (∀ (s : State) (p : Port), s.status.fatal = true → mover s = some (agentOf p) → (p = .audio → s.proc = none) →
    step s = .next (takeCommand p s) ∧ queueOf p (takeCommand p s) = (queueOf p s).drop 3 ∧
    (takeCommand p s).status = s.status ∧ (∀ a, readPort (takeCommand p s) a = readPort s a) ∧
    memoriesKept s (takeCommand p s)) ∧
  (∀ (n : Nat) (s : State), s.status.fatal = true → s.proc = none → noReset s →
    ∃ t, Host.Core.run Sys2Proof.core n s = .next t ∧ t.status = s.status ∧ (∀ a, readPort t a = readPort s a) ∧
      (∀ c j, recRead t c j = recRead s c j) ∧
      (∀ i, Memory.read none t.outMem i = Memory.read none s.outMem i))

/-- R111: whichever agent can move, a schedule that names it makes it move, so a control command may run between any two
steps of a PROCESS and between any two audio commands. R458: where none can (no whole command in either port, no PROCESS
in progress, no host input), the block keeps its state. The schedule and the idle step are the model's own (logs 6 and
21). -/
def Obligations.EveryInterleavingAdmitted : Prop :=
  (∀ (s : State) (a : Agent) (rest : List Agent),
    canMove s a = true → mover { s with sched := a :: rest } = some a) ∧
  (∀ s : State, s.audioQ.length < 3 → s.controlQ.length < 3 → s.proc = none → s.hostIn = [] → step s = .next s)

/-! ## Invariants -/

/-- The invariant `State.Inv` (R62, R44, R41, and the canonical form of the memories) survives every step. -/
def Obligations.StepKeepsInv : Prop :=
  ∀ s t : State, s.Inv → step s = .next t → t.Inv

/-- R50, R51, R386, R387, R261, R353 (a): the flags and the derived registers stay what their rules compute, and a
disabled oscillator leaves the actual value at its target, whatever runs. -/
def Obligations.StepKeepsDerived : Prop :=
  ∀ s t : State, s.Derived → step s = .next t → t.Derived

/-- Reset establishes both invariants, in every valid build and in the reference build. -/
def Obligations.ResetEstablishesInvariants : Prop :=
  (∀ (b : Build) (k : Nat), Build.Valid b →
    (State.resetWith (configFpu b.fmt k) b).Inv ∧ (State.resetWith (configFpu b.fmt k) b).Derived) ∧
  State.reset.Inv ∧ State.reset.Derived

/-- From a state that meets the invariant, a step is a next state: no fault and no refusal (R440, R449). -/
def Obligations.StepNeverStops : Prop :=
  ∀ s : State, s.Inv → goesOn (step s)

/-! ## Commands without operands -/

/-- R403, R401, R402: NOP has no effect. RESET_POINTERS zeroes WP, RP and HOLD_CNT, and CLEAR_BUFFER writes +0 to every
REC cell; neither changes anything else. -/
def Obligations.BufferCommandsResult : Prop :=
  ∀ s : State,
    exec .nop s = .next s ∧
    exec .resetPointers s = .next { s with ptr := { wp := 0#32, rp := 0#64, hold := 0#32 } } ∧
    ∃ t, exec .clearBuffer s = .next t ∧ (∀ c j, recRead t c j = 0#64) ∧ t = { s with recMem := t.recMem }

/-- R236: FILTER_RESET zeroes the history of every channel group and changes nothing else. -/
def Obligations.FilterResetResult : Prop :=
  ∀ s : State, ∃ t, exec .filterReset s = .next t ∧ t = { s with chans := t.chans } ∧
    t.chans.length = s.chans.length ∧
    ∀ c, c < s.chans.length →
      chanAt t c = { chanAt s c with x1 := 0#64, x2 := 0#64, y1 := 0#64, y2 := 0#64 }

/-- R448: CLEAR_ERR clears ERR and ERR_CODE and leaves FATAL, DS_ACTIVE, RATE_ACTIVE, BUSY and everything else. -/
def Obligations.ClearErrResult : Prop :=
  ∀ s : State, exec .clearErr s = .next { s with status := { s.status with err := false, errCode := 0#4 } }

/-! ## Setters -/

/-- R348, R349, R267: SET_DRY_MIX, SET_WET_MIX and SET_BITCRUSH_OUTPUT_MIX store the operand, unclamped, and change
nothing else. -/
def Obligations.GainSettersResult : Prop :=
  ∀ (a : Word) (s : State),
    exec (.setDryMix a) s = .next { s with mix := { s.mix with dry := toFmt32 s.fpu a } } ∧
    exec (.setWetMix a) s = .next { s with mix := { s.mix with wet := toFmt32 s.fpu a } } ∧
    exec (.setBitcrushOutputMix a) s = .next { s with bc := { s.bc with outMix := toFmt32 s.fpu a } }

/-- R350: SET_BYPASS stores F and changes nothing else; the next step of a PROCESS in progress does what it would have
done, and no later step of it looks at BYPASS. -/
def Obligations.SetBypassResult : Prop :=
  ∀ (on : Bool) (s : State),
    exec (.setBypass on) s = .next { s with mix := { s.mix with bypass := on } } ∧
    ∀ (p : Proc) (t : State), continueProcess p s = .next t →
      continueProcess p { s with mix := { s.mix with bypass := on } } = .next { t with mix := { t.mix with bypass := on } }

/-- R265: SET_BITCRUSH_AMOUNT writes BC_AMOUNT and the BC band, and BC_ACTUAL and BC_BITS only where the BC oscillator is
off. -/
def Obligations.BitcrushAmountResult : Prop :=
  ∀ (a : Word) (s : State),
    let u := s.fpu
    let v := toFmt32 u a
    let half := u.mul s.bcLfo.depth u.half
    exec (.setBitcrushAmount a) s = .next { s with
      bc := { s.bc with
        amount := v
        actual := if s.bcLfo.en then s.bc.actual else v
        bits := if s.bcLfo.en then s.bc.bits else bitDepth u v }
      bcLfo := { s.bcLfo with lo := u.fmaxS (u.sub v half) u.zero, hi := u.fminS (u.add v half) u.one } }

/-- R266 with R208 and R206: SET_BITCRUSH_LFO writes EN, RATE_PCT, DEPTH and INC, the band where EN or DEPTH changed, and
BC_ACTUAL and BC_BITS where it turns the oscillator off. -/
def Obligations.BitcrushLfoResult : Prop :=
  ∀ (a b : Word) (s : State),
    let u := s.fpu
    let rate := toFmt32 u a
    let depth := toFmt32 u b
    let changed := (u.gt rate u.zero != s.bcLfo.en) || u.ne depth s.bcLfo.depth
    let off := s.bcLfo.en && !u.gt rate u.zero
    let half := u.mul depth u.half
    exec (.setBitcrushLfo a b) s = .next { s with
      bc := { s.bc with
        actual := if off then s.bc.amount else s.bc.actual
        bits := if off then bitDepth u s.bc.amount else s.bc.bits }
      bcLfo := { s.bcLfo with
        en := u.gt rate u.zero, ratePct := rate, depth := depth, inc := lfoInc u rate s.fs
        lo := if changed then u.fmaxS (u.sub s.bc.amount half) u.zero else s.bcLfo.lo
        hi := if changed then u.fminS (u.add s.bc.amount half) u.one else s.bcLfo.hi } }

/-- R311 to R314 with R301 to R303: the four time commands of the limiter write the mode, the parameter and the
coefficient of the attack or of the release, and nothing else. -/
def Obligations.LimiterTimesResult : Prop :=
  ∀ (a : Word) (s : State),
    let u := s.fpu
    let v := toFmt32 u a
    let us := u.fminS v (u.ofNat 1564)
    let ms := u.fminS v (u.ofNat 1572)
    exec (.limSetAttackUs a) s = .next { s with
      lim := { s.lim with
        attMode := true, attParam := v
        att := if u.gt us u.zero then u.sub u.one (u.exp2 (u.neg (u.div (u.ofNat 1000000) (u.mul us s.fs))))
               else u.one } } ∧
    exec (.limSetReleaseMs a) s = .next { s with
      lim := { s.lim with
        relMode := true, relParam := v
        rel := if u.gt ms u.zero then u.sub u.one (u.exp2 (u.neg (u.div (u.ofNat 1000) (u.mul ms s.fs))))
               else u.one } } ∧
    exec (.limSetAttackNorm a) s = .next { s with
      lim := { s.lim with attMode := false, attParam := v, att := u.pow10 (u.mul (u.neg u.two) v) } } ∧
    exec (.limSetReleaseNorm a) s = .next { s with
      lim := { s.lim with
        relMode := false, relParam := v, rel := u.pow10 (u.sub (u.neg u.two) (u.mul (u.ofNat 3) v)) } }

/-- R315 with R304: LIM_SET_THRESHOLD writes LIM_THR_PARAM, LIM_SOFT, LIM_T and LIM_INV_T, and nothing else. R316:
LIM_SET_TRIM stores the operand, unclamped, and nothing else; the detector and the gain do not read it. -/
def Obligations.LimiterThresholdAndTrimResult : Prop :=
  ∀ (soft : Bool) (a : Word) (s : State),
    let u := s.fpu
    let v := toFmt32 u a
    let t := u.pow10 (u.sub (u.mul u.two v) u.one)
    exec (.limSetThreshold soft a) s = .next { s with
      lim := { s.lim with thrParam := v, soft := soft, t := t, invT := u.div u.one t } } ∧
    exec (.limSetTrim a) s = .next { s with lim := { s.lim with trim := v } } ∧
    ∀ sig, (detect u { s.lim with trim := v } sig).env = (detect u s.lim sig).env ∧
      (detect u { s.lim with trim := v } sig).gain = (detect u s.lim sig).gain

/-- R343: `resyncEval` moves RP to WP << 32 exactly on the 1 → 0 transition of RATE_ACTIVE, recomputes RATE_ACTIVE and
DS_ACTIVE, and changes nothing else. -/
def Obligations.ResyncOnlyOnDeactivation : Prop :=
  ∀ (u : Fpu) (s : State),
    let ds := u.gt s.ds.target u.one || s.dsLfo.en
    let a := ds || u.lt s.pb.target u.one || s.pbLfo.en
    (s.status.rateActive = true ∧ a = false → (resyncEval u s).ptr.rp.toNat = s.ptr.wp.toNat * 2 ^ 32) ∧
    (¬ (s.status.rateActive = true ∧ a = false) → (resyncEval u s).ptr.rp = s.ptr.rp) ∧
    (resyncEval u s).status = { s.status with rateActive := a, dsActive := ds } ∧
    resyncEval u s = { s with
      ptr := { s.ptr with rp := (resyncEval u s).ptr.rp }, status := (resyncEval u s).status }

/-- R344 with R341, R206, R231, R386, R343: SET_RESAMPLE_RATE. -/
def Obligations.ResampleRateResult : Prop :=
  ∀ (a : Word) (s : State),
    let u := s.fpu
    let v := toFmt32 u a
    let newT := u.add u.one (u.mul (u.sub u.one v) (u.sub s.dsmax u.one))
    let actual := if s.dsLfo.en then u.mul s.ds.actual (u.div newT s.ds.target) else newT
    let half := u.mul s.dsLfo.depth (u.mul (u.sub s.dsmax u.one) u.half)
    let ds := u.gt newT u.one || s.dsLfo.en
    let active := ds || u.lt s.pb.target u.one || s.pbLfo.en
    (u.eq newT s.ds.target = true →
      exec (.setResampleRate a) s = .next { s with ds := { s.ds with ctrl := v } }) ∧
    (u.eq newT s.ds.target = false →
      exec (.setResampleRate a) s = .next { s with
        ds := { ctrl := v, target := newT, actual := actual, incr := incr u actual, rho := (lpfDesign u actual).rho }
        dsLfo := { s.dsLfo with
          lo := u.fmaxS (u.sub newT half) u.one, hi := u.fminS (u.add newT half) s.dsmax }
        chans := s.chans.map (setCoeffs u (lpfDesign u actual))
        ptr := { s.ptr with
          rp := if s.status.rateActive && !active then s.ptr.wp.setWidth 64 <<< 32 else s.ptr.rp }
        status := { s.status with rateActive := active, dsActive := ds } })

/-- R345 with R208, R206, R231, R343: SET_RESAMPLE_LFO, with the increment of R202 and the coefficients and clamps of R231
written out. -/
def Obligations.ResampleLfoResult : Prop :=
  ∀ (a b : Word) (s : State),
    let u := s.fpu
    let rate := toFmt32 u a
    let depth := toFmt32 u b
    let en := u.gt rate u.zero
    let changed := (en != s.dsLfo.en) || u.ne depth s.dsLfo.depth
    let off := s.dsLfo.en && !en
    let half := u.mul depth (u.mul (u.sub s.dsmax u.one) u.half)
    let ds := u.gt s.ds.target u.one || en
    let active := ds || u.lt s.pb.target u.one || s.pbLfo.en
    let hz := u.add (u.ofDec ⟨1, 10⟩) (u.mul rate (u.sub (u.ofNat 10) (u.ofDec ⟨1, 10⟩)))
    let ratio := u.mul (u.div u.one s.ds.target) u.half
    let low := if !u.ge ratio (u.ofDec ⟨1, 1000⟩) then u.ofDec ⟨1, 1000⟩ else ratio
    let rho := if u.gt low (u.ofDec ⟨45, 100⟩) then u.ofDec ⟨45, 100⟩ else low
    let c := u.div u.one (u.tan (u.mul u.pi rho))
    let c2 := u.mul c c
    let cs := u.mul u.sqrt2 c
    let d := u.add (u.add c2 cs) u.one
    let b0 := u.div u.one d
    exec (.setResampleLfo a b) s = .next { s with
      ds := if off then { s.ds with
          actual := s.ds.target, incr := incr u s.ds.target, rho := rho } else s.ds
      dsLfo := { s.dsLfo with
        en := en, ratePct := rate, depth := depth, inc := u.div (u.mul u.twoPi hz) s.fs
        lo := if changed then u.fmaxS (u.sub s.ds.target half) u.one else s.dsLfo.lo
        hi := if changed then u.fminS (u.add s.ds.target half) s.dsmax else s.dsLfo.hi }
      chans := if off then s.chans.map (fun ch => { ch with
          b0 := b0, b1 := u.add b0 b0, b2 := b0, a0 := u.one
          a1 := u.div (u.mul u.two (u.sub u.one c2)) d, a2 := u.div (u.add (u.sub c2 cs) u.one) d }) else s.chans
      ptr := { s.ptr with
        rp := if s.status.rateActive && !active then s.ptr.wp.setWidth 64 <<< 32 else s.ptr.rp }
      status := { s.status with rateActive := active, dsActive := ds } }

/-- R346 with R342, R206, R387, R343: SET_PLAYBACK_RATE. -/
def Obligations.PlaybackRateResult : Prop :=
  ∀ (a : Word) (s : State),
    let u := s.fpu
    let v := toFmt32 u a
    let pmin := u.ofDec ⟨1, 2⟩
    let newT := u.add pmin (u.mul v (u.sub u.one pmin))
    let actual := if s.pbLfo.en then u.mul s.pb.actual (u.div newT s.pb.target) else newT
    let half := u.mul s.pbLfo.depth (u.mul (u.sub u.one pmin) u.half)
    let ds := u.gt s.ds.target u.one || s.dsLfo.en
    let active := ds || u.lt newT u.one || s.pbLfo.en
    (u.eq newT s.pb.target = true →
      exec (.setPlaybackRate a) s = .next { s with pb := { s.pb with ctrl := v } }) ∧
    (u.eq newT s.pb.target = false →
      exec (.setPlaybackRate a) s = .next { s with
        pb := { ctrl := v, target := newT, actual := actual, step := fx u actual }
        pbLfo := { s.pbLfo with
          lo := u.fmaxS (u.sub newT half) pmin, hi := u.fminS (u.add newT half) u.one }
        ptr := { s.ptr with
          rp := if s.status.rateActive && !active then s.ptr.wp.setWidth 64 <<< 32 else s.ptr.rp }
        status := { s.status with rateActive := active, dsActive := ds } })

/-- R347 with R208, R206, R387, R343: SET_PLAYBACK_LFO. -/
def Obligations.PlaybackLfoResult : Prop :=
  ∀ (a b : Word) (s : State),
    let u := s.fpu
    let rate := toFmt32 u a
    let depth := toFmt32 u b
    let pmin := u.ofDec ⟨1, 2⟩
    let en := u.gt rate u.zero
    let changed := (en != s.pbLfo.en) || u.ne depth s.pbLfo.depth
    let off := s.pbLfo.en && !en
    let half := u.mul depth (u.mul (u.sub u.one pmin) u.half)
    let ds := u.gt s.ds.target u.one || s.dsLfo.en
    let active := ds || u.lt s.pb.target u.one || en
    exec (.setPlaybackLfo a b) s = .next { s with
      pb := if off then { s.pb with actual := s.pb.target, step := fx u s.pb.target } else s.pb
      pbLfo := { s.pbLfo with
        en := en, ratePct := rate, depth := depth, inc := lfoInc u rate s.fs
        lo := if changed then u.fmaxS (u.sub s.pb.target half) pmin else s.pbLfo.lo
        hi := if changed then u.fminS (u.add s.pb.target half) u.one else s.pbLfo.hi }
      ptr := { s.ptr with
        rp := if s.status.rateActive && !active then s.ptr.wp.setWidth 64 <<< 32 else s.ptr.rp }
      status := { s.status with rateActive := active, dsActive := ds } }

/-- R352 with R341, R206, R231, R386, R202, R301, R302, R343: SET_SAMPLE_RATE with a finite rate of at least FLOOR_HZ, and
the refusal of any other, which changes only ERR and ERR_CODE. -/
def Obligations.SampleRateResult : Prop :=
  ∀ (a : Word) (s : State),
    let u := s.fpu
    let v := toFmt32 u a
    let dsmax := u.div v (u.ofNat 1000)
    let newT := u.add u.one (u.mul (u.sub u.one s.ds.ctrl) (u.sub dsmax u.one))
    let actual := if s.dsLfo.en then u.mul s.ds.actual (u.div newT s.ds.target) else newT
    let half := u.mul s.dsLfo.depth (u.mul (u.sub dsmax u.one) u.half)
    let ds := u.gt newT u.one || s.dsLfo.en
    let active := ds || u.lt s.pb.target u.one || s.pbLfo.en
    (isFinite s.build.fmt v = true ∧ u.ge v (u.ofNat 1000) = true →
      exec (.setSampleRate a) s = .next { s with
        fs := v
        dsmax := dsmax
        ds := { s.ds with
          target := newT, actual := actual, incr := incr u actual, rho := (lpfDesign u actual).rho }
        dsLfo := { s.dsLfo with
          inc := lfoInc u s.dsLfo.ratePct v
          lo := u.fmaxS (u.sub newT half) u.one, hi := u.fminS (u.add newT half) dsmax }
        pbLfo := { s.pbLfo with inc := lfoInc u s.pbLfo.ratePct v }
        bcLfo := { s.bcLfo with inc := lfoInc u s.bcLfo.ratePct v }
        lim := { s.lim with
          att := if s.lim.attMode then attUs u s.lim.attParam v else s.lim.att
          rel := if s.lim.relMode then relMs u s.lim.relParam v else s.lim.rel }
        chans := s.chans.map (setCoeffs u (lpfDesign u actual))
        ptr := { s.ptr with
          rp := if s.status.rateActive && !active then s.ptr.wp.setWidth 64 <<< 32 else s.ptr.rp }
        status := { s.status with rateActive := active, dsActive := ds } }) ∧
    (isFinite s.build.fmt v = false ∨ u.ge v (u.ofNat 1000) = false →
      exec (.setSampleRate a) s = .next { s with
        status := { s.status with err := true, errCode := if s.status.err then s.status.errCode else 5#4 } })

/-- R340: no setter changes HOLD_CNT, WP, HELD, LAST_OUT, the filter history, LIM_ENV, LIM_GAIN or an oscillator's phase,
and none touches REC, IN_MEM or OUT_MEM; R209: nor does any other command that is not PROCESS change a phase. -/
def Obligations.SettersKeepRunningState : Prop :=
  ∀ (i : Instr) (s : State), ∃ t, exec i s = .next t ∧
    (isSetter i = true →
      t.ptr.hold = s.ptr.hold ∧ t.ptr.wp = s.ptr.wp ∧ t.chans.map runningChan = s.chans.map runningChan ∧
      t.lim.env = s.lim.env ∧ t.lim.gain = s.lim.gain ∧ memoriesKept s t) ∧
    t.dsLfo.phase = s.dsLfo.phase ∧ t.pbLfo.phase = s.pbLfo.phase ∧ t.bcLfo.phase = s.bcLfo.phase

/-! ## PROCESS: the first atomic step -/

/-- R383: a PROCESS within the geometry with n = 0 or NOUT = 0 writes nothing at all. Otherwise, under BYPASS, the words of
the block in OUT_MEM are the words of IN_MEM bit for bit (zero for a channel with no input, bits [63:32] zero for SW = 0),
no other OUT_MEM word changes, and nothing else changes. -/
def Obligations.ProcessZeroLengthAndBypass : Prop :=
  ∀ (sw : Bool) (nin nout n : Nat) (s : State),
    nin ≤ s.build.nMax → nout ≤ s.build.nMax → n ≤ s.build.maxBlock →
    ((n = 0 ∨ nout = 0) → exec (.process sw nin nout n) s = .next s) ∧
    (n ≠ 0 → nout ≠ 0 → s.mix.bypass = true →
      ∃ t, exec (.process sw nin nout n) s = .next t ∧ t = { s with outMem := t.outMem } ∧
        (∀ c i, c < nout → i < n →
          let w := if c < nin then inRead s 1 (c * s.build.maxBlock + i) else 0#64
          Memory.read none t.outMem (c * s.build.maxBlock + i) =
            some (if sw then w else (w.setWidth 32).setWidth 64)) ∧
        (∀ idx, (∀ c i, c < nout → i < n → idx ≠ c * s.build.maxBlock + i) →
          Memory.read none t.outMem idx = Memory.read none s.outMem idx))

/-- R384: only a new output channel count is a geometry change. It writes CH_COUNT, clears REC, the pointers and every
channel's history, held and last samples, and keeps everything else. -/
def Obligations.GeometryChange : Prop :=
  ∀ (nout : Nat) (s : State),
    (nout = s.chCount.toNat → changeGeometry nout s = s) ∧
    (nout ≠ s.chCount.toNat → nout < 256 →
      (changeGeometry nout s).chCount.toNat = nout ∧
      (∀ c j, recRead (changeGeometry nout s) c j = 0#64) ∧
      (changeGeometry nout s).ptr = { wp := 0#32, rp := 0#64, hold := 0#32 } ∧
      (∀ c, c < s.chans.length → chanAt (changeGeometry nout s) c =
        { chanAt s c with x1 := 0#64, x2 := 0#64, y1 := 0#64, y2 := 0#64, held := 0#64, lastOut := 0#64 }) ∧
      changeGeometry nout s = { s with
        chCount := (changeGeometry nout s).chCount, recMem := (changeGeometry nout s).recMem
        ptr := (changeGeometry nout s).ptr, chans := (changeGeometry nout s).chans })

/-- R385: with BYPASS off, where NIN ≥ 1 and every sample of input channel 0 compares equal to 0, PROCESS makes the
geometry change, copies as the bypass path does, and does nothing else. That the test must hold for the words the host
may still write while the PROCESS runs, too, is the model's choice (notes/assumptions/10.md). -/
def Obligations.ProcessSilenceCopies : Prop :=
  ∀ (sw : Bool) (nin nout n : Nat) (s : State),
    nin ≤ s.build.nMax → nout ≤ s.build.nMax → n ≤ s.build.maxBlock → n ≠ 0 → nout ≠ 0 → s.mix.bypass = false →
    let opening := { s with proc := some { sw := sw, nin := nin, nout := nout, n := n + 1, i := 0, outOld := [] } }
    1 ≤ nin → (∀ i, i < n → s.fpu.eq (toFmt s.fpu sw (inRead s 0 i)) 0#64 = true ∧
      s.fpu.eq (toFmt s.fpu sw (inRead opening 0 i)) 0#64 = true) →
    ∃ t, exec (.process sw nin nout n) s = .next t ∧ t = { changeGeometry nout s with outMem := t.outMem } ∧
      (∀ c i, c < nout → i < n →
        let w := if c < nin then inRead s 1 (c * s.build.maxBlock + i) else 0#64
        Memory.read none t.outMem (c * s.build.maxBlock + i) =
          some (if sw then w else (w.setWidth 32).setWidth 64)) ∧
      (∀ idx, (∀ c i, c < nout → i < n → idx ≠ c * s.build.maxBlock + i) →
        Memory.read none t.outMem idx = Memory.read none s.outMem idx)

/-- R388, R380: on the remaining path PROCESS makes the geometry change and runs the prologue: BUSY, the coefficients of
DS_ACTUAL where the DS oscillator runs, and frame 0 next; nothing else. That the first atomic step is all of this is
DEDUCED (log 12); that the words the host may still write race with the silence test is the model's choice
(notes/assumptions/10.md). -/
def Obligations.ProcessPrologue : Prop :=
  ∀ (sw : Bool) (nin nout n : Nat) (s : State),
    nin ≤ s.build.nMax → nout ≤ s.build.nMax → n ≤ s.build.maxBlock → n ≠ 0 → nout ≠ 0 → s.mix.bypass = false →
    let opening := { s with proc := some { sw := sw, nin := nin, nout := nout, n := n + 1, i := 0, outOld := [] } }
    (nin = 0 ∨ ∃ i, i < n ∧ (s.fpu.eq (toFmt s.fpu sw (inRead s 0 i)) 0#64 = false ∨
      s.fpu.eq (toFmt s.fpu sw (inRead opening 0 i)) 0#64 = false)) →
    let g := changeGeometry nout s
    let k := lpfDesign s.fpu s.ds.actual
    exec (.process sw nin nout n) s = .next { g with
      status := { s.status with busy := true }
      proc := some { sw := sw, nin := nin, nout := nout, n := n, i := 0, outOld := [] }
      ds := if s.dsLfo.en then { s.ds with rho := k.rho } else s.ds
      chans := if s.dsLfo.en then g.chans.map (setCoeffs s.fpu k) else g.chans }

/-! ## PROCESS: a frame -/

/-- R381, R399 with R309: the next step of a PROCESS in progress is its next frame, and after the last frame its epilogue,
which writes GR from LIM_GAIN, clears BUSY, and changes nothing else. -/
def Obligations.StepRunsFrameThenEpilogue : Prop :=
  ∀ (s : State) (p : Proc), s.Inv → s.proc = some p → mover s = some .audio →
    p.i ≤ p.n ∧
    (p.i < p.n → step s = .next (frame (tick s).fpu p (tick s))) ∧
    (p.i = p.n → step s = .next { tick s with
      gr := (if (tick s).fpu.le s.lim.gain (tick s).fpu.one then (tick s).fpu.one
             else (tick s).fpu.div (tick s).fpu.one s.lim.gain)
      status := { s.status with busy := false }, proc := none })

/-- R389 with R203 to R205 and R207: each enabled oscillator is stepped once, its value taken before its phase advances,
and the actual value and its integer image follow; a disabled one changes nothing; then the hold clamp. -/
def Obligations.FrameModulation : Prop :=
  ∀ (u : Fpu) (s : State),
    let value := fun (l : Lfo) =>
      u.add l.lo (u.mul (u.sub l.hi l.lo) (u.mul (u.add (u.sin l.phase) u.one) u.half))
    let advance := fun (l : Lfo) =>
      { l with
        phase := if u.ge (u.add l.phase l.inc) u.twoPi then u.sub (u.add l.phase l.inc) u.twoPi
                 else u.add l.phase l.inc }
    let incr' := if s.dsLfo.en then incr u (value s.dsLfo) else s.ds.incr
    modulate u s = { s with
      ds := if s.dsLfo.en then { s.ds with actual := value s.dsLfo, incr := incr' } else s.ds
      pb := if s.pbLfo.en then { s.pb with actual := value s.pbLfo, step := fx u (value s.pbLfo) } else s.pb
      bc := if s.bcLfo.en then { s.bc with actual := value s.bcLfo, bits := bitDepth u (value s.bcLfo) } else s.bc
      dsLfo := if s.dsLfo.en then advance s.dsLfo else s.dsLfo
      pbLfo := if s.pbLfo.en then advance s.pbLfo else s.pbLfo
      bcLfo := if s.bcLfo.en then advance s.bcLfo else s.bcLfo
      ptr := { s.ptr with hold := if incr'.toNat ≤ s.ptr.hold.toNat then 0#32 else s.ptr.hold } } ∧
    ∀ p : Proc, (frame u p s).ds = (modulate u s).ds ∧ (frame u p s).pb = (modulate u s).pb ∧
      (frame u p s).bc = (modulate u s).bc ∧ (frame u p s).dsLfo = (modulate u s).dsLfo ∧
      (frame u p s).pbLfo = (modulate u s).pbLfo ∧ (frame u p s).bcLfo = (modulate u s).bcLfo

/-- R391: a frame writes REC[c][WP] for every channel: the input sample, or LAST_OUT where the channel has no input; no
other REC cell changes. -/
def Obligations.FrameRecords : Prop :=
  ∀ (u : Fpu) (p : Proc) (s : State), s.ptr.wp.toNat < s.build.recCap →
    (∀ c, c < s.chCount.toNat →
      recRead (frame u p s) c s.ptr.wp.toNat =
        if c < p.nin then toFmt u p.sw (inRead s 1 (c * s.build.maxBlock + p.i)) else (chanAt s c).lastOut) ∧
    (∀ idx, (∀ c, c < s.chCount.toNat → idx ≠ c * s.build.recCap + s.ptr.wp.toNat) →
      Memory.read 0#64 (frame u p s).recMem idx = Memory.read 0#64 s.recMem idx)

/-- R390, R392: a frame whose hold counter, after the clamp, is 0 fetches REC[c][RP >> 32] as this frame left it; every
other frame keeps HELD. A channel at or above CH_COUNT is left alone. -/
def Obligations.FrameFetchOrHold : Prop :=
  ∀ (u : Fpu) (p : Proc) (s : State) (c : Nat), c < s.chans.length →
    let t := frame u p s
    let fetch := s.ptr.hold = 0#32 ∨ t.ds.incr.toNat ≤ s.ptr.hold.toNat
    (c < s.chCount.toNat → fetch → (chanAt t c).held = recRead t c (s.ptr.rp.toNat / 2 ^ 32)) ∧
    (c < s.chCount.toNat → ¬ fetch → (chanAt t c).held = (chanAt s c).held) ∧
    (s.chCount.toNat ≤ c → chanAt t c = chanAt s c)

/-- R392, R233, R234, R235: the filter's history moves only while DS_ACTIVE = 1, by the difference equation and the
denormal flush; the coefficients never move in a frame. -/
def Obligations.FrameFilter : Prop :=
  ∀ (u : Fpu) (p : Proc) (s : State) (c : Nat), c < s.chans.length → c < s.chCount.toNat →
    let t := chanAt (frame u p s) c
    let ch := chanAt s c
    let eps := u.ofDec ⟨1, 10 ^ 18⟩
    let y := u.sub (u.sub (u.add (u.add (u.mul ch.b0 t.held) (u.mul ch.b1 ch.x1)) (u.mul ch.b2 ch.x2))
      (u.mul ch.a1 ch.y1)) (u.mul ch.a2 ch.y2)
    (t.b0, t.b1, t.b2, t.a0, t.a1, t.a2) = (ch.b0, ch.b1, ch.b2, ch.a0, ch.a1, ch.a2) ∧
    (s.status.dsActive = true →
      t.x1 = t.held ∧ t.x2 = ch.x1 ∧ t.y1 = u.sub (u.add y eps) eps ∧ t.y2 = ch.y1) ∧
    (s.status.dsActive = false → (t.x1, t.x2, t.y1, t.y2) = (ch.x1, ch.x2, ch.y1, ch.y2))

/-- R393 to R395 with R262, R263, R305 to R308: the crushed signals drive the linked detector, the envelope and the gain of this
frame, and each channel's output is the mix of its dry sample and its limited signal; it is LAST_OUT and the channel's
OUT_MEM word, and no other OUT_MEM word changes. -/
def Obligations.FrameLimitsAndMixes : Prop :=
  ∀ (u : Fpu) (p : Proc) (s : State), s.chCount.toNat ≤ s.chans.length → p.i < s.build.maxBlock →
    let t := frame u p s
    let b := t.bc.bits.toNat
    let steps := u.ofNat (2 ^ (b - 1))
    let crushed := fun x => u.mul (u.mul
      (u.clampS (u.div (u.floorS (u.add (u.mul x steps) u.half)) steps) (u.neg u.one) u.one)
      (s.build.makeup.getD (b - 1) u.one)) s.bc.outMix
    let sig := fun c =>
      let x := if s.status.dsActive then (chanAt t c).y1 else (chanAt t c).held
      if 16 ≤ b then x else crushed x
    let m := ((List.range s.chCount.toNat).map sig).foldl (fun m x => if u.gt (u.absS x) m then u.absS x else m) u.zero
    let env := u.add s.lim.env (u.mul (if u.gt m s.lim.env then s.lim.att else s.lim.rel) (u.sub m s.lim.env))
    let q := u.mul env s.lim.invT
    let d := u.sub q u.one
    let gain :=
      if u.gt q u.one then
        if s.lim.soft then
          if u.lt q (u.add u.one (u.mul u.two (u.ofDec ⟨1, 4⟩))) then u.div q (u.sub q (u.mul (u.mul d d) u.inv4k))
          else u.div q (u.add u.one (u.ofDec ⟨1, 4⟩))
        else q
      else u.one
    t.lim = { s.lim with env := env, gain := gain } ∧
    (∀ c, c < s.chCount.toNat →
      let dry := if c < p.nin then toFmt u p.sw (inRead s 1 (c * s.build.maxBlock + p.i)) else 0#64
      let lim := u.clampS (u.div (u.mul (sig c) s.lim.trim) gain) (u.neg u.one) u.one
      (chanAt t c).lastOut = u.add (u.mul s.mix.dry dry) (u.mul s.mix.wet lim) ∧
      Memory.read none t.outMem (c * s.build.maxBlock + p.i) = some (fromFmt u p.sw (chanAt t c).lastOut)) ∧
    (∀ idx, (∀ c, c < s.chCount.toNat → idx ≠ c * s.build.maxBlock + p.i) →
      Memory.read none t.outMem idx = Memory.read none s.outMem idx)

/-- R396, R397, R398: the pointers advance and wrap at exactly REC_CAP and REC_CAP × 2^32, with no rounding, and after
every frame HOLD_CNT < SAMPLE_INCR. -/
def Obligations.FramePointers : Prop :=
  ∀ (u : Fpu) (p : Proc) (s : State), 1 ≤ s.build.recCap → s.build.recCap ≤ 2 ^ 24 → 1 ≤ s.ds.incr.toNat →
    let t := frame u p s
    let hold := if t.ds.incr.toNat ≤ s.ptr.hold.toNat then 0 else s.ptr.hold.toNat
    t.ptr.wp.toNat = (s.ptr.wp.toNat + 1) % s.build.recCap ∧
    t.ptr.rp.toNat = (s.ptr.rp.toNat + t.pb.step.toNat) % (s.build.recCap * 2 ^ 32) ∧
    t.ptr.hold.toNat = (if t.ds.incr.toNat ≤ hold + 1 then 0 else hold + 1) ∧
    t.ptr.hold.toNat < t.ds.incr.toNat

/-- What a frame leaves as it was: every register but DS_ACTUAL, SAMPLE_INCR, PB_ACTUAL, PB_STEP, BC_ACTUAL, BC_BITS, the
phases, LIM_ENV, LIM_GAIN, the pointers and the channel groups; STATUS whole; IN_MEM; the ports. The journal of overwritten
words, by which the model admits the old word of R118 and R482, is the model's choice (notes/assumptions/10.md): what the
frame's OUT_MEM words held joins what that journal holds, and it keeps its other entries, as `inOld` keeps all of its. -/
def Obligations.FrameLeavesTheRest : Prop :=
  ∀ (u : Fpu) (p : Proc) (s : State),
    let t := frame u p s
    t = { s with
      ds := { s.ds with actual := t.ds.actual, incr := t.ds.incr }
      pb := { s.pb with actual := t.pb.actual, step := t.pb.step }
      bc := { s.bc with actual := t.bc.actual, bits := t.bc.bits }
      dsLfo := { s.dsLfo with phase := t.dsLfo.phase }
      pbLfo := { s.pbLfo with phase := t.pbLfo.phase }
      bcLfo := { s.bcLfo with phase := t.bcLfo.phase }
      lim := { s.lim with env := t.lim.env, gain := t.lim.gain }
      ptr := t.ptr, chans := t.chans, recMem := t.recMem, outMem := t.outMem, proc := t.proc } ∧
    t.chans.length = s.chans.length ∧ t.proc.map (fun q => (q.sw, q.nin, q.nout, q.n, q.i)) = some (p.sw, p.nin, p.nout, p.n, p.i + 1) ∧
    (let before := { s with proc := some p }
     (∀ c, c < s.chCount.toNat →
       Memory.read none s.outMem (c * s.build.maxBlock + p.i) ∈ outOverwritten t (c * s.build.maxBlock + p.i)) ∧
     (∀ idx, (∀ c, c < s.chCount.toNat → idx ≠ c * s.build.maxBlock + p.i) →
       outOverwritten t idx = outOverwritten before idx) ∧
     (∀ idx, ∀ w ∈ outOverwritten before idx, w ∈ outOverwritten t idx))

/-- R400, transparency: bits at 16, the filter and every oscillator off, SAMPLE_INCR 1, WET 1, DRY 0, trim 1, RP at
WP << 32, no reduction in the frame, and finite inputs with |x| ≤ 1. Every output is then its input, bit for bit, and RP
stays at WP << 32 where PB_STEP = 2^32. -/
def Obligations.FrameTransparent : Prop :=
  ∀ (p : Proc) (s : State), s.Inv → s.proc = some p → p.i < p.n → p.nin = s.chCount.toNat →
    s.dsLfo.en = false → s.pbLfo.en = false → s.bcLfo.en = false →
    s.bc.bits = 16#8 → s.status.dsActive = false → s.ds.incr = 1#32 → s.pb.step = BitVec.ofNat 64 (2 ^ 32) →
    s.mix.wet = s.fpu.one → s.mix.dry = 0#64 → s.lim.trim = s.fpu.one →
    s.ptr.rp.toNat = s.ptr.wp.toNat * 2 ^ 32 →
    let x := fun c => toFmt s.fpu p.sw (inRead s 1 (c * s.build.maxBlock + p.i))
    (∀ c, c < s.chCount.toNat →
      isFinite s.build.fmt (x c) = true ∧ s.fpu.le (s.fpu.absS (x c)) s.fpu.one = true) →
    s.fpu.gt (s.fpu.mul (envelope s.fpu s.lim (peak s.fpu ((List.range s.chCount.toNat).map x))) s.lim.invT)
      s.fpu.one = false →
    let t := frame s.fpu p s
    (∀ c, c < s.chCount.toNat →
      Memory.read none t.outMem (c * s.build.maxBlock + p.i) = some (fromFmt s.fpu p.sw (x c)) ∧
      (s.build.fmt = .binary32 → p.sw = false →
        Memory.read none t.outMem (c * s.build.maxBlock + p.i) =
          some (((inRead s 1 (c * s.build.maxBlock + p.i)).setWidth 32).setWidth 64))) ∧
    t.ptr.rp.toNat = t.ptr.wp.toNat * 2 ^ 32

/-- R381, R399, R396, R397: a PROCESS in progress that nothing interrupts completes in its remaining frames and one
epilogue: BUSY is clear, GR is the read-out of the last gain, WP has advanced once per frame and, with the PB oscillator
off, RP by PB_STEP per frame; the audio port's words still wait. -/
def Obligations.ProcessRunsToCompletion : Prop :=
  ∀ (s : State) (p : Proc), s.Inv → s.proc = some p → s.controlQ.length < 3 → s.hostIn = [] →
    ∃ t, Host.Core.run Sys2Proof.core (p.n - p.i + 1) s = .next t ∧
      t.proc = none ∧ t.status.busy = false ∧ t.audioQ = s.audioQ ∧
      t.gr = linearGR t.fpu t.lim.gain ∧
      t.ptr.wp.toNat = (s.ptr.wp.toNat + (p.n - p.i)) % s.build.recCap ∧
      (s.pbLfo.en = false →
        t.ptr.rp.toNat = (s.ptr.rp.toNat + (p.n - p.i) * s.pb.step.toNat) % (s.build.recCap * 2 ^ 32))

/-! ## Values -/

/-- R14: the one rounding of the model answers a nearest finite pattern, an even one on a tie, and overflows to infinity
exactly from half a unit in the last place above the largest finite value. -/
def Obligations.RoundingIsNearestEven : Prop :=
  ∀ (f : Fmt) (num den : Nat), 0 < den →
    (roundQ f num den = infMag f ↔ (unitsOf f (infMag f - 1) + unitsOf f (infMag f)) * den ≤ 2 * num) ∧
    (roundQ f num den < infMag f → ∀ m, m < infMag f →
      |(unitsOf f (roundQ f num den) * den : ℤ) - num| ≤ |(unitsOf f m * den : ℤ) - num| ∧
      (m ≠ roundQ f num den →
        |(unitsOf f (roundQ f num den) * den : ℤ) - num| = |(unitsOf f m * den : ℤ) - num| →
        roundQ f num den % 2 = 0))

/-- R14: on finite operands, a finite result of an operation is nearest to the exact sum, difference, product or
quotient. -/
def Obligations.OperationsAreCorrectlyRounded : Prop :=
  ∀ (u : Fpu) (a b : F), isFinite u.fmt a = true → isFinite u.fmt b = true →
    (isFinite u.fmt (u.add a b) = true → nearest u.fmt (u.add a b) (valueOf u.fmt a + valueOf u.fmt b)) ∧
    (isFinite u.fmt (u.sub a b) = true → nearest u.fmt (u.sub a b) (valueOf u.fmt a - valueOf u.fmt b)) ∧
    (isFinite u.fmt (u.mul a b) = true → nearest u.fmt (u.mul a b) (valueOf u.fmt a * valueOf u.fmt b)) ∧
    (valueOf u.fmt b ≠ 0 → isFinite u.fmt (u.div a b) = true →
      nearest u.fmt (u.div a b) (valueOf u.fmt a / valueOf u.fmt b))

/-- R14, R15, R16: a NaN that an operation or a conversion to another format answers with is quiet: the top fraction bit
is set. The conversions are toFMT64, toFMT32 in a binary64 build, and fromFMT to the width that is not FMT's. -/
def Obligations.NanResultsAreQuiet : Prop :=
  ∀ (u : Fpu) (a b : F),
    (∀ r, r = u.add a b ∨ r = u.sub a b ∨ r = u.mul a b ∨ r = u.div a b ∨ r = u.floorS a ∨ r = toFmt64 u a →
      isNaN u.fmt r = true → r.getLsbD (fracBits u.fmt - 1) = true) ∧
    (∀ w : Word, u.fmt = .binary64 → isNaN .binary64 (toFmt32 u w) = true → (toFmt32 u w).getLsbD 51 = true) ∧
    (u.fmt = .binary32 → isNaN .binary64 (fromFmt u true a) = true → (fromFmt u true a).getLsbD 51 = true) ∧
    (u.fmt = .binary64 → isNaN .binary32 (fromFmt u false a) = true → (fromFmt u false a).getLsbD 22 = true)

/-- R143, R16: an operand word is converted exactly, in both formats. toFMT32, toFMT64 and fromFMT round a finite value to
nearest even, with overflow to infinity, and keep an infinity, a sign and a NaN; SW selects the width, and for SW = 0 bits
[63:32] of the sample are zero. -/
def Obligations.OperandConversionExact : Prop :=
  ∀ (u : Fpu) (w : Word) (x : IoWord) (v : F),
    (isFinite .binary32 (w.setWidth 64) = true →
      isFinite u.fmt (toFmt32 u w) = true ∧ valueOf u.fmt (toFmt32 u w) = valueOf .binary32 (w.setWidth 64)) ∧
    Converted .binary32 u.fmt (w.setWidth 64) (toFmt32 u w) ∧
    Converted .binary64 u.fmt x (toFmt64 u x) ∧
    toFmt u false x = toFmt32 u (x.extractLsb' 0 32) ∧ toFmt u true x = toFmt64 u x ∧
    Converted u.fmt .binary32 v (fromFmt u false v) ∧ (fromFmt u false v).extractLsb' 32 32 = 0#32 ∧
    Converted u.fmt .binary64 v (fromFmt u true v)

/-- R386: the hold length is 1 below 1 and for a NaN, else the whole part of the amount, saturated at 4294967295. R387: the
read-pointer step is 0 at or below 0 and for a NaN, else the amount times 2^32 rounded to nearest even, saturated at two
frames. R261: the bit depth is 1 at or below 0 and for a NaN, 16 from 1 up, else 1 plus the whole part of the rounded
product with 15. -/
def Obligations.IntegerImagesExact : Prop :=
  ∀ (u : Fpu) (a : F),
    let v := valueOf u.fmt a
    (u.ge a u.one = false → incr u a = 1#32) ∧
    (u.ge a u.one = true → isFinite u.fmt a = false → incr u a = 4294967295#32) ∧
    (u.ge a u.one = true → isFinite u.fmt a = true → ((incr u a).toNat : ℤ) = min ⌊v⌋ 4294967295) ∧
    (u.gt a u.zero = false → fx u a = 0#64) ∧
    (u.gt a u.zero = true → isFinite u.fmt a = false → (fx u a).toNat = 2 ^ 33) ∧
    (u.gt a u.zero = true → isFinite u.fmt a = true → 2 ≤ v → (fx u a).toNat = 2 ^ 33) ∧
    (u.gt a u.zero = true → isFinite u.fmt a = true → v < 2 →
      |((fx u a).toNat : ℚ) - v * 2 ^ 32| ≤ 1 / 2 ∧
      (|((fx u a).toNat : ℚ) - v * 2 ^ 32| = 1 / 2 → (fx u a).toNat % 2 = 0)) ∧
    (u.gt a u.zero = false → bitDepth u a = 1#8) ∧
    (u.ge a u.one = true → bitDepth u a = 16#8) ∧
    (u.gt a u.zero = true → u.ge a u.one = false →
      ((bitDepth u a).toNat : ℤ) = 1 + ⌊valueOf u.fmt (u.mul a (u.ofNat 15))⌋)

/-- R268: at 16 bits the crusher is the identity, on every pattern; below, a crushed sample before the gains is in [-1, 1]
or is a NaN (R262). -/
def Obligations.CrusherTransparentOrClipped : Prop :=
  (∀ (u : Fpu) (makeup : List F) (bits : BitVec 8) (mix x : F), 16 ≤ bits.toNat → crush u makeup bits mix x = x) ∧
  (∀ (u : Fpu) (b : Nat) (x : F), isNaN u.fmt (quantize u b x) = true ∨
    (u.le (u.neg u.one) (quantize u b x) = true ∧ u.le (quantize u b x) u.one = true))

/-- R308, R317: the limiter's output is in [-1, 1] or is a NaN, whatever the envelope, the trim and the gain. -/
def Obligations.LimiterOutputInRange : Prop :=
  ∀ (u : Fpu) (l : LimRegs) (x : F), isNaN u.fmt (limit u l x) = true ∨
    (u.le (u.neg u.one) (limit u l x) = true ∧ u.le (limit u l x) u.one = true)

/-- R306, R307: the reduction divisor is at least 1 for every q and either knee, and exactly 1 where q is not above 1,
NaN included. -/
def Obligations.GainAtLeastOne : Prop :=
  ∀ (u : Fpu) (l : LimRegs) (env : F),
    u.ge (gainOf u l env) u.one = true ∧ (u.gt (u.mul env l.invT) u.one = false → gainOf u l env = u.one)

/-- R341, R342: a control value of 1 is no reduction and normal speed, and 0 is maximal reduction and minimal speed, for
every DSMAX that is a number of the format from 1 up. 0 gives DSMAX itself where DSMAX is below 2^24 in binary32 and below
2^53 in binary64; from there on it gives the rounded 1 + (DSMAX - 1). -/
def Obligations.TargetEndpoints : Prop :=
  ∀ (u : Fpu) (dsmax : F), isFinite u.fmt dsmax = true → u.ge dsmax u.one = true →
    dsTarget u dsmax u.one = u.one ∧ u.eq (dsTarget u dsmax u.zero) (u.add u.one (u.sub dsmax u.one)) = true ∧
    (valueOf u.fmt dsmax < (match u.fmt with | .binary32 => 2 ^ 24 | .binary64 => 2 ^ 53) →
      u.eq (dsTarget u dsmax u.zero) dsmax = true) ∧
    pbTarget u u.one = u.one ∧ pbTarget u u.zero = u.ofDec ⟨1, 2⟩

/-! ## The host's side -/

/-- R42, R46, R43: the read port shows every register of the map at its address, zero-extended: the global and unit
registers, the three oscillator groups of R53 and the channel groups of R57. R44: STATUS has ERR in bit 0, FATAL in bit 1,
DS_ACTIVE in bit 2, RATE_ACTIVE in bit 3, BUSY in bit 4, ERR_CODE in bits [11:8], and 0 in every other bit. An address that
names no register reads 0: the gaps of the map, the offsets past a group's end, and the channel groups from N_MAX on. -/
def Obligations.ReadPortStatusAndGaps : Prop :=
  ∀ s : State,
    let w := readPort s 0x001#12
    let bit := fun b : Bool => if b then 1#64 else 0#64
    let f := fun v : F => match s.build.fmt with | .binary32 => (v.extractLsb' 0 32).setWidth 64 | .binary64 => v
    (w.getLsbD 0 = s.status.err ∧ w.getLsbD 1 = s.status.fatal ∧ w.getLsbD 2 = s.status.dsActive ∧
     w.getLsbD 3 = s.status.rateActive ∧ w.getLsbD 4 = s.status.busy ∧ w.extractLsb' 8 4 = s.status.errCode ∧
     ∀ b, (4 < b ∧ b < 8) ∨ 11 < b → w.getLsbD b = false) ∧
    (∀ e ∈ [
        (0x000, (0x48430007#32).setWidth 64), (0x002, s.chCount.setWidth 64), (0x003, BitVec.ofNat 64 s.build.nMax),
        (0x004, BitVec.ofNat 64 s.build.maxBlock), (0x005, BitVec.ofNat 64 s.build.recCap),
        (0x006, match s.build.fmt with | .binary32 => 0#64 | .binary64 => 1#64),
        (0x007, f s.fs), (0x008, f s.dsmax), (0x009, f s.gr),
        (0x010, f s.ds.ctrl), (0x011, f s.ds.target), (0x012, f s.ds.actual), (0x013, s.ds.incr.setWidth 64),
        (0x014, f s.ds.rho),
        (0x020, f s.pb.ctrl), (0x021, f s.pb.target), (0x022, f s.pb.actual), (0x023, s.pb.step),
        (0x030, f s.bc.amount), (0x031, f s.bc.actual), (0x032, s.bc.bits.setWidth 64), (0x033, f s.bc.outMix),
        (0x040, f s.mix.dry), (0x041, f s.mix.wet), (0x042, bit s.mix.bypass),
        (0x050, bit s.lim.attMode), (0x051, bit s.lim.relMode), (0x052, f s.lim.attParam), (0x053, f s.lim.relParam),
        (0x054, f s.lim.att), (0x055, f s.lim.rel), (0x056, f s.lim.thrParam), (0x057, bit s.lim.soft),
        (0x058, f s.lim.t), (0x059, f s.lim.invT), (0x05A, f s.lim.trim), (0x05B, f s.lim.env), (0x05C, f s.lim.gain),
        (0x060, s.ptr.wp.setWidth 64), (0x061, s.ptr.rp), (0x062, s.ptr.hold.setWidth 64)],
      readPort s (BitVec.ofNat 12 e.1) = e.2) ∧
    (∀ g ∈ [(0x080, s.dsLfo), (0x090, s.pbLfo), (0x0A0, s.bcLfo)],
      ∀ e ∈ [(0, bit g.2.en), (1, f g.2.ratePct), (2, f g.2.depth), (3, f g.2.inc), (4, f g.2.phase), (5, f g.2.lo),
          (6, f g.2.hi)],
        readPort s (BitVec.ofNat 12 (g.1 + e.1)) = e.2) ∧
    (∀ c, c < s.build.nMax → c < 240 →
      ∀ e ∈ [(0, (chanAt s c).b0), (1, (chanAt s c).b1), (2, (chanAt s c).b2), (3, (chanAt s c).a0),
          (4, (chanAt s c).a1), (5, (chanAt s c).a2), (6, (chanAt s c).x1), (7, (chanAt s c).x2), (8, (chanAt s c).y1),
          (9, (chanAt s c).y2), (10, (chanAt s c).held), (11, (chanAt s c).lastOut)],
        readPort s (BitVec.ofNat 12 (0x100 + 16 * c + e.1)) = f e.2) ∧
    ∀ a : BitVec 12,
      (0x00A ≤ a.toNat ∧ a.toNat < 0x010 ∨ 0x015 ≤ a.toNat ∧ a.toNat < 0x020 ∨ 0x024 ≤ a.toNat ∧ a.toNat < 0x030 ∨
       0x034 ≤ a.toNat ∧ a.toNat < 0x040 ∨ 0x043 ≤ a.toNat ∧ a.toNat < 0x050 ∨ 0x05D ≤ a.toNat ∧ a.toNat < 0x060 ∨
       0x063 ≤ a.toNat ∧ a.toNat < 0x080 ∨ 0x087 ≤ a.toNat ∧ a.toNat < 0x090 ∨ 0x097 ≤ a.toNat ∧ a.toNat < 0x0A0 ∨
       0x0A7 ≤ a.toNat ∧ a.toNat < 0x100 ∨
       0x100 ≤ a.toNat ∧ (s.build.nMax ≤ (a.toNat - 0x100) / 16 ∨ 12 ≤ (a.toNat - 0x100) % 16)) →
      readPort s a = 0#64

/-- R484, the entries that no transcendental function decides: the read-out after reset of the reference build
(N_MAX = 2, ..., log 2). -/
def Obligations.ResetReadOut : Prop :=
  readPort State.reset 0x000#12 = 0x0000000048430007#64 ∧ readPort State.reset 0x001#12 = 0#64 ∧
  readPort State.reset 0x002#12 = 2#64 ∧ readPort State.reset 0x007#12 = 0x00000000472C4400#64 ∧
  readPort State.reset 0x008#12 = 0x0000000042306666#64 ∧ readPort State.reset 0x009#12 = 0x000000003F800000#64 ∧
  readPort State.reset 0x013#12 = 1#64 ∧ readPort State.reset 0x014#12 = 0x000000003EE66666#64 ∧
  readPort State.reset 0x023#12 = 0x0000000100000000#64 ∧ readPort State.reset 0x032#12 = 16#64 ∧
  readPort State.reset 0x083#12 = 0x00000000376F08EB#64 ∧ readPort State.reset 0x085#12 = 0x000000003F800000#64 ∧
  readPort State.reset 0x120#12 = 0#64

/-- R480, R481, R482: reset, at any time and in any state, empties both ports, abandons a PROCESS in progress, clears
every REC cell and brings every register to its reset value. An OUT_MEM word that the abandoned PROCESS had written holds
its old value or the written one, and no other OUT_MEM word is known. The model's own fields go on (log 23). -/
def Obligations.ResetFromAnywhere : Prop :=
  ∀ (s : State) (es : List HostEvent), mover s = some .host → s.hostIn = .reset :: es →
    ∃ t, step s = .next t ∧ t.audioQ = [] ∧ t.controlQ = [] ∧ t.proc = none ∧
      (∀ c j, recRead t c j = 0#64) ∧ (∀ i, Memory.read noInWord t.inMem i = noInWord) ∧
      (s.proc = none → ∀ i, Memory.read none t.outMem i = none) ∧
      (∀ p, s.proc = some p → ∀ i, (∀ e ∈ p.outOld, e.1 ≠ i) → Memory.read none t.outMem i = none) ∧
      (∀ p, s.proc = some p → ∀ i, (∃ e ∈ p.outOld, e.1 = i) →
        Memory.read none t.outMem i = Memory.read none s.outMem i ∨ Memory.read none t.outMem i ∈ outOverwritten s i) ∧
      (∀ a, readPort t a = readPort (State.resetWith (configFpu s.build.fmt (s.free + 1)) s.build) a) ∧
      t = { State.resetWith (configFpu s.build.fmt (s.free + 1)) s.build with
        outMem := t.outMem, hostIn := es, sched := s.sched.tail, free := s.free + 1 }

/-- R107: a host write to IN_MEM outside the space changes nothing; inside, it puts the word or the half in place and
changes no other word, no register, no STATUS bit, no REC cell, no OUT_MEM word and no port. What the word held is kept
exactly while a PROCESS is in progress or an audio command waits, and the words kept before stay: this journal, by which
the model admits the old word of R118 and R488, is the model's choice (notes/assumptions/10.md). -/
def Obligations.HostWritesInMem : Prop :=
  ∀ (s : State) (idx : Nat) (w : IoWord) (high : Bool) (h : Word),
    (ioSize s ≤ idx → hostWriteIn idx w s = s ∧ hostWriteInHalf idx high h s = s ∧ hostReadOut s idx = none) ∧
    (idx < ioSize s →
      Memory.read noInWord (hostWriteIn idx w s).inMem idx =
        { lo := some (w.extractLsb' 0 32), hi := some (w.extractLsb' 32 32) } ∧
      Memory.read noInWord (hostWriteInHalf idx high h s).inMem idx =
        (if high then { Memory.read noInWord s.inMem idx with hi := some h }
         else { Memory.read noInWord s.inMem idx with lo := some h }) ∧
      ∀ t, t = hostWriteIn idx w s ∨ t = hostWriteInHalf idx high h s →
        t = { s with inMem := t.inMem, inOld := t.inOld } ∧
        (∀ j, j ≠ idx → Memory.read noInWord t.inMem j = Memory.read noInWord s.inMem j) ∧
        (∀ a, readPort t a = readPort s a) ∧
        (s.proc.isSome = true ∨ s.audioQ ≠ [] →
          inOverwritten t idx = Memory.read noInWord s.inMem idx :: inOverwritten s idx) ∧
        (s.proc = none → s.audioQ = [] → t.inOld = s.inOld) ∧
        (∀ j, j ≠ idx → inOverwritten t j = inOverwritten s j))

/-- R118, R488: both values of a race are admitted. What a PROCESS reads at an IN_MEM index and the host at an OUT_MEM index
is the present word or one of the raced words, and some choice yields each of them; with no race it is the present word.
The raced words hold: at OUT_MEM, every word that the audio commands already issued leave there, in every run with no reset
and no further audio word, whatever else the host and the control port do; at IN_MEM, for a frame, every word that stands
there in any later state up to the completion, in every run with no reset, and for the next audio command, the word that a
host write took away while it waited. The limits of the windows that the spec leaves open, and which word a read takes, are
the model's choice (notes/assumptions/8.md to 10.md). -/
def Obligations.RacesAdmitOldOrNew : Prop :=
  ∀ (s : State) (site idx : Nat),
    (∃ w ∈ Memory.read noInWord s.inMem idx :: inRace s idx,
      inRead s site idx = halfOr s.free site (2 * idx + 1) w.hi ++ halfOr s.free site (2 * idx) w.lo) ∧
    (∀ w ∈ Memory.read noInWord s.inMem idx :: inRace s idx,
      ∃ choice, admitted (Memory.read noInWord s.inMem idx) (inRace s idx) choice = w) ∧
    (∃ w ∈ Memory.read none s.outMem idx :: outRace s idx, outRead s idx = w.getD (Config.outWord s.free idx)) ∧
    (∀ w ∈ Memory.read none s.outMem idx :: outRace s idx,
      ∃ choice, admitted (Memory.read none s.outMem idx) (outRace s idx) choice = w) ∧
    (s.proc = none → s.audioQ = [] → ∀ w, Memory.read none s.outMem idx = some w → outRead s idx = w) ∧
    (inOverwritten s idx = [] → (s.proc = none ∨ s.hostIn = []) →
      ∀ lo hi, Memory.read noInWord s.inMem idx = { lo := some lo, hi := some hi } → inRead s site idx = hi ++ lo) ∧
    (∀ w, s.audioQ ≠ [] → idx < ioSize s →
      Memory.read noInWord s.inMem idx ∈ inRace (takeCommand .audio (hostWriteIn idx w s)) idx) ∧
    (∀ (p : Proc) (m : State), s.proc = some p → p.i < p.n → continueProcess p s = .next m → noReset s →
      ∀ k t, Host.Core.run Sys2Proof.core k m = .next t →
        (∀ j < k, ∃ r, Host.Core.run Sys2Proof.core j m = .next r ∧ r.proc.isSome = true) →
        Memory.read noInWord t.inMem idx ∈ Memory.read noInWord s.inMem idx :: inRace s idx) ∧
    ((∀ e ∈ s.hostIn, e ≠ .reset ∧ ∀ w, e ≠ .push .audio w) →
      ∀ k t, Host.Core.run Sys2Proof.core k s = .next t →
        Memory.read none t.outMem idx ∈ Memory.read none s.outMem idx :: outRace s idx)
end

