-- ==== Sys2Proof/Laws/Rounding.lean ====
section
/-!
SUPPORT. The laws of the one rounding (00_scope.md R14): `roundHalfEven` answers a nearest whole number, a magnitude
pattern is a binade and a significand, and `roundQ` is monotone and exact on values of the format.
-/

namespace Sys2Proof.Laws

open Sys2Proof Sys2Proof.Machine

/-- The answer lies within half of the quotient, from above. -/
theorem roundHalfEven_le (num den : Nat) (h : 0 < den) : 2 * (roundHalfEven num den * den) ≤ 2 * num + den := by
  have hq := Nat.div_add_mod num den
  have hr := Nat.mod_lt num h
  have hc := Nat.mul_comm den (num / den)
  unfold roundHalfEven
  simp only
  split
  · omega
  · split
    · rw [Nat.add_mul]; omega
    · split
      · omega
      · rw [Nat.add_mul]; omega

/-- The answer lies within half of the quotient, from below. -/
theorem le_roundHalfEven (num den : Nat) (h : 0 < den) : 2 * num ≤ 2 * (roundHalfEven num den * den) + den := by
  have hq := Nat.div_add_mod num den
  have hr := Nat.mod_lt num h
  have hc := Nat.mul_comm den (num / den)
  unfold roundHalfEven
  simp only
  split
  · omega
  · split
    · rw [Nat.add_mul]; omega
    · split
      · omega
      · rw [Nat.add_mul]; omega

/-- A tie from above answers an even number. -/
theorem roundHalfEven_tie_up (num den : Nat) (h : 0 < den)
    (ht : 2 * (roundHalfEven num den * den) = 2 * num + den) : roundHalfEven num den % 2 = 0 := by
  have hq := Nat.div_add_mod num den
  have hr := Nat.mod_lt num h
  have hc := Nat.mul_comm den (num / den)
  revert ht
  unfold roundHalfEven
  simp only
  split
  · omega
  · split
    · rw [Nat.add_mul]; omega
    · split
      · omega
      · omega

/-- A tie from below answers an even number. -/
theorem roundHalfEven_tie_down (num den : Nat) (h : 0 < den)
    (ht : 2 * num = 2 * (roundHalfEven num den * den) + den) : roundHalfEven num den % 2 = 0 := by
  have hq := Nat.div_add_mod num den
  have hr := Nat.mod_lt num h
  have hc := Nat.mul_comm den (num / den)
  revert ht
  unfold roundHalfEven
  simp only
  split
  · omega
  · split
    · rw [Nat.add_mul]; omega
    · split
      · omega
      · rw [Nat.add_mul]; omega

theorem roundHalfEven_mono {n d n' d' : Nat} (hd : 0 < d) (hd' : 0 < d') (h : n * d' ≤ n' * d) :
    roundHalfEven n d ≤ roundHalfEven n' d' := by
  by_contra hlt
  have h1 := roundHalfEven_le n d hd
  have h2 := le_roundHalfEven n' d' hd'
  have e1 := roundHalfEven_tie_up n d hd
  have e2 := roundHalfEven_tie_down n' d' hd'
  generalize roundHalfEven n d = r at *
  generalize roundHalfEven n' d' = r' at *
  have hpos : 0 < d * d' := Nat.mul_pos hd hd'
  have h1' := Nat.mul_le_mul_right d' h1
  have h2' := Nat.mul_le_mul_right d h2
  have k1 : 2 * (r * (d * d')) ≤ 2 * (r' * (d * d')) + 2 * (d * d') := by nlinarith
  have k2 : (r' + 1) * (d * d') ≤ r * (d * d') := Nat.mul_le_mul_right _ (by omega)
  have hrr : r = r' + 1 := by
    by_contra hne
    have : (r' + 2) * (d * d') ≤ r * (d * d') := Nat.mul_le_mul_right _ (by omega)
    nlinarith
  subst hrr
  have t1 : 2 * ((r' + 1) * d) = 2 * n + d := by
    apply Nat.eq_of_mul_eq_mul_right hd'
    nlinarith
  have t2 : 2 * n' = 2 * (r' * d') + d' := by
    apply Nat.eq_of_mul_eq_mul_right hd
    nlinarith
  have := e1 t1
  have := e2 t2
  omega

theorem roundHalfEven_exact (k d : Nat) (hd : 0 < d) : roundHalfEven (k * d) d = k := by
  unfold roundHalfEven
  simp [Nat.mul_div_cancel _ hd, hd]

theorem roundHalfEven_one (k : Nat) : roundHalfEven k 1 = k := by simpa using roundHalfEven_exact k 1 (by omega)

theorem roundHalfEven_pos_of_le (num den k : Nat) (hd : 0 < den) (h : k * den ≤ num) : k ≤ roundHalfEven num den := by
  have := roundHalfEven_mono (n := k * 1) (d := 1) (n' := num) (d' := den) (by omega) hd (by simpa using h)
  simpa only [Nat.mul_one, roundHalfEven_one] using this

theorem roundHalfEven_le_of_le (num den k : Nat) (hd : 0 < den) (h : num ≤ k * den) : roundHalfEven num den ≤ k := by
  have := roundHalfEven_mono (n := num) (d := den) (n' := k * 1) (d' := 1) hd (by omega) (by simpa using h)
  simpa only [Nat.mul_one, roundHalfEven_one] using this


/-! ## Patterns and units -/

theorem fracPow_pos (f : Fmt) : 0 < 2 ^ fracBits f := Nat.two_pow_pos _

/-- The units of a pattern written as a binade and a significand. -/
theorem unitsOf_binade (f : Fmt) (d m : Nat) (hm : m ≤ 2 * 2 ^ fracBits f) (h : d = 0 ∨ 2 ^ fracBits f ≤ m) :
    unitsOf f (d * 2 ^ fracBits f + m) = m * 2 ^ d := by
  have hP := fracPow_pos f
  unfold unitsOf
  generalize 2 ^ fracBits f = P at *
  simp only
  by_cases h1 : m < P
  · have hd : d = 0 := by omega
    subst hd
    simp [Nat.div_eq_of_lt h1]
  · by_cases h2 : m < 2 * P
    · have e1 : (d * P + m) / P = d + 1 := by
        rw [show d * P + m = (m - P) + (d + 1) * P by rw [Nat.add_mul]; omega, Nat.add_mul_div_right _ _ hP,
          Nat.div_eq_of_lt (by omega)]; omega
      have e2 : (d * P + m) % P = m - P := by
        rw [show d * P + m = (m - P) + (d + 1) * P by rw [Nat.add_mul]; omega, Nat.add_mul_mod_self_right,
          Nat.mod_eq_of_lt (by omega)]
      rw [e1, e2, if_neg (by omega), Nat.add_sub_cancel]
      congr 1; omega
    · have hm2 : m = 2 * P := by omega
      have e1 : (d * P + m) / P = d + 2 := by
        rw [show d * P + m = 0 + (d + 2) * P by rw [Nat.add_mul]; omega, Nat.add_mul_div_right _ _ hP]; simp
      have e2 : (d * P + m) % P = 0 := by
        rw [show d * P + m = 0 + (d + 2) * P by rw [Nat.add_mul]; omega, Nat.add_mul_mod_self_right]; simp
      rw [e1, e2, if_neg (by omega), hm2, show d + 2 - 1 = d + 1 by omega, Nat.pow_succ]
      ring

/-- Every pattern is a binade and a significand. -/
theorem binade_of (f : Fmt) (mag : Nat) : ∃ d m, mag = d * 2 ^ fracBits f + m ∧ m < 2 * 2 ^ fracBits f ∧
    (d = 0 ∨ 2 ^ fracBits f ≤ m) := by
  have hP := fracPow_pos f
  generalize 2 ^ fracBits f = P at *
  have h1 := Nat.div_add_mod mag P
  have h2 := Nat.mod_lt mag hP
  by_cases h : mag / P = 0
  · refine ⟨0, mag, by omega, ?_, .inl rfl⟩
    rw [h, Nat.mul_zero] at h1; omega
  · refine ⟨mag / P - 1, P + mag % P, ?_, by omega, .inr (by omega)⟩
    rw [Nat.sub_mul, Nat.one_mul]
    have : P ≤ mag / P * P := Nat.le_mul_of_pos_left P (Nat.pos_of_ne_zero h)
    rw [Nat.mul_comm] at h1; omega

theorem unitsOf_strictMono (f : Fmt) {a b : Nat} (h : a < b) : unitsOf f a < unitsOf f b := by
  obtain ⟨d, m, ha, hm, hd⟩ := binade_of f a
  obtain ⟨d', m', hb, hm', hd'⟩ := binade_of f b
  have hP := fracPow_pos f
  rw [ha, hb, unitsOf_binade f d m (by omega) hd, unitsOf_binade f d' m' (by omega) hd']
  rw [ha, hb] at h
  generalize 2 ^ fracBits f = P at *
  rcases Nat.lt_trichotomy d d' with hlt | heq | hgt
  · have h2 : 2 ^ (d + 1) ≤ 2 ^ d' := Nat.pow_le_pow_right (by omega) hlt
    have hP' : P ≤ m' := by omega
    calc m * 2 ^ d < (2 * P) * 2 ^ d := Nat.mul_lt_mul_of_pos_right hm (Nat.two_pow_pos d)
      _ = P * 2 ^ (d + 1) := by rw [Nat.pow_succ]; ring
      _ ≤ m' * 2 ^ d' := Nat.mul_le_mul hP' h2
  · subst heq
    exact Nat.mul_lt_mul_of_pos_right (by omega) (Nat.two_pow_pos d)
  · exfalso
    have : (d' + 1) * P ≤ d * P := Nat.mul_le_mul_right _ hgt
    rw [Nat.add_mul] at this
    omega

theorem unitsOf_mono (f : Fmt) {a b : Nat} (h : a ≤ b) : unitsOf f a ≤ unitsOf f b := by
  rcases Nat.lt_or_eq_of_le h with h | h
  · exact Nat.le_of_lt (unitsOf_strictMono f h)
  · rw [h]

theorem le_of_unitsOf_le (f : Fmt) {a b : Nat} (h : unitsOf f a ≤ unitsOf f b) : a ≤ b := by
  by_contra hc
  have := unitsOf_strictMono f (Nat.lt_of_not_le hc)
  omega

/-! ## The one rounding -/

theorem roundShift_zero (f : Fmt) (q : Nat) (h : q < 2 ^ (fracBits f + 1)) : roundShift f q = 0 := by
  simp [roundShift, h]

/-- A quotient of at least two to the fraction width plus one lies in the binade of its shift. -/
theorem roundShift_binade (f : Fmt) (q : Nat) (h : ¬ q < 2 ^ (fracBits f + 1)) :
    2 ^ fracBits f * 2 ^ roundShift f q ≤ q ∧ q < 2 ^ fracBits f * 2 ^ (roundShift f q + 1) := by
  have hq : q ≠ 0 := by have := Nat.two_pow_pos (fracBits f + 1); omega
  have h1 : fracBits f + 1 ≤ Nat.log2 q := (Nat.le_log2 hq).mpr (by omega)
  have h2 := Nat.log2_self_le hq
  have h3 := @Nat.lt_log2_self q
  rw [← Nat.pow_add, ← Nat.pow_add]
  simp only [roundShift, h, if_false]
  rw [show fracBits f + (Nat.log2 q - fracBits f) = Nat.log2 q by omega,
    show fracBits f + (Nat.log2 q - fracBits f + 1) = Nat.log2 q + 1 by omega]
  exact ⟨h2, h3⟩

theorem roundShift_mono (f : Fmt) {q q' : Nat} (h : q ≤ q') : roundShift f q ≤ roundShift f q' := by
  by_cases h1 : q < 2 ^ (fracBits f + 1)
  · rw [roundShift_zero f q h1]; omega
  · have a := roundShift_binade f q h1
    have b := roundShift_binade f q' (by omega)
    by_contra hc
    have : 2 ^ (roundShift f q' + 1) ≤ 2 ^ roundShift f q := Nat.pow_le_pow_right (by omega) (by omega)
    have := Nat.mul_le_mul_left (2 ^ fracBits f) this
    omega

/-- The significand that `roundQ` rounds to. -/
def significand (f : Fmt) (num den : Nat) : Nat := roundHalfEven num (den * 2 ^ roundShift f (num / den))

theorem roundQ_eq (f : Fmt) (num den : Nat) :
    roundQ f num den = min (roundShift f (num / den) * 2 ^ fracBits f + significand f num den) (infMag f) := rfl

theorem significand_bounds (f : Fmt) (num den : Nat) (hd : 0 < den) :
    significand f num den ≤ 2 * 2 ^ fracBits f ∧
      (roundShift f (num / den) = 0 ∨ 2 ^ fracBits f ≤ significand f num den) := by
  have hP := fracPow_pos f
  have hdp : 0 < den * 2 ^ roundShift f (num / den) := Nat.mul_pos hd (Nat.two_pow_pos _)
  have hq := Nat.div_add_mod num den
  have hr := Nat.mod_lt num hd
  unfold significand
  by_cases h : num / den < 2 ^ (fracBits f + 1)
  · rw [roundShift_zero f _ h]
    refine ⟨roundHalfEven_le_of_le _ _ _ (by simpa using hd) ?_, .inl rfl⟩
    rw [Nat.pow_succ] at h
    have : num < (2 ^ fracBits f * 2) * den := by
      rw [← Nat.div_lt_iff_lt_mul hd]; exact h
    rw [Nat.pow_zero, Nat.mul_one, Nat.mul_comm 2]
    omega
  · have hb := roundShift_binade f _ h
    generalize roundShift f (num / den) = d at *
    constructor
    · apply roundHalfEven_le_of_le _ _ _ hdp
      have h2 := hb.2
      rw [Nat.div_lt_iff_lt_mul hd, Nat.pow_succ] at h2
      have : 2 ^ fracBits f * (2 ^ d * 2) * den = 2 * 2 ^ fracBits f * (den * 2 ^ d) := by ring
      omega
    · right
      apply roundHalfEven_pos_of_le _ _ _ hdp
      have h1 := hb.1
      rw [Nat.le_div_iff_mul_le hd] at h1
      have : 2 ^ fracBits f * 2 ^ d * den = 2 ^ fracBits f * (den * 2 ^ d) := by ring
      omega

/-- The rounding is monotone in the quotient. -/
theorem roundQ_mono (f : Fmt) {n d n' d' : Nat} (hd : 0 < d) (hd' : 0 < d') (h : n * d' ≤ n' * d) :
    roundQ f n d ≤ roundQ f n' d' := by
  have hq : n / d ≤ n' / d' := by
    rw [Nat.le_div_iff_mul_le hd']
    have h1 : n / d * d ≤ n := Nat.div_mul_le_self n d
    have h2 := Nat.mul_le_mul_right d' h1
    have h3 : n / d * d' * d ≤ n' * d := by
      calc n / d * d' * d = n / d * d * d' := by ring
        _ ≤ n * d' := h2
        _ ≤ n' * d := h
    exact Nat.le_of_mul_le_mul_right h3 hd
  have hs := roundShift_mono f hq
  have b := significand_bounds f n d hd
  have b' := significand_bounds f n' d' hd'
  rw [roundQ_eq, roundQ_eq]
  apply min_le_min _ (le_refl _)
  rcases Nat.lt_or_eq_of_le hs with hlt | heq
  · have : (roundShift f (n / d) + 1) * 2 ^ fracBits f ≤ roundShift f (n' / d') * 2 ^ fracBits f :=
      Nat.mul_le_mul_right _ hlt
    rw [Nat.add_mul] at this
    omega
  · rw [heq]
    apply Nat.add_le_add_left
    unfold significand
    rw [heq]
    apply roundHalfEven_mono (Nat.mul_pos hd (Nat.two_pow_pos _)) (Nat.mul_pos hd' (Nat.two_pow_pos _))
    calc n * (d' * 2 ^ roundShift f (n' / d')) = n * d' * 2 ^ roundShift f (n' / d') := by ring
      _ ≤ n' * d * 2 ^ roundShift f (n' / d') := Nat.mul_le_mul_right _ h
      _ = n' * (d * 2 ^ roundShift f (n' / d')) := by ring

/-- A value of the format is left as it is. -/
theorem roundQ_exact (f : Fmt) (mag d : Nat) (hd : 0 < d) (hm : mag ≤ infMag f) :
    roundQ f (unitsOf f mag * d) d = mag := by
  have hP := fracPow_pos f
  obtain ⟨e, m, ha, hlt, he⟩ := binade_of f mag
  have hu : unitsOf f mag = m * 2 ^ e := by rw [ha]; exact unitsOf_binade f e m (by omega) he
  have hq : unitsOf f mag * d / d = m * 2 ^ e := by rw [hu, Nat.mul_div_cancel _ hd]
  have hs : roundShift f (m * 2 ^ e) = e := by
    by_cases h : m * 2 ^ e < 2 ^ (fracBits f + 1)
    · rw [roundShift_zero f _ h]
      by_contra hne
      have he' : 2 ^ fracBits f ≤ m := by omega
      have : 2 ^ 1 ≤ 2 ^ e := Nat.pow_le_pow_right (by omega) (by omega)
      have := Nat.mul_le_mul he' this
      rw [Nat.pow_succ] at h
      omega
    · have hb := roundShift_binade f _ h
      have he' : 2 ^ fracBits f ≤ m := by
        rcases he with he | he
        · subst he; rw [Nat.pow_succ] at h; omega
        · exact he
      have h1 : e ≤ roundShift f (m * 2 ^ e) := by
        by_contra hc
        have : 2 ^ (roundShift f (m * 2 ^ e) + 1) ≤ 2 ^ e := Nat.pow_le_pow_right (by omega) (by omega)
        have := Nat.mul_le_mul he' this
        omega
      have h2 : roundShift f (m * 2 ^ e) ≤ e := by
        by_contra hc
        have : 2 ^ (e + 1) ≤ 2 ^ roundShift f (m * 2 ^ e) := Nat.pow_le_pow_right (by omega) (by omega)
        have h3 := Nat.mul_le_mul_left (2 ^ fracBits f) this
        have h4 : m * 2 ^ e < 2 * 2 ^ fracBits f * 2 ^ e := Nat.mul_lt_mul_of_pos_right hlt (Nat.two_pow_pos e)
        have h5 : 2 ^ fracBits f * 2 ^ (e + 1) = 2 * 2 ^ fracBits f * 2 ^ e := by rw [Nat.pow_succ]; ring
        omega
      omega
  rw [roundQ_eq, significand, hq, hs, hu, show m * 2 ^ e * d = m * (d * 2 ^ e) by ring,
    roundHalfEven_exact m _ (Nat.mul_pos hd (Nat.two_pow_pos e)), ← ha]
  omega

theorem roundQ_le_inf (f : Fmt) (num den : Nat) : roundQ f num den ≤ infMag f := by
  rw [roundQ_eq]; exact min_le_right _ _

/-- A quotient at or below a value of the format rounds to at most that value. -/
theorem roundQ_le_of_le (f : Fmt) (num den mag : Nat) (hd : 0 < den) (hm : mag ≤ infMag f)
    (h : num ≤ unitsOf f mag * den) : roundQ f num den ≤ mag := by
  have := roundQ_mono f (n := num) (d := den) (n' := unitsOf f mag * 1) (d' := 1) hd (by omega) (by simpa using h)
  rwa [roundQ_exact f mag 1 (by omega) hm] at this

/-- A quotient at or above a value of the format rounds to at least that value. -/
theorem le_roundQ_of_le (f : Fmt) (num den mag : Nat) (hd : 0 < den) (hm : mag ≤ infMag f)
    (h : unitsOf f mag * den ≤ num) : mag ≤ roundQ f num den := by
  have := roundQ_mono f (n := unitsOf f mag * 1) (d := 1) (n' := num) (d' := den) (by omega) hd (by simpa using h)
  rwa [roundQ_exact f mag 1 (by omega) hm] at this

/-- The two neighbours of a quotient: the pattern at or below it, `e · 2^frac + k`, and the next; the rounding answers the
one that its half-even significand `r` picks, capped at infinity. -/
theorem roundQ_neighbours (f : Fmt) (num den : Nat) (hd : 0 < den) :
    ∃ e k r, (e = 0 ∨ 2 ^ fracBits f ≤ k) ∧ k < 2 * 2 ^ fracBits f ∧
      unitsOf f (e * 2 ^ fracBits f + k) = k * 2 ^ e ∧ unitsOf f (e * 2 ^ fracBits f + k + 1) = (k + 1) * 2 ^ e ∧
      k * 2 ^ e * den ≤ num ∧ num < (k + 1) * 2 ^ e * den ∧
      r = roundHalfEven num (den * 2 ^ e) ∧ (r = k ∨ r = k + 1) ∧
      2 * (r * (den * 2 ^ e)) ≤ 2 * num + den * 2 ^ e ∧ 2 * num ≤ 2 * (r * (den * 2 ^ e)) + den * 2 ^ e ∧
      roundQ f num den = min (e * 2 ^ fracBits f + r) (infMag f) := by
  obtain ⟨q, hq⟩ : ∃ q, q = num / den := ⟨_, rfl⟩
  obtain ⟨e, he⟩ : ∃ e, e = roundShift f q := ⟨_, rfl⟩
  have hP := fracPow_pos f
  have hE : 0 < 2 ^ e := Nat.two_pow_pos e
  have hk : (e = 0 ∨ 2 ^ fracBits f ≤ q / 2 ^ e) ∧ q / 2 ^ e < 2 * 2 ^ fracBits f := by
    by_cases h : q < 2 ^ (fracBits f + 1)
    · have : e = 0 := by rw [he, roundShift_zero f q h]
      subst this
      refine ⟨.inl rfl, ?_⟩
      rw [pow_zero, Nat.div_one]; rw [pow_succ] at h; omega
    · have := roundShift_binade f q h
      rw [← he] at this
      refine ⟨.inr ((Nat.le_div_iff_mul_le hE).mpr this.1), ?_⟩
      rw [Nat.div_lt_iff_lt_mul hE, mul_assoc, mul_comm 2, mul_assoc, ← pow_succ]; exact this.2
  have h1 : q / 2 ^ e * 2 ^ e * den ≤ num := by
    have := Nat.div_mul_le_self q (2 ^ e)
    calc _ ≤ q * den := Nat.mul_le_mul_right _ this
      _ ≤ num := by rw [hq]; exact Nat.div_mul_le_self _ _
  have h2 : num < (q / 2 ^ e + 1) * 2 ^ e * den := by
    have h3 : q < (q / 2 ^ e + 1) * 2 ^ e := by
      have := Nat.lt_div_mul_add (a := q) hE; rw [Nat.succ_mul]; omega
    have h4 : num < (q + 1) * den := by
      have := Nat.lt_div_mul_add (a := num) hd; rw [Nat.succ_mul, hq]; omega
    exact Nat.lt_of_lt_of_le h4 (Nat.mul_le_mul_right _ h3)
  have b1 := roundHalfEven_le num (den * 2 ^ e) (Nat.mul_pos hd hE)
  have b2 := le_roundHalfEven num (den * 2 ^ e) (Nat.mul_pos hd hE)
  have hX : 0 < den * 2 ^ e := Nat.mul_pos hd hE
  refine ⟨e, q / 2 ^ e, _, hk.1, hk.2, unitsOf_binade f e _ (by omega) hk.1, ?_, h1, h2, rfl, ?_, b1, b2, ?_⟩
  · rw [Nat.add_assoc]; exact unitsOf_binade f e _ (by omega) (by omega)
  · generalize roundHalfEven num (den * 2 ^ e) = r at *
    generalize q / 2 ^ e = k at *
    rw [mul_assoc, mul_comm (2 ^ e)] at h1 h2
    generalize den * 2 ^ e = X at *
    have u : r < k + 2 := by
      by_contra hc
      have := Nat.mul_le_mul_right X (Nat.le_of_not_lt hc)
      rw [Nat.add_mul] at this h2
      omega
    have l : k ≤ r := by
      by_contra hc
      have := Nat.mul_le_mul_right X (Nat.succ_le_of_lt (Nat.lt_of_not_le hc))
      rw [Nat.succ_mul] at this
      omega
    omega
  · rw [roundQ_eq, ← hq, ← he]; unfold significand; rw [← hq, ← he]

end Sys2Proof.Laws
end

