-- ==== Sys2Proof/Laws/Float.lean ====
section
/-!
SUPPORT. The laws of the arithmetic unit: what a packed pattern stands for, comparisons, the clamp, and the ranges of the
integer images.
-/

namespace Sys2Proof.Laws

open Sys2Proof Sys2Proof.Machine

theorem infMag_lt_signWeight (f : Fmt) : infMag f < signWeight f := by cases f <;> decide

theorem signWeight_le (f : Fmt) : signWeight f * 2 ≤ 2 ^ 64 := by cases f <;> decide

theorem signWeight_pos (f : Fmt) : 0 < signWeight f := by cases f <;> decide

theorem toNat_packMag (f : Fmt) (s : Bool) (m : Nat) (h : m < signWeight f) :
    (packMag f s m).toNat = m + if s then signWeight f else 0 := by
  have := signWeight_le f
  unfold packMag
  rw [Nat.mod_eq_of_lt h, BitVec.toNat_ofNat, Nat.mod_eq_of_lt]
  split <;> omega

@[simp] theorem magOf_packMag (f : Fmt) (s : Bool) (m : Nat) (h : m < signWeight f) :
    magOf f (packMag f s m) = m := by
  unfold magOf
  rw [toNat_packMag f s m h]
  cases s <;> simp [Nat.mod_eq_of_lt h]

@[simp] theorem signOf_packMag (f : Fmt) (s : Bool) (m : Nat) (h : m < signWeight f) :
    signOf f (packMag f s m) = s := by
  have hp := signWeight_pos f
  unfold signOf
  rw [toNat_packMag f s m h]
  cases s
  · simp [Nat.div_eq_of_lt h]
  · simp [Nat.add_div_right m hp, Nat.div_eq_of_lt h]

theorem numOf_packMag (f : Fmt) (s : Bool) (m : Nat) (h : m < infMag f) :
    numOf f (packMag f s m) = .fin s (unitsOf f m) := by
  have := infMag_lt_signWeight f
  simp [numOf, magOf_packMag f s m (by omega), signOf_packMag f s m (by omega), h]

theorem numOf_packMag_inf (f : Fmt) (s : Bool) : numOf f (packMag f s (infMag f)) = .inf s := by
  have := infMag_lt_signWeight f
  simp [numOf, magOf_packMag f s _ this, signOf_packMag f s _ this]

/-- A number rounded stands for a finite value or an infinity of its sign, never for a NaN. -/
theorem numOf_rounded (u : Fpu) (s : Bool) (num den : Nat) :
    numOf u.fmt (u.rounded s num den) =
      if roundQ u.fmt num den < infMag u.fmt then .fin s (unitsOf u.fmt (roundQ u.fmt num den)) else .inf s := by
  unfold Fpu.rounded
  split
  · exact numOf_packMag _ _ _ ‹_›
  · have := roundQ_le_inf u.fmt num den
    rw [show roundQ u.fmt num den = infMag u.fmt by omega]
    exact numOf_packMag_inf _ _

theorem numOf_nan_iff (f : Fmt) (v : F) : numOf f v = .nan ↔ isNaN f v = true := by
  unfold numOf isNaN
  simp only
  split
  · simp; omega
  · split
    · simp; omega
    · simp; omega

theorem isNaN_quietNaN (f : Fmt) (b : F) : isNaN f (quietNaN f b) = true := by
  unfold isNaN magOf quietNaN
  simp only [BitVec.toNat_ofNat]
  cases f
  · simp only [infMag, fracBits, signWeight, fmtWidth]
    have := Nat.mod_lt b.toNat (show 0 < 2 ^ (23 - 1) by decide)
    split <;> simp <;> omega
  · simp only [infMag, fracBits, signWeight, fmtWidth]
    have := Nat.mod_lt b.toNat (show 0 < 2 ^ (52 - 1) by decide)
    split <;> simp <;> omega

theorem numOf_quietNaN (f : Fmt) (b : F) : numOf f (quietNaN f b) = .nan :=
  (numOf_nan_iff f _).mpr (isNaN_quietNaN f b)

theorem numOf_one (u : Fpu) : numOf u.fmt u.one = .fin false (2 ^ unitExp u.fmt) := by
  unfold Fpu.one Fpu.ofNat
  rw [numOf_rounded]
  generalize u.fmt = f
  cases f <;> decide +kernel

theorem numOf_zero (u : Fpu) : numOf u.fmt u.zero = .fin false 0 := by
  unfold Fpu.zero
  generalize u.fmt = f
  cases f <;> decide +kernel

/-! ## Comparisons -/

theorem lt_irrefl_num (u : Fpu) (a : F) : u.lt a a = false := by
  unfold Fpu.lt
  cases numOf u.fmt a with
  | nan => rfl
  | inf s => cases s <;> rfl
  | fin s m => simp

/-- Of two values that are not NaN, one is below the other or they are in the other order. -/
theorem le_of_not_lt (u : Fpu) (a b : F) (ha : isNaN u.fmt a = false) (hb : isNaN u.fmt b = false)
    (h : u.lt a b = false) : u.le b a = true := by
  have ha' : numOf u.fmt a ≠ .nan := by rw [Ne, numOf_nan_iff]; simp [ha]
  have hb' : numOf u.fmt b ≠ .nan := by rw [Ne, numOf_nan_iff]; simp [hb]
  unfold Fpu.le Fpu.eq
  unfold Fpu.lt at h ⊢
  cases h1 : numOf u.fmt a with
  | nan => exact absurd h1 ha'
  | inf s =>
    cases h2 : numOf u.fmt b with
    | nan => exact absurd h2 hb'
    | inf t => rw [h1, h2] at h; cases s <;> cases t <;> simp_all
    | fin t n => rw [h1, h2] at h; simp_all
  | fin s m =>
    cases h2 : numOf u.fmt b with
    | nan => exact absurd h2 hb'
    | inf t => rw [h1, h2] at h; simp_all
    | fin t n =>
      rw [h1, h2] at h
      simp only [decide_eq_false_iff_not] at h
      simp only [Bool.or_eq_true, decide_eq_true_eq]
      omega

/-- A comparison with a NaN is false (00_scope.md R15). -/
theorem lt_nan_left (u : Fpu) (a b : F) (h : isNaN u.fmt a = true) : u.lt a b = false := by
  have := (numOf_nan_iff _ _).mpr h
  simp [Fpu.lt, this]

theorem lt_nan_right (u : Fpu) (a b : F) (h : isNaN u.fmt b = true) : u.lt a b = false := by
  have := (numOf_nan_iff _ _).mpr h
  unfold Fpu.lt; rw [this]; cases numOf u.fmt a <;> rfl

theorem isNaN_of_lt (u : Fpu) (a b : F) (h : u.lt a b = true) : isNaN u.fmt a = false ∧ isNaN u.fmt b = false := by
  constructor
  · cases hn : isNaN u.fmt a
    · rfl
    · rw [lt_nan_left u a b hn] at h; cases h
  · cases hn : isNaN u.fmt b
    · rfl
    · rw [lt_nan_right u a b hn] at h; cases h

/-! ## The clamp -/

/-- A clamp answers a NaN for a NaN, else a value within its bounds (00_scope.md R15). -/
theorem clampS_range (u : Fpu) (v lo hi : F) (hlo : isNaN u.fmt lo = false) (hhi : isNaN u.fmt hi = false)
    (hle : u.le lo hi = true) (hll : u.le lo lo = true) (hhh : u.le hi hi = true) (hlt : u.lt hi lo = false) :
    (isNaN u.fmt v = true ∧ u.clampS v lo hi = v) ∨
      (isNaN u.fmt v = false ∧ u.le lo (u.clampS v lo hi) = true ∧ u.le (u.clampS v lo hi) hi = true) := by
  cases hv : isNaN u.fmt v
  · right
    refine ⟨rfl, ?_⟩
    unfold Fpu.clampS Fpu.fmaxS Fpu.fminS
    cases h1 : u.lt v lo
    · simp only [Bool.false_eq_true, if_false]
      cases h2 : u.lt hi v
      · simp only [Bool.false_eq_true, if_false]
        exact ⟨le_of_not_lt u v lo hv hlo h1, le_of_not_lt u hi v hhi hv h2⟩
      · simp only [if_true]; exact ⟨hle, hhh⟩
    · simp only [if_true, hlt, Bool.false_eq_true, if_false]; exact ⟨hll, hle⟩
  · left
    refine ⟨rfl, ?_⟩
    unfold Fpu.clampS Fpu.fmaxS Fpu.fminS
    simp only [lt_nan_left u v lo hv, lt_nan_right u hi v hv, Bool.false_eq_true, if_false]

theorem unit_bounds_config (f : Fmt) : isNaN f ((configFpu f 0).neg (configFpu f 0).one) = false ∧
    isNaN f (configFpu f 0).one = false ∧
    (configFpu f 0).le ((configFpu f 0).neg (configFpu f 0).one) (configFpu f 0).one = true ∧
    (configFpu f 0).le ((configFpu f 0).neg (configFpu f 0).one) ((configFpu f 0).neg (configFpu f 0).one) = true ∧
    (configFpu f 0).le (configFpu f 0).one (configFpu f 0).one = true ∧
    (configFpu f 0).lt (configFpu f 0).one ((configFpu f 0).neg (configFpu f 0).one) = false := by
  cases f <;> decide +kernel

/-- -1 and 1 are ordered numbers. -/
theorem unit_bounds (u : Fpu) : isNaN u.fmt (u.neg u.one) = false ∧ isNaN u.fmt u.one = false ∧
    u.le (u.neg u.one) u.one = true ∧ u.le (u.neg u.one) (u.neg u.one) = true ∧ u.le u.one u.one = true ∧
    u.lt u.one (u.neg u.one) = false := unit_bounds_config u.fmt

/-! ## The integer images -/

theorem incr_pos (u : Fpu) (a : F) : 1 ≤ (incr u a).toNat := by
  unfold incr
  split
  · simp only
    split
    · simp
    · rw [BitVec.toNat_ofNat, Nat.mod_eq_of_lt (by omega)]; omega
  · simp
  · simp

theorem fx_le (u : Fpu) (r : F) : (fx u r).toNat ≤ 2 ^ 33 := by
  unfold fx
  split
  · rw [BitVec.toNat_ofNat, Nat.mod_eq_of_lt (by omega)]
    exact min_le_right _ _
  · simp
  · simp

theorem numOf_fifteen (u : Fpu) : numOf u.fmt (u.ofNat 15) = .fin false (15 * 2 ^ unitExp u.fmt) := by
  unfold Fpu.ofNat
  rw [numOf_rounded]
  generalize u.fmt = f
  cases f <;> decide +kernel

/-- An amount strictly between 0 and 1. -/
theorem fraction_of (u : Fpu) (a : F) (h0 : u.gt a u.zero = true) (h1 : u.ge a u.one = false) :
    ∃ m, numOf u.fmt a = .fin false m ∧ 0 < m ∧ m < 2 ^ unitExp u.fmt := by
  unfold Fpu.gt Fpu.lt at h0
  unfold Fpu.ge Fpu.le Fpu.lt Fpu.eq at h1
  rw [numOf_zero] at h0
  rw [numOf_one] at h1
  cases hn : numOf u.fmt a with
  | nan => rw [hn] at h0; cases h0
  | inf s => rw [hn] at h0 h1; cases s <;> simp_all
  | fin s m =>
    rw [hn] at h0 h1
    generalize 2 ^ unitExp u.fmt = one at *
    cases s
    · refine ⟨m, rfl, ?_, ?_⟩ <;> simp [Fpu.signedUnits] at h0 h1 <;> omega
    · simp [Fpu.signedUnits] at h0; omega

theorem fifteen_units (f : Fmt) : ∃ mag, mag < infMag f ∧ unitsOf f mag = 15 * 2 ^ unitExp f := by
  cases f
  · exact ⟨0x41700000, by decide +kernel, by decide +kernel⟩
  · exact ⟨0x402E000000000000, by decide +kernel, by decide +kernel⟩

theorem floorS_fin_pos (u : Fpu) (v : F) (m : Nat) (h : numOf u.fmt v = .fin false m) :
    u.floorS v = u.rounded false (m / 2 ^ unitExp u.fmt * 2 ^ unitExp u.fmt) 1 := by
  simp [Fpu.floorS, h, Fpu.floorUnits]

/-- The effective bit depth lies in 1 .. 16 (10_state.md R54; 43_bitcrusher.md R261). -/
theorem bitDepth_range (u : Fpu) (a : F) : 1 ≤ (bitDepth u a).toNat ∧ (bitDepth u a).toNat ≤ 16 := by
  unfold bitDepth
  split
  · decide
  · split
    · decide
    · rename_i h0 h1
      simp only [Bool.not_eq_true, Bool.not_eq_false'] at h0 h1
      obtain ⟨m, hm, _, hlt⟩ := fraction_of u a (by simpa using h0) h1
      obtain ⟨mag, hmag, hu⟩ := fifteen_units u.fmt
      have hone : 0 < 2 ^ unitExp u.fmt := Nat.two_pow_pos _
      have hmul : u.mul a (u.ofNat 15) = u.rounded false (m * (15 * 2 ^ unitExp u.fmt)) (2 ^ unitExp u.fmt) := by
        unfold Fpu.mul; rw [hm, numOf_fifteen]; rfl
      have hr : roundQ u.fmt (m * (15 * 2 ^ unitExp u.fmt)) (2 ^ unitExp u.fmt) ≤ mag := by
        apply roundQ_le_of_le _ _ _ _ hone (by omega)
        rw [hu, Nat.mul_comm m]
        exact Nat.mul_le_mul_left _ (by omega)
      have hle := unitsOf_mono u.fmt hr
      have hnum := numOf_rounded u false (m * (15 * 2 ^ unitExp u.fmt)) (2 ^ unitExp u.fmt)
      rw [if_pos (by omega)] at hnum
      rw [hmul, floorS_fin_pos u _ _ hnum]
      generalize unitsOf u.fmt (roundQ u.fmt (m * (15 * 2 ^ unitExp u.fmt)) (2 ^ unitExp u.fmt)) = w at hle
      have hr2 : roundQ u.fmt (w / 2 ^ unitExp u.fmt * 2 ^ unitExp u.fmt) 1 ≤ mag := by
        apply roundQ_le_of_le _ _ _ _ (by omega) (by omega)
        have := Nat.div_mul_le_self w (2 ^ unitExp u.fmt)
        omega
      have hle2 := unitsOf_mono u.fmt hr2
      have hnum2 := numOf_rounded u false (w / 2 ^ unitExp u.fmt * 2 ^ unitExp u.fmt) 1
      rw [if_pos (by omega)] at hnum2
      unfold Fpu.toUInt
      rw [hnum2]
      simp only
      have : unitsOf u.fmt (roundQ u.fmt (w / 2 ^ unitExp u.fmt * 2 ^ unitExp u.fmt) 1) / 2 ^ unitExp u.fmt ≤ 15 := by
        rw [hu] at hle2
        exact Nat.le_of_lt_succ ((Nat.div_lt_iff_lt_mul hone).mpr (by omega))
      generalize unitsOf u.fmt (roundQ u.fmt (w / 2 ^ unitExp u.fmt * 2 ^ unitExp u.fmt) 1) / 2 ^ unitExp u.fmt = k at this
      rw [BitVec.toNat_ofNat, Nat.mod_eq_of_lt (by omega)]
      omega

/-- A product of finite values is no NaN, and does not depend on the free NaN patterns. -/
theorem mul_fin (u : Fpu) (a b : F) (s t : Bool) (m n : Nat) (ha : numOf u.fmt a = .fin s m)
    (hb : numOf u.fmt b = .fin t n) : u.mul a b = u.rounded (s != t) (m * n) (2 ^ unitExp u.fmt) := by
  unfold Fpu.mul; rw [ha, hb]

/-- The bit depth does not depend on the free NaN patterns. -/
theorem bitDepth_config (f : Fmt) (j k : Nat) (a : F) : bitDepth (configFpu f j) a = bitDepth (configFpu f k) a := by
  have hg : (configFpu f j).gt a (configFpu f j).zero = (configFpu f k).gt a (configFpu f k).zero := rfl
  have hge : (configFpu f j).ge a (configFpu f j).one = (configFpu f k).ge a (configFpu f k).one := rfl
  unfold bitDepth
  rw [hg, hge]
  by_cases h0 : (configFpu f k).gt a (configFpu f k).zero = true
  · cases h1 : (configFpu f k).ge a (configFpu f k).one
    · obtain ⟨m, hm, _, _⟩ := fraction_of (configFpu f k) a h0 h1
      have e1 := mul_fin (configFpu f j) a _ _ _ _ _ hm (numOf_fifteen (configFpu f j))
      have e2 := mul_fin (configFpu f k) a _ _ _ _ _ hm (numOf_fifteen (configFpu f k))
      rw [e1, e2]
      have hr := numOf_rounded (configFpu f k) (false != false) (m * (15 * 2 ^ unitExp f)) (2 ^ unitExp f)
      have hfl : (configFpu f j).floorS ((configFpu f j).rounded (false != false) (m * (15 * 2 ^ unitExp f)) (2 ^ unitExp f)) =
          (configFpu f k).floorS ((configFpu f k).rounded (false != false) (m * (15 * 2 ^ unitExp f)) (2 ^ unitExp f)) := by
        unfold Fpu.floorS
        rw [hr, numOf_rounded (configFpu f j)]
        by_cases hc : roundQ f (m * (15 * 2 ^ unitExp f)) (2 ^ unitExp f) < infMag f
        · simp only [configFpu, hc, if_true]; rfl
        · simp only [configFpu, hc, if_false]; rfl
      change (if _ then _ else if _ then _ else BitVec.ofNat 8 (1 + (configFpu f j).toUInt ((configFpu f j).floorS
        ((configFpu f j).rounded (false != false) (m * (15 * 2 ^ unitExp f)) (2 ^ unitExp f))))) = _
      rw [hfl]
      rfl
    · rfl
  · simp [h0]
end Sys2Proof.Laws
end

