-- ==== Sys2Proof/Laws/Memory.lean ====
section
/-!
SUPPORT. The laws of a space of elements: read after write, and every operation keeps the canonical form and the bound on
the indices.
-/

namespace Sys2Proof.Laws

open Sys2Proof Sys2Proof.Machine

variable {α : Type}

/-! ## Read after write -/

theorem read_insert (d : α) (m : Memory α) (i j : Nat) (v : α) :
    Memory.read d (Memory.insert m i v) j = if j = i then v else Memory.read d m j := by
  induction m with
  | nil => simp [Memory.insert, Memory.read]
  | cons e m ih =>
    obtain ⟨k, w⟩ := e
    simp only [Memory.insert]
    split
    · simp [Memory.read]
    · split
      · subst_vars; simp only [Memory.read]; split <;> rfl
      · simp only [Memory.read, ih]
        split <;> split <;> first | rfl | omega

theorem read_erase (d : α) (m : Memory α) (i j : Nat) :
    Memory.read d (Memory.erase m i) j = if j = i then d else Memory.read d m j := by
  induction m with
  | nil => simp [Memory.erase, Memory.read]
  | cons e m ih =>
    obtain ⟨k, w⟩ := e
    simp only [Memory.erase]
    split
    · subst_vars; rw [ih]; simp only [Memory.read]; split <;> rfl
    · simp only [Memory.read, ih]
      split <;> split <;> first | rfl | omega

/-- A write changes the element at its index and no other. -/
theorem read_write [DecidableEq α] (d : α) (m : Memory α) (i j : Nat) (v : α) :
    Memory.read d (Memory.write d m i v) j = if j = i then v else Memory.read d m j := by
  unfold Memory.write
  split
  · subst_vars; exact read_erase _ m i j
  · exact read_insert d m i j v

@[simp] theorem read_write_same [DecidableEq α] (d : α) (m : Memory α) (i : Nat) (v : α) :
    Memory.read d (Memory.write d m i v) i = v := by simp [read_write]

theorem read_write_other [DecidableEq α] (d : α) (m : Memory α) {i j : Nat} (v : α) (h : j ≠ i) :
    Memory.read d (Memory.write d m i v) j = Memory.read d m j := by simp [read_write, h]

@[simp] theorem read_nil (d : α) (i : Nat) : Memory.read d [] i = d := rfl

/-! ## The canonical form -/

theorem rising_none_of_some (lo : Nat) (m : Memory α) (h : Memory.rising (some lo) m = true) :
    Memory.rising none m = true := by
  cases m with
  | nil => rfl
  | cons e m => simp only [Memory.rising, Bool.and_eq_true] at h ⊢; exact h.2

theorem rising_weaken {lo lo' : Nat} (hlo : lo' ≤ lo) (m : Memory α) (h : Memory.rising (some lo) m = true) :
    Memory.rising (some lo') m = true := by
  cases m with
  | nil => rfl
  | cons e m =>
    simp only [Memory.rising, Bool.and_eq_true, decide_eq_true_eq] at h ⊢
    exact ⟨by omega, h.2⟩

theorem rising_insert (m : Memory α) (i : Nat) (v : α) (lo : Nat) (hlo : lo < i)
    (h : Memory.rising (some lo) m = true) : Memory.rising (some lo) (Memory.insert m i v) = true := by
  induction m generalizing lo with
  | nil => simp [Memory.insert, Memory.rising, hlo]
  | cons e m ih =>
    obtain ⟨k, w⟩ := e
    simp only [Memory.rising, Bool.and_eq_true, decide_eq_true_eq] at h
    simp only [Memory.insert]
    split
    · simp only [Memory.rising, Bool.and_eq_true, decide_eq_true_eq]; exact ⟨hlo, ‹_›, h.2⟩
    · split
      · subst_vars; simp only [Memory.rising, Bool.and_eq_true, decide_eq_true_eq]; exact ⟨hlo, h.2⟩
      · simp only [Memory.rising, Bool.and_eq_true, decide_eq_true_eq]
        exact ⟨h.1, ih k (by omega) h.2⟩

theorem rising_none_insert (m : Memory α) (i : Nat) (v : α) (h : Memory.rising none m = true) :
    Memory.rising none (Memory.insert m i v) = true := by
  cases m with
  | nil => rfl
  | cons e m =>
    obtain ⟨k, w⟩ := e
    simp only [Memory.rising] at h
    simp only [Memory.insert]
    split
    · simp only [Memory.rising, Bool.and_eq_true, decide_eq_true_eq]; exact ⟨‹_›, h⟩
    · split
      · subst_vars; simpa only [Memory.rising] using h
      · simp only [Memory.rising]; exact rising_insert m i v k (by omega) h

theorem rising_erase (m : Memory α) (i lo : Nat) (h : Memory.rising (some lo) m = true) :
    Memory.rising (some lo) (Memory.erase m i) = true := by
  induction m generalizing lo with
  | nil => rfl
  | cons e m ih =>
    obtain ⟨k, w⟩ := e
    simp only [Memory.rising, Bool.and_eq_true, decide_eq_true_eq] at h
    simp only [Memory.erase]
    split
    · exact ih lo (rising_weaken (by omega) m h.2)
    · simp only [Memory.rising, Bool.and_eq_true, decide_eq_true_eq]; exact ⟨h.1, ih k h.2⟩

theorem rising_none_erase (m : Memory α) (i : Nat) (h : Memory.rising none m = true) :
    Memory.rising none (Memory.erase m i) = true := by
  induction m with
  | nil => rfl
  | cons e m ih =>
    obtain ⟨k, w⟩ := e
    simp only [Memory.rising] at h
    simp only [Memory.erase]
    split
    · exact ih (rising_none_of_some k m h)
    · simp only [Memory.rising]; exact rising_erase m i k h

theorem all_insert (m : Memory α) (i : Nat) (v : α) (p : Nat × α → Bool) (h : m.all p = true) (hv : p (i, v) = true) :
    (Memory.insert m i v).all p = true := by
  induction m with
  | nil => simp [Memory.insert, hv]
  | cons e m ih =>
    obtain ⟨k, w⟩ := e
    simp only [List.all_cons, Bool.and_eq_true] at h
    simp only [Memory.insert]
    split
    · simp only [List.all_cons, Bool.and_eq_true]; exact ⟨hv, h.1, h.2⟩
    · split
      · simp only [List.all_cons, Bool.and_eq_true]; exact ⟨hv, h.2⟩
      · simp only [List.all_cons, Bool.and_eq_true]; exact ⟨h.1, ih h.2⟩

theorem all_erase (m : Memory α) (i : Nat) (p : Nat × α → Bool) (h : m.all p = true) :
    (Memory.erase m i).all p = true := by
  induction m with
  | nil => rfl
  | cons e m ih =>
    obtain ⟨k, w⟩ := e
    simp only [List.all_cons, Bool.and_eq_true] at h
    simp only [Memory.erase]
    split
    · exact ih h.2
    · simp only [List.all_cons, Bool.and_eq_true]; exact ⟨h.1, ih h.2⟩

@[simp] theorem wf_nil [DecidableEq α] (d : α) : Memory.wf d ([] : Memory α) = true := rfl

@[simp] theorem within_nil (n : Nat) : Memory.within n ([] : Memory α) = true := rfl

/-- A write keeps the canonical form. -/
theorem wf_write [DecidableEq α] (d : α) (m : Memory α) (i : Nat) (v : α) (h : Memory.wf d m = true) :
    Memory.wf d (Memory.write d m i v) = true := by
  unfold Memory.wf at h ⊢
  unfold Memory.write
  simp only [Bool.and_eq_true] at h ⊢
  split
  · exact ⟨rising_none_erase m i h.1, all_erase m i _ h.2⟩
  · exact ⟨rising_none_insert m i v h.1, all_insert m i v _ h.2 (by simpa using ‹¬v = d›)⟩

/-- A write inside a space keeps every index inside it. -/
theorem within_write [DecidableEq α] (d : α) (m : Memory α) (i n : Nat) (v : α) (h : Memory.within n m = true)
    (hi : i < n) : Memory.within n (Memory.write d m i v) = true := by
  unfold Memory.within at h ⊢
  unfold Memory.write
  split
  · exact all_erase m i _ h
  · exact all_insert m i v _ h (by simpa using hi)

/-! ## A fold of writes over a range of channels -/

/-- Writes at distinct indices, one per element of a range: what each index then holds. -/
theorem read_foldl_write [DecidableEq α] (d : α) (n : Nat) (at' : Nat → Nat) (val : Nat → α)
    (inj : ∀ a, a < n → ∀ b, b < n → at' a = at' b → a = b) (m : Memory α) (j : Nat) :
    Memory.read d ((List.range n).foldl (fun m c => Memory.write d m (at' c) (val c)) m) j =
      match (List.range n).find? (fun c => at' c == j) with
      | some c => val c
      | none => Memory.read d m j := by
  induction n with
  | zero => rfl
  | succ n ih =>
    have inj' : ∀ a, a < n → ∀ b, b < n → at' a = at' b → a = b :=
      fun a ha b hb h => inj a (by omega) b (by omega) h
    rw [List.range_succ, List.foldl_append, List.foldl_cons, List.foldl_nil, read_write, ih inj', List.find?_append]
    by_cases hj : j = at' n
    · subst hj
      have hnone : (List.range n).find? (fun c => at' c == at' n) = none := by
        rw [List.find?_eq_none]
        intro c hc hcn
        have hlt := List.mem_range.mp hc
        have := inj c (by omega) n (by omega) (by simpa using hcn)
        omega
      simp [hnone]
    · have hj' : (at' n == j) = false := by simp; omega
      simp only [hj, if_false]
      cases (List.range n).find? (fun c => at' c == j) <;> simp [hj']

/-- The written value is read back at each written index. -/
theorem read_foldl_write_at [DecidableEq α] (d : α) (n : Nat) (at' : Nat → Nat) (val : Nat → α)
    (inj : ∀ a, a < n → ∀ b, b < n → at' a = at' b → a = b) (m : Memory α) (c : Nat) (hc : c < n) :
    Memory.read d ((List.range n).foldl (fun m c => Memory.write d m (at' c) (val c)) m) (at' c) = val c := by
  rw [read_foldl_write d n at' val inj]
  cases hf : (List.range n).find? (fun x => at' x == at' c) with
  | none =>
    have := List.find?_eq_none.mp hf c (List.mem_range.mpr hc)
    simp at this
  | some x =>
    have hx := List.find?_some hf
    have hm := List.mem_range.mp (List.mem_of_find?_eq_some hf)
    have := inj x hm c hc (by simpa using hx)
    simp [this]

/-- Every other index is left as it was. -/
theorem read_foldl_write_other [DecidableEq α] (d : α) (n : Nat) (at' : Nat → Nat) (val : Nat → α) (m : Memory α)
    (j : Nat) (hj : ∀ c, c < n → at' c ≠ j) :
    Memory.read d ((List.range n).foldl (fun m c => Memory.write d m (at' c) (val c)) m) j = Memory.read d m j := by
  induction n with
  | zero => rfl
  | succ n ih =>
    rw [List.range_succ, List.foldl_append, List.foldl_cons, List.foldl_nil,
      read_write_other d _ _ (Ne.symm (hj n (by omega))), ih (fun c hc => hj c (by omega))]

/-- A fold of writes keeps a property of spaces that every write keeps. -/
theorem foldl_keeps {β : Type} (P : β → Prop) (f : β → Nat → β) (l : List Nat)
    (keep : ∀ m c, c ∈ l → P m → P (f m c)) (m : β) (h : P m) : P (l.foldl f m) := by
  induction l generalizing m with
  | nil => exact h
  | cons c l ih =>
    exact ih (fun m c' hc' => keep m c' (List.mem_cons_of_mem _ hc')) _ (keep m c (List.mem_cons_self ..) h)

end Sys2Proof.Laws
end

