-- ==== Sys2Proof/Laws/State.lean ====
section
/-!
SUPPORT. For each update of the state, one lemma per field it leaves as it was. Written by a generator from the list of
updates and the fields each one changes.
-/

namespace Sys2Proof.Laws

open Sys2Proof.Machine

variable (s : State)

/-! ### raiseError -/

@[simp] theorem raiseError_build (code : BitVec 4) : (raiseError code s).build = s.build := rfl
@[simp] theorem raiseError_chCount (code : BitVec 4) : (raiseError code s).chCount = s.chCount := rfl
@[simp] theorem raiseError_fs (code : BitVec 4) : (raiseError code s).fs = s.fs := rfl
@[simp] theorem raiseError_dsmax (code : BitVec 4) : (raiseError code s).dsmax = s.dsmax := rfl
@[simp] theorem raiseError_gr (code : BitVec 4) : (raiseError code s).gr = s.gr := rfl
@[simp] theorem raiseError_ds (code : BitVec 4) : (raiseError code s).ds = s.ds := rfl
@[simp] theorem raiseError_pb (code : BitVec 4) : (raiseError code s).pb = s.pb := rfl
@[simp] theorem raiseError_bc (code : BitVec 4) : (raiseError code s).bc = s.bc := rfl
@[simp] theorem raiseError_mix (code : BitVec 4) : (raiseError code s).mix = s.mix := rfl
@[simp] theorem raiseError_lim (code : BitVec 4) : (raiseError code s).lim = s.lim := rfl
@[simp] theorem raiseError_ptr (code : BitVec 4) : (raiseError code s).ptr = s.ptr := rfl
@[simp] theorem raiseError_dsLfo (code : BitVec 4) : (raiseError code s).dsLfo = s.dsLfo := rfl
@[simp] theorem raiseError_pbLfo (code : BitVec 4) : (raiseError code s).pbLfo = s.pbLfo := rfl
@[simp] theorem raiseError_bcLfo (code : BitVec 4) : (raiseError code s).bcLfo = s.bcLfo := rfl
@[simp] theorem raiseError_chans (code : BitVec 4) : (raiseError code s).chans = s.chans := rfl
@[simp] theorem raiseError_recMem (code : BitVec 4) : (raiseError code s).recMem = s.recMem := rfl
@[simp] theorem raiseError_inMem (code : BitVec 4) : (raiseError code s).inMem = s.inMem := rfl
@[simp] theorem raiseError_outMem (code : BitVec 4) : (raiseError code s).outMem = s.outMem := rfl
@[simp] theorem raiseError_audioQ (code : BitVec 4) : (raiseError code s).audioQ = s.audioQ := rfl
@[simp] theorem raiseError_controlQ (code : BitVec 4) : (raiseError code s).controlQ = s.controlQ := rfl
@[simp] theorem raiseError_proc (code : BitVec 4) : (raiseError code s).proc = s.proc := rfl
@[simp] theorem raiseError_inOld (code : BitVec 4) : (raiseError code s).inOld = s.inOld := rfl
@[simp] theorem raiseError_hostIn (code : BitVec 4) : (raiseError code s).hostIn = s.hostIn := rfl
@[simp] theorem raiseError_sched (code : BitVec 4) : (raiseError code s).sched = s.sched := rfl
@[simp] theorem raiseError_free (code : BitVec 4) : (raiseError code s).free = s.free := rfl

/-! ### raiseFatal -/

@[simp] theorem raiseFatal_build (code : BitVec 4) : (raiseFatal code s).build = s.build := rfl
@[simp] theorem raiseFatal_chCount (code : BitVec 4) : (raiseFatal code s).chCount = s.chCount := rfl
@[simp] theorem raiseFatal_fs (code : BitVec 4) : (raiseFatal code s).fs = s.fs := rfl
@[simp] theorem raiseFatal_dsmax (code : BitVec 4) : (raiseFatal code s).dsmax = s.dsmax := rfl
@[simp] theorem raiseFatal_gr (code : BitVec 4) : (raiseFatal code s).gr = s.gr := rfl
@[simp] theorem raiseFatal_ds (code : BitVec 4) : (raiseFatal code s).ds = s.ds := rfl
@[simp] theorem raiseFatal_pb (code : BitVec 4) : (raiseFatal code s).pb = s.pb := rfl
@[simp] theorem raiseFatal_bc (code : BitVec 4) : (raiseFatal code s).bc = s.bc := rfl
@[simp] theorem raiseFatal_mix (code : BitVec 4) : (raiseFatal code s).mix = s.mix := rfl
@[simp] theorem raiseFatal_lim (code : BitVec 4) : (raiseFatal code s).lim = s.lim := rfl
@[simp] theorem raiseFatal_ptr (code : BitVec 4) : (raiseFatal code s).ptr = s.ptr := rfl
@[simp] theorem raiseFatal_dsLfo (code : BitVec 4) : (raiseFatal code s).dsLfo = s.dsLfo := rfl
@[simp] theorem raiseFatal_pbLfo (code : BitVec 4) : (raiseFatal code s).pbLfo = s.pbLfo := rfl
@[simp] theorem raiseFatal_bcLfo (code : BitVec 4) : (raiseFatal code s).bcLfo = s.bcLfo := rfl
@[simp] theorem raiseFatal_chans (code : BitVec 4) : (raiseFatal code s).chans = s.chans := rfl
@[simp] theorem raiseFatal_recMem (code : BitVec 4) : (raiseFatal code s).recMem = s.recMem := rfl
@[simp] theorem raiseFatal_inMem (code : BitVec 4) : (raiseFatal code s).inMem = s.inMem := rfl
@[simp] theorem raiseFatal_outMem (code : BitVec 4) : (raiseFatal code s).outMem = s.outMem := rfl
@[simp] theorem raiseFatal_audioQ (code : BitVec 4) : (raiseFatal code s).audioQ = s.audioQ := rfl
@[simp] theorem raiseFatal_controlQ (code : BitVec 4) : (raiseFatal code s).controlQ = s.controlQ := rfl
@[simp] theorem raiseFatal_proc (code : BitVec 4) : (raiseFatal code s).proc = s.proc := rfl
@[simp] theorem raiseFatal_inOld (code : BitVec 4) : (raiseFatal code s).inOld = s.inOld := rfl
@[simp] theorem raiseFatal_hostIn (code : BitVec 4) : (raiseFatal code s).hostIn = s.hostIn := rfl
@[simp] theorem raiseFatal_sched (code : BitVec 4) : (raiseFatal code s).sched = s.sched := rfl
@[simp] theorem raiseFatal_free (code : BitVec 4) : (raiseFatal code s).free = s.free := rfl

/-! ### acknowledgeError -/

@[simp] theorem acknowledgeError_build : (acknowledgeError s).build = s.build := rfl
@[simp] theorem acknowledgeError_chCount : (acknowledgeError s).chCount = s.chCount := rfl
@[simp] theorem acknowledgeError_fs : (acknowledgeError s).fs = s.fs := rfl
@[simp] theorem acknowledgeError_dsmax : (acknowledgeError s).dsmax = s.dsmax := rfl
@[simp] theorem acknowledgeError_gr : (acknowledgeError s).gr = s.gr := rfl
@[simp] theorem acknowledgeError_ds : (acknowledgeError s).ds = s.ds := rfl
@[simp] theorem acknowledgeError_pb : (acknowledgeError s).pb = s.pb := rfl
@[simp] theorem acknowledgeError_bc : (acknowledgeError s).bc = s.bc := rfl
@[simp] theorem acknowledgeError_mix : (acknowledgeError s).mix = s.mix := rfl
@[simp] theorem acknowledgeError_lim : (acknowledgeError s).lim = s.lim := rfl
@[simp] theorem acknowledgeError_ptr : (acknowledgeError s).ptr = s.ptr := rfl
@[simp] theorem acknowledgeError_dsLfo : (acknowledgeError s).dsLfo = s.dsLfo := rfl
@[simp] theorem acknowledgeError_pbLfo : (acknowledgeError s).pbLfo = s.pbLfo := rfl
@[simp] theorem acknowledgeError_bcLfo : (acknowledgeError s).bcLfo = s.bcLfo := rfl
@[simp] theorem acknowledgeError_chans : (acknowledgeError s).chans = s.chans := rfl
@[simp] theorem acknowledgeError_recMem : (acknowledgeError s).recMem = s.recMem := rfl
@[simp] theorem acknowledgeError_inMem : (acknowledgeError s).inMem = s.inMem := rfl
@[simp] theorem acknowledgeError_outMem : (acknowledgeError s).outMem = s.outMem := rfl
@[simp] theorem acknowledgeError_audioQ : (acknowledgeError s).audioQ = s.audioQ := rfl
@[simp] theorem acknowledgeError_controlQ : (acknowledgeError s).controlQ = s.controlQ := rfl
@[simp] theorem acknowledgeError_proc : (acknowledgeError s).proc = s.proc := rfl
@[simp] theorem acknowledgeError_inOld : (acknowledgeError s).inOld = s.inOld := rfl
@[simp] theorem acknowledgeError_hostIn : (acknowledgeError s).hostIn = s.hostIn := rfl
@[simp] theorem acknowledgeError_sched : (acknowledgeError s).sched = s.sched := rfl
@[simp] theorem acknowledgeError_free : (acknowledgeError s).free = s.free := rfl

/-! ### recWrite -/

@[simp] theorem recWrite_build (c j : Nat) (v : F) : (recWrite s c j v).build = s.build := rfl
@[simp] theorem recWrite_status (c j : Nat) (v : F) : (recWrite s c j v).status = s.status := rfl
@[simp] theorem recWrite_chCount (c j : Nat) (v : F) : (recWrite s c j v).chCount = s.chCount := rfl
@[simp] theorem recWrite_fs (c j : Nat) (v : F) : (recWrite s c j v).fs = s.fs := rfl
@[simp] theorem recWrite_dsmax (c j : Nat) (v : F) : (recWrite s c j v).dsmax = s.dsmax := rfl
@[simp] theorem recWrite_gr (c j : Nat) (v : F) : (recWrite s c j v).gr = s.gr := rfl
@[simp] theorem recWrite_ds (c j : Nat) (v : F) : (recWrite s c j v).ds = s.ds := rfl
@[simp] theorem recWrite_pb (c j : Nat) (v : F) : (recWrite s c j v).pb = s.pb := rfl
@[simp] theorem recWrite_bc (c j : Nat) (v : F) : (recWrite s c j v).bc = s.bc := rfl
@[simp] theorem recWrite_mix (c j : Nat) (v : F) : (recWrite s c j v).mix = s.mix := rfl
@[simp] theorem recWrite_lim (c j : Nat) (v : F) : (recWrite s c j v).lim = s.lim := rfl
@[simp] theorem recWrite_ptr (c j : Nat) (v : F) : (recWrite s c j v).ptr = s.ptr := rfl
@[simp] theorem recWrite_dsLfo (c j : Nat) (v : F) : (recWrite s c j v).dsLfo = s.dsLfo := rfl
@[simp] theorem recWrite_pbLfo (c j : Nat) (v : F) : (recWrite s c j v).pbLfo = s.pbLfo := rfl
@[simp] theorem recWrite_bcLfo (c j : Nat) (v : F) : (recWrite s c j v).bcLfo = s.bcLfo := rfl
@[simp] theorem recWrite_chans (c j : Nat) (v : F) : (recWrite s c j v).chans = s.chans := rfl
@[simp] theorem recWrite_inMem (c j : Nat) (v : F) : (recWrite s c j v).inMem = s.inMem := rfl
@[simp] theorem recWrite_outMem (c j : Nat) (v : F) : (recWrite s c j v).outMem = s.outMem := rfl
@[simp] theorem recWrite_audioQ (c j : Nat) (v : F) : (recWrite s c j v).audioQ = s.audioQ := rfl
@[simp] theorem recWrite_controlQ (c j : Nat) (v : F) : (recWrite s c j v).controlQ = s.controlQ := rfl
@[simp] theorem recWrite_proc (c j : Nat) (v : F) : (recWrite s c j v).proc = s.proc := rfl
@[simp] theorem recWrite_inOld (c j : Nat) (v : F) : (recWrite s c j v).inOld = s.inOld := rfl
@[simp] theorem recWrite_hostIn (c j : Nat) (v : F) : (recWrite s c j v).hostIn = s.hostIn := rfl
@[simp] theorem recWrite_sched (c j : Nat) (v : F) : (recWrite s c j v).sched = s.sched := rfl
@[simp] theorem recWrite_free (c j : Nat) (v : F) : (recWrite s c j v).free = s.free := rfl

/-! ### clearRec -/

@[simp] theorem clearRec_build : (clearRec s).build = s.build := rfl
@[simp] theorem clearRec_status : (clearRec s).status = s.status := rfl
@[simp] theorem clearRec_chCount : (clearRec s).chCount = s.chCount := rfl
@[simp] theorem clearRec_fs : (clearRec s).fs = s.fs := rfl
@[simp] theorem clearRec_dsmax : (clearRec s).dsmax = s.dsmax := rfl
@[simp] theorem clearRec_gr : (clearRec s).gr = s.gr := rfl
@[simp] theorem clearRec_ds : (clearRec s).ds = s.ds := rfl
@[simp] theorem clearRec_pb : (clearRec s).pb = s.pb := rfl
@[simp] theorem clearRec_bc : (clearRec s).bc = s.bc := rfl
@[simp] theorem clearRec_mix : (clearRec s).mix = s.mix := rfl
@[simp] theorem clearRec_lim : (clearRec s).lim = s.lim := rfl
@[simp] theorem clearRec_ptr : (clearRec s).ptr = s.ptr := rfl
@[simp] theorem clearRec_dsLfo : (clearRec s).dsLfo = s.dsLfo := rfl
@[simp] theorem clearRec_pbLfo : (clearRec s).pbLfo = s.pbLfo := rfl
@[simp] theorem clearRec_bcLfo : (clearRec s).bcLfo = s.bcLfo := rfl
@[simp] theorem clearRec_chans : (clearRec s).chans = s.chans := rfl
@[simp] theorem clearRec_inMem : (clearRec s).inMem = s.inMem := rfl
@[simp] theorem clearRec_outMem : (clearRec s).outMem = s.outMem := rfl
@[simp] theorem clearRec_audioQ : (clearRec s).audioQ = s.audioQ := rfl
@[simp] theorem clearRec_controlQ : (clearRec s).controlQ = s.controlQ := rfl
@[simp] theorem clearRec_proc : (clearRec s).proc = s.proc := rfl
@[simp] theorem clearRec_inOld : (clearRec s).inOld = s.inOld := rfl
@[simp] theorem clearRec_hostIn : (clearRec s).hostIn = s.hostIn := rfl
@[simp] theorem clearRec_sched : (clearRec s).sched = s.sched := rfl
@[simp] theorem clearRec_free : (clearRec s).free = s.free := rfl

/-! ### zeroPointers -/

@[simp] theorem zeroPointers_build : (zeroPointers s).build = s.build := rfl
@[simp] theorem zeroPointers_status : (zeroPointers s).status = s.status := rfl
@[simp] theorem zeroPointers_chCount : (zeroPointers s).chCount = s.chCount := rfl
@[simp] theorem zeroPointers_fs : (zeroPointers s).fs = s.fs := rfl
@[simp] theorem zeroPointers_dsmax : (zeroPointers s).dsmax = s.dsmax := rfl
@[simp] theorem zeroPointers_gr : (zeroPointers s).gr = s.gr := rfl
@[simp] theorem zeroPointers_ds : (zeroPointers s).ds = s.ds := rfl
@[simp] theorem zeroPointers_pb : (zeroPointers s).pb = s.pb := rfl
@[simp] theorem zeroPointers_bc : (zeroPointers s).bc = s.bc := rfl
@[simp] theorem zeroPointers_mix : (zeroPointers s).mix = s.mix := rfl
@[simp] theorem zeroPointers_lim : (zeroPointers s).lim = s.lim := rfl
@[simp] theorem zeroPointers_dsLfo : (zeroPointers s).dsLfo = s.dsLfo := rfl
@[simp] theorem zeroPointers_pbLfo : (zeroPointers s).pbLfo = s.pbLfo := rfl
@[simp] theorem zeroPointers_bcLfo : (zeroPointers s).bcLfo = s.bcLfo := rfl
@[simp] theorem zeroPointers_chans : (zeroPointers s).chans = s.chans := rfl
@[simp] theorem zeroPointers_recMem : (zeroPointers s).recMem = s.recMem := rfl
@[simp] theorem zeroPointers_inMem : (zeroPointers s).inMem = s.inMem := rfl
@[simp] theorem zeroPointers_outMem : (zeroPointers s).outMem = s.outMem := rfl
@[simp] theorem zeroPointers_audioQ : (zeroPointers s).audioQ = s.audioQ := rfl
@[simp] theorem zeroPointers_controlQ : (zeroPointers s).controlQ = s.controlQ := rfl
@[simp] theorem zeroPointers_proc : (zeroPointers s).proc = s.proc := rfl
@[simp] theorem zeroPointers_inOld : (zeroPointers s).inOld = s.inOld := rfl
@[simp] theorem zeroPointers_hostIn : (zeroPointers s).hostIn = s.hostIn := rfl
@[simp] theorem zeroPointers_sched : (zeroPointers s).sched = s.sched := rfl
@[simp] theorem zeroPointers_free : (zeroPointers s).free = s.free := rfl

/-! ### boundsDs -/

@[simp] theorem boundsDs_build (u : Fpu) : (boundsDs u s).build = s.build := rfl
@[simp] theorem boundsDs_status (u : Fpu) : (boundsDs u s).status = s.status := rfl
@[simp] theorem boundsDs_chCount (u : Fpu) : (boundsDs u s).chCount = s.chCount := rfl
@[simp] theorem boundsDs_fs (u : Fpu) : (boundsDs u s).fs = s.fs := rfl
@[simp] theorem boundsDs_dsmax (u : Fpu) : (boundsDs u s).dsmax = s.dsmax := rfl
@[simp] theorem boundsDs_gr (u : Fpu) : (boundsDs u s).gr = s.gr := rfl
@[simp] theorem boundsDs_ds (u : Fpu) : (boundsDs u s).ds = s.ds := rfl
@[simp] theorem boundsDs_pb (u : Fpu) : (boundsDs u s).pb = s.pb := rfl
@[simp] theorem boundsDs_bc (u : Fpu) : (boundsDs u s).bc = s.bc := rfl
@[simp] theorem boundsDs_mix (u : Fpu) : (boundsDs u s).mix = s.mix := rfl
@[simp] theorem boundsDs_lim (u : Fpu) : (boundsDs u s).lim = s.lim := rfl
@[simp] theorem boundsDs_ptr (u : Fpu) : (boundsDs u s).ptr = s.ptr := rfl
@[simp] theorem boundsDs_pbLfo (u : Fpu) : (boundsDs u s).pbLfo = s.pbLfo := rfl
@[simp] theorem boundsDs_bcLfo (u : Fpu) : (boundsDs u s).bcLfo = s.bcLfo := rfl
@[simp] theorem boundsDs_chans (u : Fpu) : (boundsDs u s).chans = s.chans := rfl
@[simp] theorem boundsDs_recMem (u : Fpu) : (boundsDs u s).recMem = s.recMem := rfl
@[simp] theorem boundsDs_inMem (u : Fpu) : (boundsDs u s).inMem = s.inMem := rfl
@[simp] theorem boundsDs_outMem (u : Fpu) : (boundsDs u s).outMem = s.outMem := rfl
@[simp] theorem boundsDs_audioQ (u : Fpu) : (boundsDs u s).audioQ = s.audioQ := rfl
@[simp] theorem boundsDs_controlQ (u : Fpu) : (boundsDs u s).controlQ = s.controlQ := rfl
@[simp] theorem boundsDs_proc (u : Fpu) : (boundsDs u s).proc = s.proc := rfl
@[simp] theorem boundsDs_inOld (u : Fpu) : (boundsDs u s).inOld = s.inOld := rfl
@[simp] theorem boundsDs_hostIn (u : Fpu) : (boundsDs u s).hostIn = s.hostIn := rfl
@[simp] theorem boundsDs_sched (u : Fpu) : (boundsDs u s).sched = s.sched := rfl
@[simp] theorem boundsDs_free (u : Fpu) : (boundsDs u s).free = s.free := rfl

/-! ### boundsPb -/

@[simp] theorem boundsPb_build (u : Fpu) : (boundsPb u s).build = s.build := rfl
@[simp] theorem boundsPb_status (u : Fpu) : (boundsPb u s).status = s.status := rfl
@[simp] theorem boundsPb_chCount (u : Fpu) : (boundsPb u s).chCount = s.chCount := rfl
@[simp] theorem boundsPb_fs (u : Fpu) : (boundsPb u s).fs = s.fs := rfl
@[simp] theorem boundsPb_dsmax (u : Fpu) : (boundsPb u s).dsmax = s.dsmax := rfl
@[simp] theorem boundsPb_gr (u : Fpu) : (boundsPb u s).gr = s.gr := rfl
@[simp] theorem boundsPb_ds (u : Fpu) : (boundsPb u s).ds = s.ds := rfl
@[simp] theorem boundsPb_pb (u : Fpu) : (boundsPb u s).pb = s.pb := rfl
@[simp] theorem boundsPb_bc (u : Fpu) : (boundsPb u s).bc = s.bc := rfl
@[simp] theorem boundsPb_mix (u : Fpu) : (boundsPb u s).mix = s.mix := rfl
@[simp] theorem boundsPb_lim (u : Fpu) : (boundsPb u s).lim = s.lim := rfl
@[simp] theorem boundsPb_ptr (u : Fpu) : (boundsPb u s).ptr = s.ptr := rfl
@[simp] theorem boundsPb_dsLfo (u : Fpu) : (boundsPb u s).dsLfo = s.dsLfo := rfl
@[simp] theorem boundsPb_bcLfo (u : Fpu) : (boundsPb u s).bcLfo = s.bcLfo := rfl
@[simp] theorem boundsPb_chans (u : Fpu) : (boundsPb u s).chans = s.chans := rfl
@[simp] theorem boundsPb_recMem (u : Fpu) : (boundsPb u s).recMem = s.recMem := rfl
@[simp] theorem boundsPb_inMem (u : Fpu) : (boundsPb u s).inMem = s.inMem := rfl
@[simp] theorem boundsPb_outMem (u : Fpu) : (boundsPb u s).outMem = s.outMem := rfl
@[simp] theorem boundsPb_audioQ (u : Fpu) : (boundsPb u s).audioQ = s.audioQ := rfl
@[simp] theorem boundsPb_controlQ (u : Fpu) : (boundsPb u s).controlQ = s.controlQ := rfl
@[simp] theorem boundsPb_proc (u : Fpu) : (boundsPb u s).proc = s.proc := rfl
@[simp] theorem boundsPb_inOld (u : Fpu) : (boundsPb u s).inOld = s.inOld := rfl
@[simp] theorem boundsPb_hostIn (u : Fpu) : (boundsPb u s).hostIn = s.hostIn := rfl
@[simp] theorem boundsPb_sched (u : Fpu) : (boundsPb u s).sched = s.sched := rfl
@[simp] theorem boundsPb_free (u : Fpu) : (boundsPb u s).free = s.free := rfl

/-! ### boundsBc -/

@[simp] theorem boundsBc_build (u : Fpu) : (boundsBc u s).build = s.build := rfl
@[simp] theorem boundsBc_status (u : Fpu) : (boundsBc u s).status = s.status := rfl
@[simp] theorem boundsBc_chCount (u : Fpu) : (boundsBc u s).chCount = s.chCount := rfl
@[simp] theorem boundsBc_fs (u : Fpu) : (boundsBc u s).fs = s.fs := rfl
@[simp] theorem boundsBc_dsmax (u : Fpu) : (boundsBc u s).dsmax = s.dsmax := rfl
@[simp] theorem boundsBc_gr (u : Fpu) : (boundsBc u s).gr = s.gr := rfl
@[simp] theorem boundsBc_ds (u : Fpu) : (boundsBc u s).ds = s.ds := rfl
@[simp] theorem boundsBc_pb (u : Fpu) : (boundsBc u s).pb = s.pb := rfl
@[simp] theorem boundsBc_bc (u : Fpu) : (boundsBc u s).bc = s.bc := rfl
@[simp] theorem boundsBc_mix (u : Fpu) : (boundsBc u s).mix = s.mix := rfl
@[simp] theorem boundsBc_lim (u : Fpu) : (boundsBc u s).lim = s.lim := rfl
@[simp] theorem boundsBc_ptr (u : Fpu) : (boundsBc u s).ptr = s.ptr := rfl
@[simp] theorem boundsBc_dsLfo (u : Fpu) : (boundsBc u s).dsLfo = s.dsLfo := rfl
@[simp] theorem boundsBc_pbLfo (u : Fpu) : (boundsBc u s).pbLfo = s.pbLfo := rfl
@[simp] theorem boundsBc_chans (u : Fpu) : (boundsBc u s).chans = s.chans := rfl
@[simp] theorem boundsBc_recMem (u : Fpu) : (boundsBc u s).recMem = s.recMem := rfl
@[simp] theorem boundsBc_inMem (u : Fpu) : (boundsBc u s).inMem = s.inMem := rfl
@[simp] theorem boundsBc_outMem (u : Fpu) : (boundsBc u s).outMem = s.outMem := rfl
@[simp] theorem boundsBc_audioQ (u : Fpu) : (boundsBc u s).audioQ = s.audioQ := rfl
@[simp] theorem boundsBc_controlQ (u : Fpu) : (boundsBc u s).controlQ = s.controlQ := rfl
@[simp] theorem boundsBc_proc (u : Fpu) : (boundsBc u s).proc = s.proc := rfl
@[simp] theorem boundsBc_inOld (u : Fpu) : (boundsBc u s).inOld = s.inOld := rfl
@[simp] theorem boundsBc_hostIn (u : Fpu) : (boundsBc u s).hostIn = s.hostIn := rfl
@[simp] theorem boundsBc_sched (u : Fpu) : (boundsBc u s).sched = s.sched := rfl
@[simp] theorem boundsBc_free (u : Fpu) : (boundsBc u s).free = s.free := rfl

/-! ### lpfCoeffs -/

@[simp] theorem lpfCoeffs_build (u : Fpu) : (lpfCoeffs u s).build = s.build := rfl
@[simp] theorem lpfCoeffs_status (u : Fpu) : (lpfCoeffs u s).status = s.status := rfl
@[simp] theorem lpfCoeffs_chCount (u : Fpu) : (lpfCoeffs u s).chCount = s.chCount := rfl
@[simp] theorem lpfCoeffs_fs (u : Fpu) : (lpfCoeffs u s).fs = s.fs := rfl
@[simp] theorem lpfCoeffs_dsmax (u : Fpu) : (lpfCoeffs u s).dsmax = s.dsmax := rfl
@[simp] theorem lpfCoeffs_gr (u : Fpu) : (lpfCoeffs u s).gr = s.gr := rfl
@[simp] theorem lpfCoeffs_pb (u : Fpu) : (lpfCoeffs u s).pb = s.pb := rfl
@[simp] theorem lpfCoeffs_bc (u : Fpu) : (lpfCoeffs u s).bc = s.bc := rfl
@[simp] theorem lpfCoeffs_mix (u : Fpu) : (lpfCoeffs u s).mix = s.mix := rfl
@[simp] theorem lpfCoeffs_lim (u : Fpu) : (lpfCoeffs u s).lim = s.lim := rfl
@[simp] theorem lpfCoeffs_ptr (u : Fpu) : (lpfCoeffs u s).ptr = s.ptr := rfl
@[simp] theorem lpfCoeffs_dsLfo (u : Fpu) : (lpfCoeffs u s).dsLfo = s.dsLfo := rfl
@[simp] theorem lpfCoeffs_pbLfo (u : Fpu) : (lpfCoeffs u s).pbLfo = s.pbLfo := rfl
@[simp] theorem lpfCoeffs_bcLfo (u : Fpu) : (lpfCoeffs u s).bcLfo = s.bcLfo := rfl
@[simp] theorem lpfCoeffs_recMem (u : Fpu) : (lpfCoeffs u s).recMem = s.recMem := rfl
@[simp] theorem lpfCoeffs_inMem (u : Fpu) : (lpfCoeffs u s).inMem = s.inMem := rfl
@[simp] theorem lpfCoeffs_outMem (u : Fpu) : (lpfCoeffs u s).outMem = s.outMem := rfl
@[simp] theorem lpfCoeffs_audioQ (u : Fpu) : (lpfCoeffs u s).audioQ = s.audioQ := rfl
@[simp] theorem lpfCoeffs_controlQ (u : Fpu) : (lpfCoeffs u s).controlQ = s.controlQ := rfl
@[simp] theorem lpfCoeffs_proc (u : Fpu) : (lpfCoeffs u s).proc = s.proc := rfl
@[simp] theorem lpfCoeffs_inOld (u : Fpu) : (lpfCoeffs u s).inOld = s.inOld := rfl
@[simp] theorem lpfCoeffs_hostIn (u : Fpu) : (lpfCoeffs u s).hostIn = s.hostIn := rfl
@[simp] theorem lpfCoeffs_sched (u : Fpu) : (lpfCoeffs u s).sched = s.sched := rfl
@[simp] theorem lpfCoeffs_free (u : Fpu) : (lpfCoeffs u s).free = s.free := rfl

/-! ### resyncEval -/

@[simp] theorem resyncEval_build (u : Fpu) : (resyncEval u s).build = s.build := rfl
@[simp] theorem resyncEval_chCount (u : Fpu) : (resyncEval u s).chCount = s.chCount := rfl
@[simp] theorem resyncEval_fs (u : Fpu) : (resyncEval u s).fs = s.fs := rfl
@[simp] theorem resyncEval_dsmax (u : Fpu) : (resyncEval u s).dsmax = s.dsmax := rfl
@[simp] theorem resyncEval_gr (u : Fpu) : (resyncEval u s).gr = s.gr := rfl
@[simp] theorem resyncEval_ds (u : Fpu) : (resyncEval u s).ds = s.ds := rfl
@[simp] theorem resyncEval_pb (u : Fpu) : (resyncEval u s).pb = s.pb := rfl
@[simp] theorem resyncEval_bc (u : Fpu) : (resyncEval u s).bc = s.bc := rfl
@[simp] theorem resyncEval_mix (u : Fpu) : (resyncEval u s).mix = s.mix := rfl
@[simp] theorem resyncEval_lim (u : Fpu) : (resyncEval u s).lim = s.lim := rfl
@[simp] theorem resyncEval_dsLfo (u : Fpu) : (resyncEval u s).dsLfo = s.dsLfo := rfl
@[simp] theorem resyncEval_pbLfo (u : Fpu) : (resyncEval u s).pbLfo = s.pbLfo := rfl
@[simp] theorem resyncEval_bcLfo (u : Fpu) : (resyncEval u s).bcLfo = s.bcLfo := rfl
@[simp] theorem resyncEval_chans (u : Fpu) : (resyncEval u s).chans = s.chans := rfl
@[simp] theorem resyncEval_recMem (u : Fpu) : (resyncEval u s).recMem = s.recMem := rfl
@[simp] theorem resyncEval_inMem (u : Fpu) : (resyncEval u s).inMem = s.inMem := rfl
@[simp] theorem resyncEval_outMem (u : Fpu) : (resyncEval u s).outMem = s.outMem := rfl
@[simp] theorem resyncEval_audioQ (u : Fpu) : (resyncEval u s).audioQ = s.audioQ := rfl
@[simp] theorem resyncEval_controlQ (u : Fpu) : (resyncEval u s).controlQ = s.controlQ := rfl
@[simp] theorem resyncEval_proc (u : Fpu) : (resyncEval u s).proc = s.proc := rfl
@[simp] theorem resyncEval_inOld (u : Fpu) : (resyncEval u s).inOld = s.inOld := rfl
@[simp] theorem resyncEval_hostIn (u : Fpu) : (resyncEval u s).hostIn = s.hostIn := rfl
@[simp] theorem resyncEval_sched (u : Fpu) : (resyncEval u s).sched = s.sched := rfl
@[simp] theorem resyncEval_free (u : Fpu) : (resyncEval u s).free = s.free := rfl

/-! ### putDsActual -/

@[simp] theorem putDsActual_build (u : Fpu) (a : F) : (putDsActual u a s).build = s.build := rfl
@[simp] theorem putDsActual_status (u : Fpu) (a : F) : (putDsActual u a s).status = s.status := rfl
@[simp] theorem putDsActual_chCount (u : Fpu) (a : F) : (putDsActual u a s).chCount = s.chCount := rfl
@[simp] theorem putDsActual_fs (u : Fpu) (a : F) : (putDsActual u a s).fs = s.fs := rfl
@[simp] theorem putDsActual_dsmax (u : Fpu) (a : F) : (putDsActual u a s).dsmax = s.dsmax := rfl
@[simp] theorem putDsActual_gr (u : Fpu) (a : F) : (putDsActual u a s).gr = s.gr := rfl
@[simp] theorem putDsActual_pb (u : Fpu) (a : F) : (putDsActual u a s).pb = s.pb := rfl
@[simp] theorem putDsActual_bc (u : Fpu) (a : F) : (putDsActual u a s).bc = s.bc := rfl
@[simp] theorem putDsActual_mix (u : Fpu) (a : F) : (putDsActual u a s).mix = s.mix := rfl
@[simp] theorem putDsActual_lim (u : Fpu) (a : F) : (putDsActual u a s).lim = s.lim := rfl
@[simp] theorem putDsActual_ptr (u : Fpu) (a : F) : (putDsActual u a s).ptr = s.ptr := rfl
@[simp] theorem putDsActual_dsLfo (u : Fpu) (a : F) : (putDsActual u a s).dsLfo = s.dsLfo := rfl
@[simp] theorem putDsActual_pbLfo (u : Fpu) (a : F) : (putDsActual u a s).pbLfo = s.pbLfo := rfl
@[simp] theorem putDsActual_bcLfo (u : Fpu) (a : F) : (putDsActual u a s).bcLfo = s.bcLfo := rfl
@[simp] theorem putDsActual_chans (u : Fpu) (a : F) : (putDsActual u a s).chans = s.chans := rfl
@[simp] theorem putDsActual_recMem (u : Fpu) (a : F) : (putDsActual u a s).recMem = s.recMem := rfl
@[simp] theorem putDsActual_inMem (u : Fpu) (a : F) : (putDsActual u a s).inMem = s.inMem := rfl
@[simp] theorem putDsActual_outMem (u : Fpu) (a : F) : (putDsActual u a s).outMem = s.outMem := rfl
@[simp] theorem putDsActual_audioQ (u : Fpu) (a : F) : (putDsActual u a s).audioQ = s.audioQ := rfl
@[simp] theorem putDsActual_controlQ (u : Fpu) (a : F) : (putDsActual u a s).controlQ = s.controlQ := rfl
@[simp] theorem putDsActual_proc (u : Fpu) (a : F) : (putDsActual u a s).proc = s.proc := rfl
@[simp] theorem putDsActual_inOld (u : Fpu) (a : F) : (putDsActual u a s).inOld = s.inOld := rfl
@[simp] theorem putDsActual_hostIn (u : Fpu) (a : F) : (putDsActual u a s).hostIn = s.hostIn := rfl
@[simp] theorem putDsActual_sched (u : Fpu) (a : F) : (putDsActual u a s).sched = s.sched := rfl
@[simp] theorem putDsActual_free (u : Fpu) (a : F) : (putDsActual u a s).free = s.free := rfl

/-! ### putPbActual -/

@[simp] theorem putPbActual_build (u : Fpu) (a : F) : (putPbActual u a s).build = s.build := rfl
@[simp] theorem putPbActual_status (u : Fpu) (a : F) : (putPbActual u a s).status = s.status := rfl
@[simp] theorem putPbActual_chCount (u : Fpu) (a : F) : (putPbActual u a s).chCount = s.chCount := rfl
@[simp] theorem putPbActual_fs (u : Fpu) (a : F) : (putPbActual u a s).fs = s.fs := rfl
@[simp] theorem putPbActual_dsmax (u : Fpu) (a : F) : (putPbActual u a s).dsmax = s.dsmax := rfl
@[simp] theorem putPbActual_gr (u : Fpu) (a : F) : (putPbActual u a s).gr = s.gr := rfl
@[simp] theorem putPbActual_ds (u : Fpu) (a : F) : (putPbActual u a s).ds = s.ds := rfl
@[simp] theorem putPbActual_bc (u : Fpu) (a : F) : (putPbActual u a s).bc = s.bc := rfl
@[simp] theorem putPbActual_mix (u : Fpu) (a : F) : (putPbActual u a s).mix = s.mix := rfl
@[simp] theorem putPbActual_lim (u : Fpu) (a : F) : (putPbActual u a s).lim = s.lim := rfl
@[simp] theorem putPbActual_ptr (u : Fpu) (a : F) : (putPbActual u a s).ptr = s.ptr := rfl
@[simp] theorem putPbActual_dsLfo (u : Fpu) (a : F) : (putPbActual u a s).dsLfo = s.dsLfo := rfl
@[simp] theorem putPbActual_pbLfo (u : Fpu) (a : F) : (putPbActual u a s).pbLfo = s.pbLfo := rfl
@[simp] theorem putPbActual_bcLfo (u : Fpu) (a : F) : (putPbActual u a s).bcLfo = s.bcLfo := rfl
@[simp] theorem putPbActual_chans (u : Fpu) (a : F) : (putPbActual u a s).chans = s.chans := rfl
@[simp] theorem putPbActual_recMem (u : Fpu) (a : F) : (putPbActual u a s).recMem = s.recMem := rfl
@[simp] theorem putPbActual_inMem (u : Fpu) (a : F) : (putPbActual u a s).inMem = s.inMem := rfl
@[simp] theorem putPbActual_outMem (u : Fpu) (a : F) : (putPbActual u a s).outMem = s.outMem := rfl
@[simp] theorem putPbActual_audioQ (u : Fpu) (a : F) : (putPbActual u a s).audioQ = s.audioQ := rfl
@[simp] theorem putPbActual_controlQ (u : Fpu) (a : F) : (putPbActual u a s).controlQ = s.controlQ := rfl
@[simp] theorem putPbActual_proc (u : Fpu) (a : F) : (putPbActual u a s).proc = s.proc := rfl
@[simp] theorem putPbActual_inOld (u : Fpu) (a : F) : (putPbActual u a s).inOld = s.inOld := rfl
@[simp] theorem putPbActual_hostIn (u : Fpu) (a : F) : (putPbActual u a s).hostIn = s.hostIn := rfl
@[simp] theorem putPbActual_sched (u : Fpu) (a : F) : (putPbActual u a s).sched = s.sched := rfl
@[simp] theorem putPbActual_free (u : Fpu) (a : F) : (putPbActual u a s).free = s.free := rfl

/-! ### putBcActual -/

@[simp] theorem putBcActual_build (u : Fpu) (a : F) : (putBcActual u a s).build = s.build := rfl
@[simp] theorem putBcActual_status (u : Fpu) (a : F) : (putBcActual u a s).status = s.status := rfl
@[simp] theorem putBcActual_chCount (u : Fpu) (a : F) : (putBcActual u a s).chCount = s.chCount := rfl
@[simp] theorem putBcActual_fs (u : Fpu) (a : F) : (putBcActual u a s).fs = s.fs := rfl
@[simp] theorem putBcActual_dsmax (u : Fpu) (a : F) : (putBcActual u a s).dsmax = s.dsmax := rfl
@[simp] theorem putBcActual_gr (u : Fpu) (a : F) : (putBcActual u a s).gr = s.gr := rfl
@[simp] theorem putBcActual_ds (u : Fpu) (a : F) : (putBcActual u a s).ds = s.ds := rfl
@[simp] theorem putBcActual_pb (u : Fpu) (a : F) : (putBcActual u a s).pb = s.pb := rfl
@[simp] theorem putBcActual_mix (u : Fpu) (a : F) : (putBcActual u a s).mix = s.mix := rfl
@[simp] theorem putBcActual_lim (u : Fpu) (a : F) : (putBcActual u a s).lim = s.lim := rfl
@[simp] theorem putBcActual_ptr (u : Fpu) (a : F) : (putBcActual u a s).ptr = s.ptr := rfl
@[simp] theorem putBcActual_dsLfo (u : Fpu) (a : F) : (putBcActual u a s).dsLfo = s.dsLfo := rfl
@[simp] theorem putBcActual_pbLfo (u : Fpu) (a : F) : (putBcActual u a s).pbLfo = s.pbLfo := rfl
@[simp] theorem putBcActual_bcLfo (u : Fpu) (a : F) : (putBcActual u a s).bcLfo = s.bcLfo := rfl
@[simp] theorem putBcActual_chans (u : Fpu) (a : F) : (putBcActual u a s).chans = s.chans := rfl
@[simp] theorem putBcActual_recMem (u : Fpu) (a : F) : (putBcActual u a s).recMem = s.recMem := rfl
@[simp] theorem putBcActual_inMem (u : Fpu) (a : F) : (putBcActual u a s).inMem = s.inMem := rfl
@[simp] theorem putBcActual_outMem (u : Fpu) (a : F) : (putBcActual u a s).outMem = s.outMem := rfl
@[simp] theorem putBcActual_audioQ (u : Fpu) (a : F) : (putBcActual u a s).audioQ = s.audioQ := rfl
@[simp] theorem putBcActual_controlQ (u : Fpu) (a : F) : (putBcActual u a s).controlQ = s.controlQ := rfl
@[simp] theorem putBcActual_proc (u : Fpu) (a : F) : (putBcActual u a s).proc = s.proc := rfl
@[simp] theorem putBcActual_inOld (u : Fpu) (a : F) : (putBcActual u a s).inOld = s.inOld := rfl
@[simp] theorem putBcActual_hostIn (u : Fpu) (a : F) : (putBcActual u a s).hostIn = s.hostIn := rfl
@[simp] theorem putBcActual_sched (u : Fpu) (a : F) : (putBcActual u a s).sched = s.sched := rfl
@[simp] theorem putBcActual_free (u : Fpu) (a : F) : (putBcActual u a s).free = s.free := rfl

/-! ### moveDsTarget -/

@[simp] theorem moveDsTarget_build (u : Fpu) (a : F) : (moveDsTarget u a s).build = s.build := rfl
@[simp] theorem moveDsTarget_status (u : Fpu) (a : F) : (moveDsTarget u a s).status = s.status := rfl
@[simp] theorem moveDsTarget_chCount (u : Fpu) (a : F) : (moveDsTarget u a s).chCount = s.chCount := rfl
@[simp] theorem moveDsTarget_fs (u : Fpu) (a : F) : (moveDsTarget u a s).fs = s.fs := rfl
@[simp] theorem moveDsTarget_dsmax (u : Fpu) (a : F) : (moveDsTarget u a s).dsmax = s.dsmax := rfl
@[simp] theorem moveDsTarget_gr (u : Fpu) (a : F) : (moveDsTarget u a s).gr = s.gr := rfl
@[simp] theorem moveDsTarget_pb (u : Fpu) (a : F) : (moveDsTarget u a s).pb = s.pb := rfl
@[simp] theorem moveDsTarget_bc (u : Fpu) (a : F) : (moveDsTarget u a s).bc = s.bc := rfl
@[simp] theorem moveDsTarget_mix (u : Fpu) (a : F) : (moveDsTarget u a s).mix = s.mix := rfl
@[simp] theorem moveDsTarget_lim (u : Fpu) (a : F) : (moveDsTarget u a s).lim = s.lim := rfl
@[simp] theorem moveDsTarget_ptr (u : Fpu) (a : F) : (moveDsTarget u a s).ptr = s.ptr := rfl
@[simp] theorem moveDsTarget_pbLfo (u : Fpu) (a : F) : (moveDsTarget u a s).pbLfo = s.pbLfo := rfl
@[simp] theorem moveDsTarget_bcLfo (u : Fpu) (a : F) : (moveDsTarget u a s).bcLfo = s.bcLfo := rfl
@[simp] theorem moveDsTarget_recMem (u : Fpu) (a : F) : (moveDsTarget u a s).recMem = s.recMem := rfl
@[simp] theorem moveDsTarget_inMem (u : Fpu) (a : F) : (moveDsTarget u a s).inMem = s.inMem := rfl
@[simp] theorem moveDsTarget_outMem (u : Fpu) (a : F) : (moveDsTarget u a s).outMem = s.outMem := rfl
@[simp] theorem moveDsTarget_audioQ (u : Fpu) (a : F) : (moveDsTarget u a s).audioQ = s.audioQ := rfl
@[simp] theorem moveDsTarget_controlQ (u : Fpu) (a : F) : (moveDsTarget u a s).controlQ = s.controlQ := rfl
@[simp] theorem moveDsTarget_proc (u : Fpu) (a : F) : (moveDsTarget u a s).proc = s.proc := rfl
@[simp] theorem moveDsTarget_inOld (u : Fpu) (a : F) : (moveDsTarget u a s).inOld = s.inOld := rfl
@[simp] theorem moveDsTarget_hostIn (u : Fpu) (a : F) : (moveDsTarget u a s).hostIn = s.hostIn := rfl
@[simp] theorem moveDsTarget_sched (u : Fpu) (a : F) : (moveDsTarget u a s).sched = s.sched := rfl
@[simp] theorem moveDsTarget_free (u : Fpu) (a : F) : (moveDsTarget u a s).free = s.free := rfl

/-! ### movePbTarget -/

@[simp] theorem movePbTarget_build (u : Fpu) (a : F) : (movePbTarget u a s).build = s.build := rfl
@[simp] theorem movePbTarget_status (u : Fpu) (a : F) : (movePbTarget u a s).status = s.status := rfl
@[simp] theorem movePbTarget_chCount (u : Fpu) (a : F) : (movePbTarget u a s).chCount = s.chCount := rfl
@[simp] theorem movePbTarget_fs (u : Fpu) (a : F) : (movePbTarget u a s).fs = s.fs := rfl
@[simp] theorem movePbTarget_dsmax (u : Fpu) (a : F) : (movePbTarget u a s).dsmax = s.dsmax := rfl
@[simp] theorem movePbTarget_gr (u : Fpu) (a : F) : (movePbTarget u a s).gr = s.gr := rfl
@[simp] theorem movePbTarget_ds (u : Fpu) (a : F) : (movePbTarget u a s).ds = s.ds := rfl
@[simp] theorem movePbTarget_bc (u : Fpu) (a : F) : (movePbTarget u a s).bc = s.bc := rfl
@[simp] theorem movePbTarget_mix (u : Fpu) (a : F) : (movePbTarget u a s).mix = s.mix := rfl
@[simp] theorem movePbTarget_lim (u : Fpu) (a : F) : (movePbTarget u a s).lim = s.lim := rfl
@[simp] theorem movePbTarget_ptr (u : Fpu) (a : F) : (movePbTarget u a s).ptr = s.ptr := rfl
@[simp] theorem movePbTarget_dsLfo (u : Fpu) (a : F) : (movePbTarget u a s).dsLfo = s.dsLfo := rfl
@[simp] theorem movePbTarget_bcLfo (u : Fpu) (a : F) : (movePbTarget u a s).bcLfo = s.bcLfo := rfl
@[simp] theorem movePbTarget_chans (u : Fpu) (a : F) : (movePbTarget u a s).chans = s.chans := rfl
@[simp] theorem movePbTarget_recMem (u : Fpu) (a : F) : (movePbTarget u a s).recMem = s.recMem := rfl
@[simp] theorem movePbTarget_inMem (u : Fpu) (a : F) : (movePbTarget u a s).inMem = s.inMem := rfl
@[simp] theorem movePbTarget_outMem (u : Fpu) (a : F) : (movePbTarget u a s).outMem = s.outMem := rfl
@[simp] theorem movePbTarget_audioQ (u : Fpu) (a : F) : (movePbTarget u a s).audioQ = s.audioQ := rfl
@[simp] theorem movePbTarget_controlQ (u : Fpu) (a : F) : (movePbTarget u a s).controlQ = s.controlQ := rfl
@[simp] theorem movePbTarget_proc (u : Fpu) (a : F) : (movePbTarget u a s).proc = s.proc := rfl
@[simp] theorem movePbTarget_inOld (u : Fpu) (a : F) : (movePbTarget u a s).inOld = s.inOld := rfl
@[simp] theorem movePbTarget_hostIn (u : Fpu) (a : F) : (movePbTarget u a s).hostIn = s.hostIn := rfl
@[simp] theorem movePbTarget_sched (u : Fpu) (a : F) : (movePbTarget u a s).sched = s.sched := rfl
@[simp] theorem movePbTarget_free (u : Fpu) (a : F) : (movePbTarget u a s).free = s.free := rfl

/-! ### reclockAll -/

@[simp] theorem reclockAll_build (u : Fpu) (a : F) : (reclockAll u a s).build = s.build := rfl
@[simp] theorem reclockAll_status (u : Fpu) (a : F) : (reclockAll u a s).status = s.status := rfl
@[simp] theorem reclockAll_chCount (u : Fpu) (a : F) : (reclockAll u a s).chCount = s.chCount := rfl
@[simp] theorem reclockAll_fs (u : Fpu) (a : F) : (reclockAll u a s).fs = s.fs := rfl
@[simp] theorem reclockAll_dsmax (u : Fpu) (a : F) : (reclockAll u a s).dsmax = s.dsmax := rfl
@[simp] theorem reclockAll_gr (u : Fpu) (a : F) : (reclockAll u a s).gr = s.gr := rfl
@[simp] theorem reclockAll_ds (u : Fpu) (a : F) : (reclockAll u a s).ds = s.ds := rfl
@[simp] theorem reclockAll_pb (u : Fpu) (a : F) : (reclockAll u a s).pb = s.pb := rfl
@[simp] theorem reclockAll_bc (u : Fpu) (a : F) : (reclockAll u a s).bc = s.bc := rfl
@[simp] theorem reclockAll_mix (u : Fpu) (a : F) : (reclockAll u a s).mix = s.mix := rfl
@[simp] theorem reclockAll_ptr (u : Fpu) (a : F) : (reclockAll u a s).ptr = s.ptr := rfl
@[simp] theorem reclockAll_chans (u : Fpu) (a : F) : (reclockAll u a s).chans = s.chans := rfl
@[simp] theorem reclockAll_recMem (u : Fpu) (a : F) : (reclockAll u a s).recMem = s.recMem := rfl
@[simp] theorem reclockAll_inMem (u : Fpu) (a : F) : (reclockAll u a s).inMem = s.inMem := rfl
@[simp] theorem reclockAll_outMem (u : Fpu) (a : F) : (reclockAll u a s).outMem = s.outMem := rfl
@[simp] theorem reclockAll_audioQ (u : Fpu) (a : F) : (reclockAll u a s).audioQ = s.audioQ := rfl
@[simp] theorem reclockAll_controlQ (u : Fpu) (a : F) : (reclockAll u a s).controlQ = s.controlQ := rfl
@[simp] theorem reclockAll_proc (u : Fpu) (a : F) : (reclockAll u a s).proc = s.proc := rfl
@[simp] theorem reclockAll_inOld (u : Fpu) (a : F) : (reclockAll u a s).inOld = s.inOld := rfl
@[simp] theorem reclockAll_hostIn (u : Fpu) (a : F) : (reclockAll u a s).hostIn = s.hostIn := rfl
@[simp] theorem reclockAll_sched (u : Fpu) (a : F) : (reclockAll u a s).sched = s.sched := rfl
@[simp] theorem reclockAll_free (u : Fpu) (a : F) : (reclockAll u a s).free = s.free := rfl

/-! ### putAttack -/

@[simp] theorem putAttack_build (m : Bool) (p k : F) : (putAttack m p k s).build = s.build := rfl
@[simp] theorem putAttack_status (m : Bool) (p k : F) : (putAttack m p k s).status = s.status := rfl
@[simp] theorem putAttack_chCount (m : Bool) (p k : F) : (putAttack m p k s).chCount = s.chCount := rfl
@[simp] theorem putAttack_fs (m : Bool) (p k : F) : (putAttack m p k s).fs = s.fs := rfl
@[simp] theorem putAttack_dsmax (m : Bool) (p k : F) : (putAttack m p k s).dsmax = s.dsmax := rfl
@[simp] theorem putAttack_gr (m : Bool) (p k : F) : (putAttack m p k s).gr = s.gr := rfl
@[simp] theorem putAttack_ds (m : Bool) (p k : F) : (putAttack m p k s).ds = s.ds := rfl
@[simp] theorem putAttack_pb (m : Bool) (p k : F) : (putAttack m p k s).pb = s.pb := rfl
@[simp] theorem putAttack_bc (m : Bool) (p k : F) : (putAttack m p k s).bc = s.bc := rfl
@[simp] theorem putAttack_mix (m : Bool) (p k : F) : (putAttack m p k s).mix = s.mix := rfl
@[simp] theorem putAttack_ptr (m : Bool) (p k : F) : (putAttack m p k s).ptr = s.ptr := rfl
@[simp] theorem putAttack_dsLfo (m : Bool) (p k : F) : (putAttack m p k s).dsLfo = s.dsLfo := rfl
@[simp] theorem putAttack_pbLfo (m : Bool) (p k : F) : (putAttack m p k s).pbLfo = s.pbLfo := rfl
@[simp] theorem putAttack_bcLfo (m : Bool) (p k : F) : (putAttack m p k s).bcLfo = s.bcLfo := rfl
@[simp] theorem putAttack_chans (m : Bool) (p k : F) : (putAttack m p k s).chans = s.chans := rfl
@[simp] theorem putAttack_recMem (m : Bool) (p k : F) : (putAttack m p k s).recMem = s.recMem := rfl
@[simp] theorem putAttack_inMem (m : Bool) (p k : F) : (putAttack m p k s).inMem = s.inMem := rfl
@[simp] theorem putAttack_outMem (m : Bool) (p k : F) : (putAttack m p k s).outMem = s.outMem := rfl
@[simp] theorem putAttack_audioQ (m : Bool) (p k : F) : (putAttack m p k s).audioQ = s.audioQ := rfl
@[simp] theorem putAttack_controlQ (m : Bool) (p k : F) : (putAttack m p k s).controlQ = s.controlQ := rfl
@[simp] theorem putAttack_proc (m : Bool) (p k : F) : (putAttack m p k s).proc = s.proc := rfl
@[simp] theorem putAttack_inOld (m : Bool) (p k : F) : (putAttack m p k s).inOld = s.inOld := rfl
@[simp] theorem putAttack_hostIn (m : Bool) (p k : F) : (putAttack m p k s).hostIn = s.hostIn := rfl
@[simp] theorem putAttack_sched (m : Bool) (p k : F) : (putAttack m p k s).sched = s.sched := rfl
@[simp] theorem putAttack_free (m : Bool) (p k : F) : (putAttack m p k s).free = s.free := rfl

/-! ### putRelease -/

@[simp] theorem putRelease_build (m : Bool) (p k : F) : (putRelease m p k s).build = s.build := rfl
@[simp] theorem putRelease_status (m : Bool) (p k : F) : (putRelease m p k s).status = s.status := rfl
@[simp] theorem putRelease_chCount (m : Bool) (p k : F) : (putRelease m p k s).chCount = s.chCount := rfl
@[simp] theorem putRelease_fs (m : Bool) (p k : F) : (putRelease m p k s).fs = s.fs := rfl
@[simp] theorem putRelease_dsmax (m : Bool) (p k : F) : (putRelease m p k s).dsmax = s.dsmax := rfl
@[simp] theorem putRelease_gr (m : Bool) (p k : F) : (putRelease m p k s).gr = s.gr := rfl
@[simp] theorem putRelease_ds (m : Bool) (p k : F) : (putRelease m p k s).ds = s.ds := rfl
@[simp] theorem putRelease_pb (m : Bool) (p k : F) : (putRelease m p k s).pb = s.pb := rfl
@[simp] theorem putRelease_bc (m : Bool) (p k : F) : (putRelease m p k s).bc = s.bc := rfl
@[simp] theorem putRelease_mix (m : Bool) (p k : F) : (putRelease m p k s).mix = s.mix := rfl
@[simp] theorem putRelease_ptr (m : Bool) (p k : F) : (putRelease m p k s).ptr = s.ptr := rfl
@[simp] theorem putRelease_dsLfo (m : Bool) (p k : F) : (putRelease m p k s).dsLfo = s.dsLfo := rfl
@[simp] theorem putRelease_pbLfo (m : Bool) (p k : F) : (putRelease m p k s).pbLfo = s.pbLfo := rfl
@[simp] theorem putRelease_bcLfo (m : Bool) (p k : F) : (putRelease m p k s).bcLfo = s.bcLfo := rfl
@[simp] theorem putRelease_chans (m : Bool) (p k : F) : (putRelease m p k s).chans = s.chans := rfl
@[simp] theorem putRelease_recMem (m : Bool) (p k : F) : (putRelease m p k s).recMem = s.recMem := rfl
@[simp] theorem putRelease_inMem (m : Bool) (p k : F) : (putRelease m p k s).inMem = s.inMem := rfl
@[simp] theorem putRelease_outMem (m : Bool) (p k : F) : (putRelease m p k s).outMem = s.outMem := rfl
@[simp] theorem putRelease_audioQ (m : Bool) (p k : F) : (putRelease m p k s).audioQ = s.audioQ := rfl
@[simp] theorem putRelease_controlQ (m : Bool) (p k : F) : (putRelease m p k s).controlQ = s.controlQ := rfl
@[simp] theorem putRelease_proc (m : Bool) (p k : F) : (putRelease m p k s).proc = s.proc := rfl
@[simp] theorem putRelease_inOld (m : Bool) (p k : F) : (putRelease m p k s).inOld = s.inOld := rfl
@[simp] theorem putRelease_hostIn (m : Bool) (p k : F) : (putRelease m p k s).hostIn = s.hostIn := rfl
@[simp] theorem putRelease_sched (m : Bool) (p k : F) : (putRelease m p k s).sched = s.sched := rfl
@[simp] theorem putRelease_free (m : Bool) (p k : F) : (putRelease m p k s).free = s.free := rfl

/-! ### clearFilters -/

@[simp] theorem clearFilters_build : (clearFilters s).build = s.build := rfl
@[simp] theorem clearFilters_status : (clearFilters s).status = s.status := rfl
@[simp] theorem clearFilters_chCount : (clearFilters s).chCount = s.chCount := rfl
@[simp] theorem clearFilters_fs : (clearFilters s).fs = s.fs := rfl
@[simp] theorem clearFilters_dsmax : (clearFilters s).dsmax = s.dsmax := rfl
@[simp] theorem clearFilters_gr : (clearFilters s).gr = s.gr := rfl
@[simp] theorem clearFilters_ds : (clearFilters s).ds = s.ds := rfl
@[simp] theorem clearFilters_pb : (clearFilters s).pb = s.pb := rfl
@[simp] theorem clearFilters_bc : (clearFilters s).bc = s.bc := rfl
@[simp] theorem clearFilters_mix : (clearFilters s).mix = s.mix := rfl
@[simp] theorem clearFilters_lim : (clearFilters s).lim = s.lim := rfl
@[simp] theorem clearFilters_ptr : (clearFilters s).ptr = s.ptr := rfl
@[simp] theorem clearFilters_dsLfo : (clearFilters s).dsLfo = s.dsLfo := rfl
@[simp] theorem clearFilters_pbLfo : (clearFilters s).pbLfo = s.pbLfo := rfl
@[simp] theorem clearFilters_bcLfo : (clearFilters s).bcLfo = s.bcLfo := rfl
@[simp] theorem clearFilters_recMem : (clearFilters s).recMem = s.recMem := rfl
@[simp] theorem clearFilters_inMem : (clearFilters s).inMem = s.inMem := rfl
@[simp] theorem clearFilters_outMem : (clearFilters s).outMem = s.outMem := rfl
@[simp] theorem clearFilters_audioQ : (clearFilters s).audioQ = s.audioQ := rfl
@[simp] theorem clearFilters_controlQ : (clearFilters s).controlQ = s.controlQ := rfl
@[simp] theorem clearFilters_proc : (clearFilters s).proc = s.proc := rfl
@[simp] theorem clearFilters_inOld : (clearFilters s).inOld = s.inOld := rfl
@[simp] theorem clearFilters_hostIn : (clearFilters s).hostIn = s.hostIn := rfl
@[simp] theorem clearFilters_sched : (clearFilters s).sched = s.sched := rfl
@[simp] theorem clearFilters_free : (clearFilters s).free = s.free := rfl

/-! ### copyBlock -/

@[simp] theorem copyBlock_build (sw : Bool) (nin nout n : Nat) : (copyBlock sw nin nout n s).build = s.build := rfl
@[simp] theorem copyBlock_status (sw : Bool) (nin nout n : Nat) : (copyBlock sw nin nout n s).status = s.status := rfl
@[simp] theorem copyBlock_chCount (sw : Bool) (nin nout n : Nat) : (copyBlock sw nin nout n s).chCount = s.chCount := rfl
@[simp] theorem copyBlock_fs (sw : Bool) (nin nout n : Nat) : (copyBlock sw nin nout n s).fs = s.fs := rfl
@[simp] theorem copyBlock_dsmax (sw : Bool) (nin nout n : Nat) : (copyBlock sw nin nout n s).dsmax = s.dsmax := rfl
@[simp] theorem copyBlock_gr (sw : Bool) (nin nout n : Nat) : (copyBlock sw nin nout n s).gr = s.gr := rfl
@[simp] theorem copyBlock_ds (sw : Bool) (nin nout n : Nat) : (copyBlock sw nin nout n s).ds = s.ds := rfl
@[simp] theorem copyBlock_pb (sw : Bool) (nin nout n : Nat) : (copyBlock sw nin nout n s).pb = s.pb := rfl
@[simp] theorem copyBlock_bc (sw : Bool) (nin nout n : Nat) : (copyBlock sw nin nout n s).bc = s.bc := rfl
@[simp] theorem copyBlock_mix (sw : Bool) (nin nout n : Nat) : (copyBlock sw nin nout n s).mix = s.mix := rfl
@[simp] theorem copyBlock_lim (sw : Bool) (nin nout n : Nat) : (copyBlock sw nin nout n s).lim = s.lim := rfl
@[simp] theorem copyBlock_ptr (sw : Bool) (nin nout n : Nat) : (copyBlock sw nin nout n s).ptr = s.ptr := rfl
@[simp] theorem copyBlock_dsLfo (sw : Bool) (nin nout n : Nat) : (copyBlock sw nin nout n s).dsLfo = s.dsLfo := rfl
@[simp] theorem copyBlock_pbLfo (sw : Bool) (nin nout n : Nat) : (copyBlock sw nin nout n s).pbLfo = s.pbLfo := rfl
@[simp] theorem copyBlock_bcLfo (sw : Bool) (nin nout n : Nat) : (copyBlock sw nin nout n s).bcLfo = s.bcLfo := rfl
@[simp] theorem copyBlock_chans (sw : Bool) (nin nout n : Nat) : (copyBlock sw nin nout n s).chans = s.chans := rfl
@[simp] theorem copyBlock_recMem (sw : Bool) (nin nout n : Nat) : (copyBlock sw nin nout n s).recMem = s.recMem := rfl
@[simp] theorem copyBlock_inMem (sw : Bool) (nin nout n : Nat) : (copyBlock sw nin nout n s).inMem = s.inMem := rfl
@[simp] theorem copyBlock_audioQ (sw : Bool) (nin nout n : Nat) : (copyBlock sw nin nout n s).audioQ = s.audioQ := rfl
@[simp] theorem copyBlock_controlQ (sw : Bool) (nin nout n : Nat) : (copyBlock sw nin nout n s).controlQ = s.controlQ := rfl
@[simp] theorem copyBlock_proc (sw : Bool) (nin nout n : Nat) : (copyBlock sw nin nout n s).proc = s.proc := rfl
@[simp] theorem copyBlock_inOld (sw : Bool) (nin nout n : Nat) : (copyBlock sw nin nout n s).inOld = s.inOld := rfl
@[simp] theorem copyBlock_hostIn (sw : Bool) (nin nout n : Nat) : (copyBlock sw nin nout n s).hostIn = s.hostIn := rfl
@[simp] theorem copyBlock_sched (sw : Bool) (nin nout n : Nat) : (copyBlock sw nin nout n s).sched = s.sched := rfl
@[simp] theorem copyBlock_free (sw : Bool) (nin nout n : Nat) : (copyBlock sw nin nout n s).free = s.free := rfl

/-! ### recordFrame -/

@[simp] theorem recordFrame_build (u : Fpu) (p : Proc) : (recordFrame u p s).build = s.build := rfl
@[simp] theorem recordFrame_status (u : Fpu) (p : Proc) : (recordFrame u p s).status = s.status := rfl
@[simp] theorem recordFrame_chCount (u : Fpu) (p : Proc) : (recordFrame u p s).chCount = s.chCount := rfl
@[simp] theorem recordFrame_fs (u : Fpu) (p : Proc) : (recordFrame u p s).fs = s.fs := rfl
@[simp] theorem recordFrame_dsmax (u : Fpu) (p : Proc) : (recordFrame u p s).dsmax = s.dsmax := rfl
@[simp] theorem recordFrame_gr (u : Fpu) (p : Proc) : (recordFrame u p s).gr = s.gr := rfl
@[simp] theorem recordFrame_ds (u : Fpu) (p : Proc) : (recordFrame u p s).ds = s.ds := rfl
@[simp] theorem recordFrame_pb (u : Fpu) (p : Proc) : (recordFrame u p s).pb = s.pb := rfl
@[simp] theorem recordFrame_bc (u : Fpu) (p : Proc) : (recordFrame u p s).bc = s.bc := rfl
@[simp] theorem recordFrame_mix (u : Fpu) (p : Proc) : (recordFrame u p s).mix = s.mix := rfl
@[simp] theorem recordFrame_lim (u : Fpu) (p : Proc) : (recordFrame u p s).lim = s.lim := rfl
@[simp] theorem recordFrame_ptr (u : Fpu) (p : Proc) : (recordFrame u p s).ptr = s.ptr := rfl
@[simp] theorem recordFrame_dsLfo (u : Fpu) (p : Proc) : (recordFrame u p s).dsLfo = s.dsLfo := rfl
@[simp] theorem recordFrame_pbLfo (u : Fpu) (p : Proc) : (recordFrame u p s).pbLfo = s.pbLfo := rfl
@[simp] theorem recordFrame_bcLfo (u : Fpu) (p : Proc) : (recordFrame u p s).bcLfo = s.bcLfo := rfl
@[simp] theorem recordFrame_chans (u : Fpu) (p : Proc) : (recordFrame u p s).chans = s.chans := rfl
@[simp] theorem recordFrame_inMem (u : Fpu) (p : Proc) : (recordFrame u p s).inMem = s.inMem := rfl
@[simp] theorem recordFrame_outMem (u : Fpu) (p : Proc) : (recordFrame u p s).outMem = s.outMem := rfl
@[simp] theorem recordFrame_audioQ (u : Fpu) (p : Proc) : (recordFrame u p s).audioQ = s.audioQ := rfl
@[simp] theorem recordFrame_controlQ (u : Fpu) (p : Proc) : (recordFrame u p s).controlQ = s.controlQ := rfl
@[simp] theorem recordFrame_proc (u : Fpu) (p : Proc) : (recordFrame u p s).proc = s.proc := rfl
@[simp] theorem recordFrame_inOld (u : Fpu) (p : Proc) : (recordFrame u p s).inOld = s.inOld := rfl
@[simp] theorem recordFrame_hostIn (u : Fpu) (p : Proc) : (recordFrame u p s).hostIn = s.hostIn := rfl
@[simp] theorem recordFrame_sched (u : Fpu) (p : Proc) : (recordFrame u p s).sched = s.sched := rfl
@[simp] theorem recordFrame_free (u : Fpu) (p : Proc) : (recordFrame u p s).free = s.free := rfl

/-! ### holdFrame -/

@[simp] theorem holdFrame_build (u : Fpu) : (holdFrame u s).build = s.build := rfl
@[simp] theorem holdFrame_status (u : Fpu) : (holdFrame u s).status = s.status := rfl
@[simp] theorem holdFrame_chCount (u : Fpu) : (holdFrame u s).chCount = s.chCount := rfl
@[simp] theorem holdFrame_fs (u : Fpu) : (holdFrame u s).fs = s.fs := rfl
@[simp] theorem holdFrame_dsmax (u : Fpu) : (holdFrame u s).dsmax = s.dsmax := rfl
@[simp] theorem holdFrame_gr (u : Fpu) : (holdFrame u s).gr = s.gr := rfl
@[simp] theorem holdFrame_ds (u : Fpu) : (holdFrame u s).ds = s.ds := rfl
@[simp] theorem holdFrame_pb (u : Fpu) : (holdFrame u s).pb = s.pb := rfl
@[simp] theorem holdFrame_bc (u : Fpu) : (holdFrame u s).bc = s.bc := rfl
@[simp] theorem holdFrame_mix (u : Fpu) : (holdFrame u s).mix = s.mix := rfl
@[simp] theorem holdFrame_lim (u : Fpu) : (holdFrame u s).lim = s.lim := rfl
@[simp] theorem holdFrame_ptr (u : Fpu) : (holdFrame u s).ptr = s.ptr := rfl
@[simp] theorem holdFrame_dsLfo (u : Fpu) : (holdFrame u s).dsLfo = s.dsLfo := rfl
@[simp] theorem holdFrame_pbLfo (u : Fpu) : (holdFrame u s).pbLfo = s.pbLfo := rfl
@[simp] theorem holdFrame_bcLfo (u : Fpu) : (holdFrame u s).bcLfo = s.bcLfo := rfl
@[simp] theorem holdFrame_recMem (u : Fpu) : (holdFrame u s).recMem = s.recMem := rfl
@[simp] theorem holdFrame_inMem (u : Fpu) : (holdFrame u s).inMem = s.inMem := rfl
@[simp] theorem holdFrame_outMem (u : Fpu) : (holdFrame u s).outMem = s.outMem := rfl
@[simp] theorem holdFrame_audioQ (u : Fpu) : (holdFrame u s).audioQ = s.audioQ := rfl
@[simp] theorem holdFrame_controlQ (u : Fpu) : (holdFrame u s).controlQ = s.controlQ := rfl
@[simp] theorem holdFrame_proc (u : Fpu) : (holdFrame u s).proc = s.proc := rfl
@[simp] theorem holdFrame_inOld (u : Fpu) : (holdFrame u s).inOld = s.inOld := rfl
@[simp] theorem holdFrame_hostIn (u : Fpu) : (holdFrame u s).hostIn = s.hostIn := rfl
@[simp] theorem holdFrame_sched (u : Fpu) : (holdFrame u s).sched = s.sched := rfl
@[simp] theorem holdFrame_free (u : Fpu) : (holdFrame u s).free = s.free := rfl

/-! ### emitFrame -/

@[simp] theorem emitFrame_build (u : Fpu) (p : Proc) (out : Nat → F) : (emitFrame u p out s).build = s.build := rfl
@[simp] theorem emitFrame_status (u : Fpu) (p : Proc) (out : Nat → F) : (emitFrame u p out s).status = s.status := rfl
@[simp] theorem emitFrame_chCount (u : Fpu) (p : Proc) (out : Nat → F) : (emitFrame u p out s).chCount = s.chCount := rfl
@[simp] theorem emitFrame_fs (u : Fpu) (p : Proc) (out : Nat → F) : (emitFrame u p out s).fs = s.fs := rfl
@[simp] theorem emitFrame_dsmax (u : Fpu) (p : Proc) (out : Nat → F) : (emitFrame u p out s).dsmax = s.dsmax := rfl
@[simp] theorem emitFrame_gr (u : Fpu) (p : Proc) (out : Nat → F) : (emitFrame u p out s).gr = s.gr := rfl
@[simp] theorem emitFrame_ds (u : Fpu) (p : Proc) (out : Nat → F) : (emitFrame u p out s).ds = s.ds := rfl
@[simp] theorem emitFrame_pb (u : Fpu) (p : Proc) (out : Nat → F) : (emitFrame u p out s).pb = s.pb := rfl
@[simp] theorem emitFrame_bc (u : Fpu) (p : Proc) (out : Nat → F) : (emitFrame u p out s).bc = s.bc := rfl
@[simp] theorem emitFrame_mix (u : Fpu) (p : Proc) (out : Nat → F) : (emitFrame u p out s).mix = s.mix := rfl
@[simp] theorem emitFrame_lim (u : Fpu) (p : Proc) (out : Nat → F) : (emitFrame u p out s).lim = s.lim := rfl
@[simp] theorem emitFrame_ptr (u : Fpu) (p : Proc) (out : Nat → F) : (emitFrame u p out s).ptr = s.ptr := rfl
@[simp] theorem emitFrame_dsLfo (u : Fpu) (p : Proc) (out : Nat → F) : (emitFrame u p out s).dsLfo = s.dsLfo := rfl
@[simp] theorem emitFrame_pbLfo (u : Fpu) (p : Proc) (out : Nat → F) : (emitFrame u p out s).pbLfo = s.pbLfo := rfl
@[simp] theorem emitFrame_bcLfo (u : Fpu) (p : Proc) (out : Nat → F) : (emitFrame u p out s).bcLfo = s.bcLfo := rfl
@[simp] theorem emitFrame_recMem (u : Fpu) (p : Proc) (out : Nat → F) : (emitFrame u p out s).recMem = s.recMem := rfl
@[simp] theorem emitFrame_inMem (u : Fpu) (p : Proc) (out : Nat → F) : (emitFrame u p out s).inMem = s.inMem := rfl
@[simp] theorem emitFrame_audioQ (u : Fpu) (p : Proc) (out : Nat → F) : (emitFrame u p out s).audioQ = s.audioQ := rfl
@[simp] theorem emitFrame_controlQ (u : Fpu) (p : Proc) (out : Nat → F) : (emitFrame u p out s).controlQ = s.controlQ := rfl
@[simp] theorem emitFrame_proc (u : Fpu) (p : Proc) (out : Nat → F) : (emitFrame u p out s).proc = s.proc := rfl
@[simp] theorem emitFrame_inOld (u : Fpu) (p : Proc) (out : Nat → F) : (emitFrame u p out s).inOld = s.inOld := rfl
@[simp] theorem emitFrame_hostIn (u : Fpu) (p : Proc) (out : Nat → F) : (emitFrame u p out s).hostIn = s.hostIn := rfl
@[simp] theorem emitFrame_sched (u : Fpu) (p : Proc) (out : Nat → F) : (emitFrame u p out s).sched = s.sched := rfl
@[simp] theorem emitFrame_free (u : Fpu) (p : Proc) (out : Nat → F) : (emitFrame u p out s).free = s.free := rfl

/-! ### epilogue -/

@[simp] theorem epilogue_build (u : Fpu) : (epilogue u s).build = s.build := rfl
@[simp] theorem epilogue_chCount (u : Fpu) : (epilogue u s).chCount = s.chCount := rfl
@[simp] theorem epilogue_fs (u : Fpu) : (epilogue u s).fs = s.fs := rfl
@[simp] theorem epilogue_dsmax (u : Fpu) : (epilogue u s).dsmax = s.dsmax := rfl
@[simp] theorem epilogue_ds (u : Fpu) : (epilogue u s).ds = s.ds := rfl
@[simp] theorem epilogue_pb (u : Fpu) : (epilogue u s).pb = s.pb := rfl
@[simp] theorem epilogue_bc (u : Fpu) : (epilogue u s).bc = s.bc := rfl
@[simp] theorem epilogue_mix (u : Fpu) : (epilogue u s).mix = s.mix := rfl
@[simp] theorem epilogue_lim (u : Fpu) : (epilogue u s).lim = s.lim := rfl
@[simp] theorem epilogue_ptr (u : Fpu) : (epilogue u s).ptr = s.ptr := rfl
@[simp] theorem epilogue_dsLfo (u : Fpu) : (epilogue u s).dsLfo = s.dsLfo := rfl
@[simp] theorem epilogue_pbLfo (u : Fpu) : (epilogue u s).pbLfo = s.pbLfo := rfl
@[simp] theorem epilogue_bcLfo (u : Fpu) : (epilogue u s).bcLfo = s.bcLfo := rfl
@[simp] theorem epilogue_chans (u : Fpu) : (epilogue u s).chans = s.chans := rfl
@[simp] theorem epilogue_recMem (u : Fpu) : (epilogue u s).recMem = s.recMem := rfl
@[simp] theorem epilogue_inMem (u : Fpu) : (epilogue u s).inMem = s.inMem := rfl
@[simp] theorem epilogue_outMem (u : Fpu) : (epilogue u s).outMem = s.outMem := rfl
@[simp] theorem epilogue_audioQ (u : Fpu) : (epilogue u s).audioQ = s.audioQ := rfl
@[simp] theorem epilogue_controlQ (u : Fpu) : (epilogue u s).controlQ = s.controlQ := rfl
@[simp] theorem epilogue_inOld (u : Fpu) : (epilogue u s).inOld = s.inOld := rfl
@[simp] theorem epilogue_hostIn (u : Fpu) : (epilogue u s).hostIn = s.hostIn := rfl
@[simp] theorem epilogue_sched (u : Fpu) : (epilogue u s).sched = s.sched := rfl
@[simp] theorem epilogue_free (u : Fpu) : (epilogue u s).free = s.free := rfl

/-! ### detectFrame -/

@[simp] theorem detectFrame_build (u : Fpu) (r : State) : (detectFrame u r s).build = s.build := rfl
@[simp] theorem detectFrame_status (u : Fpu) (r : State) : (detectFrame u r s).status = s.status := rfl
@[simp] theorem detectFrame_chCount (u : Fpu) (r : State) : (detectFrame u r s).chCount = s.chCount := rfl
@[simp] theorem detectFrame_fs (u : Fpu) (r : State) : (detectFrame u r s).fs = s.fs := rfl
@[simp] theorem detectFrame_dsmax (u : Fpu) (r : State) : (detectFrame u r s).dsmax = s.dsmax := rfl
@[simp] theorem detectFrame_gr (u : Fpu) (r : State) : (detectFrame u r s).gr = s.gr := rfl
@[simp] theorem detectFrame_ds (u : Fpu) (r : State) : (detectFrame u r s).ds = s.ds := rfl
@[simp] theorem detectFrame_pb (u : Fpu) (r : State) : (detectFrame u r s).pb = s.pb := rfl
@[simp] theorem detectFrame_bc (u : Fpu) (r : State) : (detectFrame u r s).bc = s.bc := rfl
@[simp] theorem detectFrame_mix (u : Fpu) (r : State) : (detectFrame u r s).mix = s.mix := rfl
@[simp] theorem detectFrame_ptr (u : Fpu) (r : State) : (detectFrame u r s).ptr = s.ptr := rfl
@[simp] theorem detectFrame_dsLfo (u : Fpu) (r : State) : (detectFrame u r s).dsLfo = s.dsLfo := rfl
@[simp] theorem detectFrame_pbLfo (u : Fpu) (r : State) : (detectFrame u r s).pbLfo = s.pbLfo := rfl
@[simp] theorem detectFrame_bcLfo (u : Fpu) (r : State) : (detectFrame u r s).bcLfo = s.bcLfo := rfl
@[simp] theorem detectFrame_chans (u : Fpu) (r : State) : (detectFrame u r s).chans = s.chans := rfl
@[simp] theorem detectFrame_recMem (u : Fpu) (r : State) : (detectFrame u r s).recMem = s.recMem := rfl
@[simp] theorem detectFrame_inMem (u : Fpu) (r : State) : (detectFrame u r s).inMem = s.inMem := rfl
@[simp] theorem detectFrame_outMem (u : Fpu) (r : State) : (detectFrame u r s).outMem = s.outMem := rfl
@[simp] theorem detectFrame_audioQ (u : Fpu) (r : State) : (detectFrame u r s).audioQ = s.audioQ := rfl
@[simp] theorem detectFrame_controlQ (u : Fpu) (r : State) : (detectFrame u r s).controlQ = s.controlQ := rfl
@[simp] theorem detectFrame_proc (u : Fpu) (r : State) : (detectFrame u r s).proc = s.proc := rfl
@[simp] theorem detectFrame_inOld (u : Fpu) (r : State) : (detectFrame u r s).inOld = s.inOld := rfl
@[simp] theorem detectFrame_hostIn (u : Fpu) (r : State) : (detectFrame u r s).hostIn = s.hostIn := rfl
@[simp] theorem detectFrame_sched (u : Fpu) (r : State) : (detectFrame u r s).sched = s.sched := rfl
@[simp] theorem detectFrame_free (u : Fpu) (r : State) : (detectFrame u r s).free = s.free := rfl

/-! ### closeFrame -/

@[simp] theorem closeFrame_build (p : Proc) (b : State) : (closeFrame p b s).build = s.build := rfl
@[simp] theorem closeFrame_status (p : Proc) (b : State) : (closeFrame p b s).status = s.status := rfl
@[simp] theorem closeFrame_chCount (p : Proc) (b : State) : (closeFrame p b s).chCount = s.chCount := rfl
@[simp] theorem closeFrame_fs (p : Proc) (b : State) : (closeFrame p b s).fs = s.fs := rfl
@[simp] theorem closeFrame_dsmax (p : Proc) (b : State) : (closeFrame p b s).dsmax = s.dsmax := rfl
@[simp] theorem closeFrame_gr (p : Proc) (b : State) : (closeFrame p b s).gr = s.gr := rfl
@[simp] theorem closeFrame_ds (p : Proc) (b : State) : (closeFrame p b s).ds = s.ds := rfl
@[simp] theorem closeFrame_pb (p : Proc) (b : State) : (closeFrame p b s).pb = s.pb := rfl
@[simp] theorem closeFrame_bc (p : Proc) (b : State) : (closeFrame p b s).bc = s.bc := rfl
@[simp] theorem closeFrame_mix (p : Proc) (b : State) : (closeFrame p b s).mix = s.mix := rfl
@[simp] theorem closeFrame_lim (p : Proc) (b : State) : (closeFrame p b s).lim = s.lim := rfl
@[simp] theorem closeFrame_dsLfo (p : Proc) (b : State) : (closeFrame p b s).dsLfo = s.dsLfo := rfl
@[simp] theorem closeFrame_pbLfo (p : Proc) (b : State) : (closeFrame p b s).pbLfo = s.pbLfo := rfl
@[simp] theorem closeFrame_bcLfo (p : Proc) (b : State) : (closeFrame p b s).bcLfo = s.bcLfo := rfl
@[simp] theorem closeFrame_chans (p : Proc) (b : State) : (closeFrame p b s).chans = s.chans := rfl
@[simp] theorem closeFrame_recMem (p : Proc) (b : State) : (closeFrame p b s).recMem = s.recMem := rfl
@[simp] theorem closeFrame_inMem (p : Proc) (b : State) : (closeFrame p b s).inMem = s.inMem := rfl
@[simp] theorem closeFrame_outMem (p : Proc) (b : State) : (closeFrame p b s).outMem = s.outMem := rfl
@[simp] theorem closeFrame_audioQ (p : Proc) (b : State) : (closeFrame p b s).audioQ = s.audioQ := rfl
@[simp] theorem closeFrame_controlQ (p : Proc) (b : State) : (closeFrame p b s).controlQ = s.controlQ := rfl
@[simp] theorem closeFrame_inOld (p : Proc) (b : State) : (closeFrame p b s).inOld = s.inOld := rfl
@[simp] theorem closeFrame_hostIn (p : Proc) (b : State) : (closeFrame p b s).hostIn = s.hostIn := rfl
@[simp] theorem closeFrame_sched (p : Proc) (b : State) : (closeFrame p b s).sched = s.sched := rfl
@[simp] theorem closeFrame_free (p : Proc) (b : State) : (closeFrame p b s).free = s.free := rfl

/-! ### wetFrame -/

@[simp] theorem wetFrame_build (u : Fpu) (p : Proc) : (wetFrame u p s).build = s.build :=
  (detectFrame_build _ u (recordFrame u p s)).trans ((holdFrame_build (recordFrame u p s) u).trans (recordFrame_build s u p))
@[simp] theorem wetFrame_status (u : Fpu) (p : Proc) : (wetFrame u p s).status = s.status :=
  (detectFrame_status _ u (recordFrame u p s)).trans ((holdFrame_status (recordFrame u p s) u).trans (recordFrame_status s u p))
@[simp] theorem wetFrame_chCount (u : Fpu) (p : Proc) : (wetFrame u p s).chCount = s.chCount :=
  (detectFrame_chCount _ u (recordFrame u p s)).trans ((holdFrame_chCount (recordFrame u p s) u).trans (recordFrame_chCount s u p))
@[simp] theorem wetFrame_fs (u : Fpu) (p : Proc) : (wetFrame u p s).fs = s.fs :=
  (detectFrame_fs _ u (recordFrame u p s)).trans ((holdFrame_fs (recordFrame u p s) u).trans (recordFrame_fs s u p))
@[simp] theorem wetFrame_dsmax (u : Fpu) (p : Proc) : (wetFrame u p s).dsmax = s.dsmax :=
  (detectFrame_dsmax _ u (recordFrame u p s)).trans ((holdFrame_dsmax (recordFrame u p s) u).trans (recordFrame_dsmax s u p))
@[simp] theorem wetFrame_gr (u : Fpu) (p : Proc) : (wetFrame u p s).gr = s.gr :=
  (detectFrame_gr _ u (recordFrame u p s)).trans ((holdFrame_gr (recordFrame u p s) u).trans (recordFrame_gr s u p))
@[simp] theorem wetFrame_ds (u : Fpu) (p : Proc) : (wetFrame u p s).ds = s.ds :=
  (detectFrame_ds _ u (recordFrame u p s)).trans ((holdFrame_ds (recordFrame u p s) u).trans (recordFrame_ds s u p))
@[simp] theorem wetFrame_pb (u : Fpu) (p : Proc) : (wetFrame u p s).pb = s.pb :=
  (detectFrame_pb _ u (recordFrame u p s)).trans ((holdFrame_pb (recordFrame u p s) u).trans (recordFrame_pb s u p))
@[simp] theorem wetFrame_bc (u : Fpu) (p : Proc) : (wetFrame u p s).bc = s.bc :=
  (detectFrame_bc _ u (recordFrame u p s)).trans ((holdFrame_bc (recordFrame u p s) u).trans (recordFrame_bc s u p))
@[simp] theorem wetFrame_mix (u : Fpu) (p : Proc) : (wetFrame u p s).mix = s.mix :=
  (detectFrame_mix _ u (recordFrame u p s)).trans ((holdFrame_mix (recordFrame u p s) u).trans (recordFrame_mix s u p))
@[simp] theorem wetFrame_ptr (u : Fpu) (p : Proc) : (wetFrame u p s).ptr = s.ptr :=
  (detectFrame_ptr _ u (recordFrame u p s)).trans ((holdFrame_ptr (recordFrame u p s) u).trans (recordFrame_ptr s u p))
@[simp] theorem wetFrame_dsLfo (u : Fpu) (p : Proc) : (wetFrame u p s).dsLfo = s.dsLfo :=
  (detectFrame_dsLfo _ u (recordFrame u p s)).trans ((holdFrame_dsLfo (recordFrame u p s) u).trans (recordFrame_dsLfo s u p))
@[simp] theorem wetFrame_pbLfo (u : Fpu) (p : Proc) : (wetFrame u p s).pbLfo = s.pbLfo :=
  (detectFrame_pbLfo _ u (recordFrame u p s)).trans ((holdFrame_pbLfo (recordFrame u p s) u).trans (recordFrame_pbLfo s u p))
@[simp] theorem wetFrame_bcLfo (u : Fpu) (p : Proc) : (wetFrame u p s).bcLfo = s.bcLfo :=
  (detectFrame_bcLfo _ u (recordFrame u p s)).trans ((holdFrame_bcLfo (recordFrame u p s) u).trans (recordFrame_bcLfo s u p))
@[simp] theorem wetFrame_inMem (u : Fpu) (p : Proc) : (wetFrame u p s).inMem = s.inMem :=
  (detectFrame_inMem _ u (recordFrame u p s)).trans ((holdFrame_inMem (recordFrame u p s) u).trans (recordFrame_inMem s u p))
@[simp] theorem wetFrame_outMem (u : Fpu) (p : Proc) : (wetFrame u p s).outMem = s.outMem :=
  (detectFrame_outMem _ u (recordFrame u p s)).trans ((holdFrame_outMem (recordFrame u p s) u).trans (recordFrame_outMem s u p))
@[simp] theorem wetFrame_audioQ (u : Fpu) (p : Proc) : (wetFrame u p s).audioQ = s.audioQ :=
  (detectFrame_audioQ _ u (recordFrame u p s)).trans ((holdFrame_audioQ (recordFrame u p s) u).trans (recordFrame_audioQ s u p))
@[simp] theorem wetFrame_controlQ (u : Fpu) (p : Proc) : (wetFrame u p s).controlQ = s.controlQ :=
  (detectFrame_controlQ _ u (recordFrame u p s)).trans ((holdFrame_controlQ (recordFrame u p s) u).trans (recordFrame_controlQ s u p))
@[simp] theorem wetFrame_proc (u : Fpu) (p : Proc) : (wetFrame u p s).proc = s.proc :=
  (detectFrame_proc _ u (recordFrame u p s)).trans ((holdFrame_proc (recordFrame u p s) u).trans (recordFrame_proc s u p))
@[simp] theorem wetFrame_inOld (u : Fpu) (p : Proc) : (wetFrame u p s).inOld = s.inOld :=
  (detectFrame_inOld _ u (recordFrame u p s)).trans ((holdFrame_inOld (recordFrame u p s) u).trans (recordFrame_inOld s u p))
@[simp] theorem wetFrame_hostIn (u : Fpu) (p : Proc) : (wetFrame u p s).hostIn = s.hostIn :=
  (detectFrame_hostIn _ u (recordFrame u p s)).trans ((holdFrame_hostIn (recordFrame u p s) u).trans (recordFrame_hostIn s u p))
@[simp] theorem wetFrame_sched (u : Fpu) (p : Proc) : (wetFrame u p s).sched = s.sched :=
  (detectFrame_sched _ u (recordFrame u p s)).trans ((holdFrame_sched (recordFrame u p s) u).trans (recordFrame_sched s u p))
@[simp] theorem wetFrame_free (u : Fpu) (p : Proc) : (wetFrame u p s).free = s.free :=
  (detectFrame_free _ u (recordFrame u p s)).trans ((holdFrame_free (recordFrame u p s) u).trans (recordFrame_free s u p))

/-! ### playFrame -/

@[simp] theorem playFrame_build (u : Fpu) (p : Proc) (b : State) : (playFrame u p b s).build = s.build :=
  (closeFrame_build _ p b).trans ((emitFrame_build (wetFrame u p s) u p _).trans (wetFrame_build s u p))
@[simp] theorem playFrame_status (u : Fpu) (p : Proc) (b : State) : (playFrame u p b s).status = s.status :=
  (closeFrame_status _ p b).trans ((emitFrame_status (wetFrame u p s) u p _).trans (wetFrame_status s u p))
@[simp] theorem playFrame_chCount (u : Fpu) (p : Proc) (b : State) : (playFrame u p b s).chCount = s.chCount :=
  (closeFrame_chCount _ p b).trans ((emitFrame_chCount (wetFrame u p s) u p _).trans (wetFrame_chCount s u p))
@[simp] theorem playFrame_fs (u : Fpu) (p : Proc) (b : State) : (playFrame u p b s).fs = s.fs :=
  (closeFrame_fs _ p b).trans ((emitFrame_fs (wetFrame u p s) u p _).trans (wetFrame_fs s u p))
@[simp] theorem playFrame_dsmax (u : Fpu) (p : Proc) (b : State) : (playFrame u p b s).dsmax = s.dsmax :=
  (closeFrame_dsmax _ p b).trans ((emitFrame_dsmax (wetFrame u p s) u p _).trans (wetFrame_dsmax s u p))
@[simp] theorem playFrame_gr (u : Fpu) (p : Proc) (b : State) : (playFrame u p b s).gr = s.gr :=
  (closeFrame_gr _ p b).trans ((emitFrame_gr (wetFrame u p s) u p _).trans (wetFrame_gr s u p))
@[simp] theorem playFrame_ds (u : Fpu) (p : Proc) (b : State) : (playFrame u p b s).ds = s.ds :=
  (closeFrame_ds _ p b).trans ((emitFrame_ds (wetFrame u p s) u p _).trans (wetFrame_ds s u p))
@[simp] theorem playFrame_pb (u : Fpu) (p : Proc) (b : State) : (playFrame u p b s).pb = s.pb :=
  (closeFrame_pb _ p b).trans ((emitFrame_pb (wetFrame u p s) u p _).trans (wetFrame_pb s u p))
@[simp] theorem playFrame_bc (u : Fpu) (p : Proc) (b : State) : (playFrame u p b s).bc = s.bc :=
  (closeFrame_bc _ p b).trans ((emitFrame_bc (wetFrame u p s) u p _).trans (wetFrame_bc s u p))
@[simp] theorem playFrame_mix (u : Fpu) (p : Proc) (b : State) : (playFrame u p b s).mix = s.mix :=
  (closeFrame_mix _ p b).trans ((emitFrame_mix (wetFrame u p s) u p _).trans (wetFrame_mix s u p))
@[simp] theorem playFrame_dsLfo (u : Fpu) (p : Proc) (b : State) : (playFrame u p b s).dsLfo = s.dsLfo :=
  (closeFrame_dsLfo _ p b).trans ((emitFrame_dsLfo (wetFrame u p s) u p _).trans (wetFrame_dsLfo s u p))
@[simp] theorem playFrame_pbLfo (u : Fpu) (p : Proc) (b : State) : (playFrame u p b s).pbLfo = s.pbLfo :=
  (closeFrame_pbLfo _ p b).trans ((emitFrame_pbLfo (wetFrame u p s) u p _).trans (wetFrame_pbLfo s u p))
@[simp] theorem playFrame_bcLfo (u : Fpu) (p : Proc) (b : State) : (playFrame u p b s).bcLfo = s.bcLfo :=
  (closeFrame_bcLfo _ p b).trans ((emitFrame_bcLfo (wetFrame u p s) u p _).trans (wetFrame_bcLfo s u p))
@[simp] theorem playFrame_inMem (u : Fpu) (p : Proc) (b : State) : (playFrame u p b s).inMem = s.inMem :=
  (closeFrame_inMem _ p b).trans ((emitFrame_inMem (wetFrame u p s) u p _).trans (wetFrame_inMem s u p))
@[simp] theorem playFrame_audioQ (u : Fpu) (p : Proc) (b : State) : (playFrame u p b s).audioQ = s.audioQ :=
  (closeFrame_audioQ _ p b).trans ((emitFrame_audioQ (wetFrame u p s) u p _).trans (wetFrame_audioQ s u p))
@[simp] theorem playFrame_controlQ (u : Fpu) (p : Proc) (b : State) : (playFrame u p b s).controlQ = s.controlQ :=
  (closeFrame_controlQ _ p b).trans ((emitFrame_controlQ (wetFrame u p s) u p _).trans (wetFrame_controlQ s u p))
@[simp] theorem playFrame_inOld (u : Fpu) (p : Proc) (b : State) : (playFrame u p b s).inOld = s.inOld :=
  (closeFrame_inOld _ p b).trans ((emitFrame_inOld (wetFrame u p s) u p _).trans (wetFrame_inOld s u p))
@[simp] theorem playFrame_hostIn (u : Fpu) (p : Proc) (b : State) : (playFrame u p b s).hostIn = s.hostIn :=
  (closeFrame_hostIn _ p b).trans ((emitFrame_hostIn (wetFrame u p s) u p _).trans (wetFrame_hostIn s u p))
@[simp] theorem playFrame_sched (u : Fpu) (p : Proc) (b : State) : (playFrame u p b s).sched = s.sched :=
  (closeFrame_sched _ p b).trans ((emitFrame_sched (wetFrame u p s) u p _).trans (wetFrame_sched s u p))
@[simp] theorem playFrame_free (u : Fpu) (p : Proc) (b : State) : (playFrame u p b s).free = s.free :=
  (closeFrame_free _ p b).trans ((emitFrame_free (wetFrame u p s) u p _).trans (wetFrame_free s u p))

/-! ### putIn -/

@[simp] theorem putIn_build (i : Nat) (w : InWord) : (putIn i w s).build = s.build := rfl
@[simp] theorem putIn_status (i : Nat) (w : InWord) : (putIn i w s).status = s.status := rfl
@[simp] theorem putIn_chCount (i : Nat) (w : InWord) : (putIn i w s).chCount = s.chCount := rfl
@[simp] theorem putIn_fs (i : Nat) (w : InWord) : (putIn i w s).fs = s.fs := rfl
@[simp] theorem putIn_dsmax (i : Nat) (w : InWord) : (putIn i w s).dsmax = s.dsmax := rfl
@[simp] theorem putIn_gr (i : Nat) (w : InWord) : (putIn i w s).gr = s.gr := rfl
@[simp] theorem putIn_ds (i : Nat) (w : InWord) : (putIn i w s).ds = s.ds := rfl
@[simp] theorem putIn_pb (i : Nat) (w : InWord) : (putIn i w s).pb = s.pb := rfl
@[simp] theorem putIn_bc (i : Nat) (w : InWord) : (putIn i w s).bc = s.bc := rfl
@[simp] theorem putIn_mix (i : Nat) (w : InWord) : (putIn i w s).mix = s.mix := rfl
@[simp] theorem putIn_lim (i : Nat) (w : InWord) : (putIn i w s).lim = s.lim := rfl
@[simp] theorem putIn_ptr (i : Nat) (w : InWord) : (putIn i w s).ptr = s.ptr := rfl
@[simp] theorem putIn_dsLfo (i : Nat) (w : InWord) : (putIn i w s).dsLfo = s.dsLfo := rfl
@[simp] theorem putIn_pbLfo (i : Nat) (w : InWord) : (putIn i w s).pbLfo = s.pbLfo := rfl
@[simp] theorem putIn_bcLfo (i : Nat) (w : InWord) : (putIn i w s).bcLfo = s.bcLfo := rfl
@[simp] theorem putIn_chans (i : Nat) (w : InWord) : (putIn i w s).chans = s.chans := rfl
@[simp] theorem putIn_recMem (i : Nat) (w : InWord) : (putIn i w s).recMem = s.recMem := rfl
@[simp] theorem putIn_outMem (i : Nat) (w : InWord) : (putIn i w s).outMem = s.outMem := rfl
@[simp] theorem putIn_audioQ (i : Nat) (w : InWord) : (putIn i w s).audioQ = s.audioQ := rfl
@[simp] theorem putIn_controlQ (i : Nat) (w : InWord) : (putIn i w s).controlQ = s.controlQ := rfl
@[simp] theorem putIn_proc (i : Nat) (w : InWord) : (putIn i w s).proc = s.proc := rfl
@[simp] theorem putIn_hostIn (i : Nat) (w : InWord) : (putIn i w s).hostIn = s.hostIn := rfl
@[simp] theorem putIn_sched (i : Nat) (w : InWord) : (putIn i w s).sched = s.sched := rfl
@[simp] theorem putIn_free (i : Nat) (w : InWord) : (putIn i w s).free = s.free := rfl

/-! ### tick -/

@[simp] theorem tick_build : (tick s).build = s.build := rfl
@[simp] theorem tick_status : (tick s).status = s.status := rfl
@[simp] theorem tick_chCount : (tick s).chCount = s.chCount := rfl
@[simp] theorem tick_fs : (tick s).fs = s.fs := rfl
@[simp] theorem tick_dsmax : (tick s).dsmax = s.dsmax := rfl
@[simp] theorem tick_gr : (tick s).gr = s.gr := rfl
@[simp] theorem tick_ds : (tick s).ds = s.ds := rfl
@[simp] theorem tick_pb : (tick s).pb = s.pb := rfl
@[simp] theorem tick_bc : (tick s).bc = s.bc := rfl
@[simp] theorem tick_mix : (tick s).mix = s.mix := rfl
@[simp] theorem tick_lim : (tick s).lim = s.lim := rfl
@[simp] theorem tick_ptr : (tick s).ptr = s.ptr := rfl
@[simp] theorem tick_dsLfo : (tick s).dsLfo = s.dsLfo := rfl
@[simp] theorem tick_pbLfo : (tick s).pbLfo = s.pbLfo := rfl
@[simp] theorem tick_bcLfo : (tick s).bcLfo = s.bcLfo := rfl
@[simp] theorem tick_chans : (tick s).chans = s.chans := rfl
@[simp] theorem tick_recMem : (tick s).recMem = s.recMem := rfl
@[simp] theorem tick_inMem : (tick s).inMem = s.inMem := rfl
@[simp] theorem tick_outMem : (tick s).outMem = s.outMem := rfl
@[simp] theorem tick_audioQ : (tick s).audioQ = s.audioQ := rfl
@[simp] theorem tick_controlQ : (tick s).controlQ = s.controlQ := rfl
@[simp] theorem tick_proc : (tick s).proc = s.proc := rfl
@[simp] theorem tick_inOld : (tick s).inOld = s.inOld := rfl
@[simp] theorem tick_hostIn : (tick s).hostIn = s.hostIn := rfl

end Sys2Proof.Laws
end

