-- ==== Sys2Proof/Laws/Traffic.lean ====
section
/-!
SUPPORT. The traffic of the block: what decides which agent moves and what the host still writes, what a host write leaves
of the words it overwrites, and what a race yields (20_memory.md R111, R118; 70_reset_and_hazards.md R488).
-/

namespace Sys2Proof.Laws

open Sys2Proof Sys2Proof.Machine

/-! ## What the traffic depends on -/

/-- Two states agree in what decides which agent moves and what the host still writes. -/
structure SameTraffic (s t : State) : Prop where
  build : s.build = t.build
  inMem : s.inMem = t.inMem
  audioQ : s.audioQ = t.audioQ
  controlQ : s.controlQ = t.controlQ
  proc : s.proc.map (fun p => (p.i, p.n)) = t.proc.map (fun p => (p.i, p.n))
  hostIn : s.hostIn = t.hostIn
  sched : s.sched = t.sched
  free : s.free = t.free

/-- The agent that moves depends on the traffic alone. -/
theorem SameTraffic.mover {s t : State} (h : SameTraffic s t) : Machine.mover s = Machine.mover t := by
  have hp : s.proc.isSome = t.proc.isSome := by simpa using congrArg Option.isSome h.proc
  have hc : canMove s = canMove t := by
    funext a
    cases a <;> simp only [canMove, hasCommand, queueOf, h.audioQ, h.controlQ, hp, h.hostIn] <;> rfl
  unfold Machine.mover movers scheduled
  rw [hc, h.sched, h.free]

/-- An IN_MEM word put in place keeps the agreement. -/
theorem SameTraffic.putIn {s t : State} (h : SameTraffic s t) (idx : Nat) (w : InWord) :
    SameTraffic (putIn idx w s) (putIn idx w t) :=
  { h with inMem := congrArg (fun m => Memory.write noInWord m idx w) h.inMem }

/-- An input of the host keeps the agreement. -/
theorem SameTraffic.deliver {s t : State} (h : SameTraffic s t) (e : HostEvent) :
    SameTraffic (deliver e s) (deliver e t) := by
  have hs : ioSize s = ioSize t := by unfold ioSize; rw [h.build]
  cases e with
  | push p w =>
    cases p
    · exact { h with audioQ := congrArg (· ++ [w]) h.audioQ }
    · exact { h with controlQ := congrArg (· ++ [w]) h.controlQ }
  | writeIn idx w =>
    simp only [Machine.deliver, hostWriteIn, hs]
    split
    · exact h.putIn _ _
    · exact h
  | writeInHalf idx high w =>
    simp only [Machine.deliver, hostWriteInHalf, hs, h.inMem]
    split
    · exact h.putIn _ _
    · exact h
  | reset => exact h

/-- A counted step keeps the agreement. -/
theorem SameTraffic.tick {s t : State} (h : SameTraffic s t) : SameTraffic (tick s) (tick t) :=
  { h with sched := congrArg List.tail h.sched, free := congrArg (· + 1) h.free }

/-- A control command taken keeps the agreement. -/
theorem SameTraffic.takeControl {s t : State} (h : SameTraffic s t) :
    SameTraffic (takeCommand .control s) (takeCommand .control t) :=
  { h with
    controlQ := congrArg (List.drop 3) h.controlQ
    sched := congrArg List.tail h.sched
    free := congrArg (· + 1) h.free }

/-- What the host still writes depends on the traffic alone. -/
theorem inAhead_congr (k idx : Nat) {s t : State} (h : SameTraffic s t) : inAhead k idx s = inAhead k idx t := by
  induction k generalizing s t with
  | zero => rfl
  | succ k ih =>
    unfold inAhead
    rw [h.hostIn, h.mover]
    have hp := h.proc
    rcases hs : s.proc with _ | p <;> rcases ht : t.proc with _ | q <;> rw [hs, ht] at hp
    · split <;> simp_all
    · cases hp
    · cases hp
    obtain ⟨hi, hn⟩ : p.i = q.i ∧ p.n = q.n := by simpa using hp
    rcases t.hostIn with _ | ⟨e, es⟩
    · rfl
    rcases Machine.mover t with _ | _ | _ | _
    · rfl
    · simp only [hi, hn]
      split
      · exact ih (SameTraffic.tick { h with proc := by simp, hostIn := rfl })
      · rfl
    · exact ih h.takeControl
    · have hd := (SameTraffic.tick (s := { s with proc := some p, hostIn := es })
        (t := { t with proc := some q, hostIn := es }) { h with proc := hp, hostIn := rfl }).deliver e
      simp only [hd.inMem, ih hd]

/-- What a PROCESS reads of IN_MEM depends only on the traffic and the overwritten words. -/
theorem inRead_congr (site idx : Nat) {s t : State} (h : SameTraffic s t) (ho : s.inOld = t.inOld) :
    inRead s site idx = inRead t site idx := by
  have hr : inRace s idx = inRace t idx := by
    unfold inRace inOverwritten stepsAhead
    have hp := h.proc
    rcases hs : s.proc with _ | p <;> rcases ht : t.proc with _ | q <;> rw [hs, ht] at hp
    · rw [ho]
    · cases hp
    · cases hp
    obtain ⟨hi, hn⟩ : p.i = q.i ∧ p.n = q.n := by simpa using hp
    simp only [ho, hi, hn, h.controlQ, h.hostIn]
    exact congrArg _ (inAhead_congr _ _ { h with proc := by simp, hostIn := rfl, controlQ := rfl })
  unfold inRead
  rw [hr, h.inMem, h.free]

/-! ## Overwritten words -/

/-- What an IN_MEM index has held, after a host write: while a PROCESS is in progress or an audio command waits, what the
written index held joins. -/
theorem putIn_inOverwritten (idx j : Nat) (w : InWord) (s : State) : inOverwritten (putIn idx w s) j =
    if j = idx ∧ (s.proc.isSome || !s.audioQ.isEmpty) = true
    then Memory.read noInWord s.inMem idx :: inOverwritten s j else inOverwritten s j := by
  unfold inOverwritten putIn
  by_cases h : (s.proc.isSome || !s.audioQ.isEmpty) = true
  · by_cases hj : j = idx
    · subst hj; simp [h]
    · simp [h, hj, Ne.symm hj]
  · simp [h]

/-- The words that the next audio command may read are those whose write it was issued before. -/
theorem ageIn_mem (l : List OldIn) (e : OldIn) :
    e ∈ ageIn l ↔ { e with left := e.left + 1 } ∈ l := by
  unfold ageIn
  simp only [List.mem_map, List.mem_filter, decide_eq_true_eq]
  constructor
  · rintro ⟨a, ⟨ha, hl⟩, rfl⟩
    obtain ⟨i, w, n⟩ := a
    rwa [show n - 1 + 1 = n from Nat.succ_pred_eq_of_pos hl]
  · intro h
    exact ⟨_, ⟨h, Nat.succ_pos _⟩, rfl⟩

theorem journalAt_append {α : Type} (a b : List (Nat × α)) (idx : Nat) :
    journalAt (a ++ b) idx = journalAt a idx ++ journalAt b idx := by
  simp [journalAt]

/-- What an OUT_MEM index has held, after a frame: what the frame's words held joins. -/
theorem frame_outOverwritten (u : Fpu) (p : Proc) (s : State) (idx : Nat) : outOverwritten (frame u p s) idx =
    journalAt ((List.range s.chCount.toNat).map
      (fun c => (ioIndex s c p.i, Memory.read none s.outMem (ioIndex s c p.i)))) idx ++
    outOverwritten { s with proc := some p } idx := by
  show journalAt (_ ++ p.outOld) idx = _
  rw [journalAt_append]; rfl

/-! ## What a race yields -/

/-- The present value, or one of the others. -/
theorem admitted_mem {α : Type} (now : α) (old : List α) (choice : Nat) : admitted now old choice ∈ now :: old := by
  unfold admitted
  split
  · simp
  · rename_i a l
    have h : choice % ((a :: l).length + 1) < (now :: a :: l).length := Nat.mod_lt _ (Nat.succ_pos _)
    rw [List.getD_eq_getElem _ _ h]
    exact List.getElem_mem _

/-- Some choice yields each of them. -/
theorem admitted_surj {α : Type} (now : α) (old : List α) (v : α) (h : v ∈ now :: old) :
    ∃ choice, admitted now old choice = v := by
  obtain ⟨k, hk, rfl⟩ := List.getElem_of_mem h
  refine ⟨k, ?_⟩
  unfold admitted
  split
  · simp at hk; subst hk; rfl
  · rename_i a l
    rw [Nat.mod_eq_of_lt (by simpa using hk), List.getD_eq_getElem _ _ hk]

end Sys2Proof.Laws
end

