-- ==== Sys2Proof/Laws/Ops.lean ====
section
/-!
SUPPORT. For each shared operation, one lemma that says what it can do: the fields it leaves, what each memory element
reads as after it, and that it keeps the canonical form of the memories.
-/

namespace Sys2Proof.Laws

open Sys2Proof Sys2Proof.Machine

/-! ## Indices -/

/-- A frame of a channel that exists lies inside the I/O memories. -/
theorem ioIndex_lt (s : State) (c i : Nat) (hc : c < s.build.nMax) (hi : i < s.build.maxBlock) :
    ioIndex s c i < ioSize s := by
  unfold ioIndex ioSize
  calc c * s.build.maxBlock + i < c * s.build.maxBlock + s.build.maxBlock := by omega
    _ = (c + 1) * s.build.maxBlock := by ring
    _ ≤ s.build.nMax * s.build.maxBlock := Nat.mul_le_mul_right _ hc

/-- A cell of a channel that exists lies inside REC. -/
theorem recIndex_lt (s : State) (c j : Nat) (hc : c < s.build.nMax) (hj : j < s.build.recCap) :
    recIndex s c j < s.build.nMax * s.build.recCap := by
  unfold recIndex
  calc c * s.build.recCap + j < c * s.build.recCap + s.build.recCap := by omega
    _ = (c + 1) * s.build.recCap := by ring
    _ ≤ s.build.nMax * s.build.recCap := Nat.mul_le_mul_right _ hc

/-- Frames inside a block at the same index are of the same channel. -/
theorem ioIndex_inj (s : State) {c d i j : Nat} (hi : i < s.build.maxBlock) (hj : j < s.build.maxBlock)
    (h : ioIndex s c i = ioIndex s d j) : c = d ∧ i = j := by
  unfold ioIndex at h
  have hm : 0 < s.build.maxBlock := by omega
  have hc : c = d := by
    rcases Nat.lt_trichotomy c d with hlt | he | hlt
    · have h1 := Nat.mul_le_mul_right s.build.maxBlock (Nat.succ_le_of_lt hlt)
      rw [Nat.succ_mul] at h1; omega
    · exact he
    · have h1 := Nat.mul_le_mul_right s.build.maxBlock (Nat.succ_le_of_lt hlt)
      rw [Nat.succ_mul] at h1; omega
  subst hc
  exact ⟨rfl, by omega⟩

/-- Cells inside the recording buffer at the same index are of the same channel. -/
theorem recIndex_inj (s : State) {c d j k : Nat} (hj : j < s.build.recCap) (hk : k < s.build.recCap)
    (h : recIndex s c j = recIndex s d k) : c = d ∧ j = k := by
  unfold recIndex at h
  have hc : c = d := by
    rcases Nat.lt_trichotomy c d with hlt | he | hlt
    · have h1 := Nat.mul_le_mul_right s.build.recCap (Nat.succ_le_of_lt hlt)
      rw [Nat.succ_mul] at h1; omega
    · exact he
    · have h1 := Nat.mul_le_mul_right s.build.recCap (Nat.succ_le_of_lt hlt)
      rw [Nat.succ_mul] at h1; omega
  subst hc
  exact ⟨rfl, by omega⟩

/-! ## Channels -/

/-- The group of a channel after an indexed map of the groups. -/
theorem chanAt_mapIdx (s : State) (g : Nat → Chan → Chan) (c : Nat) (hc : c < s.chans.length) :
    chanAt { s with chans := s.chans.mapIdx g } c = g c (chanAt s c) := by
  simp [chanAt, List.getD_eq_getElem?_getD, List.getElem?_mapIdx, List.getElem?_eq_getElem hc]

/-- The group of a channel after a map of the groups. -/
theorem chanAt_map (s : State) (g : Chan → Chan) (c : Nat) (hc : c < s.chans.length) :
    chanAt { s with chans := s.chans.map g } c = g (chanAt s c) := by
  simp [chanAt, List.getD_eq_getElem?_getD, List.getElem?_map, List.getElem?_eq_getElem hc]

/-- A channel after the sample-and-hold and the filter of a frame. -/
theorem chanAt_holdFrame (u : Fpu) (s : State) (c : Nat) (hc : c < s.chans.length) :
    chanAt (holdFrame u s) c = if c < s.chCount.toNat then holdChan u s c (chanAt s c) else chanAt s c :=
  chanAt_mapIdx s _ c hc

/-- A channel after the outputs of a frame. -/
theorem chanAt_emitFrame (u : Fpu) (p : Proc) (out : Nat → F) (s : State) (c : Nat) (hc : c < s.chans.length) :
    chanAt (emitFrame u p out s) c =
      if c < s.chCount.toNat then { chanAt s c with lastOut := out c } else chanAt s c :=
  chanAt_mapIdx s _ c hc

/-! ## Oscillators and targets -/

/-- What `lfoSet` of an oscillator answers: only its group changes. -/
theorem lfoSet_ds (u : Fpu) (a b : F) (s : State) :
    lfoSet u .ds a b s = { s with dsLfo := (lfoSet u .ds a b s).dsLfo } := by
  unfold lfoSet; simp only; split <;> rfl

theorem lfoSet_pb (u : Fpu) (a b : F) (s : State) :
    lfoSet u .pb a b s = { s with pbLfo := (lfoSet u .pb a b s).pbLfo } := by
  unfold lfoSet; simp only; split <;> rfl

theorem lfoSet_bc (u : Fpu) (a b : F) (s : State) :
    lfoSet u .bc a b s = { s with bcLfo := (lfoSet u .bc a b s).bcLfo } := by
  unfold lfoSet; simp only; split <;> rfl

/-- RP where RATE_ACTIVE falls, as a number. -/
theorem toNat_shiftLeft_wp (w : Word) : (w.setWidth 64 <<< 32 : BitVec 64).toNat = w.toNat * 2 ^ 32 := by
  have := w.isLt
  rw [BitVec.toNat_shiftLeft, BitVec.toNat_setWidth, Nat.mod_eq_of_lt (a := w.toNat) (by omega), Nat.shiftLeft_eq,
    Nat.mod_eq_of_lt (by omega)]

/-! ## PROCESS: the first atomic step -/

/-- The two outcomes of a geometry change. -/
theorem changeGeometry_cases (nout : Nat) (s : State) :
    (nout = s.chCount.toNat ∧ changeGeometry nout s = s) ∨
    (nout ≠ s.chCount.toNat ∧ changeGeometry nout s =
      zeroPointers (clearRec { s with chCount := BitVec.ofNat 8 nout, chans := s.chans.map clearChan })) := by
  unfold changeGeometry
  split
  · exact .inl ⟨‹_›, rfl⟩
  · exact .inr ⟨‹_›, rfl⟩

/-- What a PROCESS reads of IN_MEM does not depend on the geometry change. -/
@[simp] theorem changeGeometry_inRead (nout : Nat) (s : State) (site idx : Nat) :
    inRead (changeGeometry nout s) site idx = inRead s site idx := by
  unfold changeGeometry
  split
  · rfl
  · exact inRead_congr site idx ⟨rfl, rfl, rfl, rfl, rfl, rfl, rfl, rfl⟩ rfl

/-- What OUT_MEM reads as after a copied block: the copied words, and every other word as before. -/
theorem copyBlock_reads (sw : Bool) (nin nout n : Nat) (s : State) (hn : n ≤ s.build.maxBlock) :
    (∀ c i, c < nout → i < n →
      Memory.read none (copyBlock sw nin nout n s).outMem (ioIndex s c i) = some (copiedWord s sw nin c i)) ∧
    (∀ idx, (∀ c i, c < nout → i < n → idx ≠ ioIndex s c i) →
      Memory.read none (copyBlock sw nin nout n s).outMem idx = Memory.read none s.outMem idx) := by
  have inner (c : Nat) (m : Memory (Option IoWord)) :
      (∀ i, i < n → Memory.read none ((List.range n).foldl
        (fun m i => outWrite m (ioIndex s c i) (copiedWord s sw nin c i)) m) (ioIndex s c i) =
          some (copiedWord s sw nin c i)) ∧
      (∀ j, (∀ i, i < n → ioIndex s c i ≠ j) → Memory.read none ((List.range n).foldl
        (fun m i => outWrite m (ioIndex s c i) (copiedWord s sw nin c i)) m) j = Memory.read none m j) :=
    ⟨fun i hi => read_foldl_write_at none n (ioIndex s c) (fun i => some (copiedWord s sw nin c i))
        (fun a _ b _ h => by unfold ioIndex at h; omega) m i hi,
      fun j hj => read_foldl_write_other none n (ioIndex s c) (fun i => some (copiedWord s sw nin c i)) m j hj⟩
  have outer (k : Nat) :
      (∀ c i, c < k → i < n → Memory.read none ((List.range k).foldl (fun m c => (List.range n).foldl
        (fun m i => outWrite m (ioIndex s c i) (copiedWord s sw nin c i)) m) s.outMem) (ioIndex s c i) =
          some (copiedWord s sw nin c i)) ∧
      (∀ idx, (∀ c i, c < k → i < n → idx ≠ ioIndex s c i) →
        Memory.read none ((List.range k).foldl (fun m c => (List.range n).foldl
          (fun m i => outWrite m (ioIndex s c i) (copiedWord s sw nin c i)) m) s.outMem) idx =
            Memory.read none s.outMem idx) := by
    induction k with
    | zero => exact ⟨fun c i hc => absurd hc (by omega), fun _ _ => rfl⟩
    | succ k ih =>
      simp only [List.range_succ, List.foldl_append, List.foldl_cons, List.foldl_nil]
      refine ⟨fun c i hc hi => ?_, fun idx h => ?_⟩
      · by_cases hck : c = k
        · subst hck; exact (inner c _).1 i hi
        · rw [(inner k _).2 _ ?_]
          · exact ih.1 c i (by omega) hi
          · exact fun i' hi' he => hck (ioIndex_inj s (by omega) (by omega) he).1.symm
      · rw [(inner k _).2 _ (fun i hi he => h k i (by omega) hi he.symm)]
        exact ih.2 idx (fun c i hc hi => h c i (by omega) hi)
  exact outer nout

/-! ## PROCESS: a frame -/

/-- Modulation leaves every field but the three groups of actual values, the oscillators and HOLD_CNT. -/
theorem modulate_kept (u : Fpu) (s : State) :
    modulate u s = { s with
      ds := (modulate u s).ds, pb := (modulate u s).pb, bc := (modulate u s).bc
      dsLfo := (modulate u s).dsLfo, pbLfo := (modulate u s).pbLfo, bcLfo := (modulate u s).bcLfo
      ptr := { s.ptr with hold := (modulate u s).ptr.hold } } := by
  have a : ∀ s, modulateDs u s = { s with ds := (modulateDs u s).ds, dsLfo := (modulateDs u s).dsLfo } := by
    intro s; unfold modulateDs; split <;> rfl
  have b : ∀ s, modulatePb u s = { s with pb := (modulatePb u s).pb, pbLfo := (modulatePb u s).pbLfo } := by
    intro s; unfold modulatePb; split <;> rfl
  have c : ∀ s, modulateBc u s = { s with bc := (modulateBc u s).bc, bcLfo := (modulateBc u s).bcLfo } := by
    intro s; unfold modulateBc; split <;> rfl
  have d : ∀ s, clampHold s = { s with ptr := { s.ptr with hold := (clampHold s).ptr.hold } } := by
    intro s; unfold clampHold; split <;> rfl
  unfold modulate
  rw [d, c, b, a]

@[simp] theorem modulate_build (u : Fpu) (s : State) : (modulate u s).build = s.build := by rw [modulate_kept]
@[simp] theorem modulate_status (u : Fpu) (s : State) : (modulate u s).status = s.status := by rw [modulate_kept]
@[simp] theorem modulate_chCount (u : Fpu) (s : State) : (modulate u s).chCount = s.chCount := by rw [modulate_kept]
@[simp] theorem modulate_chans (u : Fpu) (s : State) : (modulate u s).chans = s.chans := by rw [modulate_kept]
@[simp] theorem modulate_mix (u : Fpu) (s : State) : (modulate u s).mix = s.mix := by rw [modulate_kept]
@[simp] theorem modulate_lim (u : Fpu) (s : State) : (modulate u s).lim = s.lim := by rw [modulate_kept]
@[simp] theorem modulate_recMem (u : Fpu) (s : State) : (modulate u s).recMem = s.recMem := by rw [modulate_kept]
@[simp] theorem modulate_inMem (u : Fpu) (s : State) : (modulate u s).inMem = s.inMem := by rw [modulate_kept]
@[simp] theorem modulate_outMem (u : Fpu) (s : State) : (modulate u s).outMem = s.outMem := by rw [modulate_kept]
@[simp] theorem modulate_audioQ (u : Fpu) (s : State) : (modulate u s).audioQ = s.audioQ := by rw [modulate_kept]
@[simp] theorem modulate_controlQ (u : Fpu) (s : State) : (modulate u s).controlQ = s.controlQ := by rw [modulate_kept]
@[simp] theorem modulate_proc (u : Fpu) (s : State) : (modulate u s).proc = s.proc := by rw [modulate_kept]
@[simp] theorem modulate_inOld (u : Fpu) (s : State) : (modulate u s).inOld = s.inOld := by rw [modulate_kept]
@[simp] theorem modulate_hostIn (u : Fpu) (s : State) : (modulate u s).hostIn = s.hostIn := by rw [modulate_kept]
@[simp] theorem modulate_sched (u : Fpu) (s : State) : (modulate u s).sched = s.sched := by rw [modulate_kept]
@[simp] theorem modulate_free (u : Fpu) (s : State) : (modulate u s).free = s.free := by rw [modulate_kept]
@[simp] theorem modulate_wp (u : Fpu) (s : State) : (modulate u s).ptr.wp = s.ptr.wp := by rw [modulate_kept]
@[simp] theorem modulate_rp (u : Fpu) (s : State) : (modulate u s).ptr.rp = s.ptr.rp := by rw [modulate_kept]
@[simp] theorem modulate_bcOutMix (u : Fpu) (s : State) : (modulate u s).bc.outMix = s.bc.outMix := by
  unfold modulate clampHold modulateBc modulatePb modulateDs
  split <;> split <;> split <;> split <;> rfl

/-- What a PROCESS reads of IN_MEM does not depend on the modulation. -/
@[simp] theorem modulate_inRead (u : Fpu) (s : State) (site idx : Nat) :
    inRead (modulate u s) site idx = inRead s site idx :=
  inRead_congr site idx ⟨by simp, by simp, by simp, by simp, by simp, by simp, by simp, by simp⟩ (by simp)

@[simp] theorem modulate_chanAt (u : Fpu) (s : State) (c : Nat) : chanAt (modulate u s) c = chanAt s c := by
  rw [modulate_kept]; rfl

@[simp] theorem modulate_drySample (u : Fpu) (p : Proc) (s : State) (c : Nat) :
    drySample u p (modulate u s) c = drySample u p s c := by
  unfold drySample; rw [modulate_inRead]; unfold ioIndex; rw [modulate_build]

/-- The registers a frame takes from its modulation. -/
@[simp] theorem frame_ds (u : Fpu) (p : Proc) (s : State) : (frame u p s).ds = (modulate u s).ds := by
  unfold frame; exact playFrame_ds _ u p s
@[simp] theorem frame_pb (u : Fpu) (p : Proc) (s : State) : (frame u p s).pb = (modulate u s).pb := by
  unfold frame; exact playFrame_pb _ u p s
@[simp] theorem frame_bc (u : Fpu) (p : Proc) (s : State) : (frame u p s).bc = (modulate u s).bc := by
  unfold frame; exact playFrame_bc _ u p s
@[simp] theorem frame_dsLfo (u : Fpu) (p : Proc) (s : State) : (frame u p s).dsLfo = (modulate u s).dsLfo := by
  unfold frame; exact playFrame_dsLfo _ u p s
@[simp] theorem frame_pbLfo (u : Fpu) (p : Proc) (s : State) : (frame u p s).pbLfo = (modulate u s).pbLfo := by
  unfold frame; exact playFrame_pbLfo _ u p s
@[simp] theorem frame_bcLfo (u : Fpu) (p : Proc) (s : State) : (frame u p s).bcLfo = (modulate u s).bcLfo := by
  unfold frame; exact playFrame_bcLfo _ u p s

/-- The fields a frame leaves. -/
@[simp] theorem frame_build (u : Fpu) (p : Proc) (s : State) : (frame u p s).build = s.build := by
  unfold frame; rw [playFrame_build, modulate_build]
@[simp] theorem frame_status (u : Fpu) (p : Proc) (s : State) : (frame u p s).status = s.status := by
  unfold frame; rw [playFrame_status, modulate_status]
@[simp] theorem frame_chCount (u : Fpu) (p : Proc) (s : State) : (frame u p s).chCount = s.chCount := by
  unfold frame; rw [playFrame_chCount, modulate_chCount]
@[simp] theorem frame_mix (u : Fpu) (p : Proc) (s : State) : (frame u p s).mix = s.mix := by
  unfold frame; rw [playFrame_mix, modulate_mix]
@[simp] theorem frame_inMem (u : Fpu) (p : Proc) (s : State) : (frame u p s).inMem = s.inMem := by
  unfold frame; rw [playFrame_inMem, modulate_inMem]
@[simp] theorem frame_audioQ (u : Fpu) (p : Proc) (s : State) : (frame u p s).audioQ = s.audioQ := by
  unfold frame; rw [playFrame_audioQ, modulate_audioQ]
@[simp] theorem frame_controlQ (u : Fpu) (p : Proc) (s : State) : (frame u p s).controlQ = s.controlQ := by
  unfold frame; rw [playFrame_controlQ, modulate_controlQ]
@[simp] theorem frame_inOld (u : Fpu) (p : Proc) (s : State) : (frame u p s).inOld = s.inOld := by
  unfold frame; rw [playFrame_inOld, modulate_inOld]
@[simp] theorem frame_hostIn (u : Fpu) (p : Proc) (s : State) : (frame u p s).hostIn = s.hostIn := by
  unfold frame; rw [playFrame_hostIn, modulate_hostIn]
@[simp] theorem frame_sched (u : Fpu) (p : Proc) (s : State) : (frame u p s).sched = s.sched := by
  unfold frame; rw [playFrame_sched, modulate_sched]
@[simp] theorem frame_free (u : Fpu) (p : Proc) (s : State) : (frame u p s).free = s.free := by
  unfold frame; rw [playFrame_free, modulate_free]

/-- REC after a frame is REC after its record write. -/
theorem playFrame_recMem (u : Fpu) (p : Proc) (s m : State) : (playFrame u p s m).recMem = (recordFrame u p m).recMem := rfl

/-- The pointers after a frame. -/
theorem playFrame_ptr (u : Fpu) (p : Proc) (s m : State) : (playFrame u p s m).ptr = advancePtr m := rfl

/-- The limiter registers after a frame. -/
theorem playFrame_lim (u : Fpu) (p : Proc) (s m : State) :
    (playFrame u p s m).lim = detect u m.lim (frameSignals u (recordFrame u p m)) := rfl

/-- The PROCESS after a frame. -/
theorem playFrame_proc (u : Fpu) (p : Proc) (s m : State) : (playFrame u p s m).proc = some (advanceProc p s) := rfl

/-- OUT_MEM after a frame. -/
theorem playFrame_outMem (u : Fpu) (p : Proc) (s m : State) :
    (playFrame u p s m).outMem =
      (emitFrame u p (outSample u p m (recordFrame u p m) (wetFrame u p m)) (wetFrame u p m)).outMem := rfl

/-- The channel groups after a frame. -/
theorem playFrame_chans (u : Fpu) (p : Proc) (s m : State) :
    (playFrame u p s m).chans =
      (emitFrame u p (outSample u p m (recordFrame u p m) (wetFrame u p m)) (wetFrame u p m)).chans := rfl

/-- What REC reads as after the record write of a frame. -/
theorem recordFrame_reads (u : Fpu) (p : Proc) (s : State) (hw : s.ptr.wp.toNat < s.build.recCap) :
    (∀ c, c < s.chCount.toNat → recRead (recordFrame u p s) c s.ptr.wp.toNat = recSample u p s c) ∧
    (∀ idx, (∀ c, c < s.chCount.toNat → recIndex s c s.ptr.wp.toNat ≠ idx) →
      Memory.read 0#64 (recordFrame u p s).recMem idx = Memory.read 0#64 s.recMem idx) :=
  ⟨fun c hc => read_foldl_write_at 0#64 _ (fun c => recIndex s c s.ptr.wp.toNat) (recSample u p s)
      (fun _ _ _ _ h => (recIndex_inj s hw hw h).1) s.recMem c hc,
    fun idx h => read_foldl_write_other 0#64 _ (fun c => recIndex s c s.ptr.wp.toNat) (recSample u p s) s.recMem idx h⟩

/-- What OUT_MEM reads as after the outputs of a frame. -/
theorem emitFrame_reads (u : Fpu) (p : Proc) (out : Nat → F) (s : State) (hi : p.i < s.build.maxBlock) :
    (∀ c, c < s.chCount.toNat →
      Memory.read none (emitFrame u p out s).outMem (ioIndex s c p.i) = some (fromFmt u p.sw (out c))) ∧
    (∀ idx, (∀ c, c < s.chCount.toNat → ioIndex s c p.i ≠ idx) →
      Memory.read none (emitFrame u p out s).outMem idx = Memory.read none s.outMem idx) :=
  ⟨fun c hc => read_foldl_write_at none _ (fun c => ioIndex s c p.i) (fun c => some (fromFmt u p.sw (out c)))
      (fun _ _ _ _ h => (ioIndex_inj s hi hi h).1) s.outMem c hc,
    fun idx h => read_foldl_write_other none _ (fun c => ioIndex s c p.i) (fun c => some (fromFmt u p.sw (out c)))
      s.outMem idx h⟩

/-! ## Every operation that writes a memory keeps its canonical form -/

theorem recWrite_wf (s : State) (c j : Nat) (v : F) (h : Memory.wf 0#64 s.recMem = true) :
    Memory.wf 0#64 (recWrite s c j v).recMem = true := wf_write _ _ _ _ h

theorem clearRec_wf (s : State) : Memory.wf 0#64 (clearRec s).recMem = true := rfl

theorem recordFrame_wf (u : Fpu) (p : Proc) (s : State) (h : Memory.wf 0#64 s.recMem = true) :
    Memory.wf 0#64 (recordFrame u p s).recMem = true :=
  foldl_keeps (fun m => Memory.wf 0#64 m = true) _ _ (fun _ _ _ hm => wf_write _ _ _ _ hm) _ h

theorem emitFrame_wf (u : Fpu) (p : Proc) (out : Nat → F) (s : State) (h : Memory.wf none s.outMem = true) :
    Memory.wf none (emitFrame u p out s).outMem = true :=
  foldl_keeps (fun m => Memory.wf none m = true) _ _ (fun _ _ _ hm => wf_write _ _ _ _ hm) _ h

theorem copyBlock_wf (sw : Bool) (nin nout n : Nat) (s : State) (h : Memory.wf none s.outMem = true) :
    Memory.wf none (copyBlock sw nin nout n s).outMem = true :=
  foldl_keeps (fun m => Memory.wf none m = true) _ _
    (fun _ _ _ hm => foldl_keeps (fun m => Memory.wf none m = true) _ _ (fun _ _ _ hm => wf_write _ _ _ _ hm) _ hm) _ h

theorem putIn_wf (idx : Nat) (w : InWord) (s : State) (h : Memory.wf noInWord s.inMem = true) :
    Memory.wf noInWord (putIn idx w s).inMem = true := wf_write _ _ _ _ h

theorem outAfterReset_wf (s : State) : Memory.wf none (outAfterReset s) = true := by
  unfold outAfterReset
  split
  · rfl
  · rename_i p _
    generalize p.outOld = l
    suffices ∀ m : Memory (Option IoWord), Memory.wf none m = true → Memory.wf none (l.foldl (fun m e =>
        Memory.write none m e.1 (admitted (Memory.read none s.outMem e.1) [e.2] (Config.race s.free (2 * e.1 + 1)))) m) = true from
      this [] rfl
    induction l with
    | nil => exact fun _ h => h
    | cons e l ih => exact fun m h => ih _ (wf_write _ _ _ _ h)

theorem reset_wf : Memory.wf 0#64 State.reset.recMem = true ∧ Memory.wf noInWord State.reset.inMem = true ∧
    Memory.wf none State.reset.outMem = true := ⟨rfl, rfl, rfl⟩

/-! ## Reset -/

/-- OUT_MEM after reset: a word the abandoned PROCESS had written holds its present or an overwritten value, and every
other word is unspecified (70_reset_and_hazards.md R482). -/
theorem outAfterReset_reads (s : State) (idx : Nat) :
    Memory.read none (outAfterReset s) idx = none ∧ outOverwritten s idx = [] ∨
    outOverwritten s idx ≠ [] ∧ Memory.read none (outAfterReset s) idx ∈ Memory.read none s.outMem idx :: outOverwritten s idx := by
  unfold outAfterReset outOverwritten
  cases s.proc with
  | none => exact .inl ⟨rfl, rfl⟩
  | some p =>
    simp only
    have key : ∀ (l : List (Nat × Option IoWord)) (m : Memory (Option IoWord)),
        Memory.read none (l.foldl (fun m e => Memory.write none m e.1
          (admitted (Memory.read none s.outMem e.1) [e.2] (Config.race s.free (2 * e.1 + 1)))) m) idx = Memory.read none m idx ∧
          journalAt l idx = [] ∨
        journalAt l idx ≠ [] ∧ Memory.read none (l.foldl (fun m e => Memory.write none m e.1
          (admitted (Memory.read none s.outMem e.1) [e.2] (Config.race s.free (2 * e.1 + 1)))) m) idx ∈
            Memory.read none s.outMem idx :: journalAt l idx := by
      intro l
      induction l with
      | nil => intro m; exact .inl ⟨rfl, rfl⟩
      | cons e l ih =>
        intro m
        rw [List.foldl_cons]
        have hj : journalAt (e :: l) idx = if e.1 = idx then e.2 :: journalAt l idx else journalAt l idx := by
          by_cases h : e.1 = idx <;> simp [journalAt, h]
        rw [hj]
        rcases ih (Memory.write none m e.1 (admitted (Memory.read none s.outMem e.1) [e.2] (Config.race s.free (2 * e.1 + 1))))
          with ⟨h1, h2⟩ | ⟨h1, h2⟩
        · by_cases h : e.1 = idx
          · rw [if_pos h, h1, ← h, read_write_same, h, h2]
            exact .inr ⟨by simp, admitted_mem _ _ _⟩
          · rw [if_neg h, h1, read_write_other _ _ _ (Ne.symm h)]
            exact .inl ⟨rfl, h2⟩
        · refine .inr ?_
          split
          · refine ⟨by simp, ?_⟩
            rcases List.mem_cons.mp h2 with h | h
            · rw [h]; simp
            · exact List.mem_cons_of_mem _ (List.mem_cons_of_mem _ h)
          · exact ⟨h1, h2⟩
    rcases key p.outOld [] with ⟨h1, h2⟩ | h
    · exact .inl ⟨h1, h2⟩
    · exact .inr h

/-! ## Sequencing -/

/-- The agent that moves has a step to make. -/
theorem mover_canMove (s : State) (a : Agent) (h : mover s = some a) : canMove s a = true := by
  unfold mover at h
  have hm : ∀ b, b ∈ movers s → canMove s b = true := fun b hb => (List.mem_filter.mp hb).2
  split at h
  · cases h
  · rename_i b hb
    cases h; exact hm _ (by rw [hb]; simp)
  · rename_i b c l hb
    cases h
    split
    · assumption
    · exact hm _ (by rw [hb]; simp)

/-- An agent that the schedule names and that has a step to make is the one that moves. -/
theorem mover_of_sched (s : State) (a : Agent) (h : canMove s a = true) (hs : scheduled s = a) : mover s = some a := by
  have hmem : a ∈ movers s := by
    unfold movers
    rw [List.mem_filter]
    exact ⟨by cases a <;> simp, h⟩
  unfold mover
  split
  · rename_i he; rw [he] at hmem; cases hmem
  · rename_i b he; rw [he] at hmem; simp at hmem; rw [hmem]
  · rw [hs, h]; rfl

/-- The step of the agent that moves. -/
theorem step_of_mover (s : State) (a : Agent) (h : mover s = some a) : step s = agentStep s a := by
  unfold step nextStep; rw [h]

/-- Every meaning answers a next state. -/
theorem exec_next (i : Instr) (s : State) : ∃ t, exec i s = .next t := by cases i <;> exact ⟨_, rfl⟩

end Sys2Proof.Laws
end

