-- ==== Sys2Proof/Laws/PerInstr.lean ====
section
/-!
SUPPORT. The family HeaderOpcode: for each command, the header of its encoding names its opcode and has the fixed bits of
its format at 0 (30_encoding.md R141, R142, R146, R170).
-/

namespace Sys2Proof.Laws.HeaderOpcode

open Sys2Proof

/-- The header of a well-formed command's encoding names its opcode and keeps its format's fixed bits at 0. -/
def Statement (i : Instr) : Prop :=
  i.wellFormed = true → opField (encode i).w0 = i.opcode.code ∧ headerOk i.opcode.format (encode i).w0 = true

/-- The header of PROCESS as a number (30_encoding.md R144, R170). -/
theorem toNat_header_process (sw : Bool) (nin nout n : Nat) (h : (Instr.process sw nin nout n).wellFormed = true) :
    (Instr.process sw nin nout n).header.toNat = 1 + (flagBits sw + nin * 65536 + nout * 16777216) := by
  simp only [Instr.wellFormed, ninFits, noutFits, lengthFits, Bool.and_eq_true, decide_eq_true_eq] at h
  show (BitVec.ofNat 32 (1 + (flagBits sw + nin * 65536 + nout * 16777216))).toNat = _
  rw [BitVec.toNat_ofNat, Nat.mod_eq_of_lt]
  unfold flagBits; split <;> omega

theorem nop : Statement .nop := by
  simp [Statement, opField, encode, Instr.header, Instr.opcode, Opcode.code, Opcode.format, headerOk]

theorem process (sw : Bool) (nin : Nat) (nout : Nat) (n : Nat) : Statement (.process sw nin nout n) := by
  intro h
  have hh := toNat_header_process sw nin nout n h
  simp only [Instr.wellFormed, ninFits, noutFits, lengthFits, Bool.and_eq_true, decide_eq_true_eq] at h
  unfold opField headerOk
  simp only [encode, Instr.opcode, Opcode.format, Opcode.code]
  rw [hh]
  refine ⟨?_, ?_⟩
  · unfold flagBits; split <;> omega
  · rw [beq_iff_eq]; unfold flagBits; split <;> omega

theorem resetPointers : Statement .resetPointers := by
  simp [Statement, opField, encode, Instr.header, Instr.opcode, Opcode.code, Opcode.format, headerOk]

theorem clearBuffer : Statement .clearBuffer := by
  simp [Statement, opField, encode, Instr.header, Instr.opcode, Opcode.code, Opcode.format, headerOk]

theorem filterReset : Statement .filterReset := by
  simp [Statement, opField, encode, Instr.header, Instr.opcode, Opcode.code, Opcode.format, headerOk]

theorem setSampleRate (a : Word) : Statement (.setSampleRate a) := by
  simp [Statement, opField, encode, Instr.header, Instr.opcode, Opcode.code, Opcode.format, headerOk]

theorem clearErr : Statement .clearErr := by
  simp [Statement, opField, encode, Instr.header, Instr.opcode, Opcode.code, Opcode.format, headerOk]

theorem setResampleRate (a : Word) : Statement (.setResampleRate a) := by
  simp [Statement, opField, encode, Instr.header, Instr.opcode, Opcode.code, Opcode.format, headerOk]

theorem setResampleLfo (a : Word) (b : Word) : Statement (.setResampleLfo a b) := by
  simp [Statement, opField, encode, Instr.header, Instr.opcode, Opcode.code, Opcode.format, headerOk]

theorem setPlaybackRate (a : Word) : Statement (.setPlaybackRate a) := by
  simp [Statement, opField, encode, Instr.header, Instr.opcode, Opcode.code, Opcode.format, headerOk]

theorem setPlaybackLfo (a : Word) (b : Word) : Statement (.setPlaybackLfo a b) := by
  simp [Statement, opField, encode, Instr.header, Instr.opcode, Opcode.code, Opcode.format, headerOk]

theorem setBitcrushAmount (a : Word) : Statement (.setBitcrushAmount a) := by
  simp [Statement, opField, encode, Instr.header, Instr.opcode, Opcode.code, Opcode.format, headerOk]

theorem setBitcrushLfo (a : Word) (b : Word) : Statement (.setBitcrushLfo a b) := by
  simp [Statement, opField, encode, Instr.header, Instr.opcode, Opcode.code, Opcode.format, headerOk]

theorem setBitcrushOutputMix (a : Word) : Statement (.setBitcrushOutputMix a) := by
  simp [Statement, opField, encode, Instr.header, Instr.opcode, Opcode.code, Opcode.format, headerOk]

theorem setDryMix (a : Word) : Statement (.setDryMix a) := by
  simp [Statement, opField, encode, Instr.header, Instr.opcode, Opcode.code, Opcode.format, headerOk]

theorem setWetMix (a : Word) : Statement (.setWetMix a) := by
  simp [Statement, opField, encode, Instr.header, Instr.opcode, Opcode.code, Opcode.format, headerOk]

theorem setBypass (on : Bool) : Statement (.setBypass on) := by
  cases on <;>
    simp [Statement, opField, encode, Instr.header, Instr.opcode, Opcode.code, Opcode.format, headerOk, flagBits]

theorem limSetAttackUs (a : Word) : Statement (.limSetAttackUs a) := by
  simp [Statement, opField, encode, Instr.header, Instr.opcode, Opcode.code, Opcode.format, headerOk]

theorem limSetReleaseMs (a : Word) : Statement (.limSetReleaseMs a) := by
  simp [Statement, opField, encode, Instr.header, Instr.opcode, Opcode.code, Opcode.format, headerOk]

theorem limSetAttackNorm (a : Word) : Statement (.limSetAttackNorm a) := by
  simp [Statement, opField, encode, Instr.header, Instr.opcode, Opcode.code, Opcode.format, headerOk]

theorem limSetReleaseNorm (a : Word) : Statement (.limSetReleaseNorm a) := by
  simp [Statement, opField, encode, Instr.header, Instr.opcode, Opcode.code, Opcode.format, headerOk]

theorem limSetThreshold (soft : Bool) (a : Word) : Statement (.limSetThreshold soft a) := by
  cases soft <;>
    simp [Statement, opField, encode, Instr.header, Instr.opcode, Opcode.code, Opcode.format, headerOk, flagBits]

theorem limSetTrim (a : Word) : Statement (.limSetTrim a) := by
  simp [Statement, opField, encode, Instr.header, Instr.opcode, Opcode.code, Opcode.format, headerOk]

end Sys2Proof.Laws.HeaderOpcode
end

