-- ==== Sys2Proof/Tests/Slice0.lean ====
section
/-!
SUPPORT. Tests of the model. The expected values are the spec's: 95_test_vectors.md (V…), and the rules named. The
theorems `witness_…` show states and operands that meet the hypotheses of the statement of that name.
-/

namespace Sys2Proof.Tests

set_option Elab.async false

open Sys2Proof Sys2Proof.Machine

/-! ## WellFormed: each check refuses an ill-formed command -/

theorem test_wf_nin : (Instr.process false 256 0 0).wellFormed = false := by decide
theorem test_wf_nout : (Instr.process false 0 256 0).wellFormed = false := by decide
theorem test_wf_length : (Instr.process false 0 0 4294967296).wellFormed = false := by decide
theorem test_wf_bounds : (Instr.process true 255 255 4294967295).wellFormed = true := by decide

/-! ## Decoding: every constructor from a word of 30_encoding.md R170, written out -/

theorem test_decode_nop : decode .audio ⟨0x00000000#32, 0x00000000#32, 0x00000000#32⟩ = .ok .nop := by decide
theorem test_decode_nop_control : decode .control ⟨0x00000000#32, 0x00000000#32, 0x00000000#32⟩ = .ok .nop := by decide
theorem test_decode_process_f32 : decode .audio ⟨0x02020001#32, 0x00000040#32, 0x00000000#32⟩ = .ok (.process false 2 2 64) := by decide
theorem test_decode_process_f64 : decode .audio ⟨0x02010101#32, 0x00000010#32, 0x00000000#32⟩ = .ok (.process true 1 2 16) := by decide
theorem test_decode_process_junk : decode .audio ⟨0x01010001#32, 0x00000004#32, 0x12345678#32⟩ = .ok (.process false 1 1 4) := by decide
theorem test_decode_resetPointers : decode .audio ⟨0x00000002#32, 0xDEADBEEF#32, 0xDEADBEEF#32⟩ = .ok .resetPointers := by decide
theorem test_decode_clearBuffer : decode .audio ⟨0x00000003#32, 0x00000000#32, 0x00000000#32⟩ = .ok .clearBuffer := by decide
theorem test_decode_filterReset : decode .audio ⟨0x00000004#32, 0x00000000#32, 0x00000000#32⟩ = .ok .filterReset := by decide
theorem test_decode_setSampleRate : decode .audio ⟨0x00000005#32, 0x473B8000#32, 0x00000000#32⟩ = .ok (.setSampleRate 0x473B8000#32) := by decide
theorem test_decode_clearErr : decode .control ⟨0x0000000F#32, 0x00000000#32, 0x00000000#32⟩ = .ok .clearErr := by decide
theorem test_decode_clearErr_audio : decode .audio ⟨0x0000000F#32, 0x00000000#32, 0x00000000#32⟩ = .ok .clearErr := by decide
theorem test_decode_setResampleRate : decode .control ⟨0x00000010#32, 0x3F000000#32, 0x00000000#32⟩ = .ok (.setResampleRate 0x3F000000#32) := by decide
theorem test_decode_setResampleLfo : decode .control ⟨0x00000011#32, 0x3F000000#32, 0x3E800000#32⟩ = .ok (.setResampleLfo 0x3F000000#32 0x3E800000#32) := by decide
theorem test_decode_setPlaybackRate : decode .control ⟨0x00000012#32, 0x3F000000#32, 0x00000000#32⟩ = .ok (.setPlaybackRate 0x3F000000#32) := by decide
theorem test_decode_setPlaybackLfo : decode .control ⟨0x00000013#32, 0x3F000000#32, 0x3E800000#32⟩ = .ok (.setPlaybackLfo 0x3F000000#32 0x3E800000#32) := by decide
theorem test_decode_setBitcrushAmount : decode .control ⟨0x00000014#32, 0x3F000000#32, 0x00000000#32⟩ = .ok (.setBitcrushAmount 0x3F000000#32) := by decide
theorem test_decode_setBitcrushLfo : decode .control ⟨0x00000015#32, 0x3F800000#32, 0x3E800000#32⟩ = .ok (.setBitcrushLfo 0x3F800000#32 0x3E800000#32) := by decide
theorem test_decode_setBitcrushOutputMix : decode .control ⟨0x00000016#32, 0x3F000000#32, 0x00000000#32⟩ = .ok (.setBitcrushOutputMix 0x3F000000#32) := by decide
theorem test_decode_setDryMix : decode .control ⟨0x00000017#32, 0x3F000000#32, 0x00000000#32⟩ = .ok (.setDryMix 0x3F000000#32) := by decide
theorem test_decode_setWetMix : decode .control ⟨0x00000018#32, 0x3F000000#32, 0x00000000#32⟩ = .ok (.setWetMix 0x3F000000#32) := by decide
theorem test_decode_setBypass_on : decode .control ⟨0x00000119#32, 0x00000000#32, 0x00000000#32⟩ = .ok (.setBypass true) := by decide
theorem test_decode_setBypass_off : decode .control ⟨0x00000019#32, 0x00000000#32, 0x00000000#32⟩ = .ok (.setBypass false) := by decide
theorem test_decode_limSetAttackUs : decode .control ⟨0x00000020#32, 0x44C38000#32, 0x00000000#32⟩ = .ok (.limSetAttackUs 0x44C38000#32) := by decide
theorem test_decode_limSetReleaseMs : decode .control ⟨0x00000021#32, 0x44C48000#32, 0x00000000#32⟩ = .ok (.limSetReleaseMs 0x44C48000#32) := by decide
theorem test_decode_limSetAttackNorm : decode .control ⟨0x00000022#32, 0x3E19999A#32, 0x00000000#32⟩ = .ok (.limSetAttackNorm 0x3E19999A#32) := by decide
theorem test_decode_limSetReleaseNorm : decode .control ⟨0x00000023#32, 0x3F000000#32, 0x00000000#32⟩ = .ok (.limSetReleaseNorm 0x3F000000#32) := by decide
theorem test_decode_limSetThreshold_soft : decode .control ⟨0x00000124#32, 0x3F000000#32, 0x00000000#32⟩ = .ok (.limSetThreshold true 0x3F000000#32) := by decide
theorem test_decode_limSetThreshold_hard : decode .control ⟨0x00000024#32, 0x3F000000#32, 0x00000000#32⟩ = .ok (.limSetThreshold false 0x3F000000#32) := by decide
theorem test_decode_limSetTrim : decode .control ⟨0x00000025#32, 0x3F800000#32, 0x00000000#32⟩ = .ok (.limSetTrim 0x3F800000#32) := by decide

/-! Decode errors: V30.11 to V30.20 -/

theorem test_error_V30_11 : decode .audio ⟨0x00000006#32, 0#32, 0#32⟩ = .error .illegalOpcode := by decide
theorem test_error_V30_12 : decode .control ⟨0x000000FF#32, 0#32, 0#32⟩ = .error .illegalOpcode := by decide
theorem test_error_V30_13 : decode .audio ⟨0x00000010#32, 0x3F000000#32, 0#32⟩ = .error .wrongPort := by decide
theorem test_error_V30_14 : decode .control ⟨0x01010001#32, 0x00000004#32, 0#32⟩ = .error .wrongPort := by decide
theorem test_error_V30_15 : decode .control ⟨0x00000210#32, 0x3F000000#32, 0#32⟩ = .error .reservedField := by decide
theorem test_error_V30_16 : decode .control ⟨0x00000110#32, 0x3F000000#32, 0#32⟩ = .error .reservedField := by decide
theorem test_error_V30_17 : decode .control ⟨0x01000010#32, 0x3F000000#32, 0#32⟩ = .error .reservedField := by decide
theorem test_error_V30_18 : decode .audio ⟨0x01018001#32, 0x00000004#32, 0#32⟩ = .error .reservedField := by decide
theorem test_error_V30_19 : decode .audio ⟨0x00000206#32, 0#32, 0#32⟩ = .error .illegalOpcode := by decide
theorem test_error_V30_20 : decode .audio ⟨0x00000211#32, 0#32, 0#32⟩ = .error .wrongPort := by decide

/-- The host's numbering of an instruction's bits: W0 lowest. -/
theorem test_tableWord : decodeTableWord 96 0x3E8000003F00000000000011 =
    some (.setResampleLfo 0x3F000000#32 0x3E800000#32) := by decide

/-- An opcode-table word shorter than the command: the operand words are 0. -/
theorem test_tableWord_short : decodeTableWord 32 0x00000119 = some (.setBypass true) := by decide

/-- 20_memory.md R106: the bytes of `set_resample_lfo 0.5, 0.25`, least significant first. -/
theorem test_bytes : commandOfBytes [0x11#8, 0#8, 0#8, 0#8, 0#8, 0#8, 0#8, 0x3F#8, 0#8, 0#8, 0x80#8, 0x3E#8] =
    ⟨0x00000011#32, 0x3F000000#32, 0x3E800000#32⟩ := by decide

/-! ## Small states -/

/-- An arithmetic unit whose configuration functions are constants, for states that the kernel can evaluate. -/
def constFpu : Fpu where
  fmt := .binary32
  sinF := fun _ => 0#64
  tanF := fun _ => 0x3F800000#64
  exp2F := fun x => x
  pow10F := fun _ => 0x3F800000#64
  nanBits := fun _ _ _ => 0#64

/-- The arithmetic unit of `constFpu` with functions that answer their operand. -/
def idFpu : Fpu := { constFpu with pow10F := fun x => x, exp2F := fun x => x }

/-- The reference build after reset, with `constFpu` (the limiter threshold is then 1, as with R304). -/
def base : State := State.resetWith constFpu Config.referenceBuild

/-- A field of the next state. -/
def after {α : Type} (o : Host.Outcome State Fault Refusal) (f : State → α) : Option α :=
  match o with
  | .next t => some (f t)
  | _ => none

/-- A state with a command at the head of a port. -/
def offered (p : Port) (w0 w1 w2 : Word) (s : State) : State := offerCommand p ⟨w0, w1, w2⟩ s

/-- IN_MEM with four frames of two channels (P1 of 95_test_vectors.md). -/
def inputs : Memory InWord :=
  [(0, ⟨some 0x3F000000#32, some 0#32⟩), (1, ⟨some 0xBE800000#32, some 0#32⟩),
   (64, ⟨some 0x3DCCCCCD#32, some 0#32⟩), (65, ⟨some 0x3E4CCCCD#32, some 0#32⟩)]

/-- A PROCESS of two frames of two channels. -/
def proc0 : Proc := { sw := false, nin := 2, nout := 2, n := 2, i := 0, outOld := [] }

/-- P1 before its first frame, with the reset attack of 44_limiter.md R303. -/
def running : State :=
  { base with
    inMem := inputs, proc := some proc0, status := { base.status with busy := true }
    lim := { base.lim with att := 0x3F004DCE#64, rel := 0x39A5CB5F#64 } }

/-- A PROCESS past its last frame. -/
def finished : State := { running with proc := some { proc0 with i := 2 } }

/-- A running PROCESS with the downsampler active and the hold counter at its last value. -/
def held : State :=
  { running with
    ds := { running.ds with incr := 3#32 }, ptr := { wp := 7#32, rp := 0x780000000#64, hold := 2#32 }
    status := { running.status with dsActive := true } }

/-- A halted block with a command in each port. -/
def halted : State :=
  { base with
    status := { base.status with err := true, errCode := 4#4, fatal := true }
    audioQ := [0#32, 0#32, 0#32], sched := [.audio] }

/-! ## Arithmetic (00_scope.md R8, R14 to R16) -/

theorem test_tenth32 : constFpu.ofDec ⟨1, 10⟩ = 0x3DCCCCCD#64 := by decide +kernel
theorem test_tenth64 : (configFpu .binary64 0).ofDec ⟨1, 10⟩ = 0x3FB999999999999A#64 := by decide +kernel
/-- 41_oscillator.md: TWO_PI = 0x40C90FDB. -/
theorem test_twoPi : constFpu.twoPi = 0x40C90FDB#64 := by decide +kernel
/-- 1 / 3 rounds up in its last place. -/
theorem test_third : constFpu.div constFpu.one (constFpu.ofNat 3) = 0x3EAAAAAB#64 := by decide +kernel
theorem test_overflow : constFpu.mul 0x7F7FFFFF#64 constFpu.two = 0x7F800000#64 := by decide +kernel

/-! ## Datapaths -/

/-- V41.1 to V41.4. -/
theorem test_lfoInc : lfoInc constFpu 0#64 0x472C4400#64 = 0x376F08EB#64 ∧
    lfoInc constFpu 0x3F000000#64 0x472C4400#64 = 0x3A3C9D09#64 ∧
    lfoInc constFpu 0x3F800000#64 0x472C4400#64 = 0x3ABABEF7#64 ∧
    lfoInc constFpu 0x3F800000#64 0x473B8000#64 = 0x3AAB92A7#64 := by decide +kernel
/-- V41.10: the phase wraps once. -/
theorem test_phaseWrap : phaseAdvance constFpu 0x40C907AA#64 0x3C23D70A#64 = 0x3C137600#64 := by decide +kernel
/-- V42.1: LPF_RHO at DS_ACTUAL 1, 2, 44.099998 and NaN. -/
theorem test_rho : lpfRho constFpu 0x3F800000#64 = 0x3EE66666#64 ∧ lpfRho constFpu 0x40000000#64 = 0x3E800000#64 ∧
    lpfRho constFpu 0x42306666#64 = 0x3C39C278#64 ∧ lpfRho constFpu 0x7FC00000#64 = 0x3A83126F#64 := by decide +kernel
/-- V42.1, V42.2 at rho 0.25, where tan(π/4) = 1. -/
theorem test_coeffs : lpfDesign constFpu 0x40000000#64 =
    { b0 := 0x3E95F619#64, b1 := 0x3F15F619#64, b2 := 0x3E95F619#64, a1 := 0#64, a2 := 0x3E2FB0CD#64,
      rho := 0x3E800000#64 } := by decide +kernel
/-- V42.3: the first two samples of the impulse response. -/
theorem test_impulse :
    let ch := setCoeffs constFpu (lpfDesign constFpu 0x40000000#64) default
    let c1 := lpfShift constFpu ch 0x3F800000#64
    c1.y1 = 0x3E95F619#64 ∧ (lpfShift constFpu c1 0#64).y1 = 0x3F15F619#64 := by decide +kernel
/-- V42.6. -/
theorem test_flush : flush constFpu 0x00000001#64 = 0#64 := by decide +kernel
/-- V43.6, V43.7, V43.10. -/
theorem test_crush : crush constFpu [] 4#8 constFpu.one 0x3F7FF972#64 = 0x3F800000#64 ∧
    crush constFpu [] 4#8 constFpu.one 0x3D800000#64 = 0x3E000000#64 ∧
    crush constFpu [] 4#8 constFpu.one 0xBD800000#64 = 0#64 ∧
    crush constFpu [] 4#8 constFpu.one 0x7F800000#64 = 0x3F800000#64 := by decide +kernel
/-- V44.3 to V44.6: both knees and the read-out at q = 1.2 and q = 2. -/
theorem test_gain : gainSoft constFpu 0x3F99999A#64 = 0x3F8469EE#64 ∧
    linearGR constFpu 0x3F8469EE#64 = 0x3F777778#64 ∧ gainSoft constFpu 0x40000000#64 = 0x3FCCCCCD#64 ∧
    gainHard constFpu 0x3F99999A#64 = 0x3F99999A#64 := by decide +kernel
/-- V46.1: incr of 1, 0.5, NaN, 44.099998, 5e9 and +∞. -/
theorem test_incr : incr constFpu 0x3F800000#64 = 1#32 ∧ incr constFpu 0x3F000000#64 = 1#32 ∧
    incr constFpu 0x7FC00000#64 = 1#32 ∧ incr constFpu 0x42306666#64 = 44#32 ∧
    incr constFpu 0x4F9502F9#64 = 4294967295#32 ∧ incr constFpu 0x7F800000#64 = 4294967295#32 := by decide +kernel
/-- V46.2: fx of 0.5, NaN, -1 and 3. -/
theorem test_fx : fx constFpu 0x3F000000#64 = 0x80000000#64 ∧ fx constFpu 0x7FC00000#64 = 0#64 ∧
    fx constFpu 0xBF800000#64 = 0#64 ∧ fx constFpu 0x40400000#64 = 0x200000000#64 := by decide +kernel
/-- V43.2, V43.3: bits of 0.0666, 0.0667, 0.5 and 0.99. -/
theorem test_bits : bitDepth constFpu 0x3D886595#64 = 1#8 ∧ bitDepth constFpu 0x3D889A02#64 = 2#8 ∧
    bitDepth constFpu 0x3F000000#64 = 8#8 ∧ bitDepth constFpu 0x3F7D70A4#64 = 15#8 := by decide +kernel

/-! ## Instructions, one step each -/

theorem test_nop : after (step (offered .audio 0#32 0#32 0#32 base)) (fun t => (t.audioQ, statusWord t.status)) =
    some ([], 0#32) := by decide +kernel
/-- V46.7: the silence path copies, and WP stays 0. -/
theorem test_process_silence :
    after (exec (.process false 2 2 2) { base with inMem := [(0, ⟨some 0#32, some 0#32⟩), (1, ⟨some 0x80000000#32, some 0#32⟩),
      (64, ⟨some 0x3F000000#32, some 0#32⟩), (65, ⟨some 0x3F000000#32, some 0#32⟩)] })
      (fun t => (t.outMem, t.ptr.wp, t.proc)) =
    some ([(0, some 0#64), (1, some 0x80000000#64), (64, some 0x3F000000#64), (65, some 0x3F000000#64)], 0#32, none) := by
  decide +kernel
/-- P1, frame 0: the output, LIM_ENV, LIM_GAIN and WP. -/
theorem test_process_frame :
    after (step { running with sched := [.audio] }) (fun t => (t.outMem, t.lim.env, t.lim.gain, t.ptr.wp, t.ptr.rp)) =
    some ([(0, some 0x3F000000#64), (64, some 0x3DCCCCCD#64)], 0x3E804DCE#64, 0x3F800000#64, 1#32, 0x100000000#64) := by
  decide +kernel
/-- V46.11. -/
theorem test_resetPointers : after (exec .resetPointers held) (fun t => t.ptr) =
    some { wp := 0#32, rp := 0#64, hold := 0#32 } := by decide +kernel
/-- V46.12. -/
theorem test_clearBuffer : after (exec .clearBuffer { base with recMem := [(3, 1#64)] }) (fun t => t.recMem) = some [] := by
  decide +kernel
/-- 42_lowpass_filter.md R236: the history goes, HELD stays. -/
theorem test_filterReset :
    after (exec .filterReset { base with chans := [{ resetChan constFpu with x1 := 1#64, y2 := 2#64, held := 3#64 }] })
      (fun t => ((chanAt t 0).x1, (chanAt t 0).y2, (chanAt t 0).held)) = some (0#64, 0#64, 3#64) := by decide +kernel
/-- V45.8: 999 is error 5 and FS stays. -/
theorem test_sampleRate_999 : after (exec (.setSampleRate 0x4479C000#32) base) (fun t => (statusWord t.status, t.fs)) =
    some (0x501#32, 0x472C4400#64) := by decide +kernel
/-- V45.8: 1000 is accepted and DSMAX is 1. -/
theorem test_sampleRate_1000 : after (exec (.setSampleRate 0x447A0000#32) base) (fun t => (statusWord t.status, t.dsmax)) =
    some (0#32, 0x3F800000#64) := by decide +kernel
/-- R459 step 3; FATAL is not CLEAR_ERR's to clear (60_exceptions.md R448). -/
theorem test_clearErr : after (exec .clearErr halted) (fun t => statusWord t.status) = some 2#32 := by decide +kernel
/-- V45.1. -/
theorem test_resampleRate : after (exec (.setResampleRate 0x3F000000#32) base)
    (fun t => (t.ds.target, t.ds.incr, statusWord t.status)) = some (0x41B46666#64, 22#32, 0xC#32) := by decide +kernel
/-- V45.6: the resync. -/
theorem test_resampleRate_resync :
    after (exec (.setResampleRate 0x3F800000#32) { base with
        ds := { base.ds with ctrl := 0x3F000000#64, target := 0x41B46666#64, actual := 0x41B46666#64, incr := 22#32 }
        ptr := { wp := 5#32, rp := 0x280000000#64, hold := 0#32 }
        status := { base.status with rateActive := true, dsActive := true } })
      (fun t => (t.ptr.rp, t.ds.incr, statusWord t.status)) = some (0x500000000#64, 1#32, 0#32) := by decide +kernel
/-- V41.7. -/
theorem test_resampleLfo : after (exec (.setResampleLfo 0x3F000000#32 0x3F000000#32) base)
    (fun t => (t.dsLfo.lo, t.dsLfo.hi, t.dsLfo.en, t.dsLfo.inc)) =
      some (0x3F800000#64, 0x413C6666#64, true, 0x3A3C9D09#64) := by decide +kernel
/-- V45.2. -/
theorem test_playbackRate : after (exec (.setPlaybackRate 0#32) base) (fun t => (t.pb.target, t.pb.step)) =
    some (0x3F000000#64, 0x80000000#64) := by decide +kernel
/-- V41.8: the band of depth 1 at PB_TARGET 0.75 is clipped to [PMIN, 1]. -/
theorem test_playbackLfo :
    after (exec (.setPlaybackLfo 0x3F000000#32 0x3F800000#32) { base with pb := { base.pb with target := 0x3F400000#64 } })
      (fun t => (t.pbLfo.lo, t.pbLfo.hi)) = some (0x3F000000#64, 0x3F800000#64) := by decide +kernel
/-- V43.3: amount 0.5 is 8 bits. -/
theorem test_bitcrushAmount : after (exec (.setBitcrushAmount 0x3F000000#32) base) (fun t => (t.bc.actual, t.bc.bits)) =
    some (0x3F000000#64, 8#8) := by decide +kernel
/-- V45.10: while the oscillator runs, the actual value stays. -/
theorem test_bitcrushAmount_running :
    after (exec (.setBitcrushAmount 0x3F000000#32) { base with bcLfo := { base.bcLfo with en := true } })
      (fun t => (t.bc.amount, t.bc.actual, t.bc.bits)) = some (0x3F000000#64, 0x3F800000#64, 16#8) := by decide +kernel
/-- V41.5. -/
theorem test_bitcrushLfo :
    after (exec (.setBitcrushLfo 0x3F800000#32 0x3F800000#32) { base with bc := { base.bc with amount := 0x3F000000#64 } })
      (fun t => (t.bcLfo.lo, t.bcLfo.hi, t.bcLfo.en, t.bcLfo.inc)) =
        some (0#64, 0x3F800000#64, true, 0x3ABABEF7#64) := by decide +kernel
/-- V41.12. -/
theorem test_bitcrushLfo_off :
    after (exec (.setBitcrushLfo 0#32 0x3F800000#32) { base with
        bc := { base.bc with amount := 0x3F000000#64 }, bcLfo := { base.bcLfo with en := true, depth := 0x3F800000#64 } })
      (fun t => (t.bcLfo.en, t.bc.actual, t.bc.bits)) = some (false, 0x3F000000#64, 8#8) := by decide +kernel
theorem test_bitcrushOutputMix : after (exec (.setBitcrushOutputMix 0x3F000000#32) base) (fun t => t.bc.outMix) =
    some 0x3F000000#64 := by decide +kernel
/-- V45.9: 0.2 and 0.8. -/
theorem test_dryMix : after (exec (.setDryMix 0x3E4CCCCD#32) base) (fun t => (t.mix.dry, t.mix.wet)) =
    some (0x3E4CCCCD#64, 0x3F800000#64) := by decide +kernel
theorem test_wetMix : after (exec (.setWetMix 0x3F4CCCCD#32) base) (fun t => (t.mix.dry, t.mix.wet)) =
    some (0#64, 0x3F4CCCCD#64) := by decide +kernel
/-- 45_engine_setters.md R350. -/
theorem test_bypass : after (exec (.setBypass true) base) (fun t => t.mix.bypass) = some true := by decide +kernel
/-- V44.12: a time of 0, or a NaN, gives the coefficient 1. -/
theorem test_attackUs_zero : after (exec (.limSetAttackUs 0#32) base) (fun t => (t.lim.att, t.lim.attMode)) =
    some (0x3F800000#64, true) := by decide +kernel
theorem test_attackUs_nan : after (exec (.limSetAttackUs 0x7FC00000#32) base) (fun t => t.lim.att) =
    some 0x3F800000#64 := by decide +kernel
/-- V44.9: 2000 µs is 1564 µs. -/
theorem test_attUs_clamped : attUs idFpu 0x44FA0000#64 0x472C4400#64 = attUs idFpu 0x44C38000#64 0x472C4400#64 := by
  decide +kernel
/-- V44.10: 5000 ms is 1572 ms. -/
theorem test_relMs_clamped : relMs idFpu 0x459C4000#64 0x472C4400#64 = relMs idFpu 0x44C48000#64 0x472C4400#64 := by
  decide +kernel
theorem test_releaseMs : after (exec (.limSetReleaseMs 0#32) base) (fun t => (t.lim.rel, t.lim.relMode)) =
    some (0x3F800000#64, true) := by decide +kernel
/-- 44_limiter.md R303: attNorm(p) is pow10F(-2p), relNorm(p) is pow10F(-2 - 3p). -/
theorem test_attNorm : attNorm idFpu 0x3F000000#64 = 0xBF800000#64 := by decide +kernel
theorem test_attackNorm : after (exec (.limSetAttackNorm 0x3F000000#32) { base with lim := { base.lim with attMode := true } })
    (fun t => (t.lim.attParam, t.lim.attMode)) = some (0x3F000000#64, false) := by decide +kernel
theorem test_relNorm : relNorm idFpu 0x3F000000#64 = 0xC0600000#64 := by decide +kernel
theorem test_releaseNorm :
    after (exec (.limSetReleaseNorm 0x3F000000#32) { base with lim := { base.lim with relMode := true } })
      (fun t => (t.lim.relParam, t.lim.relMode)) = some (0x3F000000#64, false) := by decide +kernel
/-- 44_limiter.md R304: the threshold of p = 0.5 is pow10F(0); F = 0 is the hard knee. -/
theorem test_threshold : threshold idFpu 0x3F000000#64 = 0#64 := by decide +kernel
theorem test_setThreshold : after (exec (.limSetThreshold false 0x3F000000#32) base) (fun t => (t.lim.thrParam, t.lim.soft)) =
    some (0x3F000000#64, false) := by decide +kernel
theorem test_trim : after (exec (.limSetTrim 0x3F000000#32) base) (fun t => (t.lim.trim, t.lim.gain)) =
    some (0x3F000000#64, 0x3F800000#64) := by decide +kernel

/-! ## Errors and reset: R459, one step each -/

theorem test_R459_1 : after (step (offered .audio 0x00000006#32 0#32 0#32 base)) (fun t => statusWord t.status) =
    some 0x101#32 := by decide +kernel
/-- A second error keeps the first code. -/
theorem test_R459_2 :
    after (step (offered .audio 0x00000010#32 0x3F000000#32 0#32 (raiseError 1#4 base)))
      (fun t => (statusWord t.status, t.ds.ctrl)) = some (0x101#32, 0x3F800000#64) := by decide +kernel
theorem test_R459_3 : after (step (offered .control 0x0000000F#32 0#32 0#32 (raiseError 1#4 base)))
    (fun t => statusWord t.status) = some 0#32 := by decide +kernel
/-- A fatal error keeps an earlier code. -/
theorem test_R459_5 : after (step (offered .audio 0x03030001#32 4#32 0#32 (raiseError 5#4 base)))
    (fun t => (statusWord t.status, t.proc)) = some (0x503#32, none) := by decide +kernel
/-- A halted block discards CLEAR_ERR. -/
theorem test_R459_6 : after (step (offered .control 0x0000000F#32 0#32 0#32 (raiseFatal 5#4 base)))
    (fun t => (statusWord t.status, t.controlQ)) = some (0x503#32, []) := by decide +kernel
theorem test_R459_7 : after (step { raiseFatal 5#4 base with hostIn := [.reset] }) (fun t => statusWord t.status) =
    some 0#32 := by decide +kernel

/-! ## The hypotheses of the statements are met -/

theorem witness_DecodeEncodeRoundTrip :
    (Instr.process true 255 255 4294967295).wellFormed = true ∧ Opcode.process.acceptedOn .audio = true ∧
    (Instr.setResampleLfo 0xFFFFFFFF#32 0#32).wellFormed = true ∧ Opcode.setResampleLfo.acceptedOn .control = true := by
  decide

theorem witness_EncodeDecodeRoundTrip :
    decode .audio ⟨0xFFFF0101#32, 0xFFFFFFFF#32, 7#32⟩ = .ok (.process true 255 255 4294967295) ∧
    (Instr.process true 255 255 4294967295).opcode.format = .cp ∧
    decode .control ⟨0x00000013#32, 1#32, 2#32⟩ = .ok (.setPlaybackLfo 1#32 2#32) ∧
    (Instr.setPlaybackLfo 1#32 2#32).opcode.format = .cab := by decide

theorem witness_TransportIsLittleEndian :
    3 < 4 ∧ (bytesLE 4 (0x04030201#32).toNat)[3]? = some 4#8 ∧ 7 < 8 ∧
    (bytesLE 8 (0x0807060504030201#64).toNat)[7]? = some 8#8 := by decide +kernel

theorem witness_IllegalOpcodesAndWrongPorts :
    decode .audio ⟨0x06#32, 0#32, 0#32⟩ = .error .illegalOpcode ∧
    decode .control ⟨0x06#32, 0#32, 0#32⟩ = .error .illegalOpcode ∧
    decode .audio ⟨0x0E#32, 0#32, 0#32⟩ = .error .illegalOpcode ∧
    decode .control ⟨0x0E#32, 0#32, 0#32⟩ = .error .illegalOpcode ∧
    decode .audio ⟨0x1A#32, 0#32, 0#32⟩ = .error .illegalOpcode ∧
    decode .control ⟨0x1A#32, 0#32, 0#32⟩ = .error .illegalOpcode ∧
    decode .audio ⟨0x1F#32, 0#32, 0#32⟩ = .error .illegalOpcode ∧
    decode .control ⟨0x1F#32, 0#32, 0#32⟩ = .error .illegalOpcode ∧
    decode .audio ⟨0x26#32, 0#32, 0#32⟩ = .error .illegalOpcode ∧
    decode .control ⟨0x26#32, 0#32, 0#32⟩ = .error .illegalOpcode ∧
    decode .audio ⟨0xFF#32, 0#32, 0#32⟩ = .error .illegalOpcode ∧
    decode .control ⟨0xFF#32, 0#32, 0#32⟩ = .error .illegalOpcode ∧
    decode .control ⟨0x01#32, 0#32, 0#32⟩ = .error .wrongPort ∧
    decode .control ⟨0x05#32, 0#32, 0#32⟩ = .error .wrongPort ∧
    decode .audio ⟨0x10#32, 0#32, 0#32⟩ = .error .wrongPort ∧
    decode .audio ⟨0x19#32, 0#32, 0#32⟩ = .error .wrongPort ∧
    decode .audio ⟨0x20#32, 0#32, 0#32⟩ = .error .wrongPort ∧
    decode .audio ⟨0x25#32, 0#32, 0#32⟩ = .error .wrongPort := by
  refine ⟨?_, ?_, ?_, ?_, ?_, ?_, ?_, ?_, ?_, ?_, ?_, ?_, ?_, ?_, ?_, ?_, ?_, ?_⟩ <;> decide

theorem witness_ReservedFields :
    opcodeOf 0x10 = some .setResampleRate ∧ Opcode.setResampleRate.acceptedOn .control = true ∧
    opcodeOf 0x01 = some .process ∧ Opcode.process.acceptedOn .audio = true ∧
    decode .control ⟨0x00008010#32, 0#32, 0#32⟩ = .error .reservedField ∧
    decode .control ⟨0x00010010#32, 0#32, 0#32⟩ = .error .reservedField ∧
    decode .audio ⟨0x00000201#32, 0#32, 0#32⟩ = .error .reservedField := by decide

theorem witness_IgnoredWords :
    opcodeOf (opField 0x02#32) = some .resetPointers ∧ Opcode.resetPointers.format = .cn ∧
    opcodeOf (opField 0x19#32) = some .setBypass ∧ Opcode.setBypass.format = .cf ∧
    opcodeOf (opField 0x25#32) = some .limSetTrim ∧ Opcode.limSetTrim.format = .ca ∧
    opcodeOf (opField 0x24#32) = some .limSetThreshold ∧ Opcode.limSetThreshold.format = .caf ∧
    opcodeOf (opField 0x01#32) = some .process ∧ Opcode.process.format = .cp := by decide

theorem witness_StepRunsDecoded :
    (let s := offered .audio 0x02020001#32 0x40#32 0#32 base
     mover s = some (agentOf .audio) ∧ s.proc = none ∧ s.status.fatal = false ∧
       decode .audio (headCommand .audio s) = .ok (.process false 2 2 64)) ∧
    (let s := offered .control 0x00000018#32 0x3F000000#32 0#32 running
     mover s = some (agentOf .control) ∧ s.status.fatal = false ∧
       decode .control (headCommand .control s) = .ok (.setWetMix 0x3F000000#32)) := by decide +kernel

theorem witness_ErrorsKeepTheFirstCode :
    (let s := offered .audio 0x00000006#32 0#32 0#32 base
     mover s = some (agentOf .audio) ∧ s.proc = none ∧ s.status.fatal = false ∧
       decode .audio (headCommand .audio s) = .error .illegalOpcode) ∧
    (let s := offered .audio 0x00000010#32 0#32 0#32 base
     mover s = some (agentOf .audio) ∧ decode .audio (headCommand .audio s) = .error .wrongPort) ∧
    (let s := offered .control 0x00000210#32 0#32 0#32 base
     mover s = some (agentOf .control) ∧ decode .control (headCommand .control s) = .error .reservedField) ∧
    (isFinite base.build.fmt (toFmt32 base.fpu 0x4479FFFF#32) &&
      base.fpu.ge (toFmt32 base.fpu 0x4479FFFF#32) (base.fpu.ofNat 1000)) = false ∧
    (isFinite base.build.fmt (toFmt32 base.fpu 0x7F800000#32) &&
      base.fpu.ge (toFmt32 base.fpu 0x7F800000#32) (base.fpu.ofNat 1000)) = false ∧
    base.build.nMax < 3 ∧ base.build.maxBlock < 65 := by decide +kernel

theorem witness_HaltedIsFinal :
    halted.status.fatal = true ∧ mover halted = some (agentOf .audio) ∧ halted.proc = none := by decide +kernel

theorem witness_HaltedIsFinal_run : noReset { halted with hostIn := [.push .control 0#32] } := by
  intro e he
  simp only [List.mem_singleton] at he
  subst he
  decide

theorem witness_EveryInterleavingAdmitted :
    (let s := { running with controlQ := [0#32, 0#32, 0#32], hostIn := [.reset] }
     canMove s .audio = true ∧ canMove s .control = true ∧ canMove s .host = true) ∧
    base.audioQ.length < 3 ∧ base.controlQ.length < 3 ∧ base.proc = none ∧ base.hostIn = [] := by decide +kernel

/-- The reference build is valid. -/
theorem witness_valid : Build.Valid Config.referenceBuild := by constructor <;> decide

/-- The largest build is valid. -/
theorem witness_valid_largest :
    Build.Valid { Config.referenceBuild with nMax := 16, maxBlock := 4294967295, recCap := 16777216, chInit := 16 } := by
  constructor <;> decide

/-- The running state meets the invariant. -/
theorem witness_running : running.Inv where
  build := witness_valid
  chCountPos := by decide +kernel
  chCountLe := by decide +kernel
  chans := by decide +kernel
  wp := by decide +kernel
  rp := by decide +kernel
  incrPos := by decide +kernel
  stepLe := by decide +kernel
  bitsPos := by decide +kernel
  bitsLe := by decide +kernel
  coeffA0 := by decide +kernel
  recWf := by decide +kernel
  recWithin := by decide +kernel
  inWf := by decide +kernel
  inWithin := by decide +kernel
  outWf := by decide +kernel
  outWithin := by decide +kernel
  outOldWithin := by intro p hp e he; cases hp; cases he
  proc := by intro p hp; cases hp; constructor <;> decide +kernel
  busy := by decide +kernel
  fatal := by decide +kernel
  noError := by decide +kernel
  errCode := by decide +kernel

/-- The state past the last frame meets the invariant. -/
theorem witness_finished : finished.Inv :=
  { witness_running with
    fatal := by decide +kernel
    outOldWithin := by intro p hp e he; cases hp; cases he
    proc := by intro p hp; cases hp; constructor <;> decide +kernel }

theorem witness_derived : running.Derived := by constructor <;> decide +kernel

theorem witness_StepKeepsInv : (after (step running) (fun t => t.ptr.wp)) = some 1#32 := by decide +kernel

theorem witness_FilterResetResult : 1 < base.chans.length := by decide +kernel

theorem witness_SetBypassResult :
    (after (continueProcess proc0 running) (fun t => t.proc.isSome)) = some true ∧
    (after (continueProcess { proc0 with i := 2 } finished) (fun t => t.proc.isSome)) = some false := by decide +kernel

theorem witness_ResyncOnlyOnDeactivation :
    (let s := { base with status := { base.status with rateActive := true } }
     s.status.rateActive = true ∧
       (s.fpu.gt s.ds.target s.fpu.one || s.dsLfo.en || s.fpu.lt s.pb.target s.fpu.one || s.pbLfo.en) = false) ∧
    base.status.rateActive = false := by decide +kernel

theorem witness_RateResults :
    base.fpu.eq (dsTarget base.fpu base.dsmax (toFmt32 base.fpu 0x3F800000#32)) base.ds.target = true ∧
    base.fpu.eq (dsTarget base.fpu base.dsmax (toFmt32 base.fpu 0#32)) base.ds.target = false ∧
    base.fpu.eq (pbTarget base.fpu (toFmt32 base.fpu 0x3F800000#32)) base.pb.target = true ∧
    base.fpu.eq (pbTarget base.fpu (toFmt32 base.fpu 0#32)) base.pb.target = false := by decide +kernel

theorem witness_SampleRateResult :
    isFinite base.build.fmt (toFmt32 base.fpu 0x447A0000#32) = true ∧
    base.fpu.ge (toFmt32 base.fpu 0x447A0000#32) (base.fpu.ofNat 1000) = true ∧
    base.fpu.ge (toFmt32 base.fpu 0x4479FFFF#32) (base.fpu.ofNat 1000) = false ∧
    isFinite base.build.fmt (toFmt32 base.fpu 0x7F800000#32) = false := by decide +kernel

theorem witness_SettersKeepRunningState : isSetter (.setSampleRate 0#32) = true ∧ isSetter (.limSetTrim 0#32) = true ∧
    isSetter .filterReset = false := by decide

/-- A whole block of both channels under bypass. -/
theorem witness_ProcessZeroLengthAndBypass :
    let s := { base with mix := { base.mix with bypass := true } }
    2 ≤ s.build.nMax ∧ 64 ≤ s.build.maxBlock ∧ s.mix.bypass = true := by decide +kernel

theorem witness_GeometryChange : 2 = base.chCount.toNat ∧ 1 ≠ base.chCount.toNat ∧ 1 < base.chans.length := by
  decide +kernel

/-- A silent block: +0 and -0. -/
theorem witness_ProcessSilenceCopies :
    let s := { base with inMem := [(0, ⟨some 0#32, some 0#32⟩), (1, ⟨some 0x80000000#32, some 0#32⟩)] }
    s.mix.bypass = false ∧ ∀ i, i < 2 → s.fpu.eq (toFmt s.fpu false (inRead s 0 i)) 0#64 = true ∧
      s.fpu.eq (toFmt s.fpu false (inRead { s with proc := some { proc0 with n := 3 } } 0 i)) 0#64 = true := by
  decide +kernel

/-- A block whose second sample is not zero. -/
theorem witness_ProcessPrologue :
    let s := { base with inMem := [(0, ⟨some 0#32, some 0#32⟩), (1, ⟨some 1#32, some 0#32⟩)] }
    s.mix.bypass = false ∧ s.fpu.eq (toFmt s.fpu false (inRead s 0 1)) 0#64 = false := by decide +kernel

theorem witness_StepRunsFrameThenEpilogue :
    running.proc = some proc0 ∧ mover running = some .audio ∧ proc0.i < proc0.n ∧
    finished.proc = some { proc0 with i := 2 } ∧ mover finished = some .audio := by decide +kernel

/-- The last REC cell, a channel with an input and one without. -/
theorem witness_FrameRecords :
    held.ptr.wp.toNat = 7 ∧ held.ptr.wp.toNat < held.build.recCap ∧ 0 < held.chCount.toNat ∧ 0 < proc0.nin ∧
    1 < held.chCount.toNat ∧ ¬ 1 < { proc0 with nin := 1 }.nin := by decide +kernel

/-- A fetching frame, a holding frame, and a channel at CH_COUNT. -/
theorem witness_FrameFetchOrHold :
    1 < running.chans.length ∧ 1 < running.chCount.toNat ∧ running.ptr.hold = 0#32 ∧
    ¬ (held.ptr.hold = 0#32 ∨ (frame constFpu proc0 held).ds.incr.toNat ≤ held.ptr.hold.toNat) ∧
    { running with chCount := 1#8 }.chCount.toNat ≤ 1 := by decide +kernel

theorem witness_FrameFilter : held.status.dsActive = true ∧ running.status.dsActive = false ∧ 1 < held.chans.length ∧
    1 < held.chCount.toNat := by decide +kernel

/-- The last frame of a full block. -/
theorem witness_FrameLimitsAndMixes : running.chCount.toNat ≤ running.chans.length ∧
    { proc0 with i := 63 }.i < running.build.maxBlock := by decide +kernel

/-- Every pointer at its wrap. -/
theorem witness_FramePointers : 1 ≤ held.build.recCap ∧ held.build.recCap ≤ 2 ^ 24 ∧ 1 ≤ held.ds.incr.toNat ∧
    (held.ptr.wp.toNat + 1) % held.build.recCap = 0 ∧ held.ds.incr.toNat = held.ptr.hold.toNat + 1 := by decide +kernel

theorem witness_FrameTransparent :
    running.proc = some proc0 ∧ proc0.i < proc0.n ∧ proc0.nin = running.chCount.toNat ∧
    running.dsLfo.en = false ∧ running.pbLfo.en = false ∧ running.bcLfo.en = false ∧
    running.bc.bits = 16#8 ∧ running.status.dsActive = false ∧ running.ds.incr = 1#32 ∧
    running.pb.step = BitVec.ofNat 64 (2 ^ 32) ∧
    running.mix.wet = running.fpu.one ∧ running.mix.dry = 0#64 ∧ running.lim.trim = running.fpu.one ∧
    running.ptr.rp.toNat = running.ptr.wp.toNat * 2 ^ 32 ∧
    (∀ c, c < 2 →
      isFinite running.build.fmt (toFmt running.fpu false (inRead running 1 (c * 64))) = true ∧
      running.fpu.le (running.fpu.absS (toFmt running.fpu false (inRead running 1 (c * 64)))) running.fpu.one = true) ∧
    running.fpu.gt (running.fpu.mul (envelope running.fpu running.lim (peak running.fpu
      ((List.range running.chCount.toNat).map (fun c => toFmt running.fpu false (inRead running 1 (c * 64))))))
      running.lim.invT) running.fpu.one = false := by decide +kernel

theorem witness_ProcessRunsToCompletion : running.controlQ.length < 3 ∧ running.hostIn = [] ∧ running.pbLfo.en = false := by
  decide +kernel

/-- Two ties, the largest finite value, and an overflow. -/
theorem witness_RoundingIsNearestEven :
    roundQ .binary32 (2 ^ 24 + 1) 1 = 2 ^ 24 ∧ roundQ .binary32 (2 ^ 24 + 3) 1 = 2 ^ 24 + 2 ∧ roundQ .binary32 (unitsOf .binary32 0x7F7FFFFF) 1 = 0x7F7FFFFF ∧
    roundQ .binary32 (unitsOf .binary32 0x7F800000) 1 = infMag .binary32 := by decide +kernel

theorem witness_OperationsAreCorrectlyRounded :
    isFinite .binary32 0x3F800000#64 = true ∧ isFinite .binary32 0x40400000#64 = true ∧
    isFinite .binary32 (constFpu.add 0x3F800000#64 0x40400000#64) = true ∧
    isFinite .binary32 (constFpu.sub 0x3F800000#64 0x40400000#64) = true ∧
    isFinite .binary32 (constFpu.mul 0x3F800000#64 0x40400000#64) = true ∧
    isFinite .binary32 (constFpu.div 0x3F800000#64 0x40400000#64) = true ∧
    numOf .binary32 0x40400000#64 = .fin false (3 * 2 ^ 149) := by decide +kernel

theorem witness_NanResultsAreQuiet :
    isNaN .binary32 (constFpu.sub 0x7F800000#64 0x7F800000#64) = true ∧
    isNaN .binary32 (constFpu.mul 0#64 0x7F800000#64) = true ∧ isNaN .binary32 (constFpu.div 0#64 0#64) = true ∧
    isNaN .binary32 (constFpu.floorS 0x7F800001#64) = true ∧
    isNaN .binary32 (toFmt64 constFpu 0x7FF0000000000001#64) = true ∧
    isNaN .binary64 (toFmt32 { constFpu with fmt := .binary64 } 0x7F800001#32) = true ∧
    isNaN .binary64 (fromFmt constFpu true 0x7F800001#64) = true ∧
    isNaN .binary32 (fromFmt { constFpu with fmt := .binary64 } false 0x7FF0000000000001#64) = true := by decide +kernel

/-- The smallest subnormal and the largest finite operand; samples below and at the overflow bound, an infinity, a NaN. -/
theorem witness_OperandConversionExact : isFinite .binary32 ((0x00000001#32).setWidth 64) = true ∧
    isFinite .binary32 ((0xFF7FFFFF#32).setWidth 64) = true ∧
    isFinite .binary64 0x47EFFFFFEFFFFFFF#64 = true ∧ toFmt64 constFpu 0x47EFFFFFEFFFFFFF#64 = 0x7F7FFFFF#64 ∧
    isFinite .binary64 0x47EFFFFFF0000000#64 = true ∧ toFmt64 constFpu 0x47EFFFFFF0000000#64 = 0x7F800000#64 ∧
    numOf .binary64 0xFFF0000000000000#64 = .inf true ∧ isNaN .binary64 0x7FF8000000000000#64 = true := by decide +kernel

/-- Each clause at a boundary: below 1, 1, +∞, -0, the smallest subnormal, NaN, just below 2 and 2. -/
theorem witness_IntegerImagesExact :
    constFpu.ge 0x3F7FFFFF#64 constFpu.one = false ∧ constFpu.ge 0x7FC00000#64 constFpu.one = false ∧
    constFpu.ge 0x3F800000#64 constFpu.one = true ∧ isFinite .binary32 0x3F800000#64 = true ∧
    constFpu.ge 0x7F800000#64 constFpu.one = true ∧ isFinite .binary32 0x7F800000#64 = false ∧
    constFpu.gt 0x80000000#64 constFpu.zero = false ∧ constFpu.gt 0x00000001#64 constFpu.zero = true ∧
    numOf .binary32 0x3FFFFFFF#64 = .fin false ((2 ^ 25 - 2) * 2 ^ 125) ∧
    numOf .binary32 0x40000000#64 = .fin false (2 * 2 ^ 149) := by decide +kernel

theorem witness_CrusherTransparentOrClipped : 16 ≤ (16#8).toNat ∧
    quantize constFpu 4 0x7F800000#64 = 0x3F800000#64 ∧ isNaN .binary32 (quantize constFpu 4 0x7FC00000#64) = true := by
  decide +kernel

theorem witness_LimiterOutputInRange : limit constFpu base.lim 0xFF800000#64 = 0xBF800000#64 := by decide +kernel

/-- q at 1, and a NaN. -/
theorem witness_GainAtLeastOne :
    constFpu.gt (constFpu.mul 0x3F800000#64 base.lim.invT) constFpu.one = false ∧
    constFpu.gt (constFpu.mul 0x7FC00000#64 base.lim.invT) constFpu.one = false := by decide +kernel

theorem witness_TargetEndpoints :
    isFinite .binary32 0x3F800000#64 = true ∧ constFpu.ge 0x3F800000#64 constFpu.one = true ∧
    isFinite .binary32 0x42306666#64 = true ∧ constFpu.ge 0x42306666#64 constFpu.one = true := by decide +kernel

/-- The largest DSMAX below 2^24. -/
theorem witness_TargetEndpoints_below : isFinite .binary32 0x4B7FFFFF#64 = true ∧
    numOf .binary32 0x4B7FFFFF#64 = .fin false ((2 ^ 24 - 1) * 2 ^ 149) ∧
    constFpu.eq (dsTarget constFpu 0x4B7FFFFF#64 constFpu.zero) 0x4B7FFFFF#64 = true := by decide +kernel

/-- The first and the last address of every range of the read port that names no register. -/
theorem witness_ReadPortStatusAndGaps :
    (∀ a ∈ [0x00A, 0x00F, 0x015, 0x01F, 0x024, 0x02F, 0x034, 0x03F, 0x043, 0x04F, 0x05D, 0x05F, 0x063, 0x07F, 0x087, 0x08F,
      0x097, 0x09F, 0x0A7, 0x0FF, 0x10C, 0x11F, 0x120, 0xFFF], readPort base (BitVec.ofNat 12 a) = 0#64) ∧
    readPort base 0x062#12 = 0#64 ∧ readPort base 0x103#12 = 0x3F800000#64 ∧ readPort base 0x113#12 = 0x3F800000#64 := by
  decide +kernel

theorem witness_ResetFromAnywhere :
    mover { base with hostIn := [.reset] } = some .host ∧ { base with hostIn := [.reset] }.proc = none ∧
    mover { running with hostIn := [.reset], sched := [.host] } = some .host ∧
    (∃ e ∈ [(3, (none : Option IoWord))], e.1 = 3) ∧
    outOverwritten { running with proc := some { proc0 with outOld := [(3, some 5#64)] } } 3 = [some 5#64] := by decide +kernel

/-- A frame keeps what the OUT_MEM words it overwrites held. -/
theorem witness_FrameLeavesTheRest : 0 < running.chCount.toNat ∧
    outOverwritten (frame constFpu proc0 { running with outMem := [(64, some 5#64)] }) 64 = [some 5#64] := by decide +kernel

/-- The last word of IN_MEM and the first outside it; a PROCESS in progress, a command of which one word has arrived, and
neither. -/
theorem witness_HostWritesInMem : 127 < ioSize base ∧ ioSize base ≤ 128 ∧ 127 < ioSize running ∧
    running.proc.isSome = true ∧ { base with audioQ := [1#32] }.audioQ ≠ [] ∧ base.proc = none ∧ base.audioQ = [] := by
  decide +kernel

/-- No race: a block with no command. -/
theorem witness_RacesAdmitOldOrNew :
    base.proc = none ∧ base.audioQ = [] ∧
    Memory.read none { base with outMem := [(0, some 5#64)] }.outMem 0 = some 5#64 ∧
    inOverwritten { base with inMem := inputs } 0 = [] ∧ running.hostIn = [] ∧
    Memory.read noInWord { base with inMem := inputs }.inMem 0 = ⟨some 0x3F000000#32, some 0#32⟩ := by decide +kernel

/-- A write between the issue of a command and its first step: the command may read the old word. -/
theorem witness_RacesAdmitOldOrNew_issued :
    let s := { base with audioQ := [1#32, 0#32, 0#32], inMem := inputs }
    s.audioQ ≠ [] ∧ 1 < ioSize s ∧
    inRace (takeCommand .audio (hostWriteIn 1 9#64 s)) 1 = [⟨some 0xBE800000#32, some 0#32⟩] ∧
    inOverwritten (takeCommand .audio (takeCommand .audio (hostWriteIn 1 9#64 s))) 1 = [] := by decide +kernel

/-- A write between a frame and the epilogue: the frame may read the new word. -/
theorem witness_RacesAdmitOldOrNew_ahead :
    let s := { running with hostIn := [.writeInHalf 0 true 7#32], sched := [.audio, .host] }
    s.proc = some proc0 ∧ proc0.i < proc0.n ∧ noReset s ∧
    (after (continueProcess proc0 (tick s)) (fun t => t.proc.isSome)) = some true ∧
    inRace (tick s) 0 = [⟨some 0x3F000000#32, some 7#32⟩] := by
  refine ⟨rfl, by decide, ?_, by decide +kernel, by decide +kernel⟩
  intro e he
  simp only [List.mem_singleton] at he
  subst he
  decide

/-- A read before the frame that writes the word, in a PROCESS in progress and in a command that waits: the host may read
the new word. -/
theorem witness_RacesAdmitOldOrNew_outAhead :
    outRace { running with proc := some { proc0 with n := 1 } } 64 = [some 0x3DCCCCCD#64, some 0x3DCCCCCD#64] ∧
    outRace { base with audioQ := [0x02020001#32, 1#32, 0#32], mix := { base.mix with bypass := true }, inMem := inputs } 64 =
      [some 0x3DCCCCCD#64] := by decide +kernel

/-! ## The assembler -/

/-- R171, and the raw pattern and the two flag words of R170. -/
theorem test_asm_default :
    assembleLine "limiter_init_default".toList = some [⟨0x22#32, 0x3E19999A#32, 0#32⟩, ⟨0x23#32, 0x3F000000#32, 0#32⟩,
      ⟨0x124#32, 0x3F000000#32, 0#32⟩] := by decide +kernel
theorem test_asm_raw : assembleLine "set_dry_mix #0xBF800000".toList = some [⟨0x17#32, 0xBF800000#32, 0#32⟩] := by
  decide +kernel
theorem test_asm_hard : assembleLine "lim_set_threshold -0.5, hard".toList = some [⟨0x24#32, 0xBF000000#32, 0#32⟩] := by
  decide +kernel
/-- NIN = 256 does not fit its field (R144); a missing operand is no line of R170. -/
theorem test_asm_refuses : assembleLine "process.f32 256, 1, 4".toList = none ∧
    assembleLine "set_resample_lfo 0.5".toList = none := by decide +kernel

end Sys2Proof.Tests
end

section
/-!
PROOFS. The rounding, the operations and the NaN results (00_scope.md R14 to R16).

The one idea: a quotient lies between two neighbouring patterns, and the rounding picks one of the two by the midpoint,
the even one on the midpoint itself. Every claim about nearest values follows from that and from the order of the
patterns.
-/

namespace Sys2Proof.Proofs

open Sys2Proof Sys2Proof.Machine Sys2Proof.Laws

/-! ## The two neighbours of a quotient -/

theorem fracPow_even (f : Fmt) : 2 ^ fracBits f % 2 = 0 := by cases f <;> decide

theorem infMag_even (f : Fmt) : infMag f % 2 = 0 := by cases f <;> decide

theorem infMag_pos (f : Fmt) : 0 < infMag f := by cases f <;> decide

theorem unitsOf_zero (f : Fmt) : unitsOf f 0 = 0 := by simp [unitsOf]

/-- The quotient `num / den` lies from the pattern `lo` on and below the next one, and `r` is the one of the two that
rounding to nearest even picks when no pattern is too large. -/
structure Brackets (f : Fmt) (num den lo r : Nat) : Prop where
  lower : unitsOf f lo * den ≤ num
  upper : num < unitsOf f (lo + 1) * den
  pick : (r = lo ∧ 2 * num ≤ unitsOf f lo * den + unitsOf f (lo + 1) * den) ∨
    (r = lo + 1 ∧ unitsOf f lo * den + unitsOf f (lo + 1) * den ≤ 2 * num)
  tie : 2 * num = unitsOf f lo * den + unitsOf f (lo + 1) * den → r % 2 = 0

/-- The rounding picks by the midpoint and caps at infinity. -/
theorem exists_brackets (f : Fmt) (num den : Nat) (hd : 0 < den) :
    ∃ lo r, Brackets f num den lo r ∧ roundQ f num den = min r (infMag f) := by
  obtain ⟨e, k, r, -, -, hlo, hhi, hnum, hnum', hr, hpick, hle, hge, hround⟩ := roundQ_neighbours f num den hd
  have hX : 0 < den * 2 ^ e := Nat.mul_pos hd (Nat.two_pow_pos e)
  have htie_up := roundHalfEven_tie_up num _ hX
  have htie_down := roundHalfEven_tie_down num _ hX
  rw [← hr] at htie_up htie_down
  have ek : k * 2 ^ e * den = k * (den * 2 ^ e) := by ring
  have ek' : (k + 1) * 2 ^ e * den = k * (den * 2 ^ e) + den * 2 ^ e := by ring
  rw [ek] at hnum
  rw [ek'] at hnum'
  have heven : r % 2 = 0 → (e * 2 ^ fracBits f + r) % 2 = 0 := by
    intro h
    rw [Nat.add_mod, Nat.mul_mod, fracPow_even, h, Nat.mul_zero]
  refine ⟨e * 2 ^ fracBits f + k, e * 2 ^ fracBits f + r,
    ⟨by rw [hlo, ek]; exact hnum, by rw [hhi, ek']; exact hnum', ?_, fun htie => heven ?_⟩, hround⟩
  · rw [hlo, hhi, ek, ek']
    rcases hpick with rfl | rfl
    · exact .inl ⟨rfl, by omega⟩
    · rw [Nat.add_mul, Nat.one_mul] at hle
      exact .inr ⟨rfl, by omega⟩
  · rw [hlo, hhi, ek, ek'] at htie
    rcases hpick with rfl | rfl
    · exact htie_down (by omega)
    · rw [Nat.add_mul, Nat.one_mul] at htie_up
      exact htie_up (by omega)

/-- A pattern other than the two neighbours lies outside them. -/
theorem unitsOf_mul_le_or_le (f : Fmt) (den lo m : Nat) :
    (m ≤ lo ∧ unitsOf f m * den ≤ unitsOf f lo * den) ∨
      (lo + 1 ≤ m ∧ unitsOf f (lo + 1) * den ≤ unitsOf f m * den) := by
  rcases Nat.lt_or_ge lo m with h | h
  · exact .inr ⟨h, Nat.mul_le_mul_right _ (unitsOf_mono f h)⟩
  · exact .inl ⟨h, Nat.mul_le_mul_right _ (unitsOf_mono f h)⟩

theorem eq_of_unitsOf_mul_eq (f : Fmt) {den a b : Nat} (hd : 0 < den) (h : unitsOf f a * den = unitsOf f b * den) :
    a = b := by
  have hu := Nat.eq_of_mul_eq_mul_right hd h
  exact Nat.le_antisymm (le_of_unitsOf_le f hu.le) (le_of_unitsOf_le f hu.ge)

namespace Brackets

variable {f : Fmt} {num den lo r : Nat}

/-- The picked neighbour is a nearest pattern. -/
theorem nearest (b : Brackets f num den lo r) (m : Nat) :
    |(unitsOf f r * den : ℤ) - num| ≤ |(unitsOf f m * den : ℤ) - num| := by
  have hm := unitsOf_mul_le_or_le f den lo m
  have lower := b.lower
  have upper := b.upper
  zify at hm lower upper
  rcases b.pick with ⟨rfl, hmid⟩ | ⟨rfl, hmid⟩ <;> zify at hmid
  · rw [abs_of_nonpos (by omega), le_abs]
    omega
  · rw [abs_of_nonneg (by omega), le_abs]
    omega

/-- Another pattern as near as the picked one is across the midpoint, so the picked one is even. -/
theorem even_of_tie (b : Brackets f num den lo r) (hd : 0 < den) {m : Nat} (hne : m ≠ r)
    (heq : |(unitsOf f r * den : ℤ) - num| = |(unitsOf f m * den : ℤ) - num|) : r % 2 = 0 := by
  have hinj : unitsOf f r * den ≠ unitsOf f m * den := fun h => hne (eq_of_unitsOf_mul_eq f hd h).symm
  have hsum : unitsOf f r * den + unitsOf f m * den = 2 * num := by
    zify at hinj ⊢
    rcases abs_eq_abs.mp heq with h | h <;> omega
  have hm := unitsOf_mul_le_or_le f den lo m
  have lower := b.lower
  have upper := b.upper
  apply b.tie
  rcases b.pick with ⟨rfl, hmid⟩ | ⟨rfl, hmid⟩ <;> omega

/-- The picked neighbour reaches infinity exactly from the midpoint below it on: the largest finite pattern is odd. -/
theorem infMag_le_iff (b : Brackets f num den lo r) :
    infMag f ≤ r ↔ (unitsOf f (infMag f - 1) + unitsOf f (infMag f)) * den ≤ 2 * num := by
  have hpos := infMag_pos f
  have heven := infMag_even f
  have lower := b.lower
  have upper := b.upper
  have tie := b.tie
  rw [Nat.add_mul]
  rcases Nat.lt_trichotomy (lo + 1) (infMag f) with h | h | h
  · have hu := Nat.mul_le_mul_right den (unitsOf_mono f (show lo + 1 ≤ infMag f - 1 by omega))
    have hu' := Nat.mul_le_mul_right den (unitsOf_mono f h.le)
    rcases b.pick with ⟨rfl, hmid⟩ | ⟨rfl, hmid⟩ <;> omega
  · rw [← h, Nat.add_sub_cancel]
    rcases b.pick with ⟨rfl, hmid⟩ | ⟨rfl, hmid⟩ <;> omega
  · have hu := Nat.mul_le_mul_right den (unitsOf_mono f (show infMag f ≤ lo by omega))
    have hu' := Nat.mul_le_mul_right den (unitsOf_mono f (show infMag f - 1 ≤ lo by omega))
    rcases b.pick with ⟨rfl, hmid⟩ | ⟨rfl, hmid⟩ <;> omega

end Brackets

/-- The rounding answers infinity exactly from the midpoint above the largest finite value on. -/
theorem roundQ_eq_infMag_iff (f : Fmt) (num den : Nat) (hd : 0 < den) :
    roundQ f num den = infMag f ↔ (unitsOf f (infMag f - 1) + unitsOf f (infMag f)) * den ≤ 2 * num := by
  obtain ⟨lo, r, b, hr⟩ := exists_brackets f num den hd
  rw [← b.infMag_le_iff, hr, min_eq_right_iff]

/-- A finite rounding answers a nearest pattern. -/
theorem roundQ_nearest (f : Fmt) (num den : Nat) (hd : 0 < den) (hfin : roundQ f num den < infMag f) (m : Nat) :
    |(unitsOf f (roundQ f num den) * den : ℤ) - num| ≤ |(unitsOf f m * den : ℤ) - num| := by
  obtain ⟨lo, r, b, hr⟩ := exists_brackets f num den hd
  have hr' : roundQ f num den = r := by omega
  rw [hr']
  exact b.nearest m

/-- A finite rounding of a tie answers an even pattern. -/
theorem roundQ_even_of_tie (f : Fmt) (num den : Nat) (hd : 0 < den) (hfin : roundQ f num den < infMag f) {m : Nat}
    (hne : m ≠ roundQ f num den)
    (heq : |(unitsOf f (roundQ f num den) * den : ℤ) - num| = |(unitsOf f m * den : ℤ) - num|) :
    roundQ f num den % 2 = 0 := by
  obtain ⟨lo, r, b, hr⟩ := exists_brackets f num den hd
  have hr' : roundQ f num den = r := by omega
  rw [hr'] at hne heq ⊢
  exact b.even_of_tie hd hne heq

/-- Settles O47, from the two neighbours of the quotient. -/
theorem roundingIsNearestEven : Obligations.RoundingIsNearestEven := by
  intro f num den hd
  exact ⟨roundQ_eq_infMag_iff f num den hd, fun hfin m _ =>
    ⟨roundQ_nearest f num den hd hfin m, roundQ_even_of_tie f num den hd hfin⟩⟩

/-! ## Values of patterns -/

theorem numOf_of_isFinite (f : Fmt) (v : F) (h : isFinite f v = true) :
    numOf f v = .fin (signOf f v) (unitsOf f (magOf f v)) := by
  simp only [isFinite, decide_eq_true_eq] at h
  simp [numOf, h]

theorem valueOf_of_numOf {f : Fmt} {v : F} {s : Bool} {n : Nat} (h : numOf f v = .fin s n) :
    valueOf f v = (Fpu.signedUnits s n : ℚ) / 2 ^ unitExp f := by
  unfold valueOf Fpu.signedUnits
  rw [h]
  cases s <;> simp

theorem numOf_neg (u : Fpu) (v : F) {s : Bool} {n : Nat} (h : numOf u.fmt v = .fin s n) :
    numOf u.fmt (u.neg v) = .fin (!s) n := by
  unfold numOf at h
  simp only at h
  split at h
  · cases h
    exact numOf_packMag _ _ _ ‹_›
  · split at h <;> cases h

theorem signedUnits_not (s : Bool) (n : Nat) : Fpu.signedUnits (!s) n = -Fpu.signedUnits s n := by
  cases s <;> simp [Fpu.signedUnits]

theorem signedUnits_add (s : Bool) (m n : Nat) :
    Fpu.signedUnits s m + Fpu.signedUnits s n = Fpu.signedUnits s (m + n) := by
  unfold Fpu.signedUnits
  split <;> omega

theorem signedUnits_add_not (s : Bool) {m n : Nat} (h : n ≤ m) :
    Fpu.signedUnits s m + Fpu.signedUnits (!s) n = Fpu.signedUnits s (m - n) := by
  rw [signedUnits_not]
  unfold Fpu.signedUnits
  split <;> omega

theorem signedUnits_mul (s t : Bool) (m n : Nat) :
    Fpu.signedUnits (s != t) (m * n) = Fpu.signedUnits s m * Fpu.signedUnits t n := by
  cases s <;> cases t <;> simp [Fpu.signedUnits]

theorem isFinite_rounded_iff (u : Fpu) (s : Bool) (num den : Nat) :
    isFinite u.fmt (u.rounded s num den) = true ↔ roundQ u.fmt num den < infMag u.fmt := by
  have hle := roundQ_le_inf u.fmt num den
  have hlt := infMag_lt_signWeight u.fmt
  unfold isFinite Fpu.rounded
  rw [magOf_packMag _ _ _ (by omega), decide_eq_true_eq]

theorem valueOf_rounded (u : Fpu) (s : Bool) (num den : Nat) (h : roundQ u.fmt num den < infMag u.fmt) :
    valueOf u.fmt (u.rounded s num den) =
      (Fpu.signedUnits s (unitsOf u.fmt (roundQ u.fmt num den)) : ℚ) / 2 ^ unitExp u.fmt :=
  valueOf_of_numOf (by rw [numOf_rounded, if_pos h])

/-! ## Correct rounding of the operations -/

/-- Between numbers of one sign the distance is that of the magnitudes. -/
theorem abs_signedUnits_sub_same (s : Bool) (a d b : Nat) :
    |Fpu.signedUnits s a * d - Fpu.signedUnits s b| = |(a * d : ℤ) - b| := by
  cases s
  · rfl
  · rw [abs_sub_comm]
    simp only [Fpu.signedUnits, if_true]
    congr 1
    ring

/-- Between numbers of opposite signs the distance is at least either magnitude. -/
theorem le_abs_signedUnits_sub_not (s : Bool) (a d b : Nat) :
    (b : ℤ) ≤ |Fpu.signedUnits (!s) a * d - Fpu.signedUnits s b| := by
  have hpos : 0 ≤ (a * d : ℤ) := by positivity
  rw [le_abs]
  cases s <;> simp [Fpu.signedUnits] <;> omega

/-- The rounding of a magnitude, with the quotient's own sign, is nearest among the signed patterns too: a pattern of
the other sign is no nearer than zero. -/
theorem roundQ_nearest_signed (f : Fmt) (s t : Bool) (num den : Nat) (hd : 0 < den)
    (hfin : roundQ f num den < infMag f) (m : Nat) :
    |Fpu.signedUnits s (unitsOf f (roundQ f num den)) * den - Fpu.signedUnits s num| ≤
      |Fpu.signedUnits t (unitsOf f m) * den - Fpu.signedUnits s num| := by
  rw [abs_signedUnits_sub_same]
  rcases Bool.eq_or_eq_not t s with rfl | rfl
  · rw [abs_signedUnits_sub_same]
    exact roundQ_nearest f num den hd hfin m
  · calc |(unitsOf f (roundQ f num den) * den : ℤ) - num|
        ≤ |(unitsOf f 0 * den : ℤ) - num| := roundQ_nearest f num den hd hfin 0
      _ = num := by simp [unitsOf_zero]
      _ ≤ _ := le_abs_signedUnits_sub_not s _ _ _

/-- A pattern that stands for the number itself is nearest to it. -/
theorem nearest_of_valueOf_eq {f : Fmt} {r : F} {x : ℚ} (h : valueOf f r = x) : nearest f r x := by
  intro c _
  rw [h, sub_self, abs_zero]
  exact abs_nonneg _

/-- A distance in units of `1 / den` of the format's unit, as a distance of numbers. -/
theorem abs_div_sub_div (k n : ℤ) {den e : ℚ} (hd : 0 < den) (he : 0 < e) :
    |(k : ℚ) / e - (n : ℚ) / den / e| = |(k : ℚ) * den - n| / (den * e) := by
  have hdist : (k : ℚ) / e - (n : ℚ) / den / e = ((k : ℚ) * den - n) / (den * e) := by field_simp
  rw [hdist, abs_div, abs_of_pos (mul_pos hd he)]

/-- A finite answer of the rounding is nearest to the quotient it rounds. -/
theorem nearest_rounded (u : Fpu) (s : Bool) (num den : Nat) (hd : 0 < den)
    (hfin : isFinite u.fmt (u.rounded s num den) = true) :
    nearest u.fmt (u.rounded s num den) ((Fpu.signedUnits s num : ℚ) / den / 2 ^ unitExp u.fmt) := by
  rw [isFinite_rounded_iff] at hfin
  intro c hc
  have hden : (0 : ℚ) < den := by exact_mod_cast hd
  have hunit : (0 : ℚ) < 2 ^ unitExp u.fmt := by positivity
  rw [valueOf_rounded u s num den hfin, valueOf_of_numOf (numOf_of_isFinite _ c hc), abs_div_sub_div _ _ hden hunit,
    abs_div_sub_div _ _ hden hunit]
  apply div_le_div_of_nonneg_right _ (by positivity)
  exact_mod_cast roundQ_nearest_signed u.fmt s (signOf u.fmt c) num den hd hfin (magOf u.fmt c)

/-- A finite answer of the rounding of a whole number of units is nearest to that number. -/
theorem nearest_rounded_whole (u : Fpu) (s : Bool) (num : Nat) (hfin : isFinite u.fmt (u.rounded s num 1) = true) :
    nearest u.fmt (u.rounded s num 1) ((Fpu.signedUnits s num : ℚ) / 2 ^ unitExp u.fmt) := by
  simpa using nearest_rounded u s num 1 Nat.one_pos hfin

/-- A finite sum is nearest to the exact one. -/
theorem nearest_addFin (u : Fpu) (s t : Bool) (m n : Nat) (hfin : isFinite u.fmt (u.addFin s m t n) = true) :
    nearest u.fmt (u.addFin s m t n)
      (((Fpu.signedUnits s m + Fpu.signedUnits t n : ℤ) : ℚ) / 2 ^ unitExp u.fmt) := by
  revert hfin
  unfold Fpu.addFin
  split
  case isTrue hst =>
    subst hst
    rw [signedUnits_add]
    exact nearest_rounded_whole u s (m + n)
  case isFalse hst =>
    obtain rfl : t = !s := Bool.eq_not_of_ne (Ne.symm hst)
    split_ifs with hnm hmn
    · rw [signedUnits_add_not s hnm.le]
      exact nearest_rounded_whole u s (m - n)
    · have hsum := signedUnits_add_not (!s) hmn.le
      rw [Bool.not_not] at hsum
      rw [add_comm, hsum]
      exact nearest_rounded_whole u (!s) (n - m)
    · obtain rfl : m = n := by omega
      intro _
      apply nearest_of_valueOf_eq
      rw [valueOf_of_numOf (numOf_packMag u.fmt false 0 (infMag_pos u.fmt)), unitsOf_zero, signedUnits_add_not s le_rfl,
        Nat.sub_self]
      cases s <;> rfl

theorem nearest_add (u : Fpu) {a b : F} (ha : isFinite u.fmt a = true) (hb : isFinite u.fmt b = true)
    (hfin : isFinite u.fmt (u.add a b) = true) :
    nearest u.fmt (u.add a b) (valueOf u.fmt a + valueOf u.fmt b) := by
  have hna := numOf_of_isFinite _ a ha
  have hnb := numOf_of_isFinite _ b hb
  have hadd : u.add a b = u.addFin (signOf u.fmt a) (unitsOf u.fmt (magOf u.fmt a)) (signOf u.fmt b)
      (unitsOf u.fmt (magOf u.fmt b)) := by rw [Fpu.add, hna, hnb, Fpu.addNum]
  rw [hadd] at hfin ⊢
  rw [valueOf_of_numOf hna, valueOf_of_numOf hnb, ← add_div]
  exact_mod_cast nearest_addFin u _ _ _ _ hfin

theorem nearest_sub (u : Fpu) {a b : F} (ha : isFinite u.fmt a = true) (hb : isFinite u.fmt b = true)
    (hfin : isFinite u.fmt (u.sub a b) = true) :
    nearest u.fmt (u.sub a b) (valueOf u.fmt a - valueOf u.fmt b) := by
  have hna := numOf_of_isFinite _ a ha
  have hnb := numOf_of_isFinite _ b hb
  have hsub : u.sub a b = u.addFin (signOf u.fmt a) (unitsOf u.fmt (magOf u.fmt a)) (!signOf u.fmt b)
      (unitsOf u.fmt (magOf u.fmt b)) := by rw [Fpu.sub, hna, numOf_neg u b hnb, Fpu.addNum]
  rw [hsub] at hfin ⊢
  have key := nearest_addFin u _ _ _ _ hfin
  rw [signedUnits_not, ← sub_eq_add_neg] at key
  rw [valueOf_of_numOf hna, valueOf_of_numOf hnb, ← sub_div]
  exact_mod_cast key

theorem nearest_mul (u : Fpu) {a b : F} (ha : isFinite u.fmt a = true) (hb : isFinite u.fmt b = true)
    (hfin : isFinite u.fmt (u.mul a b) = true) :
    nearest u.fmt (u.mul a b) (valueOf u.fmt a * valueOf u.fmt b) := by
  have hna := numOf_of_isFinite _ a ha
  have hnb := numOf_of_isFinite _ b hb
  rw [mul_fin u a b _ _ _ _ hna hnb] at hfin ⊢
  have key := nearest_rounded u _ _ _ (Nat.two_pow_pos _) hfin
  rw [signedUnits_mul] at key
  rw [valueOf_of_numOf hna, valueOf_of_numOf hnb, div_mul_div_comm, ← div_div]
  exact_mod_cast key

/-- A quotient of finite values by a number other than zero is one rounding. -/
theorem div_fin (u : Fpu) (a b : F) {s t : Bool} {m n : Nat} (ha : numOf u.fmt a = .fin s m)
    (hb : numOf u.fmt b = .fin t n) (hn : n ≠ 0) :
    u.div a b = u.rounded (s != t) (m * 2 ^ unitExp u.fmt) n := by
  simp [Fpu.div, ha, hb, hn]

/-- The quotient of two signed numbers has the sign that `div` computes. -/
theorem signedUnits_div (s t : Bool) (m n : Nat) :
    (Fpu.signedUnits s m : ℚ) / (Fpu.signedUnits t n : ℚ) = (Fpu.signedUnits (s != t) m : ℚ) / n := by
  cases s <;> cases t <;> simp [Fpu.signedUnits, neg_div, div_neg]

theorem nearest_div (u : Fpu) {a b : F} (ha : isFinite u.fmt a = true) (hb : isFinite u.fmt b = true)
    (hne : valueOf u.fmt b ≠ 0) (hfin : isFinite u.fmt (u.div a b) = true) :
    nearest u.fmt (u.div a b) (valueOf u.fmt a / valueOf u.fmt b) := by
  have hna := numOf_of_isFinite _ a ha
  have hnb := numOf_of_isFinite _ b hb
  have hunit : (2 ^ unitExp u.fmt : ℚ) ≠ 0 := by positivity
  have hn : unitsOf u.fmt (magOf u.fmt b) ≠ 0 := by
    intro h
    rw [valueOf_of_numOf hnb, h] at hne
    simp [Fpu.signedUnits] at hne
  rw [div_fin u a b hna hnb hn] at hfin ⊢
  have key := nearest_rounded u _ _ _ (Nat.pos_of_ne_zero hn) hfin
  rw [valueOf_of_numOf hna, valueOf_of_numOf hnb, div_div_div_cancel_right₀ hunit, signedUnits_div]
  convert key using 1
  rw [div_right_comm]
  congr 1
  rw [eq_div_iff hunit]
  unfold Fpu.signedUnits
  split <;> push_cast <;> ring

/-- Settles O48: each operation is an exact computation followed by the one rounding. -/
theorem operationsAreCorrectlyRounded : Obligations.OperationsAreCorrectlyRounded := by
  intro u a b ha hb
  exact ⟨nearest_add u ha hb, nearest_sub u ha hb, nearest_mul u ha hb, nearest_div u ha hb⟩

/-! ## Quiet NaN results -/

/-- A NaN pattern of the format is quiet: its top fraction bit is set. -/
def QuietIfNaN (f : Fmt) (r : F) : Prop := isNaN f r = true → r.getLsbD (fracBits f - 1) = true

/-- The free NaN of an operation is quiet, whatever its sign and payload. -/
theorem quietIfNaN_quietNaN (f : Fmt) (bits : F) : QuietIfNaN f (quietNaN f bits) := by
  intro _
  have hpayload := Nat.mod_lt bits.toNat (Nat.two_pow_pos (fracBits f - 1))
  rw [BitVec.getLsbD, Nat.testBit_eq_decide_div_mod_eq, decide_eq_true_eq, quietNaN, BitVec.toNat_ofNat]
  cases f <;> simp only [infMag, fracBits, signWeight, fmtWidth] at * <;> split <;> omega

/-- A magnitude up to infinity makes no NaN. -/
theorem quietIfNaN_packMag (f : Fmt) (s : Bool) {mag : Nat} (h : mag ≤ infMag f) :
    QuietIfNaN f (packMag f s mag) := by
  have := infMag_lt_signWeight f
  intro hnan
  rw [isNaN, magOf_packMag f s mag (by omega), decide_eq_true_eq] at hnan
  omega

theorem quietIfNaN_inf (u : Fpu) (s : Bool) : QuietIfNaN u.fmt (u.inf s) := quietIfNaN_packMag _ s le_rfl

theorem quietIfNaN_rounded (u : Fpu) (s : Bool) (num den : Nat) : QuietIfNaN u.fmt (u.rounded s num den) :=
  quietIfNaN_packMag _ s (roundQ_le_inf _ _ _)

theorem quietIfNaN_nan (u : Fpu) (op : FpOp) (a b : F) : QuietIfNaN u.fmt (u.nan op a b) := quietIfNaN_quietNaN _ _

theorem quietIfNaN_packMag_zero (f : Fmt) (s : Bool) : QuietIfNaN f (packMag f s 0) :=
  quietIfNaN_packMag f s (Nat.zero_le _)

theorem quietIfNaN_addFin (u : Fpu) (s t : Bool) (m n : Nat) : QuietIfNaN u.fmt (u.addFin s m t n) := by
  unfold Fpu.addFin
  split_ifs
  · exact quietIfNaN_rounded _ _ _ _
  · exact quietIfNaN_rounded _ _ _ _
  · exact quietIfNaN_rounded _ _ _ _
  · exact quietIfNaN_packMag_zero _ _

/-- A sum that is a NaN is the free NaN it is given. -/
theorem quietIfNaN_addNum (u : Fpu) {nanValue : F} (h : QuietIfNaN u.fmt nanValue) (x y : Machine.Num) :
    QuietIfNaN u.fmt (u.addNum nanValue x y) := by
  unfold Fpu.addNum
  split
  · exact h
  · exact h
  · split_ifs
    · exact quietIfNaN_inf _ _
    · exact h
  · exact quietIfNaN_inf _ _
  · exact quietIfNaN_inf _ _
  · exact quietIfNaN_addFin _ _ _ _ _

theorem quietIfNaN_mul (u : Fpu) (a b : F) : QuietIfNaN u.fmt (u.mul a b) := by
  unfold Fpu.mul
  split
  · exact quietIfNaN_nan _ _ _ _
  · exact quietIfNaN_nan _ _ _ _
  · exact quietIfNaN_inf _ _
  · split_ifs
    · exact quietIfNaN_nan _ _ _ _
    · exact quietIfNaN_inf _ _
  · split_ifs
    · exact quietIfNaN_nan _ _ _ _
    · exact quietIfNaN_inf _ _
  · exact quietIfNaN_rounded _ _ _ _

theorem quietIfNaN_div (u : Fpu) (a b : F) : QuietIfNaN u.fmt (u.div a b) := by
  unfold Fpu.div
  split
  · exact quietIfNaN_nan _ _ _ _
  · exact quietIfNaN_nan _ _ _ _
  · exact quietIfNaN_nan _ _ _ _
  · exact quietIfNaN_inf _ _
  · exact quietIfNaN_packMag_zero _ _
  · split_ifs
    · exact quietIfNaN_nan _ _ _ _
    · exact quietIfNaN_inf _ _
    · exact quietIfNaN_rounded _ _ _ _

theorem quietIfNaN_floorS (u : Fpu) (a : F) : QuietIfNaN u.fmt (u.floorS a) := by
  unfold Fpu.floorS
  split
  · exact quietIfNaN_nan _ _ _ _
  · exact quietIfNaN_inf _ _
  · exact quietIfNaN_rounded _ _ _ _

theorem quietIfNaN_convert (u : Fpu) (src dst : Fmt) (v : F) : QuietIfNaN dst (convert u src dst v) := by
  unfold convert
  split
  · exact quietIfNaN_quietNaN _ _
  · exact quietIfNaN_packMag _ _ le_rfl
  · exact quietIfNaN_packMag _ _ (roundQ_le_inf _ _ _)

theorem toFmt32_binary64 (u : Fpu) (w : Word) (h : u.fmt = .binary64) :
    toFmt32 u w = convert u .binary32 .binary64 (w.setWidth 64) := by
  simp [toFmt32, h]

theorem fromFmt_wider (u : Fpu) (a : F) (h : u.fmt = .binary32) :
    fromFmt u true a = convert u .binary32 .binary64 a := by
  simp [fromFmt, h]

theorem fromFmt_narrower (u : Fpu) (a : F) (h : u.fmt = .binary64) :
    fromFmt u false a = convert u .binary64 .binary32 a := by
  simp [fromFmt, h]

/-- Settles O49: a result is a free quiet NaN or a packed magnitude up to infinity. -/
theorem nanResultsAreQuiet : Obligations.NanResultsAreQuiet := by
  intro u a b
  refine ⟨?_, ?_, ?_, ?_⟩
  · rintro r (rfl | rfl | rfl | rfl | rfl | rfl)
    · exact quietIfNaN_addNum u (quietIfNaN_nan u _ _ _) _ _
    · exact quietIfNaN_addNum u (quietIfNaN_nan u _ _ _) _ _
    · exact quietIfNaN_mul u a b
    · exact quietIfNaN_div u a b
    · exact quietIfNaN_floorS u a
    · exact quietIfNaN_convert u .binary64 u.fmt a
  · intro w hfmt
    rw [toFmt32_binary64 u w hfmt]
    exact quietIfNaN_convert u .binary32 .binary64 _
  · intro hfmt
    rw [fromFmt_wider u a hfmt]
    exact quietIfNaN_convert u .binary32 .binary64 a
  · intro hfmt
    rw [fromFmt_narrower u a hfmt]
    exact quietIfNaN_convert u .binary64 .binary32 a

end Sys2Proof.Proofs
end

section
/-!
PROOFS. What one atomic step can do: the next states that `step` answers, one case per kind of step, and the outcomes of
the first step of a PROCESS.
-/

namespace Sys2Proof.Proofs

open Sys2Proof Sys2Proof.Machine Sys2Proof.Laws

/-! ## The steps of the machine -/

theorem assemble_opcode (o : Opcode) (c : Command) : (assemble o c).opcode = o := by cases o <;> rfl

/-- A port runs no command that it does not accept (30_encoding.md R148). -/
theorem acceptedOn_of_decode {p : Port} {c : Command} {i : Instr} (h : decode p c = .ok i) :
    i.opcode.acceptedOn p = true := by
  unfold decode at h
  cases ho : opcodeOf (opField c.w0) with
  | none => simp [ho] at h
  | some o =>
    simp only [ho] at h
    split at h
    · split at h
      · cases h
        rwa [assemble_opcode]
      · cases h
    · cases h

/-- The next states of a step, by what the step does. -/
inductive StepsTo (s : State) : State → Prop where
  | idle : StepsTo s s
  | frame (p : Proc) (hp : s.proc = some p) (hi : p.i < p.n) : StepsTo s (frame (tick s).fpu p (tick s))
  | epilogue (p : Proc) (hp : s.proc = some p) : StepsTo s (epilogue (tick s).fpu (tick s))
  | discard (port : Port) : StepsTo s (takeCommand port s)
  | decodeError (port : Port) (e : DecodeError) : StepsTo s (raiseError (decodeErrorCode e) (takeCommand port s))
  | command (port : Port) (i : Instr) (t : State) (hproc : port = .audio → s.proc = none)
      (hfatal : s.status.fatal = false) (haccepted : i.opcode.acceptedOn port = true)
      (hexec : exec i (takeCommand port s) = .next t) : StepsTo s t
  | host (e : HostEvent) (es : List HostEvent) (h : s.hostIn = e :: es) :
      StepsTo s (hostEvent e (tick { s with hostIn := es }))

theorem stepsTo_of_runCommand {s t : State} {port : Port} (hproc : port = .audio → s.proc = none)
    (h : runCommand port s = .next t) : StepsTo s t := by
  unfold runCommand at h
  split at h
  · cases h; exact .discard port
  · rename_i hfatal
    split at h
    · rename_i e _
      cases h; exact .decodeError port e
    · rename_i i hdecode
      exact .command port i t hproc (by simpa using hfatal) (acceptedOn_of_decode hdecode) h

theorem stepsTo_of_audioStep {s t : State} (h : audioStep s = .next t) : StepsTo s t := by
  unfold audioStep at h
  split at h
  · rename_i p hp
    unfold continueProcess at h
    split at h
    · rename_i hi
      split at h
      · cases h
      · cases h; exact .frame p hp hi
    · cases h; exact .epilogue p hp
  · rename_i hp
    exact stepsTo_of_runCommand (fun _ => hp) h

theorem stepsTo_of_hostStep {s t : State} (h : hostStep s = .next t) : StepsTo s t := by
  unfold hostStep at h
  split at h
  · cases h; exact .idle
  · rename_i e es hin
    cases h; exact .host e es hin

/-- Whatever a step answers is one of the listed next states. -/
theorem stepsTo_of_step {s t : State} (h : step s = .next t) : StepsTo s t := by
  unfold step nextStep at h
  split at h
  · cases h; exact .idle
  · rename_i a _
    cases a with
    | audio => exact stepsTo_of_audioStep h
    | control => exact stepsTo_of_runCommand (port := .control) nofun h
    | host => exact stepsTo_of_hostStep h

/-- A PROCESS runs only where none is in progress and the block is not halted. -/
theorem proc_none_of_accepted {i : Instr} {port : Port} {s : State} (hproc : port = .audio → s.proc = none)
    (haccepted : i.opcode.acceptedOn port = true) (hi : i.opcode = .process) : s.proc = none := by
  rw [hi] at haccepted
  cases port with
  | audio => exact hproc rfl
  | control => cases haccepted

/-! ## The first step of a PROCESS -/

/-- The next states of the first step of a PROCESS, by the path it takes (46_engine_process.md R382 to R385, R388). -/
inductive ProcessStartsTo (u : Fpu) (sw : Bool) (nin nout n : Nat) (s : State) : State → Prop where
  | exceeds : ProcessStartsTo u sw nin nout n s (raiseFatal 4#4 s)
  | empty : ProcessStartsTo u sw nin nout n s s
  | bypass (hfits : geometryExceeds s nin nout n = false) :
      ProcessStartsTo u sw nin nout n s (copyBlock sw nin nout n s)
  | silence (hfits : geometryExceeds s nin nout n = false) (hnout : nout ≠ 0) :
      ProcessStartsTo u sw nin nout n s (copyBlock sw nin nout n (changeGeometry nout s))
  | runs (hfits : geometryExceeds s nin nout n = false) (hn : n ≠ 0) (hnout : nout ≠ 0) :
      ProcessStartsTo u sw nin nout n s (prologue u (startProc sw nin nout n) (changeGeometry nout s))

theorem startProcess_cases (u : Fpu) (sw : Bool) (nin nout n : Nat) (s : State) :
    ProcessStartsTo u sw nin nout n s (startProcess u sw nin nout n s) := by
  unfold startProcess
  by_cases hfits : geometryExceeds s nin nout n = true
  · rw [if_pos hfits]; exact .exceeds
  rw [if_neg hfits]
  rw [Bool.not_eq_true] at hfits
  by_cases hempty : n = 0 ∨ nout = 0
  · rw [if_pos hempty]; exact .empty
  rw [if_neg hempty]
  obtain ⟨hn, hnout⟩ := not_or.mp hempty
  by_cases hbypass : s.mix.bypass = true
  · rw [if_pos hbypass]; exact .bypass hfits
  rw [if_neg hbypass]
  by_cases hsilent : takesSilence u sw nin nout n (changeGeometry nout s) = true
  · simp only [hsilent, if_true]; exact .silence hfits hnout
  · simp only [hsilent]; exact .runs hfits hn hnout

theorem geometryExceeds_eq_false_iff (s : State) (nin nout n : Nat) : geometryExceeds s nin nout n = false ↔
    nin ≤ s.build.nMax ∧ nout ≤ s.build.nMax ∧ n ≤ s.build.maxBlock := by
  simp [geometryExceeds, and_assoc]

/-- The prologue with the coefficients recomputed only while the DS oscillator runs (R388). -/
theorem prologue_eq (u : Fpu) (p : Proc) (s : State) : prologue u p s =
    { (if s.dsLfo.en then lpfCoeffs u s else s) with status := { s.status with busy := true }, proc := some p } := by
  unfold prologue
  split <;> rfl

end Sys2Proof.Proofs
end

section
/-!
PROOFS. The machine invariant `State.Inv` (10_state.md R62): each operation keeps it, then each command, then each step.

The one idea: most registers are not in the invariant at all (`InvFieldsKept`), and every write of a register that is goes
through an operation whose range is known: the integer images `incr`, `fx` and `bits`, the pointer wrap-around, and the
writes inside a memory.
-/

namespace Sys2Proof.Proofs

open Sys2Proof Sys2Proof.Machine Sys2Proof.Laws

/-! ## Registers outside the invariant -/

/-- `t` holds in every field that the machine invariant reads what `s` holds there. -/
def InvFieldsKept (s t : State) : Prop :=
  t = { t with
    build := s.build, chCount := s.chCount, chans := s.chans, proc := s.proc
    status := { s.status with dsActive := t.status.dsActive, rateActive := t.status.rateActive }
    ptr := { s.ptr with hold := t.ptr.hold }
    ds := { t.ds with incr := s.ds.incr }, pb := { t.pb with step := s.pb.step }, bc := { t.bc with bits := s.bc.bits }
    recMem := s.recMem, inMem := s.inMem, outMem := s.outMem }

/-- The constant 1 is the same in every atomic step. -/
theorem one_config (f : Fmt) (j k : Nat) : (configFpu f j).one = (configFpu f k).one := rfl

variable {s t : State}

theorem inv_of_kept (h : s.Inv) (ht : InvFieldsKept s t) : t.Inv := by
  rw [ht]
  exact { h with coeffA0 := h.coeffA0 }

theorem inv_takeCommand (h : s.Inv) (port : Port) : (takeCommand port s).Inv := by
  cases port
  · exact inv_of_kept h rfl
  · exact inv_of_kept h rfl

/-! ## Errors -/

theorem inv_raiseError (h : s.Inv) (code : BitVec 4) (hcode : code.toNat ≤ 5) : (raiseError code s).Inv :=
  { h with
    noError := nofun
    errCode := by
      show (if s.status.err then s.status.errCode else code).toNat ≤ 5
      split
      · exact h.errCode
      · exact hcode }

theorem inv_raiseFatal (h : s.Inv) (code : BitVec 4) (hcode : code.toNat ≤ 5) (hproc : s.proc = none) :
    (raiseFatal code s).Inv :=
  { inv_raiseError h code hcode with fatal := fun _ => hproc }

theorem inv_acknowledgeError (h : s.Inv) : (acknowledgeError s).Inv :=
  { h with
    noError := fun _ => rfl
    errCode := Nat.zero_le 5 }

theorem decodeErrorCode_le (e : DecodeError) : (decodeErrorCode e).toNat ≤ 5 := by cases e <;> decide

/-! ## Pointers, REC and channels -/

/-- RP has room in a valid build. -/
theorem rpBound_pos {b : Build} (hb : Build.Valid b) : 0 < b.recCap * 2 ^ 32 :=
  Nat.mul_pos hb.recCapPos (Nat.two_pow_pos 32)

theorem inv_zeroPointers (h : s.Inv) : (zeroPointers s).Inv :=
  { h with
    wp := h.build.recCapPos
    rp := rpBound_pos h.build }

theorem inv_clearRec (h : s.Inv) : (clearRec s).Inv :=
  { h with
    recWf := rfl
    recWithin := rfl }

/-- A map of the channel groups that leaves A0 at 1. -/
theorem inv_mapChans (h : s.Inv) (g : Chan → Chan) (hg : ∀ ch ∈ s.chans, (g ch).a0 = s.fpu.one) :
    State.Inv { s with chans := s.chans.map g } :=
  { h with
    chans := (List.length_map g).trans h.chans
    coeffA0 := List.forall_mem_map.mpr hg }

/-- An indexed map of the channel groups that leaves A0. -/
theorem inv_mapIdxChans (h : s.Inv) (g : Nat → Chan → Chan) (hg : ∀ c ch, (g c ch).a0 = ch.a0) :
    State.Inv { s with chans := s.chans.mapIdx g } :=
  { h with
    chans := List.length_mapIdx.trans h.chans
    coeffA0 := fun ch hch => by
      obtain ⟨c, hc, rfl⟩ := List.mem_mapIdx.mp hch
      exact (hg c _).trans (h.coeffA0 _ (List.getElem_mem hc)) }

theorem inv_clearFilters (h : s.Inv) : (clearFilters s).Inv := inv_mapChans h clearHistory h.coeffA0

theorem inv_lpfCoeffs (h : s.Inv) {u : Fpu} (hu : u = s.fpu) : (lpfCoeffs u s).Inv :=
  inv_of_kept (inv_mapChans h (setCoeffs u (lpfDesign u s.ds.actual)) fun _ _ => congrArg Fpu.one hu) rfl

/-! ## Actual values, targets and the resynchronisation -/

theorem inv_putDsActual (h : s.Inv) (u : Fpu) (a : F) : (putDsActual u a s).Inv :=
  { h with incrPos := incr_pos u a }

theorem inv_putPbActual (h : s.Inv) (u : Fpu) (a : F) : (putPbActual u a s).Inv :=
  { h with stepLe := fx_le u a }

theorem inv_putBcActual (h : s.Inv) (u : Fpu) (a : F) : (putBcActual u a s).Inv :=
  { h with
    bitsPos := (bitDepth_range u a).1
    bitsLe := (bitDepth_range u a).2 }

theorem inv_lfoSet (h : s.Inv) (u : Fpu) (p : LfoId) (a b : F) : (lfoSet u p a b s).Inv := by
  cases p with
  | ds => rw [lfoSet_ds]; exact inv_of_kept h rfl
  | pb => rw [lfoSet_pb]; exact inv_of_kept h rfl
  | bc => rw [lfoSet_bc]; exact inv_of_kept h rfl

theorem lfoSet_fpu (u : Fpu) (p : LfoId) (a b : F) (s : State) : (lfoSet u p a b s).fpu = s.fpu := by
  cases p with
  | ds => rw [lfoSet_ds]; rfl
  | pb => rw [lfoSet_pb]; rfl
  | bc => rw [lfoSet_bc]; rfl

/-- RP stays inside the recording buffer: WP does. -/
theorem resyncRp_lt (h : s.Inv) (u : Fpu) : (resyncRp u s).toNat < s.build.recCap * 2 ^ 32 := by
  unfold resyncRp
  split
  · rw [toNat_shiftLeft_wp]
    exact Nat.mul_lt_mul_of_pos_right h.wp (Nat.two_pow_pos 32)
  · exact h.rp

theorem inv_resyncEval (h : s.Inv) (u : Fpu) : (resyncEval u s).Inv := { h with rp := resyncRp_lt h u }

theorem inv_moveDsTarget (h : s.Inv) {u : Fpu} (hu : u = s.fpu) (newT : F) : (moveDsTarget u newT s).Inv := by
  have hbounds : (boundsDs u { s with ds := { s.ds with target := newT } }).Inv := inv_of_kept h rfl
  exact inv_lpfCoeffs (inv_putDsActual hbounds u _) hu

theorem inv_movePbTarget (h : s.Inv) (u : Fpu) (newT : F) : (movePbTarget u newT s).Inv := by
  have hbounds : (boundsPb u { s with pb := { s.pb with target := newT } }).Inv := inv_of_kept h rfl
  exact inv_putPbActual hbounds u _

/-! ## The setters with more than one store -/

theorem inv_setResampleRate (h : s.Inv) {u : Fpu} (hu : u = s.fpu) (a : F) : (setResampleRate u a s).Inv := by
  have hctrl : State.Inv { s with ds := { s.ds with ctrl := a } } := inv_of_kept h rfl
  unfold setResampleRate
  simp only
  split
  · exact hctrl
  · exact inv_resyncEval (inv_moveDsTarget hctrl hu _) u

theorem inv_setResampleLfo (h : s.Inv) {u : Fpu} (hu : u = s.fpu) (a b : F) : (setResampleLfo u a b s).Inv := by
  have hset := inv_lfoSet h u .ds a b
  unfold setResampleLfo
  simp only
  split
  · exact inv_resyncEval (inv_lpfCoeffs (inv_putDsActual hset u _) (hu.trans (lfoSet_fpu u .ds a b s).symm)) u
  · exact inv_resyncEval hset u

theorem inv_setPlaybackRate (h : s.Inv) (u : Fpu) (a : F) : (setPlaybackRate u a s).Inv := by
  have hctrl : State.Inv { s with pb := { s.pb with ctrl := a } } := inv_of_kept h rfl
  unfold setPlaybackRate
  simp only
  split
  · exact hctrl
  · exact inv_resyncEval (inv_movePbTarget hctrl u _) u

theorem inv_setPlaybackLfo (h : s.Inv) (u : Fpu) (a b : F) : (setPlaybackLfo u a b s).Inv := by
  have hset := inv_lfoSet h u .pb a b
  unfold setPlaybackLfo
  simp only
  split
  · exact inv_resyncEval (inv_putPbActual hset u _) u
  · exact inv_resyncEval hset u

theorem inv_setBitcrushAmount (h : s.Inv) (u : Fpu) (a : F) : (setBitcrushAmount u a s).Inv := by
  have hbounds : (boundsBc u { s with bc := { s.bc with amount := a } }).Inv := inv_of_kept h rfl
  unfold setBitcrushAmount
  simp only
  split
  · exact hbounds
  · exact inv_putBcActual hbounds u a

theorem inv_setBitcrushLfo (h : s.Inv) (u : Fpu) (a b : F) : (setBitcrushLfo u a b s).Inv := by
  have hset := inv_lfoSet h u .bc a b
  unfold setBitcrushLfo
  simp only
  split
  · exact inv_putBcActual hset u _
  · exact hset

theorem inv_setSampleRate (h : s.Inv) {u : Fpu} (hu : u = s.fpu) (a : F) : (setSampleRate u a s).Inv := by
  unfold setSampleRate
  simp only
  split
  · have hrate : State.Inv { s with fs := a, dsmax := u.div a (u.ofNat Config.floorHz) } := inv_of_kept h rfl
    have hmoved := inv_moveDsTarget hrate hu (dsTarget u (u.div a (u.ofNat Config.floorHz)) s.ds.ctrl)
    have hclocked := inv_of_kept (t := reclockAll u a _) hmoved rfl
    exact inv_resyncEval hclocked u
  · exact inv_raiseError h _ (by decide)

/-! ## PROCESS: the first step -/

theorem inv_putOutMem (h : s.Inv) {m : Memory (Option IoWord)} (hwf : Memory.wf none m = true)
    (hwithin : Memory.within (ioSize s) m = true) : State.Inv { s with outMem := m } :=
  { h with
    outWf := hwf
    outWithin := hwithin }

theorem within_copyBlock (sw : Bool) (nin nout n : Nat) (h : Memory.within (ioSize s) s.outMem = true)
    (hnout : nout ≤ s.build.nMax) (hn : n ≤ s.build.maxBlock) :
    Memory.within (ioSize s) (copyBlock sw nin nout n s).outMem = true := by
  have inside : ∀ c ∈ List.range nout, ∀ i ∈ List.range n, ioIndex s c i < ioSize s := fun c hc i hi =>
    ioIndex_lt s c i (Nat.lt_of_lt_of_le (List.mem_range.mp hc) hnout) (Nat.lt_of_lt_of_le (List.mem_range.mp hi) hn)
  unfold copyBlock
  refine foldl_keeps (fun m => Memory.within (ioSize s) m = true) _ _ (fun m c hc hm => ?_) _ h
  refine foldl_keeps (fun m => Memory.within (ioSize s) m = true) _ _ (fun m i hi hm => ?_) _ hm
  exact within_write none m _ _ _ hm (inside c hc i hi)

theorem inv_copyBlock (h : s.Inv) (sw : Bool) (nin nout n : Nat) (hnout : nout ≤ s.build.nMax)
    (hn : n ≤ s.build.maxBlock) : (copyBlock sw nin nout n s).Inv :=
  inv_putOutMem h (copyBlock_wf sw nin nout n s h.outWf) (within_copyBlock sw nin nout n h.outWithin hnout hn)

/-- A channel count of the build fits its register. -/
theorem toNat_channels (h : s.Inv) {nout : Nat} (hle : nout ≤ s.build.nMax) : (BitVec.ofNat 8 nout).toNat = nout := by
  have := h.build.nMaxLe
  rw [BitVec.toNat_ofNat, Nat.mod_eq_of_lt (by omega)]

theorem changeGeometry_chCount (h : s.Inv) {nout : Nat} (hle : nout ≤ s.build.nMax) :
    (changeGeometry nout s).chCount.toNat = nout := by
  rcases changeGeometry_cases nout s with ⟨hsame, heq⟩ | ⟨-, heq⟩
  · rw [heq, ← hsame]
  · rw [heq]; exact toNat_channels h hle

theorem changeGeometry_build (nout : Nat) (s : State) : (changeGeometry nout s).build = s.build := by
  unfold changeGeometry
  split <;> rfl

theorem changeGeometry_status (nout : Nat) (s : State) : (changeGeometry nout s).status = s.status := by
  unfold changeGeometry
  split <;> rfl

theorem changeGeometry_fpu (nout : Nat) (s : State) : (changeGeometry nout s).fpu = s.fpu := by
  unfold changeGeometry
  split <;> rfl

/-- The channel count may change while no PROCESS is in progress. -/
theorem inv_changeGeometry (h : s.Inv) {nout : Nat} (hpos : nout ≠ 0) (hle : nout ≤ s.build.nMax) (hproc : s.proc = none) :
    (changeGeometry nout s).Inv := by
  rcases changeGeometry_cases nout s with ⟨-, heq⟩ | ⟨-, heq⟩
  · rwa [heq]
  · rw [heq]
    have hcount := toNat_channels h hle
    have hchans : State.Inv { s with chans := s.chans.map clearChan } := inv_mapChans h clearChan h.coeffA0
    refine inv_zeroPointers (inv_clearRec { hchans with
      chCountPos := ?_
      chCountLe := ?_
      proc := ?_ })
    · show 1 ≤ (BitVec.ofNat 8 nout).toNat
      omega
    · show (BitVec.ofNat 8 nout).toNat ≤ s.build.nMax
      omega
    · intro p hp
      rw [show s.proc = some p from hp] at hproc
      cases hproc

theorem inv_prologue (h : s.Inv) {u : Fpu} (hu : u = s.fpu) (p : Proc) (hfatal : s.status.fatal = false)
    (hfits : ProcFits p s.build s.chCount) (hfresh : p.outOld = []) : (prologue u p s).Inv := by
  have hcoeffs : State.Inv (if s.dsLfo.en then lpfCoeffs u s else s) := by
    split
    · exact inv_lpfCoeffs h hu
    · exact h
  have hbuild : (if s.dsLfo.en then lpfCoeffs u s else s).build = s.build := by split <;> rfl
  have hcount : (if s.dsLfo.en then lpfCoeffs u s else s).chCount = s.chCount := by split <;> rfl
  rw [prologue_eq]
  generalize (if s.dsLfo.en then lpfCoeffs u s else s) = r at hcoeffs hbuild hcount
  exact { hcoeffs with
    outOldWithin := by
      intro q hq e he
      cases hq
      rw [hfresh] at he
      cases he
    proc := by
      intro q hq
      cases hq
      show ProcFits p r.build r.chCount
      rwa [hbuild, hcount]
    busy := rfl
    fatal := fun hhalted => by
      rw [show s.status.fatal = true from hhalted] at hfatal
      cases hfatal
    noError := h.noError
    errCode := h.errCode }

theorem inv_processStartsTo (h : s.Inv) {u : Fpu} (hu : u = s.fpu) (hproc : s.proc = none)
    (hfatal : s.status.fatal = false) {sw : Bool} {nin nout n : Nat} (ht : ProcessStartsTo u sw nin nout n s t) :
    t.Inv := by
  cases ht with
  | exceeds => exact inv_raiseFatal h _ (by decide) hproc
  | empty => exact h
  | bypass hfits =>
    obtain ⟨-, hout, hlen⟩ := (geometryExceeds_eq_false_iff s nin nout n).mp hfits
    exact inv_copyBlock h sw nin nout n hout hlen
  | silence hfits hnout =>
    obtain ⟨-, hout, hlen⟩ := (geometryExceeds_eq_false_iff s nin nout n).mp hfits
    have hgeometry := inv_changeGeometry h hnout hout hproc
    rw [← changeGeometry_build nout s] at hout hlen
    exact inv_copyBlock hgeometry sw nin nout n hout hlen
  | runs hfits hn hnout =>
    obtain ⟨hin, hout, hlen⟩ := (geometryExceeds_eq_false_iff s nin nout n).mp hfits
    have hgeometry := inv_changeGeometry h hnout hout hproc
    refine inv_prologue hgeometry (hu.trans (changeGeometry_fpu nout s).symm) _ (by rwa [changeGeometry_status]) ?_ rfl
    exact {
      nin := by rwa [changeGeometry_build]
      nout := (changeGeometry_chCount h hout).symm
      length := by rwa [changeGeometry_build]
      started := Nat.pos_of_ne_zero hn
      index := Nat.zero_le n }

/-! ## PROCESS: a frame and the epilogue -/

theorem inv_modulateDs (h : s.Inv) (u : Fpu) : (modulateDs u s).Inv := by
  have hphase : State.Inv { s with dsLfo := lfoAdvance u s.dsLfo } := inv_of_kept h rfl
  unfold modulateDs
  split
  · exact inv_putDsActual hphase u _
  · exact h

theorem inv_modulatePb (h : s.Inv) (u : Fpu) : (modulatePb u s).Inv := by
  have hphase : State.Inv { s with pbLfo := lfoAdvance u s.pbLfo } := inv_of_kept h rfl
  unfold modulatePb
  split
  · exact inv_putPbActual hphase u _
  · exact h

theorem inv_modulateBc (h : s.Inv) (u : Fpu) : (modulateBc u s).Inv := by
  have hphase : State.Inv { s with bcLfo := lfoAdvance u s.bcLfo } := inv_of_kept h rfl
  unfold modulateBc
  split
  · exact inv_putBcActual hphase u _
  · exact h

theorem inv_clampHold (h : s.Inv) : (clampHold s).Inv := by
  unfold clampHold
  split
  · exact inv_of_kept h rfl
  · exact h

theorem inv_modulate (h : s.Inv) (u : Fpu) : (modulate u s).Inv :=
  inv_clampHold (inv_modulateBc (inv_modulatePb (inv_modulateDs h u) u) u)

/-- A channel of the block exists in the build. -/
theorem channel_lt (h : s.Inv) {c : Nat} (hc : c ∈ List.range s.chCount.toNat) : c < s.build.nMax :=
  Nat.lt_of_lt_of_le (List.mem_range.mp hc) h.chCountLe

theorem inv_recordFrame (h : s.Inv) (u : Fpu) (p : Proc) : (recordFrame u p s).Inv :=
  { h with
    recWf := recordFrame_wf u p s h.recWf
    recWithin := foldl_keeps (fun m => Memory.within (s.build.nMax * s.build.recCap) m = true) _ _
      (fun _ c hc hm => within_write _ _ _ _ _ hm (recIndex_lt s c _ (channel_lt h hc) h.wp)) _ h.recWithin }

theorem holdChan_a0 (u : Fpu) (s : State) (c : Nat) (ch : Chan) : (holdChan u s c ch).a0 = ch.a0 := by
  unfold holdChan
  simp only
  split <;> rfl

theorem inv_holdFrame (h : s.Inv) (u : Fpu) : (holdFrame u s).Inv := by
  refine inv_mapIdxChans h _ fun c ch => ?_
  split
  · exact holdChan_a0 u s c ch
  · rfl

theorem inv_wetFrame (h : s.Inv) (u : Fpu) (p : Proc) : (wetFrame u p s).Inv :=
  inv_of_kept (inv_holdFrame (inv_recordFrame h u p) u) rfl

theorem inv_emitFrame (h : s.Inv) (u : Fpu) (p : Proc) (out : Nat → F) (hi : p.i < s.build.maxBlock) :
    (emitFrame u p out s).Inv := by
  have hchans : State.Inv { s with
      chans := s.chans.mapIdx (fun c ch => if c < s.chCount.toNat then { ch with lastOut := out c } else ch) } := by
    refine inv_mapIdxChans h _ fun c ch => ?_
    split <;> rfl
  exact inv_putOutMem hchans (emitFrame_wf u p out s h.outWf)
    (foldl_keeps (fun m => Memory.within (ioSize s) m = true) _ _
      (fun _ c hc hm => within_write _ _ _ _ _ hm (ioIndex_lt s c _ (channel_lt h hc) hi)) _ h.outWithin)

/-- The pointers after a frame are inside the recording buffer: they wrap around (46_engine_process.md R396, R397). -/
theorem advancePtr_lt (h : s.Inv) : (advancePtr s).wp.toNat < s.build.recCap ∧
    (advancePtr s).rp.toNat < s.build.recCap * 2 ^ 32 := by
  unfold advancePtr
  simp only [BitVec.toNat_ofNat]
  exact ⟨Nat.lt_of_le_of_lt (Nat.mod_le _ _) (Nat.mod_lt _ h.build.recCapPos),
    Nat.lt_of_le_of_lt (Nat.mod_le _ _) (Nat.mod_lt _ (rpBound_pos h.build))⟩

theorem advanceProc_outOld_within (h : s.Inv) {p : Proc} (hp : s.proc = some p) (hi : p.i < s.build.maxBlock) :
    ∀ e ∈ (advanceProc p s).outOld, e.1 < ioSize s := by
  intro e he
  rcases List.mem_append.mp he with hnew | hold
  · obtain ⟨c, hc, rfl⟩ := List.mem_map.mp hnew
    exact ioIndex_lt s c p.i (channel_lt h hc) hi
  · exact h.outOldWithin p hp e hold

/-- The end of a frame of a PROCESS in progress; `t` is the state after the frame's outputs. -/
theorem inv_closeFrame (hs : s.Inv) (ht : t.Inv) (hbuild : t.build = s.build) (hcount : t.chCount = s.chCount)
    (hstatus : t.status = s.status) {p : Proc} (hp : s.proc = some p) (hi : p.i < p.n) : (closeFrame p s t).Inv := by
  have hfits := hs.proc p hp
  obtain ⟨hwp, hrp⟩ := advancePtr_lt ht
  exact { ht with
    wp := hwp
    rp := hrp
    outOldWithin := by
      intro q hq e he
      cases hq
      have := advanceProc_outOld_within hs hp (Nat.lt_of_lt_of_le hi hfits.length) e he
      show e.1 < t.build.nMax * t.build.maxBlock
      rwa [hbuild]
    proc := by
      intro q hq
      cases hq
      show ProcFits (advanceProc p s) t.build t.chCount
      rw [hbuild, hcount]
      exact { hfits with index := hi }
    busy := by
      show t.status.busy = true
      rw [hstatus, hs.busy, hp]
      rfl
    fatal := fun hfatal => by
      have hnone := hs.fatal (hstatus ▸ hfatal)
      rw [hp] at hnone
      cases hnone }

theorem inv_frame (h : s.Inv) (u : Fpu) {p : Proc} (hp : s.proc = some p) (hi : p.i < p.n) : (frame u p s).Inv := by
  have hblock : p.i < (wetFrame u p (modulate u s)).build.maxBlock := by
    rw [wetFrame_build, modulate_build]
    exact Nat.lt_of_lt_of_le hi (h.proc p hp).length
  unfold frame playFrame
  exact inv_closeFrame h (inv_emitFrame (inv_wetFrame (inv_modulate h u) u p) u p _ hblock)
    (by simp) (by simp) (by simp) hp hi

theorem inv_epilogue (h : s.Inv) (u : Fpu) : (epilogue u s).Inv :=
  { h with
    outOldWithin := nofun
    proc := nofun
    busy := rfl
    fatal := fun _ => rfl }

/-! ## The host's inputs -/

theorem inv_putIn (h : s.Inv) (idx : Nat) (w : InWord) (hidx : idx < ioSize s) : (putIn idx w s).Inv :=
  { h with
    inWf := putIn_wf idx w s h.inWf
    inWithin := within_write _ _ _ _ _ h.inWithin hidx }

theorem inv_deliver (h : s.Inv) (e : HostEvent) : (deliver e s).Inv := by
  cases e with
  | push p w => cases p <;> exact inv_of_kept h rfl
  | writeIn idx w =>
    simp only [deliver, hostWriteIn]
    split
    · exact inv_putIn h idx _ ‹_›
    · exact h
  | writeInHalf idx high w =>
    simp only [deliver, hostWriteInHalf]
    split
    · exact inv_putIn h idx _ ‹_›
    · exact h
  | reset => exact h

/-- The reset state of a valid build meets the machine invariant. -/
theorem inv_resetWith {b : Build} (hb : Build.Valid b) (k : Nat) : (State.resetWith (configFpu b.fmt k) b).Inv := by
  have hcount : (BitVec.ofNat 8 b.chInit).toNat = b.chInit := by
    have := hb.nMaxLe
    have := hb.chInitLe
    rw [BitVec.toNat_ofNat, Nat.mod_eq_of_lt (by omega)]
  exact {
    build := hb
    chCountPos := hcount.symm ▸ hb.chInitPos
    chCountLe := hcount.symm ▸ hb.chInitLe
    chans := List.length_replicate
    wp := hb.recCapPos
    rp := rpBound_pos hb
    incrPos := Nat.le_refl 1
    stepLe := show (BitVec.ofNat 64 (2 ^ 32)).toNat ≤ 2 ^ 33 by decide
    bitsPos := show 1 ≤ (16#8).toNat by decide
    bitsLe := show (16#8).toNat ≤ 16 by decide
    coeffA0 := fun ch hch => by
      rw [List.eq_of_mem_replicate hch]
      rfl
    recWf := rfl
    recWithin := rfl
    inWf := rfl
    inWithin := rfl
    outWf := rfl
    outWithin := rfl
    outOldWithin := nofun
    proc := nofun
    busy := rfl
    fatal := fun _ => rfl
    noError := fun _ => rfl
    errCode := Nat.zero_le 5 }

theorem within_outAfterReset (h : s.Inv) : Memory.within (ioSize s) (outAfterReset s) = true := by
  unfold outAfterReset
  split
  · rfl
  · rename_i p hp
    have inside := h.outOldWithin p hp
    generalize p.outOld = l at inside
    refine List.foldlRecOn l _ (motive := fun m => Memory.within (ioSize s) m = true) rfl fun m hm e he => ?_
    exact within_write _ _ _ _ _ hm (inside e he)

theorem inv_assertReset (h : s.Inv) : (assertReset s).Inv :=
  { inv_resetWith h.build s.free with
    outWf := outAfterReset_wf s
    outWithin := within_outAfterReset h }

theorem inv_hostEvent (h : s.Inv) (e : HostEvent) : (hostEvent e s).Inv := by
  cases e with
  | reset => exact inv_assertReset h
  | push p w => exact inv_deliver h (.push p w)
  | writeIn idx w => exact inv_deliver h (.writeIn idx w)
  | writeInHalf idx high w => exact inv_deliver h (.writeInHalf idx high w)

/-! ## Every command, every step -/

theorem inv_exec (h : s.Inv) (i : Instr)
    (hprocess : i.opcode = .process → s.proc = none ∧ s.status.fatal = false) : ∃ t, exec i s = .next t ∧ t.Inv := by
  cases i with
  | nop => exact ⟨_, rfl, h⟩
  | process sw nin nout n =>
    obtain ⟨hproc, hfatal⟩ := hprocess rfl
    exact ⟨_, rfl, inv_processStartsTo h rfl hproc hfatal (startProcess_cases s.fpu sw nin nout n s)⟩
  | resetPointers => exact ⟨_, rfl, inv_zeroPointers h⟩
  | clearBuffer => exact ⟨_, rfl, inv_clearRec h⟩
  | filterReset => exact ⟨_, rfl, inv_clearFilters h⟩
  | setSampleRate a => exact ⟨_, rfl, inv_setSampleRate h rfl _⟩
  | clearErr => exact ⟨_, rfl, inv_acknowledgeError h⟩
  | setResampleRate a => exact ⟨_, rfl, inv_setResampleRate h rfl _⟩
  | setResampleLfo a b => exact ⟨_, rfl, inv_setResampleLfo h rfl _ _⟩
  | setPlaybackRate a => exact ⟨_, rfl, inv_setPlaybackRate h _ _⟩
  | setPlaybackLfo a b => exact ⟨_, rfl, inv_setPlaybackLfo h _ _ _⟩
  | setBitcrushAmount a => exact ⟨_, rfl, inv_setBitcrushAmount h _ _⟩
  | setBitcrushLfo a b => exact ⟨_, rfl, inv_setBitcrushLfo h _ _ _⟩
  | setBitcrushOutputMix a => exact ⟨_, rfl, inv_of_kept h rfl⟩
  | setDryMix a => exact ⟨_, rfl, inv_of_kept h rfl⟩
  | setWetMix a => exact ⟨_, rfl, inv_of_kept h rfl⟩
  | setBypass on => exact ⟨_, rfl, inv_of_kept h rfl⟩
  | limSetAttackUs a => exact ⟨_, rfl, inv_of_kept h rfl⟩
  | limSetReleaseMs a => exact ⟨_, rfl, inv_of_kept h rfl⟩
  | limSetAttackNorm a => exact ⟨_, rfl, inv_of_kept h rfl⟩
  | limSetReleaseNorm a => exact ⟨_, rfl, inv_of_kept h rfl⟩
  | limSetThreshold soft a => exact ⟨_, rfl, inv_of_kept h rfl⟩
  | limSetTrim a => exact ⟨_, rfl, inv_of_kept h rfl⟩

theorem takeCommand_proc (port : Port) (s : State) : (takeCommand port s).proc = s.proc := by cases port <;> rfl

theorem takeCommand_status (port : Port) (s : State) : (takeCommand port s).status = s.status := by cases port <;> rfl

theorem inv_stepsTo (h : s.Inv) (ht : StepsTo s t) : t.Inv := by
  have htick : (tick s).Inv := inv_of_kept h rfl
  cases ht with
  | idle => exact h
  | frame p hp hi => exact inv_frame htick _ hp hi
  | epilogue p hp => exact inv_epilogue htick _
  | discard port => exact inv_takeCommand h port
  | decodeError port e => exact inv_raiseError (inv_takeCommand h port) _ (decodeErrorCode_le e)
  | command port i t hproc hfatal haccepted hexec =>
    obtain ⟨t', hnext, hinv⟩ := inv_exec (inv_takeCommand h port) i fun hi =>
      ⟨(takeCommand_proc port s).trans (proc_none_of_accepted hproc haccepted hi),
        (congrArg Status.fatal (takeCommand_status port s)).trans hfatal⟩
    rw [hexec] at hnext
    cases hnext
    exact hinv
  | host e es _ =>
    have hinput : (tick { s with hostIn := es }).Inv := inv_of_kept h rfl
    exact inv_hostEvent hinput e

/-- Settles O13: by the kind of step, each operation of which keeps the ranges. -/
theorem stepKeepsInv : Obligations.StepKeepsInv := by
  intro s t h hstep
  exact inv_stepsTo h (stepsTo_of_step hstep)

end Sys2Proof.Proofs
end

section
/-!
PROOFS. The flags and the derived registers (`State.Derived`): each operation keeps them what their rules compute, then each
command, then each step.

The one idea: the invariant falls into four parts, the flags and one part for each oscillator's parameter. A setter breaks
the flags until its `resyncEval`, and the part of the parameter it moves until it writes the actual value; the other parts
stand throughout.
-/

namespace Sys2Proof.Proofs

open Sys2Proof Sys2Proof.Machine Sys2Proof.Laws

/-! ## The four parts -/

/-- DS_ACTIVE and RATE_ACTIVE are what they are recomputed as (10_state.md R50, R51). -/
def FlagsSettled (u : Fpu) (s : State) : Prop :=
  s.status.dsActive = dsActiveNow u s ∧ s.status.rateActive = rateActiveNow u s

/-- SAMPLE_INCR is the hold length of DS_ACTUAL, which a disabled oscillator leaves at the target. -/
structure DsSettled (u : Fpu) (r : DsRegs) (en : Bool) : Prop where
  incr : r.incr = incr u r.actual
  off : en = false → r.actual = r.target

/-- PB_STEP is the step of PB_ACTUAL, which a disabled oscillator leaves at the target. -/
structure PbSettled (u : Fpu) (r : PbRegs) (en : Bool) : Prop where
  step : r.step = fx u r.actual
  off : en = false → r.actual = r.target

/-- BC_BITS is the bit depth of BC_ACTUAL, which a disabled oscillator leaves at the amount. -/
structure BcSettled (u : Fpu) (r : BcRegs) (en : Bool) : Prop where
  bits : r.bits = bitDepth u r.actual
  off : en = false → r.actual = r.amount

variable {s t : State}

theorem derived_iff : s.Derived ↔ FlagsSettled s.fpu s ∧ DsSettled s.fpu s.ds s.dsLfo.en ∧
    PbSettled s.fpu s.pb s.pbLfo.en ∧ BcSettled s.fpu s.bc s.bcLfo.en := by
  constructor
  · intro h
    exact ⟨⟨h.dsActive, h.rateActive⟩, ⟨h.incr, h.dsOff⟩, ⟨h.step, h.pbOff⟩, ⟨h.bits, h.bcOff⟩⟩
  · rintro ⟨⟨hds, hrate⟩, ⟨hincr, hdsOff⟩, ⟨hstep, hpbOff⟩, ⟨hbits, hbcOff⟩⟩
    exact ⟨hds, hrate, hincr, hstep, hbits, hdsOff, hpbOff, hbcOff⟩

/-! ## Registers outside the four parts -/

/-- `t` holds in every field that `State.Derived` reads what `s` holds there. -/
def DerivedFieldsKept (s t : State) : Prop :=
  t = { t with
    build := s.build
    status := { t.status with dsActive := s.status.dsActive, rateActive := s.status.rateActive }
    ds := { t.ds with target := s.ds.target, actual := s.ds.actual, incr := s.ds.incr }
    pb := { t.pb with target := s.pb.target, actual := s.pb.actual, step := s.pb.step }
    bc := { t.bc with amount := s.bc.amount, actual := s.bc.actual, bits := s.bc.bits }
    dsLfo := { t.dsLfo with en := s.dsLfo.en }
    pbLfo := { t.pbLfo with en := s.pbLfo.en }
    bcLfo := { t.bcLfo with en := s.bcLfo.en } }

/-- Another atomic step changes only the free values, on which no derived register depends. -/
theorem derived_of_kept (h : s.Derived) (ht : DerivedFieldsKept s t) : t.Derived := by
  rw [ht]
  exact {
    dsActive := h.dsActive
    rateActive := h.rateActive
    incr := h.incr
    step := h.step
    bits := h.bits.trans (bitDepth_config _ _ _ _)
    dsOff := h.dsOff
    pbOff := h.pbOff
    bcOff := h.bcOff }

theorem derived_takeCommand (h : s.Derived) (port : Port) : (takeCommand port s).Derived := by
  cases port
  · exact derived_of_kept h rfl
  · exact derived_of_kept h rfl

/-! ## The setters of the three parameters -/

section
variable {u : Fpu}

/-- The resynchronisation settles the flags. -/
theorem derived_resyncEval (hu : u = s.fpu) (hds : DsSettled u s.ds s.dsLfo.en) (hpb : PbSettled u s.pb s.pbLfo.en)
    (hbc : BcSettled u s.bc s.bcLfo.en) : (resyncEval u s).Derived := by
  subst hu
  exact derived_iff.mpr ⟨⟨rfl, rfl⟩, hds, hpb, hbc⟩

/-- A new downsample target takes the actual value with it. -/
theorem dsSettled_moveDsTarget (u : Fpu) (newT : F) (s : State) :
    DsSettled u (moveDsTarget u newT s).ds (moveDsTarget u newT s).dsLfo.en where
  incr := rfl
  off hoff := by
    show retarget u s.dsLfo.en s.ds.actual s.ds.target newT = newT
    rw [show s.dsLfo.en = false from hoff]
    rfl

/-- A new playback target takes the actual value with it. -/
theorem pbSettled_movePbTarget (u : Fpu) (newT : F) (s : State) :
    PbSettled u (movePbTarget u newT s).pb (movePbTarget u newT s).pbLfo.en where
  step := rfl
  off hoff := by
    show retarget u s.pbLfo.en s.pb.actual s.pb.target newT = newT
    rw [show s.pbLfo.en = false from hoff]
    rfl

theorem lfoSet_en (u : Fpu) (p : LfoId) (a b : F) (s : State) : (lfoOf p (lfoSet u p a b s)).en = u.gt a u.zero := by
  unfold lfoSet
  simp only
  cases p <;> split <;> rfl

/-- An oscillator that is off and that `lfoSet` has not turned off was off before. -/
theorem off_of_not_turnedOff {p : LfoId} {a : F} (hturned : ¬ turnedOff u p a s = true) (hoff : u.gt a u.zero = false) :
    (lfoOf p s).en = false := by
  simpa [turnedOff, hoff] using hturned

theorem derived_setResampleRate (h : s.Derived) (hu : u = s.fpu) (a : F) : (setResampleRate u a s).Derived := by
  unfold setResampleRate
  simp only
  split
  · exact derived_of_kept h rfl
  · subst hu
    obtain ⟨-, -, hpb, hbc⟩ := derived_iff.mp h
    exact derived_resyncEval rfl (dsSettled_moveDsTarget _ _ _) hpb hbc

theorem derived_setResampleLfo (h : s.Derived) (hu : u = s.fpu) (a b : F) : (setResampleLfo u a b s).Derived := by
  obtain ⟨-, hds, hpb, hbc⟩ := derived_iff.mp h
  have hen := lfoSet_en u .ds a b s
  unfold setResampleLfo
  rw [lfoSet_ds] at hen ⊢
  generalize (lfoSet u .ds a b s).dsLfo = l at hen
  subst hu
  simp only
  split
  · exact derived_resyncEval rfl ⟨rfl, fun _ => rfl⟩ hpb hbc
  · rename_i hturned
    have hsettled : DsSettled s.fpu s.ds l.en :=
      ⟨hds.incr, fun hoff => hds.off (off_of_not_turnedOff hturned (hen.symm.trans hoff))⟩
    exact derived_resyncEval rfl hsettled hpb hbc

theorem derived_setPlaybackRate (h : s.Derived) (hu : u = s.fpu) (a : F) : (setPlaybackRate u a s).Derived := by
  unfold setPlaybackRate
  simp only
  split
  · exact derived_of_kept h rfl
  · subst hu
    obtain ⟨-, hds, -, hbc⟩ := derived_iff.mp h
    exact derived_resyncEval rfl hds (pbSettled_movePbTarget _ _ _) hbc

theorem derived_setPlaybackLfo (h : s.Derived) (hu : u = s.fpu) (a b : F) : (setPlaybackLfo u a b s).Derived := by
  obtain ⟨-, hds, hpb, hbc⟩ := derived_iff.mp h
  have hen := lfoSet_en u .pb a b s
  unfold setPlaybackLfo
  rw [lfoSet_pb] at hen ⊢
  generalize (lfoSet u .pb a b s).pbLfo = l at hen
  subst hu
  simp only
  split
  · exact derived_resyncEval rfl hds ⟨rfl, fun _ => rfl⟩ hbc
  · rename_i hturned
    have hsettled : PbSettled s.fpu s.pb l.en :=
      ⟨hpb.step, fun hoff => hpb.off (off_of_not_turnedOff hturned (hen.symm.trans hoff))⟩
    exact derived_resyncEval rfl hds hsettled hbc

theorem derived_setBitcrushAmount (h : s.Derived) (hu : u = s.fpu) (a : F) : (setBitcrushAmount u a s).Derived := by
  subst hu
  obtain ⟨hflags, hds, hpb, hbc⟩ := derived_iff.mp h
  unfold setBitcrushAmount
  simp only
  split
  · rename_i hen
    exact derived_iff.mpr ⟨hflags, hds, hpb, hbc.bits, fun hoff => absurd hen (Bool.eq_false_iff.mp hoff)⟩
  · exact derived_iff.mpr ⟨hflags, hds, hpb, rfl, fun _ => rfl⟩

theorem derived_setBitcrushLfo (h : s.Derived) (hu : u = s.fpu) (a b : F) : (setBitcrushLfo u a b s).Derived := by
  obtain ⟨hflags, hds, hpb, hbc⟩ := derived_iff.mp h
  have hen := lfoSet_en u .bc a b s
  unfold setBitcrushLfo
  rw [lfoSet_bc] at hen ⊢
  generalize (lfoSet u .bc a b s).bcLfo = l at hen
  subst hu
  simp only
  split
  · exact derived_iff.mpr ⟨hflags, hds, hpb, rfl, fun _ => rfl⟩
  · rename_i hturned
    exact derived_iff.mpr ⟨hflags, hds, hpb, hbc.bits,
      fun hoff => hbc.off (off_of_not_turnedOff hturned (hen.symm.trans hoff))⟩

theorem derived_setSampleRate (h : s.Derived) (hu : u = s.fpu) (a : F) : (setSampleRate u a s).Derived := by
  unfold setSampleRate
  simp only
  split
  · subst hu
    obtain ⟨-, -, hpb, hbc⟩ := derived_iff.mp h
    exact derived_resyncEval rfl (dsSettled_moveDsTarget s.fpu _ _) hpb hbc
  · exact derived_of_kept h rfl

/-! ## PROCESS -/

theorem derived_changeGeometry (h : s.Derived) (nout : Nat) : (changeGeometry nout s).Derived := by
  unfold changeGeometry
  split
  · exact h
  · exact derived_of_kept h rfl

theorem derived_prologue (h : s.Derived) (u : Fpu) (p : Proc) : (prologue u p s).Derived := by
  unfold prologue
  simp only
  split
  · exact derived_of_kept h rfl
  · exact derived_of_kept h rfl

theorem derived_processStartsTo (h : s.Derived) {sw : Bool} {nin nout n : Nat}
    (ht : ProcessStartsTo u sw nin nout n s t) : t.Derived := by
  cases ht with
  | exceeds => exact derived_of_kept h rfl
  | empty => exact h
  | bypass => exact derived_of_kept h rfl
  | silence => exact derived_of_kept (derived_changeGeometry h nout) rfl
  | runs => exact derived_prologue (derived_changeGeometry h nout) u _

/-- The new actual value of a running oscillator settles its part; the off rule does not speak of it. -/
theorem derived_modulateDs (h : s.Derived) (hu : u = s.fpu) : (modulateDs u s).Derived := by
  subst hu
  obtain ⟨hflags, -, hpb, hbc⟩ := derived_iff.mp h
  unfold modulateDs
  split
  · rename_i hen
    exact derived_iff.mpr ⟨hflags, ⟨rfl, fun hoff => absurd hen (Bool.eq_false_iff.mp hoff)⟩, hpb, hbc⟩
  · exact h

theorem derived_modulatePb (h : s.Derived) (hu : u = s.fpu) : (modulatePb u s).Derived := by
  subst hu
  obtain ⟨hflags, hds, -, hbc⟩ := derived_iff.mp h
  unfold modulatePb
  split
  · rename_i hen
    exact derived_iff.mpr ⟨hflags, hds, ⟨rfl, fun hoff => absurd hen (Bool.eq_false_iff.mp hoff)⟩, hbc⟩
  · exact h

theorem derived_modulateBc (h : s.Derived) (hu : u = s.fpu) : (modulateBc u s).Derived := by
  subst hu
  obtain ⟨hflags, hds, hpb, -⟩ := derived_iff.mp h
  unfold modulateBc
  split
  · rename_i hen
    exact derived_iff.mpr ⟨hflags, hds, hpb, rfl, fun hoff => absurd hen (Bool.eq_false_iff.mp hoff)⟩
  · exact h

theorem derived_clampHold (h : s.Derived) : (clampHold s).Derived := by
  unfold clampHold
  split
  · exact derived_of_kept h rfl
  · exact h

theorem modulateDs_fpu (u : Fpu) (s : State) : (modulateDs u s).fpu = s.fpu := by
  unfold modulateDs
  split <;> rfl

theorem modulatePb_fpu (u : Fpu) (s : State) : (modulatePb u s).fpu = s.fpu := by
  unfold modulatePb
  split <;> rfl

theorem derived_modulate (h : s.Derived) (hu : u = s.fpu) : (modulate u s).Derived := by
  have huPb : u = (modulateDs u s).fpu := hu.trans (modulateDs_fpu u s).symm
  have huBc : u = (modulatePb u (modulateDs u s)).fpu := huPb.trans (modulatePb_fpu u _).symm
  exact derived_clampHold (derived_modulateBc (derived_modulatePb (derived_modulateDs h hu) huPb) huBc)

/-- After the modulation a frame writes no register of the four parts. -/
theorem derivedFieldsKept_playFrame (u : Fpu) (p : Proc) (s m : State) : DerivedFieldsKept m (playFrame u p s m) := rfl

theorem derived_frame (h : s.Derived) (hu : u = s.fpu) (p : Proc) : (frame u p s).Derived := by
  unfold frame
  exact derived_of_kept (derived_modulate h hu) (derivedFieldsKept_playFrame u p s _)

end

/-! ## Reset and the host's inputs -/

theorem incr_one (u : Fpu) : incr u u.one = 1#32 := by
  have hpos : 0 < 2 ^ unitExp u.fmt := Nat.two_pow_pos _
  unfold incr
  rw [numOf_one]
  simp only [Nat.div_self hpos]
  rfl

theorem fx_one (u : Fpu) : fx u u.one = BitVec.ofNat 64 (2 ^ 32) := by
  unfold fx
  rw [numOf_one]
  simp only
  rw [Nat.mul_comm, roundHalfEven_exact _ _ (Nat.two_pow_pos _)]
  rfl

theorem gt_one_zero (u : Fpu) : u.gt u.one u.zero = true := by
  simp [Fpu.gt, Fpu.lt, numOf_one, numOf_zero, Fpu.signedUnits]

theorem ge_one_one (u : Fpu) : u.ge u.one u.one = true := by
  simp [Fpu.ge, Fpu.le, Fpu.eq, numOf_one]

theorem bitDepth_one (u : Fpu) : bitDepth u u.one = 16#8 := by
  unfold bitDepth
  rw [gt_one_zero, ge_one_one]
  rfl

/-- The reset state of every build: no flag is set, and the derived registers are those of the amount 1. -/
theorem derived_resetWith (b : Build) (k : Nat) : (State.resetWith (configFpu b.fmt k) b).Derived := by
  have hone : ∀ j, (configFpu b.fmt j).gt (configFpu b.fmt j).one (configFpu b.fmt j).one = false := fun j =>
    lt_irrefl_num _ _
  exact {
    dsActive := by
      show false = ((configFpu b.fmt 0).gt (configFpu b.fmt 0).one (configFpu b.fmt 0).one || false)
      rw [hone]
      rfl
    rateActive := by
      show false = ((configFpu b.fmt 0).gt (configFpu b.fmt 0).one (configFpu b.fmt 0).one || false ||
        (configFpu b.fmt 0).gt (configFpu b.fmt 0).one (configFpu b.fmt 0).one || false)
      rw [hone]
      rfl
    incr := (incr_one (configFpu b.fmt 0)).symm
    step := (fx_one (configFpu b.fmt 0)).symm
    bits := (bitDepth_one (configFpu b.fmt 0)).symm
    dsOff := fun _ => rfl
    pbOff := fun _ => rfl
    bcOff := fun _ => rfl }

theorem derived_deliver (h : s.Derived) (e : HostEvent) : (deliver e s).Derived := by
  cases e with
  | push p w => cases p <;> exact derived_of_kept h rfl
  | writeIn idx w =>
    simp only [deliver, hostWriteIn]
    split
    · exact derived_of_kept h rfl
    · exact h
  | writeInHalf idx high w =>
    simp only [deliver, hostWriteInHalf]
    split
    · exact derived_of_kept h rfl
    · exact h
  | reset => exact h

theorem derived_hostEvent (h : s.Derived) (e : HostEvent) : (hostEvent e s).Derived := by
  cases e with
  | reset => exact derived_of_kept (t := assertReset s) (derived_resetWith s.build s.free) rfl
  | push p w => exact derived_deliver h (.push p w)
  | writeIn idx w => exact derived_deliver h (.writeIn idx w)
  | writeInHalf idx high w => exact derived_deliver h (.writeInHalf idx high w)

/-! ## Every command, every step -/

theorem derived_exec (h : s.Derived) (i : Instr) : ∃ t, exec i s = .next t ∧ t.Derived := by
  cases i with
  | nop => exact ⟨_, rfl, h⟩
  | process sw nin nout n => exact ⟨_, rfl, derived_processStartsTo h (startProcess_cases s.fpu sw nin nout n s)⟩
  | resetPointers => exact ⟨_, rfl, derived_of_kept h rfl⟩
  | clearBuffer => exact ⟨_, rfl, derived_of_kept h rfl⟩
  | filterReset => exact ⟨_, rfl, derived_of_kept h rfl⟩
  | setSampleRate a => exact ⟨_, rfl, derived_setSampleRate h rfl _⟩
  | clearErr => exact ⟨_, rfl, derived_of_kept h rfl⟩
  | setResampleRate a => exact ⟨_, rfl, derived_setResampleRate h rfl _⟩
  | setResampleLfo a b => exact ⟨_, rfl, derived_setResampleLfo h rfl _ _⟩
  | setPlaybackRate a => exact ⟨_, rfl, derived_setPlaybackRate h rfl _⟩
  | setPlaybackLfo a b => exact ⟨_, rfl, derived_setPlaybackLfo h rfl _ _⟩
  | setBitcrushAmount a => exact ⟨_, rfl, derived_setBitcrushAmount h rfl _⟩
  | setBitcrushLfo a b => exact ⟨_, rfl, derived_setBitcrushLfo h rfl _ _⟩
  | setBitcrushOutputMix a => exact ⟨_, rfl, derived_of_kept h rfl⟩
  | setDryMix a => exact ⟨_, rfl, derived_of_kept h rfl⟩
  | setWetMix a => exact ⟨_, rfl, derived_of_kept h rfl⟩
  | setBypass on => exact ⟨_, rfl, derived_of_kept h rfl⟩
  | limSetAttackUs a => exact ⟨_, rfl, derived_of_kept h rfl⟩
  | limSetReleaseMs a => exact ⟨_, rfl, derived_of_kept h rfl⟩
  | limSetAttackNorm a => exact ⟨_, rfl, derived_of_kept h rfl⟩
  | limSetReleaseNorm a => exact ⟨_, rfl, derived_of_kept h rfl⟩
  | limSetThreshold soft a => exact ⟨_, rfl, derived_of_kept h rfl⟩
  | limSetTrim a => exact ⟨_, rfl, derived_of_kept h rfl⟩

theorem derived_stepsTo (h : s.Derived) (ht : StepsTo s t) : t.Derived := by
  have htick : (tick s).Derived := derived_of_kept h rfl
  cases ht with
  | idle => exact h
  | frame p hp hi => exact derived_frame htick rfl p
  | epilogue p hp => exact derived_of_kept htick rfl
  | discard port => exact derived_takeCommand h port
  | decodeError port e => exact derived_of_kept (derived_takeCommand h port) rfl
  | command port i t hproc hfatal haccepted hexec =>
    obtain ⟨t', hnext, hderived⟩ := derived_exec (derived_takeCommand h port) i
    rw [hexec] at hnext
    cases hnext
    exact hderived
  | host e es _ =>
    have hinput : (tick { s with hostIn := es }).Derived := derived_of_kept h rfl
    exact derived_hostEvent hinput e

/-- Settles O14: by the kind of step, each operation of which settles the parts it moves. -/
theorem stepKeepsDerived : Obligations.StepKeepsDerived := by
  intro s t h hstep
  exact derived_stepsTo h (stepsTo_of_step hstep)

end Sys2Proof.Proofs
end

section
/-!
PROOFS. The register read port (10_state.md R42 to R46, R53, R57): the layout of STATUS, every register at its address, and
0 at every other address.
-/

namespace Sys2Proof.Proofs

open Sys2Proof Sys2Proof.Machine Sys2Proof.Laws

/-! ## STATUS -/

theorem flagAt_eq (b : Bool) (pos : Nat) : flagAt b pos = b.toNat * 2 ^ pos := by cases b <;> simp [flagAt]

/-- The read port zero-extends STATUS: its bits as one number. -/
theorem toNat_readPort_status (s : State) : (readPort s 0x001#12).toNat =
    s.status.err.toNat + s.status.fatal.toNat * 2 + s.status.dsActive.toNat * 4 + s.status.rateActive.toNat * 8 +
      s.status.busy.toNat * 16 + s.status.errCode.toNat * 256 := by
  have herr := Bool.toNat_lt s.status.err
  have hfatal := Bool.toNat_lt s.status.fatal
  have hds := Bool.toNat_lt s.status.dsActive
  have hrate := Bool.toNat_lt s.status.rateActive
  have hbusy := Bool.toNat_lt s.status.busy
  have hcode := s.status.errCode.isLt
  show ((statusWord s.status).setWidth 64).toNat = _
  unfold statusWord
  simp only [flagAt_eq, BitVec.toNat_setWidth, BitVec.toNat_ofNat]
  omega

theorem testBit_eq_of_mod {n i : Nat} {b : Bool} (h : n / 2 ^ i % 2 = b.toNat) : n.testBit i = b := by
  rw [Nat.testBit_eq_decide_div_mod_eq, h]
  cases b <;> rfl

theorem statusLayout (s : State) :
    let w := readPort s 0x001#12
    w.getLsbD 0 = s.status.err ∧ w.getLsbD 1 = s.status.fatal ∧ w.getLsbD 2 = s.status.dsActive ∧
    w.getLsbD 3 = s.status.rateActive ∧ w.getLsbD 4 = s.status.busy ∧ w.extractLsb' 8 4 = s.status.errCode ∧
    ∀ b, (4 < b ∧ b < 8) ∨ 11 < b → w.getLsbD b = false := by
  have herr := Bool.toNat_lt s.status.err
  have hfatal := Bool.toNat_lt s.status.fatal
  have hds := Bool.toNat_lt s.status.dsActive
  have hrate := Bool.toNat_lt s.status.rateActive
  have hbusy := Bool.toNat_lt s.status.busy
  have hcode := s.status.errCode.isLt
  have hw := toNat_readPort_status s
  refine ⟨testBit_eq_of_mod ?_, testBit_eq_of_mod ?_, testBit_eq_of_mod ?_, testBit_eq_of_mod ?_, testBit_eq_of_mod ?_,
    BitVec.eq_of_toNat_eq ?_, fun b hb => ?_⟩
  case refine_6 =>
    rw [BitVec.extractLsb'_toNat, Nat.shiftRight_eq_div_pow, hw]
    omega
  case refine_7 =>
    rcases hb with ⟨hlo, hhi⟩ | hhigh
    · refine testBit_eq_of_mod (b := false) ?_
      rw [hw]
      have : b = 5 ∨ b = 6 ∨ b = 7 := by omega
      rcases this with rfl | rfl | rfl <;> simp only [Bool.toNat_false] <;> omega
    · refine Nat.testBit_lt_two_pow (Nat.lt_of_lt_of_le ?_ (Nat.pow_le_pow_right (by omega) hhigh))
      rw [hw]
      omega
  all_goals rw [hw]; omega

/-! ## Every register at its address -/

/-- A register of type F shows its pattern of the format, zero-extended. -/
theorem fmtMask_eq (f : Fmt) (v : F) :
    fmtMask f v = match f with | .binary32 => (v.extractLsb' 0 32).setWidth 64 | .binary64 => v := by
  have hv := v.isLt
  cases f with
  | binary32 =>
    refine BitVec.eq_of_toNat_eq ?_
    simp only [fmtMask, fmtWidth, BitVec.toNat_ofNat, BitVec.toNat_setWidth, BitVec.extractLsb'_toNat, Nat.shiftRight_zero]
  | binary64 =>
    refine BitVec.eq_of_toNat_eq ?_
    simp only [fmtMask, fmtWidth, BitVec.toNat_ofNat]
    omega

/-- The first address of an oscillator group (10_state.md R42). -/
def lfoBase : LfoId → Nat
  | .ds => 0x080
  | .pb => 0x090
  | .bc => 0x0A0

theorem readPort_lfo (s : State) (p : LfoId) {k : Nat} (hk : k < 16) :
    readPort s (BitVec.ofNat 12 (lfoBase p + k)) = readLfo s.build.fmt (lfoOf p s) k := by
  have hds : lfoBase .ds = 0x080 := rfl
  have hpb : lfoBase .pb = 0x090 := rfl
  have hbc : lfoBase .bc = 0x0A0 := rfl
  have haddr : lfoBase p + k < 2 ^ 12 := by cases p <;> omega
  unfold readPort
  rw [BitVec.toNat_ofNat, Nat.mod_eq_of_lt haddr]
  simp only
  cases p with
  | ds =>
    rw [if_neg (by omega), if_pos (by omega), show lfoBase .ds + k - 0x080 = k by omega]
    rfl
  | pb =>
    rw [if_neg (by omega), if_neg (by omega), if_pos (by omega), show lfoBase .pb + k - 0x090 = k by omega]
    rfl
  | bc =>
    rw [if_neg (by omega), if_neg (by omega), if_neg (by omega), if_pos (by omega),
      show lfoBase .bc + k - 0x0A0 = k by omega]
    rfl

/-- A table of the offsets of an oscillator group that agrees with the group is what the read port shows there. -/
theorem readPort_lfos (s : State) (p : LfoId) {table : List (Nat × IoWord)} (hoffsets : ∀ e ∈ table, e.1 < 16)
    (hgroup : table.map (fun e => readLfo s.build.fmt (lfoOf p s) e.1) = table.map (fun e => e.2)) :
    ∀ e ∈ table, readPort s (BitVec.ofNat 12 (lfoBase p + e.1)) = e.2 := fun e he =>
  (readPort_lfo s p (hoffsets e he)).trans (List.map_inj_left.mp hgroup e he)

/-- The addresses from 0x100 on are the channel groups, sixteen to a channel. -/
theorem readPort_chan (s : State) {c k : Nat} (hc : c < 240) (hbuilt : c < s.build.nMax) (hk : k < 16) :
    readPort s (BitVec.ofNat 12 (0x100 + 16 * c + k)) = readChan s.build.fmt (chanAt s c) k := by
  have hgroup : (0x100 + 16 * c + k - 0x100) / 16 = c := by omega
  have hoffset : (0x100 + 16 * c + k - 0x100) % 16 = k := by omega
  unfold readPort
  rw [BitVec.toNat_ofNat, Nat.mod_eq_of_lt (by omega)]
  simp only [hgroup, hoffset, hbuilt, if_true]
  rw [if_neg (by omega), if_neg (by omega), if_neg (by omega), if_neg (by omega), if_neg (by omega)]

/-- A table of the offsets of a channel group that agrees with the group is what the read port shows there. -/
theorem readPort_chans (s : State) {c : Nat} (hc : c < 240) (hbuilt : c < s.build.nMax) {table : List (Nat × F)}
    (hoffsets : ∀ e ∈ table, e.1 < 16)
    (hgroup : table.map (fun e => readChan s.build.fmt (chanAt s c) e.1) = table.map (fun e => fmtMask s.build.fmt e.2)) :
    ∀ e ∈ table, readPort s (BitVec.ofNat 12 (0x100 + 16 * c + e.1)) = fmtMask s.build.fmt e.2 := fun e he =>
  (readPort_chan s hc hbuilt (hoffsets e he)).trans (List.map_inj_left.mp hgroup e he)

/-! ## The gaps -/

theorem readLfo_past_end (f : Fmt) (l : Lfo) {k : Nat} (hk : 7 ≤ k) : readLfo f l k = 0#64 := by
  obtain ⟨j, rfl⟩ := Nat.exists_eq_add_of_le' hk
  rfl

theorem readChan_past_end (f : Fmt) (ch : Chan) {k : Nat} (hk : 12 ≤ k) : readChan f ch k = 0#64 := by
  obtain ⟨j, rfl⟩ := Nat.exists_eq_add_of_le' hk
  rfl

/-- The addresses below 0x080 that name no register. -/
def UnitGap (a : Nat) : Prop :=
  0x00A ≤ a ∧ a < 0x010 ∨ 0x015 ≤ a ∧ a < 0x020 ∨ 0x024 ≤ a ∧ a < 0x030 ∨ 0x034 ≤ a ∧ a < 0x040 ∨
    0x043 ≤ a ∧ a < 0x050 ∨ 0x05D ≤ a ∧ a < 0x060 ∨ 0x063 ≤ a ∧ a < 0x080

theorem readUnit_gap (s : State) {a : Nat} (h : UnitGap a) : readUnit s a = 0#64 := by
  unfold UnitGap at h
  rcases h with ⟨hlo, hhi⟩ | ⟨hlo, hhi⟩ | ⟨hlo, hhi⟩ | ⟨hlo, hhi⟩ | ⟨hlo, hhi⟩ | ⟨hlo, hhi⟩ | ⟨hlo, hhi⟩ <;>
    interval_cases a <;> rfl

theorem readPort_gap (s : State) (a : BitVec 12)
    (h : 0x00A ≤ a.toNat ∧ a.toNat < 0x010 ∨ 0x015 ≤ a.toNat ∧ a.toNat < 0x020 ∨ 0x024 ≤ a.toNat ∧ a.toNat < 0x030 ∨
       0x034 ≤ a.toNat ∧ a.toNat < 0x040 ∨ 0x043 ≤ a.toNat ∧ a.toNat < 0x050 ∨ 0x05D ≤ a.toNat ∧ a.toNat < 0x060 ∨
       0x063 ≤ a.toNat ∧ a.toNat < 0x080 ∨ 0x087 ≤ a.toNat ∧ a.toNat < 0x090 ∨ 0x097 ≤ a.toNat ∧ a.toNat < 0x0A0 ∨
       0x0A7 ≤ a.toNat ∧ a.toNat < 0x100 ∨
       0x100 ≤ a.toNat ∧ (s.build.nMax ≤ (a.toNat - 0x100) / 16 ∨ 12 ≤ (a.toNat - 0x100) % 16)) :
    readPort s a = 0#64 := by
  unfold readPort
  generalize a.toNat = n at h
  simp only
  split_ifs
  · refine readUnit_gap s ?_
    unfold UnitGap
    omega
  · exact readLfo_past_end _ _ (by omega)
  · exact readLfo_past_end _ _ (by omega)
  · exact readLfo_past_end _ _ (by omega)
  · rfl
  · exact readChan_past_end _ _ (by omega)
  · rfl

/-- Settles O56: the layout of STATUS by arithmetic, the map by evaluation at each address, the gaps by their range. -/
theorem readPortStatusAndGaps : Obligations.ReadPortStatusAndGaps := by
  intro s w bit f
  have hf : f = fmtMask s.build.fmt := funext fun v => (fmtMask_eq s.build.fmt v).symm
  refine ⟨statusLayout s, ?_, ?_, ?_, readPort_gap s⟩
  · rw [hf]
    exact List.map_inj_left.mp rfl
  · rw [hf]
    intro g hg
    simp only [List.mem_cons, List.not_mem_nil, or_false] at hg
    rcases hg with rfl | rfl | rfl
    · exact readPort_lfos s .ds (by simp) rfl
    · exact readPort_lfos s .pb (by simp) rfl
    · exact readPort_lfos s .bc (by simp) rfl
  · intro c hbuilt hc
    rw [hf]
    exact readPort_chans s hc hbuilt (by simp) rfl

end Sys2Proof.Proofs
end

section
/-!
PROOFS. The byte-wide transport (20_memory.md R106): little-endian bytes are the digits of a word in base 256, lowest
first, so `n` of them carry the word modulo 256 ^ n.
-/

namespace Sys2Proof.Proofs

open Sys2Proof

@[simp] theorem length_bytesLE (n v : Nat) : (bytesLE n v).length = n := by simp [bytesLE]

/-- The lowest byte goes first, the bytes of the rest of the word after it. -/
theorem bytesLE_succ (n v : Nat) : bytesLE (n + 1) v = BitVec.ofNat 8 v :: bytesLE n (v / 256) := by
  have hdigit (k : Nat) : v / 256 ^ (k + 1) = v / 256 / 256 ^ k := by
    rw [Nat.div_div_eq_div_mul, Nat.pow_succ']
  simp [bytesLE, List.range_succ_eq_map, hdigit]

theorem ofBytesLE_bytesLE (n v : Nat) : ofBytesLE (bytesLE n v) = v % 256 ^ n := by
  induction n generalizing v with
  | zero => rw [Nat.pow_zero, Nat.mod_one]; rfl
  | succ n ih =>
    rw [bytesLE_succ, ofBytesLE, ih, BitVec.toNat_ofNat, show 256 ^ (n + 1) = 256 * 256 ^ n from Nat.pow_succ',
      Nat.mod_mul]

/-- Byte `k` carries bits [8k+7:8k]. -/
theorem getElem?_bytesLE {m : Nat} (w : BitVec m) {n k : Nat} (hk : k < n) :
    (bytesLE n w.toNat)[k]? = some (w.extractLsb' (8 * k) 8) := by
  have hbyte : BitVec.ofNat 8 (w.toNat / 256 ^ k) = w.extractLsb' (8 * k) 8 := by
    apply BitVec.eq_of_toNat_eq
    rw [BitVec.toNat_ofNat, BitVec.extractLsb'_toNat, Nat.shiftRight_eq_div_pow, Nat.pow_mul]
  simp [bytesLE, hk, hbyte]

theorem ofNat_ofBytesLE_bytesLE (w : Word) : BitVec.ofNat 32 (ofBytesLE (bytesLE 4 w.toNat)) = w := by
  rw [ofBytesLE_bytesLE, show (256 : Nat) ^ 4 = 2 ^ 32 from rfl, Nat.mod_eq_of_lt w.isLt, BitVec.ofNat_toNat,
    BitVec.setWidth_eq]

theorem commandOfBytes_bytes (c : Command) : commandOfBytes c.bytes = c := by
  have hfirst : c.bytes.take 4 = bytesLE 4 c.w0.toNat := by simp [Command.bytes]
  have hsecond : (c.bytes.drop 4).take 4 = bytesLE 4 c.w1.toNat := by simp [Command.bytes]
  have hthird : (c.bytes.drop 8).take 4 = bytesLE 4 c.w2.toNat := by
    simp [Command.bytes, List.drop_append, List.drop_eq_nil_of_le]
  simp only [commandOfBytes, hfirst, hsecond, hthird, ofNat_ofBytesLE_bytesLE]

/-- Settles O3: the bytes are the base-256 digits of the word. -/
theorem transportIsLittleEndian : Obligations.TransportIsLittleEndian :=
  ⟨fun w _ hk => getElem?_bytesLE w hk, fun w _ hk => getElem?_bytesLE w hk,
    fun w => (ofBytesLE_bytesLE 8 w.toNat).trans (Nat.mod_eq_of_lt w.isLt), commandOfBytes_bytes⟩

end Sys2Proof.Proofs
end

section
/-!
PROOFS. The host's writes of IN_MEM (20_memory.md R107, R118).

The one idea: a write inside the space is `putIn` of some word, whole or with one half replaced, and outside it is nothing;
what else a write leaves as it was is said once, for `putIn`.
-/

namespace Sys2Proof.Proofs

open Sys2Proof Sys2Proof.Machine Sys2Proof.Laws

variable (s : State) {idx : Nat}

/-! ## Which word a host write puts in place -/

/-- An IN_MEM word as the host writes it whole. -/
def wholeIn (w : IoWord) : InWord := { lo := some (w.extractLsb' 0 32), hi := some (w.extractLsb' 32 32) }

/-- An IN_MEM word with the half replaced that the host writes. -/
def withHalf (now : InWord) (high : Bool) (w : Word) : InWord :=
  if high then { now with hi := some w } else { now with lo := some w }

theorem hostWriteIn_inside (h : idx < ioSize s) (w : IoWord) : hostWriteIn idx w s = putIn idx (wholeIn w) s := by
  have hlo : w.setWidth 32 = w.extractLsb' 0 32 := BitVec.eq_of_toNat_eq (by simp)
  have hhi : (w >>> 32).setWidth 32 = w.extractLsb' 32 32 := rfl
  rw [hostWriteIn, if_pos h, hlo, hhi, wholeIn]

theorem hostWriteInHalf_inside (h : idx < ioSize s) (high : Bool) (w : Word) :
    hostWriteInHalf idx high w s = putIn idx (withHalf (Memory.read noInWord s.inMem idx) high w) s := by
  rw [hostWriteInHalf, if_pos h]; rfl

theorem hostWriteIn_outside (h : ioSize s ≤ idx) (w : IoWord) : hostWriteIn idx w s = s := by
  rw [hostWriteIn, if_neg (Nat.not_lt.mpr h)]

theorem hostWriteInHalf_outside (h : ioSize s ≤ idx) (high : Bool) (w : Word) : hostWriteInHalf idx high w s = s := by
  rw [hostWriteInHalf, if_neg (Nat.not_lt.mpr h)]

theorem hostReadOut_outside (h : ioSize s ≤ idx) : hostReadOut s idx = none := by
  rw [hostReadOut, if_neg (Nat.not_lt.mpr h)]

/-! ## What putting a word in place does -/

theorem read_putIn_same (idx : Nat) (w : InWord) : Memory.read noInWord (putIn idx w s).inMem idx = w :=
  read_write_same noInWord s.inMem idx w

theorem read_putIn_other {j : Nat} (hj : j ≠ idx) (w : InWord) :
    Memory.read noInWord (putIn idx w s).inMem j = Memory.read noInWord s.inMem j :=
  read_write_other noInWord s.inMem w hj

/-- The word that stood at the index joins the journal while a command may still read it (log 10). -/
theorem putIn_inOverwritten_same (w : InWord) (h : s.proc.isSome = true ∨ s.audioQ ≠ []) :
    inOverwritten (putIn idx w s) idx = Memory.read noInWord s.inMem idx :: inOverwritten s idx := by
  have hbusy : (s.proc.isSome || !s.audioQ.isEmpty) = true := by simpa using h
  rw [putIn_inOverwritten, if_pos ⟨rfl, hbusy⟩]

theorem putIn_inOverwritten_other {j : Nat} (hj : j ≠ idx) (w : InWord) :
    inOverwritten (putIn idx w s) j = inOverwritten s j := by
  rw [putIn_inOverwritten, if_neg fun h => hj h.1]

theorem putIn_inOld_of_idle (w : InWord) (hproc : s.proc = none) (hq : s.audioQ = []) :
    (putIn idx w s).inOld = s.inOld := by
  simp [putIn, hproc, hq]

/-- Settles O59: a write inside the space is `putIn`, and outside it is nothing. -/
theorem hostWritesInMem : Obligations.HostWritesInMem := by
  intro s idx w high h
  refine ⟨fun hout => ⟨hostWriteIn_outside s hout w, hostWriteInHalf_outside s hout high h, hostReadOut_outside s hout⟩,
    fun hin => ?_⟩
  rw [hostWriteIn_inside s hin, hostWriteInHalf_inside s hin]
  refine ⟨read_putIn_same s idx _, read_putIn_same s idx _, fun t ht => ?_⟩
  obtain ⟨v, rfl⟩ : ∃ v, t = putIn idx v s := ht.elim (fun e => ⟨_, e⟩) fun e => ⟨_, e⟩
  exact ⟨rfl, fun j hj => read_putIn_other s hj v, fun _ => rfl, putIn_inOverwritten_same s v,
    putIn_inOld_of_idle s v, fun j hj => putIn_inOverwritten_other s hj v⟩

end Sys2Proof.Proofs
end

section
/-!
PROOFS. The interleavings (20_memory.md R111; 60_exceptions.md R458), and what a step of each agent changes of the traffic:
the ports, the I/O memories, the PROCESS in progress and the model's own fields.

The one idea: a control command changes none of the traffic, and a step of the audio port none but OUT_MEM and the PROCESS
in progress.
-/

namespace Sys2Proof.Proofs

open Sys2Proof Sys2Proof.Machine Sys2Proof.Laws

variable {s t : State}

/-! ## Which agent moves -/

theorem mem_movers (s : State) (a : Agent) : a ∈ movers s ↔ canMove s a = true := by
  cases a <;> simp [movers]

/-- Where an agent can move, some agent does. -/
theorem exists_mover {a : Agent} (h : canMove s a = true) : ∃ b, mover s = some b := by
  have hmem := (mem_movers s a).mpr h
  unfold mover
  split
  · rename_i hnone
    rw [hnone] at hmem
    cases hmem
  · exact ⟨_, rfl⟩
  · exact ⟨_, rfl⟩

theorem hasCommand_iff (p : Port) (s : State) : hasCommand p s = true ↔ 3 ≤ (queueOf p s).length :=
  decide_eq_true_iff

theorem canMove_audio_iff (s : State) : canMove s .audio = true ↔ s.proc.isSome = true ∨ 3 ≤ s.audioQ.length := by
  rw [canMove, Bool.or_eq_true, hasCommand_iff]; rfl

theorem canMove_control_iff (s : State) : canMove s .control = true ↔ 3 ≤ s.controlQ.length :=
  hasCommand_iff .control s

theorem canMove_host_iff (s : State) : canMove s .host = true ↔ s.hostIn ≠ [] := by simp [canMove]

theorem step_of_no_mover (h : mover s = none) : step s = .next s := by
  rw [step, nextStep, h]

theorem length_of_mover_control (h : mover s = some .control) : 3 ≤ s.controlQ.length :=
  (canMove_control_iff s).mp (mover_canMove s .control h)

theorem length_of_mover_audio (h : mover s = some .audio) (hproc : s.proc = none) : 3 ≤ s.audioQ.length := by
  simpa [hproc] using (canMove_audio_iff s).mp (mover_canMove s .audio h)

theorem hostIn_of_mover_host (h : mover s = some .host) : ∃ e es, s.hostIn = e :: es :=
  List.exists_cons_of_ne_nil ((canMove_host_iff s).mp (mover_canMove s .host h))

theorem mover_eq_none (haudio : s.audioQ.length < 3) (hcontrol : s.controlQ.length < 3) (hproc : s.proc = none)
    (hhost : s.hostIn = []) : mover s = none := by
  cases hmover : mover s with
  | none => rfl
  | some a =>
    cases a with
    | audio => exact absurd (length_of_mover_audio hmover hproc) (Nat.not_le.mpr haudio)
    | control => exact absurd (length_of_mover_control hmover) (Nat.not_le.mpr hcontrol)
    | host =>
      obtain ⟨e, es, hin⟩ := hostIn_of_mover_host hmover
      rw [hhost] at hin
      cases hin

/-- Settles O12: the schedule's agent moves if it can, and no agent moves in an idle block. -/
theorem everyInterleavingAdmitted : Obligations.EveryInterleavingAdmitted :=
  ⟨fun s a rest h => mover_of_sched { s with sched := a :: rest } a h rfl,
    fun _ haudio hcontrol hproc hhost => step_of_no_mover (mover_eq_none haudio hcontrol hproc hhost)⟩

/-! ## Registers outside the traffic -/

/-- `t` holds what `s` holds in the build, the I/O memories, the ports, the PROCESS in progress and the model's own
fields. -/
def TrafficKept (s t : State) : Prop :=
  t = { t with
    build := s.build, inMem := s.inMem, outMem := s.outMem, audioQ := s.audioQ, controlQ := s.controlQ, proc := s.proc
    hostIn := s.hostIn, sched := s.sched, free := s.free }

namespace TrafficKept

theorem build (h : TrafficKept s t) : t.build = s.build := (congrArg State.build h :)
theorem inMem (h : TrafficKept s t) : t.inMem = s.inMem := (congrArg State.inMem h :)
theorem outMem (h : TrafficKept s t) : t.outMem = s.outMem := (congrArg State.outMem h :)
theorem audioQ (h : TrafficKept s t) : t.audioQ = s.audioQ := (congrArg State.audioQ h :)
theorem controlQ (h : TrafficKept s t) : t.controlQ = s.controlQ := (congrArg State.controlQ h :)
theorem proc (h : TrafficKept s t) : t.proc = s.proc := (congrArg State.proc h :)
theorem hostIn (h : TrafficKept s t) : t.hostIn = s.hostIn := (congrArg State.hostIn h :)
theorem sched (h : TrafficKept s t) : t.sched = s.sched := (congrArg State.sched h :)
theorem free (h : TrafficKept s t) : t.free = s.free := (congrArg State.free h :)

theorem sameTraffic (h : TrafficKept s t) : SameTraffic s t :=
  ⟨h.build.symm, h.inMem.symm, h.audioQ.symm, h.controlQ.symm, by rw [h.proc], h.hostIn.symm, h.sched.symm, h.free.symm⟩

end TrafficKept

/-! ## What each command keeps of the traffic -/

theorem trafficKept_setResampleRate (u : Fpu) (a : F) (s : State) : TrafficKept s (setResampleRate u a s) := by
  unfold setResampleRate
  simp only
  split <;> rfl

theorem trafficKept_setResampleLfo (u : Fpu) (a b : F) (s : State) : TrafficKept s (setResampleLfo u a b s) := by
  unfold setResampleLfo
  rw [lfoSet_ds]
  simp only
  split <;> rfl

theorem trafficKept_setPlaybackRate (u : Fpu) (a : F) (s : State) : TrafficKept s (setPlaybackRate u a s) := by
  unfold setPlaybackRate
  simp only
  split <;> rfl

theorem trafficKept_setPlaybackLfo (u : Fpu) (a b : F) (s : State) : TrafficKept s (setPlaybackLfo u a b s) := by
  unfold setPlaybackLfo
  rw [lfoSet_pb]
  simp only
  split <;> rfl

theorem trafficKept_setBitcrushAmount (u : Fpu) (a : F) (s : State) : TrafficKept s (setBitcrushAmount u a s) := by
  unfold setBitcrushAmount
  simp only
  split <;> rfl

theorem trafficKept_setBitcrushLfo (u : Fpu) (a b : F) (s : State) : TrafficKept s (setBitcrushLfo u a b s) := by
  unfold setBitcrushLfo
  rw [lfoSet_bc]
  simp only
  split <;> rfl

theorem trafficKept_setSampleRate (u : Fpu) (a : F) (s : State) : TrafficKept s (setSampleRate u a s) := by
  unfold setSampleRate
  split <;> rfl

/-- Every command but PROCESS keeps the traffic. -/
theorem trafficKept_exec {i : Instr} (hi : i.opcode ≠ .process) (h : exec i s = .next t) : TrafficKept s t := by
  cases i with
  | process sw nin nout n => exact absurd rfl hi
  | setSampleRate a => cases h; exact trafficKept_setSampleRate ..
  | setResampleRate a => cases h; exact trafficKept_setResampleRate ..
  | setResampleLfo a b => cases h; exact trafficKept_setResampleLfo ..
  | setPlaybackRate a => cases h; exact trafficKept_setPlaybackRate ..
  | setPlaybackLfo a b => cases h; exact trafficKept_setPlaybackLfo ..
  | setBitcrushAmount a => cases h; exact trafficKept_setBitcrushAmount ..
  | setBitcrushLfo a b => cases h; exact trafficKept_setBitcrushLfo ..
  | _ => cases h; rfl

/-- The control port runs no PROCESS. -/
theorem trafficKept_runCommand_control (h : runCommand .control s = .next t) :
    TrafficKept (takeCommand .control s) t := by
  unfold runCommand at h
  split at h
  · cases h; rfl
  · split at h
    · cases h; rfl
    · rename_i i hdecode
      refine trafficKept_exec (fun hi => ?_) h
      have haccepted := acceptedOn_of_decode hdecode
      rw [hi] at haccepted
      cases haccepted

/-! ## What the audio port's steps change of the traffic -/

/-- `t` is a state after an audio step whose traffic was that of `s`: beside the PROCESS in progress only OUT_MEM can
change. -/
def AudioKept (s t : State) : Prop := TrafficKept { s with proc := t.proc, outMem := t.outMem } t

theorem TrafficKept.audioKept (h : TrafficKept s t) : AudioKept s t := by
  unfold AudioKept
  rw [h.proc, h.outMem]
  exact h

/-- The atomic steps that the PROCESS in progress still has to make: its frames and the epilogue. -/
def procSteps (s : State) : Nat :=
  match s.proc with
  | some p => p.n - p.i + 1
  | none => 0

theorem procSteps_some {p : Proc} (h : s.proc = some p) : procSteps s = p.n - p.i + 1 := by rw [procSteps, h]

theorem procSteps_none (h : s.proc = none) : procSteps s = 0 := by rw [procSteps, h]

theorem procSteps_congr (h : t.proc = s.proc) : procSteps t = procSteps s := by rw [procSteps, h, procSteps]

/-- The first step of a PROCESS: what it sets to run fits the built limits. -/
theorem processStartsTo_traffic {u : Fpu} {sw : Bool} {nin nout n : Nat} (hproc : s.proc = none)
    (h : ProcessStartsTo u sw nin nout n s t) : AudioKept s t ∧ procSteps t ≤ s.build.maxBlock + 1 := by
  have hnone {r : State} (hr : r.proc = s.proc) : procSteps r ≤ s.build.maxBlock + 1 := by
    rw [procSteps_none (hr.trans hproc)]; exact Nat.zero_le _
  cases h with
  | exceeds => exact ⟨rfl, hnone rfl⟩
  | empty => exact ⟨rfl, hnone rfl⟩
  | bypass hfits => exact ⟨rfl, hnone rfl⟩
  | silence hfits hnout =>
    unfold changeGeometry
    split
    · exact ⟨rfl, hnone rfl⟩
    · exact ⟨rfl, hnone rfl⟩
  | runs hfits hn hnout =>
    obtain ⟨-, -, hlength⟩ := (geometryExceeds_eq_false_iff s nin nout n).mp hfits
    constructor
    · unfold prologue changeGeometry
      split <;> split <;> rfl
    · rw [procSteps_some rfl]
      simpa [startProc] using hlength

theorem audioKept_frame (u : Fpu) (p : Proc) (s : State) : AudioKept s (frame u p s) := by
  unfold frame
  rw [modulate_kept]
  rfl

theorem frame_proc (u : Fpu) (p : Proc) (s : State) : (frame u p s).proc = some (advanceProc p s) := rfl

theorem sameTraffic_frame (u : Fpu) (p : Proc) (s : State) :
    SameTraffic { s with proc := some { p with i := p.i + 1 } } (frame u p s) := by
  have h := TrafficKept.sameTraffic (audioKept_frame u p s)
  exact { h with proc := rfl }

/-- A step of the PROCESS in progress is a frame, or the epilogue after the last. -/
theorem continueProcess_cases {p : Proc} (h : continueProcess p s = .next t) :
    (p.i < p.n ∧ t = frame s.fpu p s) ∨ (p.n ≤ p.i ∧ t = epilogue s.fpu s) := by
  unfold continueProcess at h
  split at h
  · rename_i hi
    split at h
    · cases h
    · cases h
      exact .inl ⟨hi, rfl⟩
  · rename_i hi
    cases h
    exact .inr ⟨Nat.not_lt.mp hi, rfl⟩

/-- A step of the PROCESS in progress is one of those that it still had to make. -/
theorem continueProcess_traffic {p : Proc} (hp : s.proc = some p) (h : continueProcess p s = .next t) :
    AudioKept s t ∧ procSteps t + 1 = procSteps s := by
  rw [procSteps_some hp]
  rcases continueProcess_cases h with ⟨hi, rfl⟩ | ⟨hi, rfl⟩
  · refine ⟨audioKept_frame .., ?_⟩
    rw [procSteps_some (frame_proc ..)]
    simp only [advanceProc]
    omega
  · refine ⟨rfl, ?_⟩
    rw [procSteps_none rfl]
    omega

/-- An audio command leaves at most a PROCESS of the largest block to run. -/
theorem runCommand_audio_traffic (hproc : s.proc = none) (h : runCommand .audio s = .next t) :
    AudioKept (takeCommand .audio s) t ∧ procSteps t ≤ s.build.maxBlock + 1 := by
  have hkept (ht : TrafficKept (takeCommand .audio s) t) :
      AudioKept (takeCommand .audio s) t ∧ procSteps t ≤ s.build.maxBlock + 1 := by
    refine ⟨ht.audioKept, ?_⟩
    rw [procSteps_none (ht.proc.trans hproc)]
    exact Nat.zero_le _
  unfold runCommand at h
  split at h
  · cases h; exact hkept rfl
  · split at h
    · cases h; exact hkept rfl
    · rename_i i hdecode
      by_cases hi : i.opcode = .process
      · obtain ⟨sw, nin, nout, n, rfl⟩ : ∃ sw nin nout n, i = .process sw nin nout n := by
          cases i with
          | process sw nin nout n => exact ⟨sw, nin, nout, n, rfl⟩
          | _ => cases hi
        cases h
        exact processStartsTo_traffic hproc (startProcess_cases ..)
      · exact hkept (trafficKept_exec hi h)

/-! ## What the host's inputs change of the traffic -/

theorem hostEvent_of_ne_reset {e : HostEvent} (he : e ≠ .reset) (s : State) : hostEvent e s = deliver e s := by
  cases e with
  | reset => exact absurd rfl he
  | _ => rfl

/-- What an input of the host but reset changes: IN_MEM with its journal, or the words of a port. -/
inductive DeliversTo (e : HostEvent) (s : State) : State → Prop where
  | pushed (p : Port) (w : Word) (he : e = .push p w) : DeliversTo e s (pushWord p w s)
  | put (idx : Nat) (w : InWord) (he : writesIndex idx e = true) : DeliversTo e s (putIn idx w s)
  | nothing : DeliversTo e s s

theorem deliver_cases (e : HostEvent) (s : State) : DeliversTo e s (deliver e s) := by
  cases e with
  | push p w => exact .pushed p w rfl
  | writeIn idx w =>
    simp only [deliver, hostWriteIn]
    split
    · exact .put idx _ (by simp [writesIndex])
    · exact .nothing
  | writeInHalf idx high w =>
    simp only [deliver, hostWriteInHalf]
    split
    · exact .put idx _ (by simp [writesIndex])
    · exact .nothing
  | reset => exact .nothing

/-- The fields that no input of the host but reset changes, and the one control word that it may add. -/
structure InputKept (s t : State) : Prop where
  build : t.build = s.build
  outMem : t.outMem = s.outMem
  proc : t.proc = s.proc
  hostIn : t.hostIn = s.hostIn
  controlQ : t.controlQ.length ≤ s.controlQ.length + 1

theorem DeliversTo.inputKept {e : HostEvent} (h : DeliversTo e s t) : InputKept s t := by
  cases h with
  | pushed p w =>
    cases p with
    | audio => exact ⟨rfl, rfl, rfl, rfl, Nat.le_succ _⟩
    | control => exact ⟨rfl, rfl, rfl, rfl, by simp [pushWord]⟩
  | put idx w => exact ⟨rfl, rfl, rfl, rfl, Nat.le_succ _⟩
  | nothing => exact ⟨rfl, rfl, rfl, rfl, Nat.le_succ _⟩

theorem DeliversTo.audioQ {e : HostEvent} (h : DeliversTo e s t) (he : ∀ w, e ≠ .push .audio w) :
    t.audioQ = s.audioQ := by
  cases h with
  | pushed p w hpush =>
    cases p with
    | audio => exact absurd hpush (he w)
    | control => rfl
  | put idx w => rfl
  | nothing => rfl

/-- An input of the host that writes elsewhere leaves an IN_MEM word. -/
theorem DeliversTo.read_inMem {e : HostEvent} {idx : Nat} (h : DeliversTo e s t) (he : writesIndex idx e = false) :
    Memory.read noInWord t.inMem idx = Memory.read noInWord s.inMem idx := by
  cases h with
  | pushed p w => cases p <;> rfl
  | put i w hwrites =>
    have hne : idx ≠ i := fun h => by rw [h, hwrites] at he; cases he
    exact read_putIn_other s hne w
  | nothing => rfl

/-- The state after the host's input `e`, of which `es` still come after it; for every input but reset. -/
def afterInput (e : HostEvent) (es : List HostEvent) (s : State) : State := deliver e (tick { s with hostIn := es })

theorem deliversTo_afterInput (e : HostEvent) (es : List HostEvent) (s : State) :
    DeliversTo e (tick { s with hostIn := es }) (afterInput e es s) := deliver_cases e _

@[simp] theorem afterInput_build (e : HostEvent) (es : List HostEvent) (s : State) :
    (afterInput e es s).build = s.build := (deliversTo_afterInput e es s).inputKept.build

@[simp] theorem afterInput_outMem (e : HostEvent) (es : List HostEvent) (s : State) :
    (afterInput e es s).outMem = s.outMem := (deliversTo_afterInput e es s).inputKept.outMem

@[simp] theorem afterInput_proc (e : HostEvent) (es : List HostEvent) (s : State) :
    (afterInput e es s).proc = s.proc := (deliversTo_afterInput e es s).inputKept.proc

@[simp] theorem afterInput_hostIn (e : HostEvent) (es : List HostEvent) (s : State) :
    (afterInput e es s).hostIn = es := (deliversTo_afterInput e es s).inputKept.hostIn

theorem afterInput_controlQ_length (e : HostEvent) (es : List HostEvent) (s : State) :
    (afterInput e es s).controlQ.length ≤ s.controlQ.length + 1 := (deliversTo_afterInput e es s).inputKept.controlQ

theorem afterInput_audioQ {e : HostEvent} (he : ∀ w, e ≠ .push .audio w) (es : List HostEvent) (s : State) :
    (afterInput e es s).audioQ = s.audioQ := (deliversTo_afterInput e es s).audioQ he

theorem read_afterInput_inMem {e : HostEvent} {idx : Nat} (he : writesIndex idx e = false) (es : List HostEvent)
    (s : State) : Memory.read noInWord (afterInput e es s).inMem idx = Memory.read noInWord s.inMem idx :=
  (deliversTo_afterInput e es s).read_inMem he

theorem hostStep_cons {e : HostEvent} {es : List HostEvent} (hin : s.hostIn = e :: es) (he : e ≠ .reset) :
    hostStep s = .next (afterInput e es s) := by
  rw [hostStep, hin]
  exact congrArg _ (hostEvent_of_ne_reset he _)

/-! ## The agent that moved -/

/-- The next states of a step, by the agent that moves. -/
inductive MovesTo (s : State) : State → Prop where
  | idle (hmover : mover s = none) : MovesTo s s
  | proc (p : Proc) (t : State) (hmover : mover s = some .audio) (hproc : s.proc = some p)
      (h : continueProcess p (tick s) = .next t) : MovesTo s t
  | audio (t : State) (hmover : mover s = some .audio) (hproc : s.proc = none) (h : runCommand .audio s = .next t) :
      MovesTo s t
  | control (t : State) (hmover : mover s = some .control) (h : runCommand .control s = .next t) : MovesTo s t
  | input (e : HostEvent) (es : List HostEvent) (hmover : mover s = some .host) (hin : s.hostIn = e :: es)
      (he : e ≠ .reset) : MovesTo s (afterInput e es s)
  | reset (es : List HostEvent) (hin : s.hostIn = .reset :: es) : MovesTo s (assertReset (tick { s with hostIn := es }))

theorem movesTo_of_step (h : step s = .next t) : MovesTo s t := by
  cases hmover : mover s with
  | none =>
    rw [step_of_no_mover hmover] at h
    cases h
    exact .idle hmover
  | some a =>
    rw [step_of_mover s a hmover] at h
    cases a with
    | audio =>
      cases hproc : s.proc with
      | none =>
        rw [agentStep, audioStep, hproc] at h
        exact .audio t hmover hproc h
      | some p =>
        rw [agentStep, audioStep, hproc] at h
        exact .proc p t hmover hproc h
    | control => exact .control t hmover h
    | host =>
      obtain ⟨e, es, hin⟩ := hostIn_of_mover_host hmover
      by_cases he : e = .reset
      · rw [agentStep, hostStep, hin, he] at h
        cases h
        exact .reset es (he ▸ hin)
      · rw [agentStep, hostStep_cons hin he] at h
        cases h
        exact .input e es hmover hin he

/-! ## Runs -/

theorem run_succ {M : Host.Core} {s t : M.State} (h : M.step s = .next t) (k : Nat) :
    M.run (k + 1) s = M.run k t := by
  rw [Host.Core.run, h]

theorem exists_step_of_run {M : Host.Core} {s t : M.State} {k : Nat} (h : M.run (k + 1) s = .next t) :
    ∃ r, M.step s = .next r ∧ M.run k r = .next t := by
  rw [Host.Core.run] at h
  split at h
  · exact ⟨_, ‹_›, h⟩
  · cases h
  · cases h

end Sys2Proof.Proofs
end

section
/-!
PROOFS. The races on IN_MEM and OUT_MEM (20_memory.md R118; 70_reset_and_hazards.md R488).

The one idea: `inAhead` and `outAhead` follow the same steps as a run, so what a run leaves at an index is among the words
they list, by induction on the run. Their fuel suffices because each step lowers the work that is left: the steps of the
PROCESS in progress, the control words, twice the host's inputs, and a whole PROCESS for each audio command.
-/

namespace Sys2Proof.Proofs

open Sys2Proof Sys2Proof.Machine Sys2Proof.Laws

variable {s t : State}

/-! ## The work that is left -/

/-- What bounds the steps that the PROCESS in progress, the control port and the host still make: an input of the host counts
twice, since it may push a control word. -/
def workLeft (s : State) : Nat := procSteps s + s.controlQ.length + 2 * s.hostIn.length

theorem workLeft_le_stepsAhead (s : State) : workLeft s ≤ stepsAhead s := by
  cases hproc : s.proc with
  | none => rw [workLeft, procSteps_none hproc, stepsAhead, hproc]
  | some p =>
    rw [workLeft, procSteps_some hproc, stepsAhead, hproc]
    simp only
    omega

theorem workLeft_proc {p : Proc} (hproc : s.proc = some p) (h : continueProcess p (tick s) = .next t) :
    workLeft t < workLeft s := by
  obtain ⟨hkept, hsteps⟩ := continueProcess_traffic (s := tick s) hproc h
  have hsteps : procSteps t + 1 = procSteps s := hsteps
  have hcontrol : t.controlQ = s.controlQ := hkept.controlQ
  have hin : t.hostIn = s.hostIn := hkept.hostIn
  rw [workLeft, workLeft, hcontrol, hin]
  omega

theorem workLeft_audio (hproc : s.proc = none) (h : runCommand .audio s = .next t) :
    workLeft t ≤ workLeft s + (s.build.maxBlock + 1) := by
  obtain ⟨hkept, hsteps⟩ := runCommand_audio_traffic hproc h
  have hcontrol : t.controlQ = s.controlQ := hkept.controlQ
  have hin : t.hostIn = s.hostIn := hkept.hostIn
  rw [workLeft, workLeft, hcontrol, hin]
  omega

theorem workLeft_control (hmover : mover s = some .control) (h : runCommand .control s = .next t) :
    workLeft t < workLeft s := by
  have hkept := trafficKept_runCommand_control h
  have hlength := length_of_mover_control hmover
  have hsteps : procSteps t = procSteps s := procSteps_congr hkept.proc
  have hcontrol : t.controlQ = s.controlQ.drop 3 := hkept.controlQ
  have hin : t.hostIn = s.hostIn := hkept.hostIn
  rw [workLeft, workLeft, hsteps, hcontrol, hin, List.length_drop]
  omega

theorem workLeft_afterInput {e : HostEvent} {es : List HostEvent} (hin : s.hostIn = e :: es) :
    workLeft (afterInput e es s) < workLeft s := by
  have hsteps : procSteps (afterInput e es s) = procSteps s := procSteps_congr (afterInput_proc e es s)
  have hcontrol := afterInput_controlQ_length e es s
  rw [workLeft, workLeft, hsteps, afterInput_hostIn, hin, List.length_cons]
  omega

/-! ## IN_MEM: what stands there up to the completion -/

/-- Without an input of the host IN_MEM stays as it is. -/
theorem MovesTo.inMem_of_no_input (h : MovesTo s t) (hin : s.hostIn = []) : t.inMem = s.inMem ∧ t.hostIn = [] := by
  cases h with
  | idle _ => exact ⟨rfl, hin⟩
  | proc p _ _ hproc h =>
    have hkept : AudioKept (tick s) t := (continueProcess_traffic (s := tick s) hproc h).1
    exact ⟨hkept.inMem, hkept.hostIn.trans hin⟩
  | audio _ _ hproc h =>
    have hkept := (runCommand_audio_traffic hproc h).1
    exact ⟨hkept.inMem, hkept.hostIn.trans hin⟩
  | control _ _ h =>
    have hkept := trafficKept_runCommand_control h
    exact ⟨hkept.inMem, hkept.hostIn.trans hin⟩
  | input e es _ hcons => rw [hin] at hcons; cases hcons
  | reset es hcons => rw [hin] at hcons; cases hcons

theorem inMem_of_run_of_no_input {k : Nat} (hin : s.hostIn = [])
    (hrun : Host.Core.run Sys2Proof.core k s = .next t) : t.inMem = s.inMem := by
  induction k generalizing s with
  | zero => cases hrun; rfl
  | succ k ih =>
    obtain ⟨(r : State), hstep, hrest⟩ := exists_step_of_run hrun
    obtain ⟨hmem, hin'⟩ := (movesTo_of_step hstep).inMem_of_no_input hin
    exact (ih hin' hrest).trans hmem

section InAhead

variable {p : Proc} {fuel idx : Nat}

theorem inAhead_frame (hin : s.hostIn ≠ []) (hproc : s.proc = some p) (hmover : mover s = some .audio) (hi : p.i < p.n) :
    inAhead (fuel + 1) idx s = inAhead fuel idx (frame (tick s).fpu p (tick s)) := by
  obtain ⟨e, es, hin⟩ := List.exists_cons_of_ne_nil hin
  have hsame : SameTraffic (tick { s with proc := some { p with i := p.i + 1 } }) (frame (tick s).fpu p (tick s)) :=
    sameTraffic_frame _ p (tick s)
  rw [← inAhead_congr fuel idx hsame, inAhead, hin, hproc, hmover]
  simp [hi]

theorem inAhead_control (hin : s.hostIn ≠ []) (hproc : s.proc = some p) (hmover : mover s = some .control)
    (h : runCommand .control s = .next t) : inAhead (fuel + 1) idx s = inAhead fuel idx t := by
  obtain ⟨e, es, hin⟩ := List.exists_cons_of_ne_nil hin
  rw [← inAhead_congr fuel idx (trafficKept_runCommand_control h).sameTraffic, inAhead, hin, hproc, hmover]

theorem inAhead_input {e : HostEvent} {es : List HostEvent} (hin : s.hostIn = e :: es) (hproc : s.proc = some p)
    (hmover : mover s = some .host) (he : e ≠ .reset) :
    inAhead (fuel + 1) idx s =
      if writesIndex idx e then
        Memory.read noInWord (afterInput e es s).inMem idx :: inAhead fuel idx (afterInput e es s)
      else inAhead fuel idx (afterInput e es s) := by
  rw [inAhead, hin, hproc, hmover]
  simp [he, afterInput, hproc]

/-- While the PROCESS in progress runs, IN_MEM holds at an index what it held or what `inAhead` lists. -/
theorem read_inMem_of_run {k : Nat} (hfuel : workLeft s ≤ fuel) (hreset : noReset s)
    (hrun : Host.Core.run Sys2Proof.core k s = .next t)
    (hbusy : ∀ j < k, ∃ r, Host.Core.run Sys2Proof.core j s = .next r ∧ r.proc.isSome = true) :
    Memory.read noInWord t.inMem idx ∈ Memory.read noInWord s.inMem idx :: inAhead fuel idx s := by
  induction k generalizing s fuel with
  | zero => cases hrun; exact List.mem_cons_self
  | succ k ih =>
    by_cases hin : s.hostIn = []
    · rw [inMem_of_run_of_no_input hin hrun]
      exact List.mem_cons_self
    obtain ⟨(r : State), hstep, hrest⟩ := exists_step_of_run hrun
    have hbusy' (j : Nat) (hj : j < k) :
        ∃ q, Host.Core.run Sys2Proof.core j r = .next q ∧ q.proc.isSome = true := by
      rw [← run_succ hstep]
      exact hbusy (j + 1) (Nat.succ_lt_succ hj)
    obtain ⟨p, hproc⟩ : ∃ p, s.proc = some p := by
      obtain ⟨q, hq, hsome⟩ := hbusy 0 (Nat.succ_pos k)
      cases hq
      exact Option.isSome_iff_exists.mp hsome
    -- the step uses up some of the work, so it leaves fuel for the rest
    have hstepFuel (hwork : workLeft r < workLeft s) : ∃ f, fuel = f + 1 ∧ workLeft r ≤ f :=
      ⟨fuel - 1, by omega, by omega⟩
    cases movesTo_of_step hstep with
    | idle hmover =>
      obtain ⟨a, ha⟩ := exists_mover (s := s) (a := .audio) ((canMove_audio_iff s).mpr (.inl (by rw [hproc]; rfl)))
      rw [hmover] at ha
      cases ha
    | proc p' _ hmover hproc' h =>
      obtain ⟨f, rfl, hf⟩ := hstepFuel (workLeft_proc hproc' h)
      have hmem : r.inMem = s.inMem := (continueProcess_traffic (s := tick s) hproc' h).1.inMem
      have hin' : r.hostIn = s.hostIn := (continueProcess_traffic (s := tick s) hproc' h).1.hostIn
      rcases continueProcess_cases h with ⟨hi, rfl⟩ | ⟨hi, rfl⟩
      · rw [inAhead_frame hin hproc' hmover hi, ← hmem]
        exact ih hf (fun e he => hreset e (hin' ▸ he)) hrest hbusy'
      · -- after the epilogue the window is closed
        cases k with
        | zero => cases hrest; exact List.mem_cons_self
        | succ k =>
          obtain ⟨q, hq, hsome⟩ := hbusy' 0 (Nat.succ_pos k)
          cases hq
          cases hsome
    | audio _ _ hnone _ => rw [hproc] at hnone; cases hnone
    | control _ hmover h =>
      obtain ⟨f, rfl, hf⟩ := hstepFuel (workLeft_control hmover h)
      have hkept := trafficKept_runCommand_control h
      have hmem : r.inMem = s.inMem := hkept.inMem
      have hin' : r.hostIn = s.hostIn := hkept.hostIn
      rw [inAhead_control hin hproc hmover h, ← hmem]
      exact ih hf (fun e he => hreset e (hin' ▸ he)) hrest hbusy'
    | input e es hmover hcons he =>
      obtain ⟨f, rfl, hf⟩ := hstepFuel (workLeft_afterInput hcons)
      have hreset' : noReset (afterInput e es s) := by
        rw [noReset, afterInput_hostIn]
        exact fun e' he' => hreset e' (hcons ▸ List.mem_cons_of_mem _ he')
      have hmem := ih hf hreset' hrest hbusy'
      rw [inAhead_input hcons hproc hmover he]
      split
      · exact List.mem_cons_of_mem _ hmem
      · rename_i hwrites
        rwa [read_afterInput_inMem (by simpa using hwrites)] at hmem
    | reset es hcons => exact absurd rfl (hreset _ (hcons ▸ List.mem_cons_self))

end InAhead

/-! ## OUT_MEM: what the issued audio commands leave there -/

section OutAhead

variable {fuel left idx : Nat}

/-- The window is closed once no issued command is left. -/
theorem outAhead_closed (hproc : s.proc = none) : outAhead fuel 0 idx s = [] := by
  cases fuel with
  | zero => rfl
  | succ fuel => rw [outAhead, if_pos ⟨rfl, hproc⟩]

theorem outAhead_audio (hmover : mover s = some .audio) (hopen : ¬ (left = 0 ∧ s.proc = none))
    (h : audioStep s = .next t) :
    outAhead (fuel + 1) left idx s =
      Memory.read none t.outMem idx :: outAhead fuel (if s.proc = none then left - 1 else left) idx t := by
  rw [outAhead, if_neg hopen, hmover]
  simp only [h]

theorem outAhead_control (hmover : mover s = some .control) (h : runCommand .control s = .next t) :
    outAhead (fuel + 1) left idx s = outAhead fuel left idx t := by
  by_cases hclosed : left = 0 ∧ s.proc = none
  · obtain ⟨rfl, hproc⟩ := hclosed
    rw [outAhead_closed hproc, outAhead_closed ((trafficKept_runCommand_control h).proc.trans hproc)]
  · rw [outAhead, if_neg hclosed, hmover]
    simp only [h]

theorem outAhead_input {e : HostEvent} {es : List HostEvent} (hmover : mover s = some .host) (hin : s.hostIn = e :: es)
    (he : e ≠ .reset) : outAhead (fuel + 1) left idx s = outAhead fuel left idx (afterInput e es s) := by
  by_cases hclosed : left = 0 ∧ s.proc = none
  · obtain ⟨rfl, hproc⟩ := hclosed
    rw [outAhead_closed hproc, outAhead_closed ((afterInput_proc e es s).trans hproc)]
  · rw [outAhead, if_neg hclosed, hmover]
    simp [hin, he, hostStep_cons hin he]

theorem issued_congr (h : t.audioQ = s.audioQ) : issued t = issued s := by rw [issued, h, issued]

/-- No reset and no further audio word is among the host's inputs still to come. -/
def noAudioInput (s : State) : Prop := ∀ e ∈ s.hostIn, e ≠ .reset ∧ ∀ w, e ≠ .push .audio w

theorem noAudioInput_congr (h : t.hostIn = s.hostIn) (hs : noAudioInput s) : noAudioInput t := by
  rwa [noAudioInput, h]

/-- OUT_MEM holds at an index what it held or what `outAhead` lists, in every run that issues no further audio command. -/
theorem read_outMem_of_run {k : Nat} (hinput : noAudioInput s) (hleft : issued s ≤ left)
    (hfuel : workLeft s + left * (s.build.maxBlock + 2) ≤ fuel) (hrun : Host.Core.run Sys2Proof.core k s = .next t) :
    Memory.read none t.outMem idx ∈ Memory.read none s.outMem idx :: outAhead fuel left idx s := by
  induction k generalizing s fuel left with
  | zero => cases hrun; exact List.mem_cons_self
  | succ k ih =>
    obtain ⟨(r : State), hstep, hrest⟩ := exists_step_of_run hrun
    have hnext {f l : Nat} (hbuild : r.build = s.build) (hinput' : noAudioInput r) (hleft' : issued r ≤ l)
        (hfuel' : workLeft r + l * (s.build.maxBlock + 2) ≤ f) :
        Memory.read none t.outMem idx ∈ Memory.read none r.outMem idx :: outAhead f l idx r :=
      ih hinput' hleft' (hbuild ▸ hfuel') hrest
    -- a step that takes no audio command uses up some of the work
    have hstepFuel (hwork : workLeft r < workLeft s) :
        ∃ f, fuel = f + 1 ∧ workLeft r + left * (s.build.maxBlock + 2) ≤ f := ⟨fuel - 1, by omega, by omega⟩
    cases movesTo_of_step hstep with
    | idle _ => exact ih hinput hleft hfuel hrest
    | proc p _ hmover hproc h =>
      have hkept := (continueProcess_traffic (s := tick s) hproc h).1
      obtain ⟨f, rfl, hf⟩ := hstepFuel (workLeft_proc hproc h)
      have hstep' : audioStep s = .next r := by rw [audioStep, hproc]; exact h
      rw [outAhead_audio hmover (by simp [hproc]) hstep', if_neg (by simp [hproc])]
      exact List.mem_cons_of_mem _ (hnext hkept.build (noAudioInput_congr hkept.hostIn hinput)
        ((issued_congr hkept.audioQ).trans_le hleft) hf)
    | audio _ hmover hproc h =>
      have hkept := (runCommand_audio_traffic hproc h).1
      have haudio : r.audioQ = s.audioQ.drop 3 := hkept.audioQ
      have hlength := length_of_mover_audio hmover hproc
      have hwork := workLeft_audio hproc h
      rw [issued] at hleft
      obtain ⟨l, rfl⟩ : ∃ l, left = l + 1 := ⟨left - 1, by omega⟩
      rw [Nat.succ_mul] at hfuel
      obtain ⟨f, rfl⟩ : ∃ f, fuel = f + 1 := ⟨fuel - 1, by omega⟩
      have hstep' : audioStep s = .next r := by rw [audioStep, hproc]; exact h
      rw [outAhead_audio hmover (by simp) hstep', if_pos hproc, Nat.add_sub_cancel]
      refine List.mem_cons_of_mem _ (hnext hkept.build (noAudioInput_congr hkept.hostIn hinput) ?_ (by omega))
      rw [issued, haudio, List.length_drop]
      omega
    | control _ hmover h =>
      have hkept := trafficKept_runCommand_control h
      have hout : r.outMem = s.outMem := hkept.outMem
      obtain ⟨f, rfl, hf⟩ := hstepFuel (workLeft_control hmover h)
      rw [outAhead_control hmover h, ← hout]
      exact hnext hkept.build (noAudioInput_congr hkept.hostIn hinput) ((issued_congr hkept.audioQ).trans_le hleft) hf
    | input e es hmover hcons he =>
      have hpush := (hinput e (hcons ▸ List.mem_cons_self)).2
      have hinput' : noAudioInput (afterInput e es s) := by
        rw [noAudioInput, afterInput_hostIn]
        exact fun e' he' => hinput e' (hcons ▸ List.mem_cons_of_mem _ he')
      obtain ⟨f, rfl, hf⟩ := hstepFuel (workLeft_afterInput hcons)
      rw [outAhead_input hmover hcons he, ← afterInput_outMem e es s]
      exact hnext (afterInput_build e es s) hinput' ((issued_congr (afterInput_audioQ hpush es s)).trans_le hleft) hf
    | reset es hcons => exact absurd rfl (hinput _ (hcons ▸ List.mem_cons_self)).1

end OutAhead

/-! ## What a read yields -/

/-- With no word overwritten and no PROCESS or no input of the host, nothing races at an IN_MEM index. -/
theorem inRace_eq_nil {idx : Nat} (hold : inOverwritten s idx = []) (hquiet : s.proc = none ∨ s.hostIn = []) :
    inRace s idx = [] := by
  rw [inRace, hold, List.nil_append]
  cases hproc : s.proc with
  | none => rfl
  | some p =>
    have hin : s.hostIn = [] := hquiet.resolve_left (by simp [hproc])
    cases stepsAhead s with
    | zero => rfl
    | succ fuel => simp [inAhead, hin]

theorem inRead_of_no_race {site idx : Nat} {lo hi : Word} (hrace : inRace s idx = [])
    (hword : Memory.read noInWord s.inMem idx = { lo := some lo, hi := some hi }) : inRead s site idx = hi ++ lo := by
  rw [inRead, hrace, hword]
  rfl

/-- With no PROCESS and no audio word, nothing races at an OUT_MEM index. -/
theorem outRace_eq_nil {idx : Nat} (hproc : s.proc = none) (hq : s.audioQ = []) : outRace s idx = [] := by
  have hissued : issued s = 0 := by rw [issued, hq]; rfl
  rw [outRace, hissued, outAhead_closed hproc, outOverwritten, hproc, List.append_nil]

theorem outRead_of_no_race {idx : Nat} {w : IoWord} (hrace : outRace s idx = [])
    (hword : Memory.read none s.outMem idx = some w) : outRead s idx = w := by
  rw [outRead, hrace, hword]
  rfl

/-- The word that a host write took away while an audio command waited is still admitted to that command. -/
theorem overwritten_mem_inRace {idx : Nat} (w : IoWord) (hq : s.audioQ ≠ []) (hidx : idx < ioSize s) :
    Memory.read noInWord s.inMem idx ∈ inRace (takeCommand .audio (hostWriteIn idx w s)) idx := by
  rw [hostWriteIn_inside s hidx]
  have hissued : issued s - 1 + 1 = issued s := by
    have hlength := List.length_pos_iff.mpr hq
    rw [issued]
    omega
  have hold : OldIn.mk idx (Memory.read noInWord s.inMem idx) (issued s - 1) ∈
      ageIn (putIn idx (wholeIn w) s).inOld := by
    rw [ageIn_mem]
    simp [putIn, hq, hissued]
  exact List.mem_append_left _ (List.mem_map.mpr ⟨_, List.mem_filter.mpr ⟨hold, beq_self_eq_true idx⟩, rfl⟩)

/-- From a frame on, IN_MEM holds at an index what it held or what races there, up to the completion. -/
theorem read_inMem_mem_inRace {m : State} {p : Proc} {idx k : Nat} (hproc : s.proc = some p) (hi : p.i < p.n)
    (hframe : continueProcess p s = .next m) (hreset : noReset s) (hrun : Host.Core.run Sys2Proof.core k m = .next t)
    (hbusy : ∀ j < k, ∃ r, Host.Core.run Sys2Proof.core j m = .next r ∧ r.proc.isSome = true) :
    Memory.read noInWord t.inMem idx ∈ Memory.read noInWord s.inMem idx :: inRace s idx := by
  obtain ⟨hkept, hsteps⟩ := continueProcess_traffic hproc hframe
  have hin : m.hostIn = s.hostIn := hkept.hostIn
  have hmem : m.inMem = s.inMem := hkept.inMem
  have hcontrol : m.controlQ = s.controlQ := hkept.controlQ
  have hfuel : workLeft m ≤ stepsAhead s := by
    have hwork := workLeft_le_stepsAhead s
    rw [workLeft] at hwork
    rw [workLeft, hcontrol, hin]
    omega
  have hread := read_inMem_of_run (idx := idx) hfuel (fun e he => hreset e (hin ▸ he)) hrun hbusy
  rcases continueProcess_cases hframe with ⟨-, rfl⟩ | ⟨hlast, -⟩
  · rw [← inAhead_congr _ idx (sameTraffic_frame s.fpu p s), hmem] at hread
    rw [inRace, hproc]
    rcases List.mem_cons.mp hread with hnow | hahead
    · exact List.mem_cons.mpr (.inl hnow)
    · exact List.mem_cons_of_mem _ (List.mem_append_right _ hahead)
  · omega

/-- OUT_MEM holds at an index what it held or what races there, in every run that issues no further audio command. -/
theorem read_outMem_mem_outRace {idx k : Nat} (hinput : noAudioInput s)
    (hrun : Host.Core.run Sys2Proof.core k s = .next t) :
    Memory.read none t.outMem idx ∈ Memory.read none s.outMem idx :: outRace s idx := by
  have hread := read_outMem_of_run (idx := idx) hinput (Nat.le_refl (issued s))
    (Nat.add_le_add_right (workLeft_le_stepsAhead s) _) hrun
  rcases List.mem_cons.mp hread with hnow | hahead
  · exact List.mem_cons.mpr (.inl hnow)
  · exact List.mem_cons_of_mem _ (List.mem_append_right _ hahead)

/-- Settles O60: a read picks one of the raced words, and the raced words hold what a run leaves. -/
theorem racesAdmitOldOrNew : Obligations.RacesAdmitOldOrNew := by
  intro s site idx
  exact ⟨⟨_, admitted_mem _ _ _, rfl⟩, fun w hw => admitted_surj _ _ w hw,
    ⟨_, admitted_mem _ _ _, rfl⟩, fun w hw => admitted_surj _ _ w hw,
    fun hproc hq _ hword => outRead_of_no_race (outRace_eq_nil hproc hq) hword,
    fun hold hquiet _ _ hword => inRead_of_no_race (inRace_eq_nil hold hquiet) hword,
    fun w hq hidx => overwritten_mem_inRace w hq hidx,
    fun _ _ hproc hi hframe hreset _ _ hrun hbusy => read_inMem_mem_inRace hproc hi hframe hreset hrun hbusy,
    fun hinput _ _ hrun => read_outMem_mem_outRace hinput hrun⟩

end Sys2Proof.Proofs
end

section
/-!
PROOFS. The decoder and the encoder (30_encoding.md R140 to R151, R170), and the step that runs a decoded command.

The one idea: a header word is its opcode plus the bits that its format reads, exactly where the format's fixed bits are 0;
so decoding and encoding are inverse to each other on the words that the format reads.
-/

namespace Sys2Proof.Proofs

open Sys2Proof Sys2Proof.Machine Sys2Proof.Laws

/-! ## The opcode map (R146, R147, R149) -/

theorem opcodeOf_code (o : Opcode) : opcodeOf o.code = some o := by cases o <;> rfl

theorem opcodeOf_eq_some_iff {op : Nat} {o : Opcode} : opcodeOf op = some o ↔ o.code = op := by
  constructor
  · intro h
    simpa using List.find?_some h
  · rintro rfl
    exact opcodeOf_code o

/-- The values of OP that R146 leaves out (R149). -/
theorem opcodeOf_eq_none_iff (op : Nat) :
    opcodeOf op = none ↔ (0x06 ≤ op ∧ op ≤ 0x0E) ∨ (0x1A ≤ op ∧ op ≤ 0x1F) ∨ 0x26 ≤ op := by
  simp only [opcodeOf, List.find?_eq_none, allOpcodes, List.forall_mem_cons, beq_iff_eq, Opcode.code, List.not_mem_nil,
    false_imp_iff, implies_true, and_true]
  omega

/-- The port column of R146 by the opcode's value (R147). -/
theorem acceptedOn_eq_false_iff (o : Opcode) (p : Port) :
    o.acceptedOn p = false ↔ (p = .control ∧ 0x01 ≤ o.code ∧ o.code ≤ 0x05) ∨ (p = .audio ∧ 0x10 ≤ o.code) := by
  cases p <;> cases o <;> decide

theorem opField_eq_extractLsb' (w0 : Word) : opField w0 = (w0.extractLsb' 0 8).toNat := by
  simp [opField]

/-! ## What the decoder answers (R148) -/

variable {p : Port} {c : Command}

theorem decode_of_opcodeOf_none (p : Port) (h : opcodeOf (opField c.w0) = none) :
    decode p c = .error .illegalOpcode := by
  simp only [decode, h]

theorem decode_of_opcodeOf_some (p : Port) {o : Opcode} (h : opcodeOf (opField c.w0) = some o) :
    decode p c = if o.acceptedOn p then
      (if headerOk o.format c.w0 then .ok (assemble o c) else .error .reservedField) else .error .wrongPort := by
  simp only [decode, h]

/-- What decoding a command finds, one case per answer of R148. -/
inductive DecodesTo (p : Port) (c : Command) : Decoded → Prop where
  | illegalOpcode (h : opcodeOf (opField c.w0) = none) : DecodesTo p c (.error .illegalOpcode)
  | wrongPort (o : Opcode) (h : opcodeOf (opField c.w0) = some o) (hport : o.acceptedOn p = false) :
      DecodesTo p c (.error .wrongPort)
  | reservedField (o : Opcode) (h : opcodeOf (opField c.w0) = some o) (hport : o.acceptedOn p = true)
      (hheader : headerOk o.format c.w0 = false) : DecodesTo p c (.error .reservedField)
  | ok (o : Opcode) (h : opcodeOf (opField c.w0) = some o) (hport : o.acceptedOn p = true)
      (hheader : headerOk o.format c.w0 = true) : DecodesTo p c (.ok (assemble o c))

theorem decodesTo_decode (p : Port) (c : Command) : DecodesTo p c (decode p c) := by
  cases h : opcodeOf (opField c.w0) with
  | none => rw [decode_of_opcodeOf_none p h]; exact .illegalOpcode h
  | some o =>
    rw [decode_of_opcodeOf_some p h]
    cases hport : o.acceptedOn p with
    | false => exact .wrongPort o h hport
    | true =>
      cases hheader : headerOk o.format c.w0 with
      | false => exact .reservedField o h hport hheader
      | true => exact .ok o h hport hheader

theorem decode_eq_illegalOpcode_iff :
    decode p c = .error .illegalOpcode ↔ opcodeOf (opField c.w0) = none := by
  refine ⟨fun h => ?_, decode_of_opcodeOf_none p⟩
  have hd := decodesTo_decode p c
  rw [h] at hd
  cases hd with
  | illegalOpcode hnone => exact hnone

theorem decode_eq_wrongPort_iff :
    decode p c = .error .wrongPort ↔ ∃ o, opcodeOf (opField c.w0) = some o ∧ o.acceptedOn p = false := by
  constructor
  · intro h
    have hd := decodesTo_decode p c
    rw [h] at hd
    cases hd with
    | wrongPort o ho hport => exact ⟨o, ho, hport⟩
  · rintro ⟨o, ho, hport⟩
    simp [decode_of_opcodeOf_some p ho, hport]

theorem decode_eq_reservedField_iff {o : Opcode} (ho : opcodeOf (opField c.w0) = some o)
    (hport : o.acceptedOn p = true) : decode p c = .error .reservedField ↔ headerOk o.format c.w0 = false := by
  rw [decode_of_opcodeOf_some p ho, if_pos hport]
  cases headerOk o.format c.w0 <;> simp

theorem decode_eq_ok {o : Opcode} (ho : opcodeOf (opField c.w0) = some o) (hport : o.acceptedOn p = true)
    (hheader : headerOk o.format c.w0 = true) : decode p c = .ok (assemble o c) := by
  rw [decode_of_opcodeOf_some p ho, if_pos hport, if_pos hheader]

/-! ## From a command to its words and back (R170) -/

/-- The header of every encoding names its opcode and meets its format: the family HeaderOpcode. -/
theorem headerOpcode (i : Instr) : HeaderOpcode.Statement i :=
  match i with
  | .nop => HeaderOpcode.nop
  | .process sw nin nout n => HeaderOpcode.process sw nin nout n
  | .resetPointers => HeaderOpcode.resetPointers
  | .clearBuffer => HeaderOpcode.clearBuffer
  | .filterReset => HeaderOpcode.filterReset
  | .setSampleRate a => HeaderOpcode.setSampleRate a
  | .clearErr => HeaderOpcode.clearErr
  | .setResampleRate a => HeaderOpcode.setResampleRate a
  | .setResampleLfo a b => HeaderOpcode.setResampleLfo a b
  | .setPlaybackRate a => HeaderOpcode.setPlaybackRate a
  | .setPlaybackLfo a b => HeaderOpcode.setPlaybackLfo a b
  | .setBitcrushAmount a => HeaderOpcode.setBitcrushAmount a
  | .setBitcrushLfo a b => HeaderOpcode.setBitcrushLfo a b
  | .setBitcrushOutputMix a => HeaderOpcode.setBitcrushOutputMix a
  | .setDryMix a => HeaderOpcode.setDryMix a
  | .setWetMix a => HeaderOpcode.setWetMix a
  | .setBypass on => HeaderOpcode.setBypass on
  | .limSetAttackUs a => HeaderOpcode.limSetAttackUs a
  | .limSetReleaseMs a => HeaderOpcode.limSetReleaseMs a
  | .limSetAttackNorm a => HeaderOpcode.limSetAttackNorm a
  | .limSetReleaseNorm a => HeaderOpcode.limSetReleaseNorm a
  | .limSetThreshold soft a => HeaderOpcode.limSetThreshold soft a
  | .limSetTrim a => HeaderOpcode.limSetTrim a

/-- The fields of an encoded PROCESS are its operands (R141, R144). -/
theorem assemble_encode_process (sw : Bool) (nin nout n : Nat)
    (h : (Instr.process sw nin nout n).wellFormed = true) :
    assemble .process (encode (.process sw nin nout n)) = .process sw nin nout n := by
  have hheader := HeaderOpcode.toNat_header_process sw nin nout n h
  simp only [Instr.wellFormed, ninFits, noutFits, lengthFits, Bool.and_eq_true, decide_eq_true_eq] at h
  have hflag : flagField (Instr.process sw nin nout n).header = sw := by
    rw [flagField, hheader]
    cases sw <;> simp [flagBits] <;> omega
  have hnin : ninField (Instr.process sw nin nout n).header = nin := by
    rw [ninField, hheader, flagBits]
    split <;> omega
  have hnout : noutField (Instr.process sw nin nout n).header = nout := by
    rw [noutField, hheader, flagBits]
    split <;> omega
  have hn : (BitVec.ofNat 32 n).toNat = n := by
    rw [BitVec.toNat_ofNat]
    omega
  simp only [assemble, encode, hflag, hnin, hnout, Instr.operandA, hn]

theorem assemble_encode (i : Instr) (h : i.wellFormed = true) : assemble i.opcode (encode i) = i := by
  cases i with
  | process sw nin nout n => exact assemble_encode_process sw nin nout n h
  | setBypass on => cases on <;> rfl
  | limSetThreshold soft a =>
    have hflag : flagField (BitVec.ofNat 32 (0x24 + flagBits soft)) = soft := by cases soft <;> rfl
    exact congrArg (Instr.limSetThreshold · a) hflag
  | _ => rfl

/-- Settles O1: the header names the opcode and meets the format, and the operands are read back. -/
theorem decodeEncodeRoundTrip : Obligations.DecodeEncodeRoundTrip := by
  intro i p hwf hport
  obtain ⟨hop, hheader⟩ := headerOpcode i hwf
  have ho : opcodeOf (opField (encode i).w0) = some i.opcode := by rw [hop, opcodeOf_code]
  rw [decode_eq_ok ho hport hheader, assemble_encode i hwf]

/-! ## From the words to a command and back (R141 to R144) -/

/-- What a format reads of the header above OP, in place (R141, R142). -/
def fieldBits : Format → Word → Nat
  | .cn, _ | .ca, _ | .cab, _ => 0
  | .cf, w0 | .caf, w0 => flagBits (flagField w0)
  | .cp, w0 => flagBits (flagField w0) + ninField w0 * 65536 + noutField w0 * 16777216

theorem header_assemble (o : Opcode) (c : Command) :
    (assemble o c).header = BitVec.ofNat 32 (o.code + fieldBits o.format c.w0) := by
  cases o <;> rfl

theorem flagBits_flagField (w0 : Word) : flagBits (flagField w0) = w0.toNat / 256 % 2 * 256 := by
  unfold flagBits flagField
  rcases Nat.mod_two_eq_zero_or_one (w0.toNat / 256) with h | h <;> simp [h]

/-- A header whose fixed bits are 0 is its opcode plus what its format reads. -/
theorem toNat_of_headerOk {f : Format} {w0 : Word} (h : headerOk f w0 = true) :
    w0.toNat = opField w0 + fieldBits f w0 := by
  cases f <;>
    simp only [headerOk, fieldBits, beq_iff_eq, flagBits_flagField, opField, ninField, noutField] at h ⊢ <;>
    omega

/-- The header of a decoded command is the one it was decoded from. -/
theorem header_assemble_of_headerOk {o : Opcode} (ho : opcodeOf (opField c.w0) = some o)
    (hheader : headerOk o.format c.w0 = true) : (assemble o c).header = c.w0 := by
  rw [header_assemble, opcodeOf_eq_some_iff.mp ho, ← toNat_of_headerOk hheader, BitVec.ofNat_toNat, BitVec.setWidth_eq]

/-- Operand A is read by every format but CN and CF (R142). -/
theorem operandA_assemble {o : Opcode} (c : Command)
    (h : o.format = .ca ∨ o.format = .cab ∨ o.format = .caf ∨ o.format = .cp) : (assemble o c).operandA = c.w1 := by
  cases o with
  | process => exact (BitVec.ofNat_toNat 32 c.w1).trans (BitVec.setWidth_eq c.w1)
  | nop | resetPointers | clearBuffer | filterReset | clearErr | setBypass => simp [Opcode.format] at h
  | _ => rfl

/-- Operand B is read by CAB alone (R142). -/
theorem operandB_assemble {o : Opcode} (c : Command) (h : o.format = .cab) : (assemble o c).operandB = c.w2 := by
  cases o with
  | setResampleLfo | setPlaybackLfo | setBitcrushLfo => rfl
  | _ => cases h

/-- The fields of PROCESS fit their encoding, as they are read from it (R144). -/
theorem wellFormed_assemble (o : Opcode) (c : Command) : (assemble o c).wellFormed = true := by
  cases o with
  | process =>
    have hw0 := c.w0.isLt
    have hw1 := c.w1.isLt
    simp only [assemble, Instr.wellFormed, ninFits, noutFits, lengthFits, ninField, noutField, Bool.and_eq_true,
      decide_eq_true_eq]
    omega
  | _ => rfl

theorem wellFormed_of_decode {i : Instr} (h : decode p c = .ok i) : i.wellFormed = true := by
  have hd := decodesTo_decode p c
  rw [h] at hd
  cases hd with
  | ok o => exact wellFormed_assemble o c

/-- Settles O2: the header is its opcode plus what its format reads, and the operands are the words read. -/
theorem encodeDecodeRoundTrip : Obligations.EncodeDecodeRoundTrip := by
  intro p c i h
  refine ⟨wellFormed_of_decode h, acceptedOn_of_decode h, ?_⟩
  have hd := decodesTo_decode p c
  rw [h] at hd
  cases hd with
  | ok o ho hport hheader =>
    rw [assemble_opcode]
    exact ⟨header_assemble_of_headerOk ho hheader, operandA_assemble c, operandB_assemble c⟩

/-! ## The errors and the ignored words (R147 to R151) -/

/-- Settles O4: the opcode map and its port column, as ranges of OP. -/
theorem illegalOpcodesAndWrongPorts : Obligations.IllegalOpcodesAndWrongPorts := by
  intro p c
  rw [← opField_eq_extractLsb', decode_eq_illegalOpcode_iff, decode_eq_wrongPort_iff]
  have hlegal := opcodeOf_eq_none_iff (opField c.w0)
  refine ⟨hlegal, ?_⟩
  cases ho : opcodeOf (opField c.w0) with
  | none =>
    have hrange := hlegal.mp ho
    simp only [reduceCtorEq, false_and, exists_false, false_iff]
    omega
  | some o =>
    have hrange := hlegal.not.mp (by simp [ho])
    have hcode := opcodeOf_eq_some_iff.mp ho
    simp only [Option.some.injEq, exists_eq_left', acceptedOn_eq_false_iff, hcode]
    cases p
    · simp
      omega
    · simp

/-- The fixed bits of a format, field by field (R142, R150). -/
theorem headerOk_eq_false_iff (f : Format) (w0 : Word) :
    headerOk f w0 = false ↔
      (w0.extractLsb' 9 7 ≠ 0#7 ∨ (w0.getLsbD 8 = true ∧ (f = .cn ∨ f = .ca ∨ f = .cab)) ∨
        ((w0.extractLsb' 16 8 ≠ 0#8 ∨ w0.extractLsb' 24 8 ≠ 0#8) ∧ f ≠ .cp)) := by
  have hw0 := w0.isLt
  have hfield (start len : Nat) : w0.extractLsb' start len = 0#len ↔ w0.toNat / 2 ^ start % 2 ^ len = 0 := by
    rw [← BitVec.toNat_inj, BitVec.extractLsb'_toNat, Nat.shiftRight_eq_div_pow, BitVec.toNat_ofNat, Nat.zero_mod]
  rw [BitVec.getLsbD, Nat.testBit_eq_decide_div_mod_eq]
  cases f <;> simp [headerOk, hfield] <;> omega

/-- Settles O5: the fixed bits of the opcode's format. -/
theorem reservedFields : Obligations.ReservedFields := by
  intro p c o ho hport
  rw [← opField_eq_extractLsb'] at ho
  rw [decode_eq_reservedField_iff ho hport, headerOk_eq_false_iff]

/-- A command depends on the words that its opcode's format reads (R151). -/
theorem assemble_congr {o : Opcode} {c d : Command} (h0 : c.w0 = d.w0)
    (h1 : o.format ≠ .cn → o.format ≠ .cf → c.w1 = d.w1) (h2 : o.format = .cab → c.w2 = d.w2) :
    assemble o c = assemble o d := by
  cases o with
  | nop | resetPointers | clearBuffer | filterReset | clearErr => rfl
  | setBypass => simp only [assemble, h0]
  | process | limSetThreshold => simp only [assemble, h0, h1 nofun nofun]
  | setResampleLfo | setPlaybackLfo | setBitcrushLfo => simp only [assemble, h1 nofun nofun, h2 rfl]
  | _ => simp only [assemble, h1 nofun nofun]

/-- The decoding depends on the words that the opcode's format reads (R151). -/
theorem decode_congr (p : Port) {o : Opcode} {c d : Command} (ho : opcodeOf (opField c.w0) = some o) (h0 : c.w0 = d.w0)
    (h1 : o.format ≠ .cn → o.format ≠ .cf → c.w1 = d.w1) (h2 : o.format = .cab → c.w2 = d.w2) :
    decode p c = decode p d := by
  rw [decode_of_opcodeOf_some p ho, decode_of_opcodeOf_some p (h0 ▸ ho), assemble_congr h0 h1 h2, h0]

/-- Settles O6: a decoding depends on the words that its format reads. -/
theorem ignoredWords : Obligations.IgnoredWords := by
  intro p w0 w1 w2 v1 v2 o ho
  constructor
  · intro hformat
    exact decode_congr p ho rfl (fun hcn hcf => (hformat.elim hcn hcf).elim) (fun hcab => by simp [hcab] at hformat)
  · intro hformat
    exact decode_congr p ho rfl (fun _ _ => rfl) (fun hcab => by simp [hcab] at hformat)

/-! ## Words and lines of the spec -/

/-- Settles O7: the words are the encodings of the commands; the last have operand words that CN ignores (R151). -/
theorem decodeWordsOfSpec : Obligations.DecodeWordsOfSpec := by
  refine ⟨decodeEncodeRoundTrip (.setResampleRate 0x00000000#32) .control rfl rfl,
    decodeEncodeRoundTrip (.process false 2 2 64) .audio rfl rfl,
    decodeEncodeRoundTrip (.process true 1 2 16) .audio rfl rfl,
    decodeEncodeRoundTrip (.setResampleLfo 0x3F000000#32 0x3E800000#32) .control rfl rfl,
    decodeEncodeRoundTrip (.setBypass true) .control rfl rfl,
    decodeEncodeRoundTrip (.limSetThreshold true 0x3F000000#32) .control rfl rfl,
    decodeEncodeRoundTrip (.setSampleRate 0x473B8000#32) .audio rfl rfl, ?_⟩
  calc decode .audio ⟨0x00000002#32, 0xDEADBEEF#32, 0xDEADBEEF#32⟩
      = decode .audio ⟨0x00000002#32, 0#32, 0#32⟩ := (ignoredWords .audio _ _ _ _ _ .resetPointers rfl).1 (.inl rfl)
    _ = .ok .resetPointers := decodeEncodeRoundTrip .resetPointers .audio rfl rfl

/-- Settles O8: the lines are fixed text, so the assembler is evaluated on each. -/
theorem assemblerLinesOfSpec : Obligations.AssemblerLinesOfSpec := by
  and_intros <;> decide +kernel

/-! ## The step of a decoded command (R105, R148) -/

theorem queueOf_takeCommand (p : Port) (s : State) : queueOf p (takeCommand p s) = (queueOf p s).drop 3 := by
  cases p <;> rfl

/-- Where a port moves, it holds a whole command (20_memory.md R108). -/
theorem length_of_mover {s : State} (hmover : mover s = some (agentOf p)) (hproc : p = .audio → s.proc = none) :
    3 ≤ (queueOf p s).length := by
  cases p with
  | audio => exact length_of_mover_audio hmover (hproc rfl)
  | control => exact length_of_mover_control hmover

/-- Where a port moves, the step runs the command at its head. -/
theorem step_of_port_mover {s : State} (hmover : mover s = some (agentOf p)) (hproc : p = .audio → s.proc = none) :
    step s = runCommand p s := by
  rw [step_of_mover s _ hmover]
  cases p with
  | audio => simp only [agentOf, agentStep, audioStep, hproc rfl]
  | control => rfl

theorem runCommand_of_decode {s : State} {i : Instr} (hfatal : s.status.fatal = false)
    (h : decode p (headCommand p s) = .ok i) : runCommand p s = exec i (takeCommand p s) := by
  simp [runCommand, hfatal, h]

/-- Settles O9: the port that moves runs its head command on the state with the three words taken. -/
theorem stepRunsDecoded : Obligations.StepRunsDecoded := by
  intro s p i hmover hproc hfatal h
  refine ⟨wellFormed_of_decode h, length_of_mover hmover hproc, ?_, queueOf_takeCommand p s, ?_⟩
  · rw [step_of_port_mover hmover hproc, runCommand_of_decode hfatal h]
  · cases p <;> rfl

end Sys2Proof.Proofs
end

section
/-!
PROOFS. The conversions between operand words, samples and FMT values (00_scope.md R16; 30_encoding.md R143).

The one idea: a conversion is either the same sign and magnitude, or the one rounding of the exact value; and every
binary32 value is a binary64 value, so that rounding an operand word to FMT changes nothing.
-/

namespace Sys2Proof.Proofs

open Sys2Proof Sys2Proof.Machine Sys2Proof.Laws

/-! ## The rounding of a number to a format -/

/-- The overflow bound is the midpoint between the largest finite pattern and infinity. -/
theorem overflowBound_eq (f : Fmt) :
    overflowBound f * (2 * 2 ^ unitExp f) = ((unitsOf f (infMag f - 1) + unitsOf f (infMag f) : Nat) : ℚ) := by
  cases f with
  | binary32 =>
    have hmid : unitsOf .binary32 (infMag .binary32 - 1) + unitsOf .binary32 (infMag .binary32) =
        33554431 * 2 ^ 103 * (2 * 2 ^ 149) := by decide +kernel
    have hodd : (2 ^ 25 - 1 : ℚ) = 33554431 := by norm_num
    rw [hmid, overflowBound, unitExp, hodd]
    simp only [Nat.cast_mul, Nat.cast_pow, Nat.cast_ofNat]
  | binary64 =>
    have hmid : unitsOf .binary64 (infMag .binary64 - 1) + unitsOf .binary64 (infMag .binary64) =
        18014398509481983 * 2 ^ 970 * (2 * 2 ^ 1074) := by decide +kernel
    have hodd : (2 ^ 54 - 1 : ℚ) = 18014398509481983 := by norm_num
    rw [hmid, overflowBound, unitExp, hodd]
    simp only [Nat.cast_mul, Nat.cast_pow, Nat.cast_ofNat]

theorem abs_signedUnits (s : Bool) (n : Nat) : |(Fpu.signedUnits s n : ℚ)| = n := by
  cases s <;> simp [Fpu.signedUnits]

/-- A quotient of units rounds to a finite pattern exactly below the overflow bound. -/
theorem abs_lt_overflowBound_iff (f : Fmt) (s : Bool) (num : Nat) {den : Nat} (hd : 0 < den) :
    |(Fpu.signedUnits s num : ℚ) / den / 2 ^ unitExp f| < overflowBound f ↔ roundQ f num den < infMag f := by
  have hden : (0 : ℚ) < den := by exact_mod_cast hd
  have hunit : (0 : ℚ) < 2 ^ unitExp f := by positivity
  have hinf := roundQ_eq_infMag_iff f num den hd
  have hle := roundQ_le_inf f num den
  have hmid := overflowBound_eq f
  rw [abs_div, abs_div, abs_signedUnits, abs_of_pos hden, abs_of_pos hunit, div_div, div_lt_iff₀ (by positivity),
    show roundQ f num den < infMag f ↔ ¬ roundQ f num den = infMag f by omega, hinf, not_le]
  rw [← Nat.cast_lt (α := ℚ), Nat.cast_mul _ den, ← hmid, Nat.cast_mul, Nat.cast_ofNat]
  constructor <;> intro h <;> nlinarith

/-- On a tie with a pattern of the other sign the rounding answers zero or ties with zero, so an even pattern. -/
theorem roundQ_even_of_tie_not (f : Fmt) (s : Bool) (num den : Nat) (hd : 0 < den)
    (hfin : roundQ f num den < infMag f) {m : Nat}
    (heq : |Fpu.signedUnits (!s) (unitsOf f m) * den - Fpu.signedUnits s num| =
      |Fpu.signedUnits s (unitsOf f (roundQ f num den)) * den - Fpu.signedUnits s num|) :
    roundQ f num den % 2 = 0 := by
  rw [abs_signedUnits_sub_same] at heq
  have hfar := le_abs_signedUnits_sub_not s (unitsOf f m) den num
  have hzero : |(unitsOf f 0 * den : ℤ) - num| = num := by simp [unitsOf_zero]
  have hnear := roundQ_nearest f num den hd hfin 0
  rcases Nat.eq_zero_or_pos (roundQ f num den) with h | h
  · rw [h]
  · exact roundQ_even_of_tie f num den hd hfin h.ne (by omega)

/-- A finite rounding that ties with another value is even. -/
theorem roundQ_even_of_tie_signed (f : Fmt) (s t : Bool) (num den : Nat) (hd : 0 < den)
    (hfin : roundQ f num den < infMag f) {m : Nat}
    (hne : Fpu.signedUnits t (unitsOf f m) ≠ Fpu.signedUnits s (unitsOf f (roundQ f num den)))
    (heq : |Fpu.signedUnits t (unitsOf f m) * den - Fpu.signedUnits s num| =
      |Fpu.signedUnits s (unitsOf f (roundQ f num den)) * den - Fpu.signedUnits s num|) :
    roundQ f num den % 2 = 0 := by
  rcases Bool.eq_or_eq_not t s with rfl | rfl
  · rw [abs_signedUnits_sub_same, abs_signedUnits_sub_same] at heq
    exact roundQ_even_of_tie f num den hd hfin (fun h => hne (by rw [h])) heq.symm
  · exact roundQ_even_of_tie_not f s num den hd hfin heq

/-- The model's rounding of a signed quotient of units is that number rounded to nearest even (00_scope.md R14). -/
theorem roundedTo_rounded (u : Fpu) (s : Bool) (num den : Nat) (hd : 0 < den) :
    RoundedTo u.fmt (u.rounded s num den) s ((Fpu.signedUnits s num : ℚ) / den / 2 ^ unitExp u.fmt) where
  sign := by
    have hle := roundQ_le_inf u.fmt num den
    have hlt := infMag_lt_signWeight u.fmt
    exact signOf_packMag _ _ _ (by omega)
  finite := by rw [isFinite_rounded_iff, abs_lt_overflowBound_iff _ _ _ hd]
  overflow h := by
    rw [numOf_rounded, if_neg]
    rwa [← abs_lt_overflowBound_iff _ s _ hd, not_lt]
  near := nearest_rounded u s num den hd
  even hfin c hc hne heq := by
    have hden : (0 : ℚ) < den := by exact_mod_cast hd
    have hunit : (0 : ℚ) < 2 ^ unitExp u.fmt := by positivity
    have hround := (isFinite_rounded_iff u s num den).mp hfin
    have hlt := infMag_lt_signWeight u.fmt
    rw [valueOf_rounded u s num den hround, valueOf_of_numOf (numOf_of_isFinite _ c hc)] at hne heq
    rw [abs_div_sub_div _ _ hden hunit, abs_div_sub_div _ _ hden hunit, div_left_inj' (by positivity)] at heq
    rw [Fpu.rounded, magOf_packMag _ _ _ (by omega)]
    refine roundQ_even_of_tie_signed u.fmt s (signOf u.fmt c) num den hd hround (m := magOf u.fmt c) ?_ ?_
    · exact fun h => hne (by rw [h])
    · exact_mod_cast heq

/-! ## Conversions between formats -/

/-- A conversion of a finite value is the one rounding of its exact value. -/
theorem convert_of_fin (u : Fpu) (src dst : Fmt) {v : F} {s : Bool} {n : Nat} (h : numOf src v = .fin s n) :
    convert u src dst v = (configFpu dst 0).rounded s (n * 2 ^ unitExp dst) (2 ^ unitExp src) := by
  rw [convert, h]
  rfl

theorem convert_of_inf (u : Fpu) (src dst : Fmt) {v : F} {s : Bool} (h : numOf src v = .inf s) :
    convert u src dst v = packMag dst s (infMag dst) := by
  rw [convert, h]

theorem convert_of_nan (u : Fpu) (src dst : Fmt) {v : F} (h : numOf src v = .nan) :
    convert u src dst v = quietNaN dst (u.nanBits .convert v v) := by
  rw [convert, h]

/-- Equal fractions stay equal under a sign. -/
theorem signedUnits_div_eq (s : Bool) {m n a b : Nat} (ha : 0 < a) (hb : 0 < b) (h : m * b = n * a) :
    (Fpu.signedUnits s m : ℚ) / a = (Fpu.signedUnits s n : ℚ) / b := by
  rw [div_eq_div_iff (by positivity) (by positivity)]
  have hcast : (m : ℚ) * b = n * a := by exact_mod_cast h
  cases s
  · simpa [Fpu.signedUnits] using hcast
  · simpa [Fpu.signedUnits] using hcast

theorem converted_convert (u : Fpu) (src dst : Fmt) (v : F) : Converted src dst v (convert u src dst v) where
  finite h := by
    have hnum := numOf_of_isFinite src v h
    have hround := roundedTo_rounded (configFpu dst 0) (signOf src v)
      (unitsOf src (magOf src v) * 2 ^ unitExp dst) (2 ^ unitExp src) (Nat.two_pow_pos _)
    have hsrc := Nat.two_pow_pos (unitExp src)
    have hvalue := signedUnits_div_eq (signOf src v) (Nat.mul_pos hsrc (Nat.two_pow_pos (unitExp dst))) hsrc
      (show unitsOf src (magOf src v) * 2 ^ unitExp dst * 2 ^ unitExp src =
        unitsOf src (magOf src v) * (2 ^ unitExp src * 2 ^ unitExp dst) by ring)
    rw [Nat.cast_mul, ← div_div] at hvalue
    push_cast at hvalue hround
    rw [convert_of_fin u src dst hnum, valueOf_of_numOf hnum, ← hvalue]
    exact hround
  infinite s h := by rw [convert_of_inf u src dst h, numOf_packMag_inf]
  nan h := by rw [convert_of_nan u src dst ((numOf_nan_iff src v).mpr h), isNaN_quietNaN]

/-- A conversion answers a pattern of the format it converts to. -/
theorem toNat_convert_lt (u : Fpu) (src dst : Fmt) (v : F) : (convert u src dst v).toNat < 2 ^ fmtWidth dst := by
  have hpack (s : Bool) {m : Nat} (hm : m ≤ infMag dst) : (packMag dst s m).toNat < 2 ^ fmtWidth dst := by
    have hlt := infMag_lt_signWeight dst
    have hwidth : 2 ^ fmtWidth dst = signWeight dst + signWeight dst := by cases dst <;> decide
    rw [toNat_packMag dst s m (by omega), hwidth]
    split <;> omega
  cases h : numOf src v with
  | fin s n => rw [convert_of_fin u src dst h]; exact hpack s (roundQ_le_inf _ _ _)
  | inf s => rw [convert_of_inf u src dst h]; exact hpack s le_rfl
  | nan =>
    rw [convert_of_nan u src dst h, quietNaN, BitVec.toNat_ofNat]
    have hpayload := Nat.mod_lt (u.nanBits .convert v v).toNat (Nat.two_pow_pos (fracBits dst - 1))
    cases dst <;> simp only [infMag, fracBits, signWeight, fmtWidth] at * <;> split <;> omega

/-! ## Conversions within a format -/

/-- A finite value of the format lies below the overflow bound. -/
theorem abs_valueOf_lt_overflowBound {f : Fmt} {v : F} (h : isFinite f v = true) : |valueOf f v| < overflowBound f := by
  have hmag : magOf f v < infMag f := by simpa [isFinite] using h
  have hexact := roundQ_exact f (magOf f v) 1 Nat.one_pos hmag.le
  rw [Nat.mul_one] at hexact
  have hiff := abs_lt_overflowBound_iff f (signOf f v) (unitsOf f (magOf f v)) Nat.one_pos
  rw [hexact, Nat.cast_one, div_one] at hiff
  rw [valueOf_of_numOf (numOf_of_isFinite f v h)]
  exact hiff.mpr hmag

/-- A finite value is its own rounding. -/
theorem roundedTo_valueOf {f : Fmt} {v : F} (h : isFinite f v = true) : RoundedTo f v (signOf f v) (valueOf f v) where
  sign := rfl
  finite := iff_of_true h (abs_valueOf_lt_overflowBound h)
  overflow hle := absurd (abs_valueOf_lt_overflowBound h) (not_lt.mpr hle)
  near _ := nearest_of_valueOf_eq rfl
  even _ c _ hne heq := by
    rw [sub_self, abs_zero, abs_eq_zero, sub_eq_zero] at heq
    exact absurd heq hne

theorem converted_self (f : Fmt) (v : F) : Converted f f v v where
  finite := roundedTo_valueOf
  infinite _ h := h
  nan h := h

/-- What a pattern stands for is in the bits of its format. -/
theorem magOf_fmtMask (f : Fmt) (v : F) : magOf f (fmtMask f v) = magOf f v := by
  cases f <;> simp only [magOf, fmtMask, signWeight, fmtWidth, BitVec.toNat_ofNat] <;> omega

theorem signOf_fmtMask (f : Fmt) (v : F) : signOf f (fmtMask f v) = signOf f v := by
  rw [signOf, signOf, Bool.eq_iff_iff, beq_iff_eq, beq_iff_eq]
  cases f <;> simp only [fmtMask, signWeight, fmtWidth, BitVec.toNat_ofNat] <;> omega

theorem converted_fmtMask (f : Fmt) (v : F) : Converted f f v (fmtMask f v) := by
  have hnum : numOf f (fmtMask f v) = numOf f v := by
    simp only [numOf, magOf_fmtMask, signOf_fmtMask]
  have hvalue : valueOf f (fmtMask f v) = valueOf f v := by rw [valueOf, valueOf, hnum]
  refine ⟨fun h => ?_, fun s h => hnum.trans h, fun h => ?_⟩
  · rw [← signOf_fmtMask, ← hvalue]
    apply roundedTo_valueOf
    rwa [isFinite, magOf_fmtMask]
  · rwa [isNaN, magOf_fmtMask]

/-! ## Operand words are exact (R143) -/

/-- A significand of at most the format's width times a power of two is the units of a pattern: shift it up until it is
normalised or in the lowest binade. -/
theorem exists_unitsOf_eq (f : Fmt) (e : Nat) {m : Nat} (hm : m < 2 * 2 ^ fracBits f) :
    ∃ mag, unitsOf f mag = m * 2 ^ e := by
  induction e generalizing m with
  | zero => exact ⟨_, unitsOf_binade f 0 m hm.le (.inl rfl)⟩
  | succ e ih =>
    by_cases hnormal : 2 ^ fracBits f ≤ m
    · exact ⟨_, unitsOf_binade f (e + 1) m hm.le (.inr hnormal)⟩
    · obtain ⟨mag, hmag⟩ := ih (m := 2 * m) (by omega)
      exact ⟨mag, by rw [hmag, Nat.pow_succ]; ring⟩

/-- Every finite binary32 value is a finite binary64 value. -/
theorem exists_binary64_of_binary32 {mag : Nat} (h : mag < infMag .binary32) :
    ∃ wide, wide < infMag .binary64 ∧
      unitsOf .binary64 wide * 2 ^ unitExp .binary32 = unitsOf .binary32 mag * 2 ^ unitExp .binary64 := by
  obtain ⟨e, m, rfl, hm, he⟩ := binade_of .binary32 mag
  obtain ⟨shift, hshift⟩ : ∃ shift, unitExp .binary64 = shift + unitExp .binary32 := ⟨925, rfl⟩
  have hshort : m < 2 * 2 ^ fracBits .binary64 := hm.trans (by decide)
  obtain ⟨wide, hwide⟩ := exists_unitsOf_eq .binary64 (e + shift) hshort
  have heq : unitsOf .binary64 wide * 2 ^ unitExp .binary32 =
      unitsOf .binary32 (e * 2 ^ fracBits .binary32 + m) * 2 ^ unitExp .binary64 := by
    rw [hwide, unitsOf_binade .binary32 e m hm.le he, hshift, Nat.pow_add, Nat.pow_add]
    ring
  refine ⟨wide, ?_, heq⟩
  have hrange : unitsOf .binary32 (infMag .binary32) * 2 ^ unitExp .binary64 <
      unitsOf .binary64 (infMag .binary64) * 2 ^ unitExp .binary32 := by decide +kernel
  by_contra hle
  have hwiden := Nat.mul_le_mul_right (2 ^ unitExp .binary32) (unitsOf_mono .binary64 (Nat.le_of_not_lt hle))
  have hnarrow := Nat.mul_le_mul_right (2 ^ unitExp .binary64) (unitsOf_mono .binary32 h.le)
  omega

/-- A finite binary32 pattern converted to binary64 keeps its value. -/
theorem convert_binary64_exact (u : Fpu) {v : F} (h : isFinite .binary32 v = true) :
    isFinite .binary64 (convert u .binary32 .binary64 v) = true ∧
      valueOf .binary64 (convert u .binary32 .binary64 v) = valueOf .binary32 v := by
  have hnum := numOf_of_isFinite .binary32 v h
  obtain ⟨wide, hwide, hunits⟩ := exists_binary64_of_binary32 (by simpa [isFinite] using h)
  have hround := roundQ_exact .binary64 wide (2 ^ unitExp .binary32) (Nat.two_pow_pos _) hwide.le
  rw [hunits] at hround
  have hconvert : convert u .binary32 .binary64 v = packMag .binary64 (signOf .binary32 v) wide := by
    rw [convert, hnum]
    simp only [hround]
  have hwideNum := numOf_packMag .binary64 (signOf .binary32 v) wide hwide
  have hlt := infMag_lt_signWeight .binary64
  rw [hconvert, isFinite, magOf_packMag _ _ _ (hwide.trans hlt), decide_eq_true_eq, valueOf_of_numOf hwideNum,
    valueOf_of_numOf hnum]
  refine ⟨hwide, ?_⟩
  exact_mod_cast signedUnits_div_eq (signOf .binary32 v) (Nat.two_pow_pos _) (Nat.two_pow_pos _) hunits

/-! ## The conversions of the block (00_scope.md R16) -/

theorem toFmt32_binary32 (u : Fpu) (w : Word) (h : u.fmt = .binary32) : toFmt32 u w = w.setWidth 64 := by
  simp [toFmt32, h]

theorem fromFmt_same_narrow (u : Fpu) (v : F) (h : u.fmt = .binary32) : fromFmt u false v = fmtMask .binary32 v := by
  simp [fromFmt, h]

theorem fromFmt_same_wide (u : Fpu) (v : F) (h : u.fmt = .binary64) : fromFmt u true v = v := by
  simp [fromFmt, h]

theorem toFmt32_exact (u : Fpu) (w : Word) (h : isFinite .binary32 (w.setWidth 64) = true) :
    isFinite u.fmt (toFmt32 u w) = true ∧ valueOf u.fmt (toFmt32 u w) = valueOf .binary32 (w.setWidth 64) := by
  cases hfmt : u.fmt with
  | binary32 => rw [toFmt32_binary32 u w hfmt]; exact ⟨h, rfl⟩
  | binary64 => rw [toFmt32_binary64 u w hfmt]; exact convert_binary64_exact u h

theorem converted_toFmt32 (u : Fpu) (w : Word) : Converted .binary32 u.fmt (w.setWidth 64) (toFmt32 u w) := by
  cases hfmt : u.fmt with
  | binary32 => rw [toFmt32_binary32 u w hfmt]; exact converted_self _ _
  | binary64 => rw [toFmt32_binary64 u w hfmt]; exact converted_convert u _ _ _

theorem converted_fromFmt_narrow (u : Fpu) (v : F) : Converted u.fmt .binary32 v (fromFmt u false v) := by
  cases hfmt : u.fmt with
  | binary32 => rw [fromFmt_same_narrow u v hfmt]; exact converted_fmtMask _ _
  | binary64 => rw [fromFmt_narrower u v hfmt]; exact converted_convert u _ _ _

theorem converted_fromFmt_wide (u : Fpu) (v : F) : Converted u.fmt .binary64 v (fromFmt u true v) := by
  cases hfmt : u.fmt with
  | binary32 => rw [fromFmt_wider u v hfmt]; exact converted_convert u _ _ _
  | binary64 => rw [fromFmt_same_wide u v hfmt]; exact converted_self _ _

/-- A sample of 32 bits lies in the low half of its word. -/
theorem toNat_fromFmt_narrow_lt (u : Fpu) (v : F) : (fromFmt u false v).toNat < 2 ^ 32 := by
  cases hfmt : u.fmt with
  | binary32 =>
    rw [fromFmt_same_narrow u v hfmt, fmtMask, BitVec.toNat_ofNat]
    simp only [fmtWidth]
    omega
  | binary64 => rw [fromFmt_narrower u v hfmt]; exact toNat_convert_lt u .binary64 .binary32 v

theorem toFmt_narrow (u : Fpu) (x : IoWord) : toFmt u false x = toFmt32 u (x.extractLsb' 0 32) := by
  have hlow : x.setWidth 32 = x.extractLsb' 0 32 := BitVec.eq_of_toNat_eq (by simp)
  simp only [toFmt, Bool.false_eq_true, if_false, hlow]

/-- Settles O50: a conversion keeps the pattern or rounds the exact value, and binary32 values are binary64 values. -/
theorem operandConversionExact : Obligations.OperandConversionExact := by
  intro u w x v
  refine ⟨toFmt32_exact u w, converted_toFmt32 u w, converted_convert u _ _ _, toFmt_narrow u x, rfl,
    converted_fromFmt_narrow u v, ?_, converted_fromFmt_wide u v⟩
  apply BitVec.eq_of_toNat_eq
  rw [BitVec.extractLsb'_toNat, Nat.shiftRight_eq_div_pow, Nat.div_eq_of_lt (toNat_fromFmt_narrow_lt u v)]
  rfl

end Sys2Proof.Proofs
end

section
/-!
PROOFS. The low-pass filter (42_lowpass_filter.md): what FILTER_RESET and a frame do to the channel groups.

The one idea: a frame changes a channel group in two places, the sample-and-hold with the filter (R392) and the emitted
sample (R395). The equation of the group after a frame says both, and DS_ACTIVE decides whether the first is a filter step.
-/

namespace Sys2Proof.Proofs

open Sys2Proof Sys2Proof.Machine Sys2Proof.Laws

/-! ## FILTER_RESET (R236) -/

theorem chanAt_clearFilters (s : State) {c : Nat} (hc : c < s.chans.length) :
    chanAt (clearFilters s) c = clearHistory (chanAt s c) :=
  chanAt_map s clearHistory c hc

/-- Settles O18: the one field FILTER_RESET writes is the channel groups, each mapped to its cleared history. -/
theorem filterResetResult : Obligations.FilterResetResult := fun s =>
  ⟨clearFilters s, rfl, rfl, List.length_map clearHistory, fun _ hc => chanAt_clearFilters s hc⟩

/-! ## A channel group after a frame (R392, R395) -/

theorem chanAt_congr {s t : State} (h : t.chans = s.chans) (c : Nat) : chanAt t c = chanAt s c := by
  rw [chanAt, h, chanAt]

/-- With DS_ACTIVE = 1 the held sample goes through the filter. -/
theorem holdChan_of_active (u : Fpu) {s : State} (hactive : s.status.dsActive = true) (c : Nat) (ch : Chan) :
    holdChan u s c ch = { ch with
      held := heldSample s c ch
      x1 := heldSample s c ch, x2 := ch.x1
      y1 := lpfOut u ch (heldSample s c ch), y2 := ch.y1 } := by
  unfold holdChan
  rw [hactive]
  rfl

/-- With DS_ACTIVE = 0 the filter stands still. -/
theorem holdChan_of_inactive (u : Fpu) {s : State} (hactive : s.status.dsActive = false) (c : Nat) (ch : Chan) :
    holdChan u s c ch = { ch with held := heldSample s c ch } := by
  unfold holdChan
  rw [hactive]
  rfl

theorem chanAt_wetFrame (u : Fpu) (p : Proc) (m : State) {c : Nat} (hlen : c < m.chans.length) :
    chanAt (wetFrame u p m) c =
      if c < m.chCount.toNat then holdChan u (recordFrame u p m) c (chanAt m c) else chanAt m c :=
  chanAt_holdFrame u (recordFrame u p m) c hlen

theorem wetFrame_chans_length (u : Fpu) (p : Proc) (m : State) : (wetFrame u p m).chans.length = m.chans.length :=
  List.length_mapIdx

/-- A channel group after a frame from its modulated state: the sample-and-hold and the filter, then the emitted sample. -/
theorem chanAt_playFrame (u : Fpu) (p : Proc) (s m : State) {c : Nat} (hlen : c < m.chans.length) :
    chanAt (playFrame u p s m) c =
      if c < m.chCount.toNat then
        { holdChan u (recordFrame u p m) c (chanAt m c) with
          lastOut := outSample u p m (recordFrame u p m) (wetFrame u p m) c }
      else chanAt m c := by
  have hlenW : c < (wetFrame u p m).chans.length := by rwa [wetFrame_chans_length]
  unfold playFrame
  rw [chanAt_congr (closeFrame_chans _ p s), chanAt_emitFrame u p _ _ c hlenW, wetFrame_chCount, chanAt_wetFrame u p m hlen]
  split <;> rfl

/-- The modulation changes no channel group, so a frame's channels are those it began with, played. -/
theorem chanAt_frame (u : Fpu) (p : Proc) (s : State) {c : Nat} (hlen : c < s.chans.length) :
    chanAt (frame u p s) c =
      if c < s.chCount.toNat then
        { holdChan u (recordFrame u p (modulate u s)) c (chanAt s c) with
          lastOut := outSample u p (modulate u s) (recordFrame u p (modulate u s)) (wetFrame u p (modulate u s)) c }
      else chanAt s c := by
  have hlenM : c < (modulate u s).chans.length := by rwa [modulate_chans]
  unfold frame
  rw [chanAt_playFrame u p s _ hlenM, modulate_chCount, modulate_chanAt]

/-! ## The filter in a frame (R233 to R235, R392) -/

/-- Settles O41: the group after the frame is that of the sample-and-hold but for LAST_OUT; DS_ACTIVE splits the cases. -/
theorem frameFilter : Obligations.FrameFilter := by
  intro u p s c hlen hc
  have hstatus : (recordFrame u p (modulate u s)).status = s.status := by rw [recordFrame_status, modulate_status]
  have hframe := chanAt_frame u p s hlen
  rw [if_pos hc] at hframe
  cases hactive : s.status.dsActive with
  | true =>
    rw [holdChan_of_active u (by rw [hstatus, hactive])] at hframe
    rw [hframe]
    exact ⟨rfl, fun _ => ⟨rfl, rfl, rfl, rfl⟩, nofun⟩
  | false =>
    rw [holdChan_of_inactive u (by rw [hstatus, hactive])] at hframe
    rw [hframe]
    exact ⟨rfl, nofun, fun _ => rfl⟩

end Sys2Proof.Proofs
end

section
/-!
PROOFS. The bit crusher (43_bitcrusher.md): its two setters and the range of its quantizer.

The setters are composed of stores of two register groups. Each is first an equation of the model's function: the
oscillator group it leaves, and BC_ACTUAL with BC_BITS written together where a condition on the oscillator holds. The
quantizer ends with a clamp between -1 and 1, which alone bounds it.
-/

namespace Sys2Proof.Proofs

open Sys2Proof Sys2Proof.Machine Sys2Proof.Laws

/-! ## SET_BITCRUSH_LFO (R266 with R208 and R206) -/

theorem exec_setBitcrushLfo (a b : Word) (s : State) :
    exec (.setBitcrushLfo a b) s = .next (setBitcrushLfo s.fpu (toFmt32 s.fpu a) (toFmt32 s.fpu b) s) := rfl

/-- The group that `lfoSet` leaves: its four stores, and a new band where EN or DEPTH changed. -/
theorem lfoSet_bc_bcLfo (u : Fpu) (a b : F) (s : State) :
    (lfoSet u .bc a b s).bcLfo =
      { lfoWrite u s.bcLfo a b s.fs with
        lo := if lfoChanged u s.bcLfo a b then u.fmaxS (u.sub s.bc.amount (u.mul b u.half)) u.zero else s.bcLfo.lo
        hi := if lfoChanged u s.bcLfo a b then u.fminS (u.add s.bc.amount (u.mul b u.half)) u.one else s.bcLfo.hi } := by
  unfold lfoSet
  rw [show lfoOf .bc s = s.bcLfo from rfl]
  cases lfoChanged u s.bcLfo a b with
  | false => rfl
  | true => rfl

theorem lfoSet_bc_bc (u : Fpu) (a b : F) (s : State) : (lfoSet u .bc a b s).bc = s.bc := by rw [lfoSet_bc]

/-- BC_ACTUAL and BC_BITS written where a condition holds, field by field. -/
theorem ite_putBcActual (u : Fpu) (c : Bool) (v : F) (s : State) :
    (if c then putBcActual u v s else s) = { s with
      bc := { s.bc with
        actual := if c then v else s.bc.actual
        bits := if c then bitDepth u v else s.bc.bits } } := by
  cases c with
  | false => rfl
  | true => rfl

/-- Settles O23: the oscillator group is that of `lfoSet`, and the amount that the snap back reads is still the old one. -/
theorem bitcrushLfoResult : Obligations.BitcrushLfoResult := by
  intro a b s
  rw [exec_setBitcrushLfo]
  unfold setBitcrushLfo
  simp only
  rw [ite_putBcActual, lfoSet_bc_bc, lfoSet_bc, lfoSet_bc_bcLfo]
  rfl

/-! ## The quantizer (R262, R268) -/

/-- A value clamped between -1 and 1 lies there, or it was a NaN. -/
theorem clampS_unit_range (u : Fpu) (v : F) :
    isNaN u.fmt (u.clampS v (u.neg u.one) u.one) = true ∨
      (u.le (u.neg u.one) (u.clampS v (u.neg u.one) u.one) = true ∧
        u.le (u.clampS v (u.neg u.one) u.one) u.one = true) := by
  obtain ⟨hlo, hhi, hle, hll, hhh, hlt⟩ := unit_bounds u
  obtain ⟨hnan, hkept⟩ | ⟨-, hrange⟩ := clampS_range u v (u.neg u.one) u.one hlo hhi hle hll hhh hlt
  · exact .inl (by rw [hkept, hnan])
  · exact .inr hrange

theorem crush_of_sixteen_le (u : Fpu) (makeup : List F) {bits : BitVec 8} (mix x : F) (h : 16 ≤ bits.toNat) :
    crush u makeup bits mix x = x := if_pos h

/-- Settles O52: the depth test passes the sample through, and the quantizer's last operation is the clamp. -/
theorem crusherTransparentOrClipped : Obligations.CrusherTransparentOrClipped :=
  ⟨fun u makeup _ mix x h => crush_of_sixteen_le u makeup mix x h, fun u _ _ => clampS_unit_range u _⟩

/-! ## SET_BITCRUSH_AMOUNT (R265) -/

theorem exec_setBitcrushAmount (a : Word) (s : State) :
    exec (.setBitcrushAmount a) s = .next (setBitcrushAmount s.fpu (toFmt32 s.fpu a) s) := rfl

/-- While the oscillator runs, only the amount and the band are written. -/
theorem setBitcrushAmount_of_running (u : Fpu) (a : F) {s : State} (h : s.bcLfo.en = true) :
    setBitcrushAmount u a s = boundsBc u { s with bc := { s.bc with amount := a } } := if_pos h

/-- While the oscillator is off, the actual depth follows the amount. -/
theorem setBitcrushAmount_of_stopped (u : Fpu) (a : F) {s : State} (h : s.bcLfo.en = false) :
    setBitcrushAmount u a s = putBcActual u a (boundsBc u { s with bc := { s.bc with amount := a } }) :=
  if_neg (Bool.eq_false_iff.mp h)

/-- Settles O22: the two cases of the oscillator's enable. -/
theorem bitcrushAmountResult : Obligations.BitcrushAmountResult := by
  intro a s
  rw [exec_setBitcrushAmount]
  cases hen : s.bcLfo.en with
  | true => rw [setBitcrushAmount_of_running _ _ hen]; rfl
  | false => rw [setBitcrushAmount_of_stopped _ _ hen]; rfl

end Sys2Proof.Proofs
end

section
/-!
PROOFS. The limiter (44_limiter.md): the six commands, the range of its output, and the reduction divisor.

The one idea of the divisor: rounding is monotone, so a quotient of finite numbers whose numerator is not below its
denominator rounds to at least 1. On the soft knee the denominator is q minus a square, so it is at most q; that it is
positive follows from bounds in quarters, for q lies between 1 and 1.5 there.
-/

namespace Sys2Proof.Proofs

open Sys2Proof Sys2Proof.Machine Sys2Proof.Laws

/-! ## The output (R308, R317) -/

/-- Settles O53: the output is the clamp between -1 and 1. -/
theorem limiterOutputInRange : Obligations.LimiterOutputInRange := fun u _ _ => clampS_unit_range u _

/-! ## Roundings between two values of the format -/

/-- A finite pattern of the format has this many units. -/
def IsUnits (f : Fmt) (n : Nat) : Prop := ∃ mag < infMag f, unitsOf f mag = n

theorem isUnits_of_numOf {f : Fmt} {v : F} {s : Bool} {n : Nat} (h : numOf f v = .fin s n) : IsUnits f n := by
  unfold numOf at h
  simp only at h
  split at h
  · cases h
    exact ⟨magOf f v, ‹_›, rfl⟩
  · split at h <;> cases h

/-- A quotient between two values of the format rounds to a value between them. -/
theorem numOf_rounded_between (u : Fpu) (s : Bool) {num den lo hi : Nat} (hd : 0 < den) (hlo : IsUnits u.fmt lo)
    (hhi : IsUnits u.fmt hi) (hge : lo * den ≤ num) (hle : num ≤ hi * den) :
    ∃ n, numOf u.fmt (u.rounded s num den) = .fin s n ∧ lo ≤ n ∧ n ≤ hi := by
  obtain ⟨low, hlow, rfl⟩ := hlo
  obtain ⟨high, hhigh, rfl⟩ := hhi
  have hup := roundQ_le_of_le u.fmt num den high hd hhigh.le hle
  have hdown := le_roundQ_of_le u.fmt num den low hd hlow.le hge
  exact ⟨_, by rw [numOf_rounded, if_pos (hup.trans_lt hhigh)], unitsOf_mono u.fmt hdown, unitsOf_mono u.fmt hup⟩

/-- A value of the format is its own rounding. -/
theorem numOf_rounded_exact (u : Fpu) (s : Bool) {num den n : Nat} (hd : 0 < den) (hn : IsUnits u.fmt n)
    (h : num = n * den) : numOf u.fmt (u.rounded s num den) = .fin s n := by
  obtain ⟨k, hk, hge, hle⟩ := numOf_rounded_between u s hd hn hn h.ge h.le
  rw [hk, Nat.le_antisymm hle hge]

theorem numOf_ofDec (u : Fpu) {q : Dec} {n : Nat} (hd : 0 < q.den) (hn : IsUnits u.fmt n)
    (h : q.num * 2 ^ unitExp u.fmt = n * q.den) : numOf u.fmt (u.ofDec q) = .fin false n :=
  numOf_rounded_exact u false hd hn h

theorem add_fin_same (u : Fpu) {a b : F} {s : Bool} {m n : Nat} (ha : numOf u.fmt a = .fin s m)
    (hb : numOf u.fmt b = .fin s n) : u.add a b = u.rounded s (m + n) 1 := by
  rw [Fpu.add, ha, hb, Fpu.addNum, Fpu.addFin, if_pos rfl]

theorem sub_fin_of_lt (u : Fpu) {a b : F} {m n : Nat} (ha : numOf u.fmt a = .fin false m)
    (hb : numOf u.fmt b = .fin false n) (h : n < m) : u.sub a b = u.rounded false (m - n) 1 := by
  rw [Fpu.sub, ha, numOf_neg u b hb, Fpu.addNum, Fpu.addFin, if_neg Bool.noConfusion, if_pos h]

/-! ## Comparisons with 1 -/

theorem lt_fin_nonneg (u : Fpu) {a b : F} {m n : Nat} (ha : numOf u.fmt a = .fin false m)
    (hb : numOf u.fmt b = .fin false n) : u.lt a b = decide (m < n) := by
  simp [Fpu.lt, ha, hb, Fpu.signedUnits]

theorem gt_one_cases {u : Fpu} {q : F} (h : u.gt q u.one = true) :
    numOf u.fmt q = .inf false ∨ ∃ m, numOf u.fmt q = .fin false m ∧ 2 ^ unitExp u.fmt < m := by
  rw [Fpu.gt] at h
  cases hq : numOf u.fmt q with
  | nan => simp [Fpu.lt, numOf_one, hq] at h
  | inf s => exact .inl (by simpa [Fpu.lt, numOf_one, hq] using h)
  | fin s m =>
    cases s with
    | false => exact .inr ⟨m, rfl, by rwa [lt_fin_nonneg u (numOf_one u) hq, decide_eq_true_eq] at h⟩
    | true =>
      rw [Fpu.lt, numOf_one, hq, decide_eq_true_eq] at h
      have hneg : ((2 ^ unitExp u.fmt : Nat) : ℤ) < -m := h
      generalize 2 ^ unitExp u.fmt = one at hneg
      omega

theorem ge_one_of_inf {u : Fpu} {v : F} (h : numOf u.fmt v = .inf false) : u.ge v u.one = true := by
  simp [Fpu.ge, Fpu.le, Fpu.lt, h, numOf_one]

theorem ge_one_of_le {u : Fpu} {v : F} {m : Nat} (h : numOf u.fmt v = .fin false m) (hm : 2 ^ unitExp u.fmt ≤ m) :
    u.ge v u.one = true := by
  rw [Fpu.ge, Fpu.le, lt_fin_nonneg u (numOf_one u) h, Fpu.eq, numOf_one, h, Bool.or_eq_true, decide_eq_true_eq,
    decide_eq_true_eq]
  exact hm.lt_or_eq.imp_right (congrArg (Fpu.signedUnits false))

/-- What is above 1 is at least 1. -/
theorem ge_one_of_gt_one {u : Fpu} {q : F} (h : u.gt q u.one = true) : u.ge q u.one = true := by
  obtain hinf | ⟨m, hm, hlt⟩ := gt_one_cases h
  · exact ge_one_of_inf hinf
  · exact ge_one_of_le hm hlt.le

/-- A quotient of at least 1 rounds to at least 1, be it to an infinity. -/
theorem ge_one_rounded (u : Fpu) {num den : Nat} (hd : 0 < den) (h : 2 ^ unitExp u.fmt * den ≤ num) :
    u.ge (u.rounded false num den) u.one = true := by
  obtain ⟨mag, hmag, hone⟩ := isUnits_of_numOf (numOf_one u)
  have hnum := numOf_rounded u false num den
  split at hnum
  · apply ge_one_of_le hnum
    rw [← hone] at h ⊢
    exact unitsOf_mono u.fmt (le_roundQ_of_le u.fmt num den mag hd hmag.le h)
  · exact ge_one_of_inf hnum

theorem ge_one_div {u : Fpu} {a b : F} {m n : Nat} (ha : numOf u.fmt a = .fin false m)
    (hb : numOf u.fmt b = .fin false n) (hn : 0 < n) (h : n ≤ m) : u.ge (u.div a b) u.one = true := by
  rw [div_fin u a b ha hb hn.ne', Nat.mul_comm m]
  exact ge_one_rounded u hn (Nat.mul_le_mul_left _ h)

theorem ge_one_div_inf {u : Fpu} {a b : F} {n : Nat} (ha : numOf u.fmt a = .inf false)
    (hb : numOf u.fmt b = .fin false n) : u.ge (u.div a b) u.one = true := by
  rw [Fpu.div, ha, hb]
  exact ge_one_of_inf (numOf_packMag_inf u.fmt false)

/-! ## The constants of the soft knee, in quarters -/

/-- The units of 1/4, which is KNEE_K. -/
def quarter (f : Fmt) : Nat := 2 ^ (unitExp f - 2)

theorem quarter_pos (f : Fmt) : 0 < quarter f := Nat.two_pow_pos _

theorem one_eq_quarters (f : Fmt) : 2 ^ unitExp f = 4 * quarter f := by
  have hexp : 2 + (unitExp f - 2) = unitExp f := by cases f <;> rfl
  rw [quarter, ← hexp, Nat.pow_add, hexp]

theorem isUnits_quarters (f : Fmt) {j : Nat} (hj : j ≤ 8) : IsUnits f (j * quarter f) := by
  have hfrac : 8 < 2 * 2 ^ fracBits f := by cases f <;> decide
  have hinf : 8 * quarter f < unitsOf f (infMag f) := by cases f <;> decide +kernel
  obtain ⟨mag, hmag⟩ := exists_unitsOf_eq f (unitExp f - 2) (hj.trans_lt hfrac)
  refine ⟨mag, ?_, hmag⟩
  by_contra hlarge
  have hmono := unitsOf_mono f (Nat.le_of_not_lt hlarge)
  have hquarters : j * quarter f ≤ 8 * quarter f := Nat.mul_le_mul_right _ hj
  rw [hmag, ← quarter] at hmono
  omega

theorem numOf_one_quarters (u : Fpu) : numOf u.fmt u.one = .fin false (4 * quarter u.fmt) := by
  rw [numOf_one, one_eq_quarters]

theorem numOf_two (u : Fpu) : numOf u.fmt u.two = .fin false (8 * quarter u.fmt) :=
  numOf_rounded_exact u false Nat.one_pos (isUnits_quarters u.fmt le_rfl) (by rw [one_eq_quarters]; ring)

theorem numOf_kneeK (u : Fpu) : numOf u.fmt (u.ofDec Config.kneeK) = .fin false (1 * quarter u.fmt) :=
  numOf_ofDec u (by decide) (isUnits_quarters u.fmt (by decide))
    (by simp only [Config.kneeK, one_eq_quarters]; ring)

theorem numOf_inv4k (u : Fpu) : numOf u.fmt u.inv4k = .fin false (4 * quarter u.fmt) :=
  numOf_ofDec u (by decide) (isUnits_quarters u.fmt (by decide))
    (by simp only [Config.kneeK, one_eq_quarters]; ring)

/-- The end of the knee, 1 + 2 · KNEE_K (R307). -/
def kneeEnd (u : Fpu) : F := u.add u.one (u.mul u.two (u.ofDec Config.kneeK))

theorem numOf_kneeEnd (u : Fpu) : numOf u.fmt (kneeEnd u) = .fin false (6 * quarter u.fmt) := by
  have hwidth : numOf u.fmt (u.mul u.two (u.ofDec Config.kneeK)) = .fin false (2 * quarter u.fmt) := by
    rw [mul_fin u _ _ _ _ _ _ (numOf_two u) (numOf_kneeK u)]
    exact numOf_rounded_exact u _ (Nat.two_pow_pos _) (isUnits_quarters u.fmt (by decide))
      (by rw [one_eq_quarters]; ring)
  rw [kneeEnd, add_fin_same u (numOf_one_quarters u) hwidth]
  exact numOf_rounded_exact u _ Nat.one_pos (isUnits_quarters u.fmt (by decide)) (by ring)

/-- The divisor above the knee, 1 + KNEE_K. -/
theorem numOf_kneeDivisor (u : Fpu) :
    numOf u.fmt (u.add u.one (u.ofDec Config.kneeK)) = .fin false (5 * quarter u.fmt) := by
  rw [add_fin_same u (numOf_one_quarters u) (numOf_kneeK u)]
  exact numOf_rounded_exact u _ Nat.one_pos (isUnits_quarters u.fmt (by decide)) (by ring)

/-! ## The reduction divisor (R306, R307) -/

/-- What the knee subtracts from q, (q - 1)² · INV4K (R307). -/
def kneeSquare (u : Fpu) (q : F) : F := u.mul (u.mul (u.sub q u.one) (u.sub q u.one)) u.inv4k

section Knee

variable {u : Fpu} {q : F} {m : Nat}

/-- On the knee the square is not negative and at most a quarter. -/
theorem kneeSquare_bounds (hq : numOf u.fmt q = .fin false m) (hlo : 4 * quarter u.fmt < m)
    (hhi : m < 6 * quarter u.fmt) :
    ∃ e, numOf u.fmt (kneeSquare u q) = .fin false e ∧ e ≤ 1 * quarter u.fmt := by
  have hzero : IsUnits u.fmt (0 * quarter u.fmt) := isUnits_quarters u.fmt (by decide)
  have hone : IsUnits u.fmt (1 * quarter u.fmt) := isUnits_quarters u.fmt (by decide)
  obtain ⟨d, hd, -, hdle⟩ : ∃ d, numOf u.fmt (u.sub q u.one) = .fin false d ∧ 0 * quarter u.fmt ≤ d ∧
      d ≤ 2 * quarter u.fmt := by
    rw [sub_fin_of_lt u hq (numOf_one_quarters u) hlo]
    exact numOf_rounded_between u _ Nat.one_pos hzero (isUnits_quarters u.fmt (by decide)) (by omega) (by omega)
  obtain ⟨k, hk, -, hkle⟩ : ∃ k, numOf u.fmt (u.mul (u.sub q u.one) (u.sub q u.one)) = .fin false k ∧
      0 * quarter u.fmt ≤ k ∧ k ≤ 1 * quarter u.fmt := by
    rw [mul_fin u _ _ _ _ _ _ hd hd]
    have hsquare : d * d ≤ 1 * quarter u.fmt * 2 ^ unitExp u.fmt := calc
      d * d ≤ 2 * quarter u.fmt * (2 * quarter u.fmt) := Nat.mul_le_mul hdle hdle
      _ = 1 * quarter u.fmt * 2 ^ unitExp u.fmt := by rw [one_eq_quarters]; ring
    exact numOf_rounded_between u _ (Nat.two_pow_pos _) hzero hone (by omega) hsquare
  obtain ⟨e, he, -, hele⟩ := numOf_rounded_between u (false != false) (Nat.two_pow_pos _) hzero hone
    (num := k * (4 * quarter u.fmt)) (by omega) (by rw [one_eq_quarters]; exact Nat.mul_le_mul_right _ hkle)
  exact ⟨e, by rw [kneeSquare, mul_fin u _ _ _ _ _ _ hk (numOf_inv4k u)]; exact he, hele⟩

/-- The divisor on the knee is positive and at most q. -/
theorem kneeOutput_bounds (hq : numOf u.fmt q = .fin false m) (hlo : 4 * quarter u.fmt < m)
    (hhi : m < 6 * quarter u.fmt) :
    ∃ o, numOf u.fmt (u.sub q (kneeSquare u q)) = .fin false o ∧ 3 * quarter u.fmt ≤ o ∧ o ≤ m := by
  obtain ⟨e, he, hele⟩ := kneeSquare_bounds hq hlo hhi
  rw [sub_fin_of_lt u hq he (by omega)]
  exact numOf_rounded_between u _ Nat.one_pos (isUnits_quarters u.fmt (by decide)) (isUnits_of_numOf hq)
    (by omega) (by omega)

end Knee

theorem gainHard_of_not_gt {u : Fpu} {q : F} (h : u.gt q u.one = false) : gainHard u q = u.one := by
  simp [gainHard, h]

theorem gainSoft_of_not_gt {u : Fpu} {q : F} (h : u.gt q u.one = false) : gainSoft u q = u.one := by
  simp [gainSoft, h]

theorem gainHard_of_gt {u : Fpu} {q : F} (h : u.gt q u.one = true) : gainHard u q = q := if_pos h

/-- Above 1 the soft knee has two branches, by the end of the knee. -/
theorem gainSoft_of_gt {u : Fpu} {q : F} (h : u.gt q u.one = true) : gainSoft u q =
    if u.lt q (kneeEnd u) then u.div q (u.sub q (kneeSquare u q))
    else u.div q (u.add u.one (u.ofDec Config.kneeK)) := by
  rw [gainSoft, h]
  rfl

theorem ge_one_gainSoft_of_gt {u : Fpu} {q : F} (h : u.gt q u.one = true) : u.ge (gainSoft u q) u.one = true := by
  have hpos := quarter_pos u.fmt
  rw [gainSoft_of_gt h]
  obtain hinf | ⟨m, hm, hlo⟩ := gt_one_cases h
  · have hbeyond : u.lt q (kneeEnd u) = false := by rw [Fpu.lt, hinf, numOf_kneeEnd]
    rw [hbeyond]
    exact ge_one_div_inf hinf (numOf_kneeDivisor u)
  · rw [one_eq_quarters] at hlo
    split
    case isTrue hlt =>
      rw [lt_fin_nonneg u hm (numOf_kneeEnd u), decide_eq_true_eq] at hlt
      obtain ⟨o, ho, hoge, hole⟩ := kneeOutput_bounds hm hlo hlt
      exact ge_one_div hm ho (by omega) hole
    case isFalse hge =>
      rw [lt_fin_nonneg u hm (numOf_kneeEnd u), decide_eq_true_eq, not_lt] at hge
      exact ge_one_div hm (numOf_kneeDivisor u) (by omega) (by omega)

theorem gainOf_of_not_gt {u : Fpu} {l : LimRegs} {env : F} (h : u.gt (u.mul env l.invT) u.one = false) :
    gainOf u l env = u.one := by
  unfold gainOf
  cases l.soft with
  | false => exact gainHard_of_not_gt h
  | true => exact gainSoft_of_not_gt h

theorem ge_one_gainOf_of_gt {u : Fpu} {l : LimRegs} {env : F} (h : u.gt (u.mul env l.invT) u.one = true) :
    u.ge (gainOf u l env) u.one = true := by
  unfold gainOf
  cases l.soft with
  | false =>
    simp only [Bool.false_eq_true, if_false, gainHard_of_gt h]
    exact ge_one_of_gt_one h
  | true => exact ge_one_gainSoft_of_gt h

/-- Settles O54: q is not above 1, and the divisor is 1; or it is above 1, for each knee. -/
theorem gainAtLeastOne : Obligations.GainAtLeastOne := by
  intro u l env
  refine ⟨?_, gainOf_of_not_gt⟩
  cases h : u.gt (u.mul env l.invT) u.one with
  | false => rw [gainOf_of_not_gt h]; exact ge_one_one u
  | true => exact ge_one_gainOf_of_gt h

/-! ## The time commands (R311 to R314) -/

/-- The time mapping with its guard the right way round (R301, R302). -/
theorem timeCoeff_eq (u : Fpu) (bound scale : Nat) (t fs : F) :
    timeCoeff u bound scale t fs =
      if u.gt (u.fminS t (u.ofNat bound)) u.zero then
        u.sub u.one (u.exp2 (u.neg (u.div (u.ofNat scale) (u.mul (u.fminS t (u.ofNat bound)) fs))))
      else u.one := by
  cases h : u.gt (u.fminS t (u.ofNat bound)) u.zero with
  | false => simp [timeCoeff, h]
  | true => simp [timeCoeff, h]

theorem exec_limSetAttackUs (a : Word) (s : State) : exec (.limSetAttackUs a) s =
    .next (putAttack true (toFmt32 s.fpu a) (attUs s.fpu (toFmt32 s.fpu a) s.fs) s) := rfl

theorem exec_limSetReleaseMs (a : Word) (s : State) : exec (.limSetReleaseMs a) s =
    .next (putRelease true (toFmt32 s.fpu a) (relMs s.fpu (toFmt32 s.fpu a) s.fs) s) := rfl

theorem exec_limSetAttackNorm (a : Word) (s : State) : exec (.limSetAttackNorm a) s =
    .next (putAttack false (toFmt32 s.fpu a) (attNorm s.fpu (toFmt32 s.fpu a)) s) := rfl

theorem exec_limSetReleaseNorm (a : Word) (s : State) : exec (.limSetReleaseNorm a) s =
    .next (putRelease false (toFmt32 s.fpu a) (relNorm s.fpu (toFmt32 s.fpu a)) s) := rfl

/-- Settles O24: each command is one store of mode, parameter and coefficient, with its mapping written out. -/
theorem limiterTimesResult : Obligations.LimiterTimesResult := by
  intro a s
  refine ⟨?_, ?_, ?_, ?_⟩
  · rw [exec_limSetAttackUs, attUs, timeCoeff_eq]; rfl
  · rw [exec_limSetReleaseMs, relMs, timeCoeff_eq]; rfl
  · rw [exec_limSetAttackNorm, attNorm]; rfl
  · rw [exec_limSetReleaseNorm, relNorm]; rfl

/-! ## The threshold and the trim (R315, R316) -/

theorem exec_limSetThreshold (soft : Bool) (a : Word) (s : State) : exec (.limSetThreshold soft a) s =
    .next { s with lim := thrSet s.fpu s.lim (toFmt32 s.fpu a) soft } := rfl

theorem exec_limSetTrim (a : Word) (s : State) : exec (.limSetTrim a) s =
    .next { s with lim := { s.lim with trim := toFmt32 s.fpu a } } := rfl

/-- The detector and the gain do not read the trim. -/
theorem detect_trim (u : Fpu) (l : LimRegs) (v : F) (sig : List F) :
    detect u { l with trim := v } sig = { detect u l sig with trim := v } := rfl

/-- Settles O25: the two stores, and the detector of registers that differ in the trim. -/
theorem limiterThresholdAndTrimResult : Obligations.LimiterThresholdAndTrimResult := by
  intro soft a s
  refine ⟨?_, exec_limSetTrim a s, fun sig => ?_⟩
  · rw [exec_limSetThreshold, thrSet, threshold]
  · rw [detect_trim]
    exact ⟨rfl, rfl⟩

end Sys2Proof.Proofs
end

section
/-!
PROOFS. The setters of the converter, the mixer and the bypass (45_engine_setters.md): their whole next states, what a
PROCESS in progress does not see of them, and what no setter touches.

The one idea: a setter is a chain of named operations, each of which writes whole register groups, so its next state is read
off once the conditional parts are equations field by field: the equality test, the snap back of an oscillator turned off,
and the test of the sample rate. What the setters leave unchanged is then an equation between two states.
-/

namespace Sys2Proof.Proofs

open Sys2Proof Sys2Proof.Machine Sys2Proof.Laws

/-! ## The gains (R348, R349, R267) -/

/-- Settles O20: each command is one store. -/
theorem gainSettersResult : Obligations.GainSettersResult := fun _ _ => ⟨rfl, rfl, rfl⟩

/-! ## The resynchronisation (R343) -/

theorem resyncRp_of_deactivated {u : Fpu} {s : State} (hactive : s.status.rateActive = true)
    (hnow : rateActiveNow u s = false) : resyncRp u s = s.ptr.wp.setWidth 64 <<< 32 := by
  rw [resyncRp, hactive, hnow]
  rfl

theorem resyncRp_of_not_deactivated {u : Fpu} {s : State}
    (h : ¬ (s.status.rateActive = true ∧ rateActiveNow u s = false)) : resyncRp u s = s.ptr.rp := by
  rw [resyncRp, if_neg]
  rwa [Bool.and_eq_true, Bool.not_eq_true']

/-- Settles O26: RP by the two cases of the transition; the rest is `resyncEval` field by field. -/
theorem resyncOnlyOnDeactivation : Obligations.ResyncOnlyOnDeactivation := by
  intro u s
  refine ⟨fun ⟨hactive, hnow⟩ => ?_, resyncRp_of_not_deactivated, rfl, rfl⟩
  calc (resyncRp u s).toNat = (s.ptr.wp.setWidth 64 <<< 32 : BitVec 64).toNat :=
        congrArg BitVec.toNat (resyncRp_of_deactivated hactive hnow)
    _ = s.ptr.wp.toNat * 2 ^ 32 := toNat_shiftLeft_wp s.ptr.wp

/-! ## The rates (R344, R346) -/

theorem exec_setResampleRate (a : Word) (s : State) :
    exec (.setResampleRate a) s = .next (setResampleRate s.fpu (toFmt32 s.fpu a) s) := rfl

theorem setResampleRate_of_eq {u : Fpu} {a : F} {s : State} (h : u.eq (dsTarget u s.dsmax a) s.ds.target = true) :
    setResampleRate u a s = { s with ds := { s.ds with ctrl := a } } := if_pos h

theorem setResampleRate_of_ne {u : Fpu} {a : F} {s : State} (h : u.eq (dsTarget u s.dsmax a) s.ds.target = false) :
    setResampleRate u a s =
      resyncEval u (moveDsTarget u (dsTarget u s.dsmax a) { s with ds := { s.ds with ctrl := a } }) :=
  if_neg (Bool.eq_false_iff.mp h)

/-- Settles O27: the two cases of the equality test. -/
theorem resampleRateResult : Obligations.ResampleRateResult := by
  intro a s
  refine ⟨fun heq => ?_, fun hne => ?_⟩
  · rw [exec_setResampleRate, setResampleRate_of_eq heq]
  · rw [exec_setResampleRate, setResampleRate_of_ne hne]; rfl

theorem exec_setPlaybackRate (a : Word) (s : State) :
    exec (.setPlaybackRate a) s = .next (setPlaybackRate s.fpu (toFmt32 s.fpu a) s) := rfl

theorem setPlaybackRate_of_eq {u : Fpu} {a : F} {s : State} (h : u.eq (pbTarget u a) s.pb.target = true) :
    setPlaybackRate u a s = { s with pb := { s.pb with ctrl := a } } := if_pos h

theorem setPlaybackRate_of_ne {u : Fpu} {a : F} {s : State} (h : u.eq (pbTarget u a) s.pb.target = false) :
    setPlaybackRate u a s = resyncEval u (movePbTarget u (pbTarget u a) { s with pb := { s.pb with ctrl := a } }) :=
  if_neg (Bool.eq_false_iff.mp h)

/-- Settles O29: the two cases of the equality test. -/
theorem playbackRateResult : Obligations.PlaybackRateResult := by
  intro a s
  refine ⟨fun heq => ?_, fun hne => ?_⟩
  · rw [exec_setPlaybackRate, setPlaybackRate_of_eq heq]
  · rw [exec_setPlaybackRate, setPlaybackRate_of_ne hne]; rfl

/-! ## The oscillators of the rates (R345, R347, with R208 and R206) -/

theorem exec_setResampleLfo (a b : Word) (s : State) :
    exec (.setResampleLfo a b) s = .next (setResampleLfo s.fpu (toFmt32 s.fpu a) (toFmt32 s.fpu b) s) := rfl

theorem lfoSet_ds_dsLfo (u : Fpu) (a b : F) (s : State) :
    (lfoSet u .ds a b s).dsLfo =
      { lfoWrite u s.dsLfo a b s.fs with
        lo := if lfoChanged u s.dsLfo a b then u.fmaxS (u.sub s.ds.target (u.mul b (dsHalfRange u s.dsmax))) u.one
          else s.dsLfo.lo
        hi := if lfoChanged u s.dsLfo a b then u.fminS (u.add s.ds.target (u.mul b (dsHalfRange u s.dsmax))) s.dsmax
          else s.dsLfo.hi } := by
  unfold lfoSet
  rw [show lfoOf .ds s = s.dsLfo from rfl]
  cases lfoChanged u s.dsLfo a b with
  | false => rfl
  | true => rfl

/-- DS_ACTUAL with everything computed from it written where a condition holds, field by field. -/
theorem ite_lpfCoeffs_putDsActual (u : Fpu) (c : Bool) (v : F) (s : State) :
    (if c then lpfCoeffs u (putDsActual u v s) else s) = { s with
      ds := { s.ds with
        actual := if c then v else s.ds.actual
        incr := if c then incr u v else s.ds.incr
        rho := if c then lpfRho u v else s.ds.rho }
      chans := if c then s.chans.map (setCoeffs u (lpfDesign u v)) else s.chans } := by
  cases c with
  | false => rfl
  | true => rfl

/-- The downsample registers of a snap back, chosen whole or field by field. -/
theorem ite_dsRegs (c : Bool) (d : DsRegs) (v : F) (hold : Word) (rho : F) :
    (if c then { d with actual := v, incr := hold, rho := rho } else d) = { d with
      actual := if c then v else d.actual
      incr := if c then hold else d.incr
      rho := if c then rho else d.rho } := by
  cases c with
  | false => rfl
  | true => rfl

/-- Settles O28: the oscillator group is that of `lfoSet`, and the target that the snap back reads is still the old one. -/
theorem resampleLfoResult : Obligations.ResampleLfoResult := by
  intro a b s
  rw [exec_setResampleLfo]
  unfold setResampleLfo
  simp only
  rw [ite_lpfCoeffs_putDsActual, lfoSet_ds, lfoSet_ds_dsLfo, ite_dsRegs]
  rfl

theorem exec_setPlaybackLfo (a b : Word) (s : State) :
    exec (.setPlaybackLfo a b) s = .next (setPlaybackLfo s.fpu (toFmt32 s.fpu a) (toFmt32 s.fpu b) s) := rfl

theorem lfoSet_pb_pbLfo (u : Fpu) (a b : F) (s : State) :
    (lfoSet u .pb a b s).pbLfo =
      { lfoWrite u s.pbLfo a b s.fs with
        lo := if lfoChanged u s.pbLfo a b then
            u.fmaxS (u.sub s.pb.target (u.mul b (pbHalfRange u))) (u.ofDec Config.pMin)
          else s.pbLfo.lo
        hi := if lfoChanged u s.pbLfo a b then u.fminS (u.add s.pb.target (u.mul b (pbHalfRange u))) u.one
          else s.pbLfo.hi } := by
  unfold lfoSet
  rw [show lfoOf .pb s = s.pbLfo from rfl]
  cases lfoChanged u s.pbLfo a b with
  | false => rfl
  | true => rfl

/-- PB_ACTUAL and PB_STEP written where a condition holds. -/
theorem ite_putPbActual (u : Fpu) (c : Bool) (v : F) (s : State) :
    (if c then putPbActual u v s else s) =
      { s with pb := { s.pb with
        actual := if c then v else s.pb.actual
        step := if c then fx u v else s.pb.step } } := by
  cases c with
  | false => rfl
  | true => rfl

/-- The playback registers of a snap back, chosen whole or field by field. -/
theorem ite_pbRegs (c : Bool) (d : PbRegs) (v : F) (step : BitVec 64) :
    (if c then { d with actual := v, step := step } else d) = { d with
      actual := if c then v else d.actual
      step := if c then step else d.step } := by
  cases c with
  | false => rfl
  | true => rfl

/-- Settles O30: the oscillator group is that of `lfoSet`, and the target that the snap back reads is still the old one. -/
theorem playbackLfoResult : Obligations.PlaybackLfoResult := by
  intro a b s
  rw [exec_setPlaybackLfo]
  unfold setPlaybackLfo
  simp only
  rw [ite_putPbActual, lfoSet_pb, lfoSet_pb_pbLfo, ite_pbRegs]
  rfl

/-! ## SET_SAMPLE_RATE (R352) -/

theorem exec_setSampleRate (a : Word) (s : State) :
    exec (.setSampleRate a) s = .next (setSampleRate s.fpu (toFmt32 s.fpu a) s) := rfl

theorem setSampleRate_of_accepted {u : Fpu} {a : F} (h : rateAccepted u a = true) (s : State) :
    setSampleRate u a s =
      resyncEval u (reclockAll u a (moveDsTarget u (dsTarget u (u.div a (u.ofNat Config.floorHz)) s.ds.ctrl)
        { s with fs := a, dsmax := u.div a (u.ofNat Config.floorHz) })) := if_pos h

theorem setSampleRate_of_refused {u : Fpu} {a : F} (h : rateAccepted u a = false) (s : State) :
    setSampleRate u a s = raiseError 5#4 s := if_neg (Bool.eq_false_iff.mp h)

/-- Settles O31: the two cases of the test of the rate. -/
theorem sampleRateResult : Obligations.SampleRateResult := by
  intro a s
  refine ⟨fun haccepted => ?_, fun hrefused => ?_⟩
  · rw [exec_setSampleRate, setSampleRate_of_accepted (Bool.and_eq_true_iff.mpr haccepted)]; rfl
  · rw [exec_setSampleRate, setSampleRate_of_refused (Bool.and_eq_false_iff.mpr hrefused)]; rfl

/-! ## SET_BYPASS (R350) -/

/-- The state with BYPASS set to a value (R350). -/
def withBypass (on : Bool) (s : State) : State := { s with mix := { s.mix with bypass := on } }

theorem exec_setBypass (on : Bool) (s : State) : exec (.setBypass on) s = .next (withBypass on s) := rfl

theorem inRead_withBypass (on : Bool) (s : State) (site idx : Nat) :
    inRead (withBypass on s) site idx = inRead s site idx :=
  inRead_congr site idx ⟨rfl, rfl, rfl, rfl, rfl, rfl, rfl, rfl⟩ rfl

theorem drySample_withBypass (u : Fpu) (p : Proc) (on : Bool) (s : State) :
    drySample u p (withBypass on s) = drySample u p s := by
  funext c
  unfold drySample
  rw [inRead_withBypass]
  rfl

theorem modulateDs_withBypass (u : Fpu) (on : Bool) (s : State) :
    modulateDs u (withBypass on s) = withBypass on (modulateDs u s) := by
  unfold modulateDs
  rw [apply_ite (withBypass on)]
  rfl

theorem modulatePb_withBypass (u : Fpu) (on : Bool) (s : State) :
    modulatePb u (withBypass on s) = withBypass on (modulatePb u s) := by
  unfold modulatePb
  rw [apply_ite (withBypass on)]
  rfl

theorem modulateBc_withBypass (u : Fpu) (on : Bool) (s : State) :
    modulateBc u (withBypass on s) = withBypass on (modulateBc u s) := by
  unfold modulateBc
  rw [apply_ite (withBypass on)]
  rfl

theorem clampHold_withBypass (on : Bool) (s : State) : clampHold (withBypass on s) = withBypass on (clampHold s) := by
  unfold clampHold
  rw [apply_ite (withBypass on)]
  rfl

theorem modulate_withBypass (u : Fpu) (on : Bool) (s : State) :
    modulate u (withBypass on s) = withBypass on (modulate u s) := by
  unfold modulate
  rw [modulateDs_withBypass, modulatePb_withBypass, modulateBc_withBypass, clampHold_withBypass]

theorem recordFrame_withBypass (u : Fpu) (p : Proc) (on : Bool) (s : State) :
    recordFrame u p (withBypass on s) = withBypass on (recordFrame u p s) := by
  unfold recordFrame recSample
  rw [drySample_withBypass]
  rfl

theorem wetFrame_withBypass (u : Fpu) (p : Proc) (on : Bool) (m : State) :
    wetFrame u p (withBypass on m) = withBypass on (wetFrame u p m) := by
  unfold wetFrame
  rw [recordFrame_withBypass]
  rfl

theorem outSample_withBypass (u : Fpu) (p : Proc) (on : Bool) (m r l : State) :
    outSample u p (withBypass on m) (withBypass on r) (withBypass on l) = outSample u p m r l := by
  funext c
  unfold outSample
  rw [drySample_withBypass]
  rfl

theorem playFrame_withBypass (u : Fpu) (p : Proc) (on : Bool) (s m : State) :
    playFrame u p (withBypass on s) (withBypass on m) = withBypass on (playFrame u p s m) := by
  unfold playFrame
  rw [recordFrame_withBypass, wetFrame_withBypass, outSample_withBypass]
  rfl

theorem frame_withBypass (u : Fpu) (p : Proc) (on : Bool) (s : State) :
    frame u p (withBypass on s) = withBypass on (frame u p s) := by
  unfold frame
  rw [modulate_withBypass, playFrame_withBypass]

theorem continueProcess_withBypass {p : Proc} {s t : State} (on : Bool) (h : continueProcess p s = .next t) :
    continueProcess p (withBypass on s) = .next (withBypass on t) := by
  have hfault : frameFault p (withBypass on s) = frameFault p s := rfl
  have hfpu : (withBypass on s).fpu = s.fpu := rfl
  unfold continueProcess at h ⊢
  rw [hfault, hfpu, frame_withBypass]
  split at h
  · rw [if_pos ‹_›]
    split at h
    · cases h
    · cases h; rfl
  · rw [if_neg ‹_›]
    cases h; rfl

/-- Settles O21: the store, and the steps of a PROCESS commute with it. -/
theorem setBypassResult : Obligations.SetBypassResult := fun on s =>
  ⟨exec_setBypass on s, fun _ _ h => continueProcess_withBypass on h⟩

/-! ## The running state (R340, R209) -/

/-- `t` holds the pointers but RP, the limiter's running state, the memories with the build that lays them out, and the
oscillators' phases of `s`. -/
def RunningFieldsKept (s t : State) : Prop :=
  t = { t with
    ptr := { s.ptr with rp := t.ptr.rp }
    lim := { t.lim with env := s.lim.env, gain := s.lim.gain }
    dsLfo := { t.dsLfo with phase := s.dsLfo.phase }
    pbLfo := { t.pbLfo with phase := s.pbLfo.phase }
    bcLfo := { t.bcLfo with phase := s.bcLfo.phase }
    recMem := s.recMem, inMem := s.inMem, outMem := s.outMem, build := s.build }

/-- What every setter keeps (45_engine_setters.md R340). -/
structure RunningKept (s t : State) : Prop where
  fields : RunningFieldsKept s t
  chans : t.chans.map runningChan = s.chans.map runningChan

/-- No oscillator's phase has moved (41_oscillator.md R209). -/
structure PhasesKept (s t : State) : Prop where
  ds : t.dsLfo.phase = s.dsLfo.phase
  pb : t.pbLfo.phase = s.pbLfo.phase
  bc : t.bcLfo.phase = s.bcLfo.phase

variable {s t : State}

theorem RunningKept.hold (h : RunningKept s t) : t.ptr.hold = s.ptr.hold := (congrArg (·.ptr.hold) h.fields :)

theorem RunningKept.wp (h : RunningKept s t) : t.ptr.wp = s.ptr.wp := (congrArg (·.ptr.wp) h.fields :)

theorem RunningKept.env (h : RunningKept s t) : t.lim.env = s.lim.env := (congrArg (·.lim.env) h.fields :)

theorem RunningKept.gain (h : RunningKept s t) : t.lim.gain = s.lim.gain := (congrArg (·.lim.gain) h.fields :)

theorem RunningKept.phases (h : RunningKept s t) : PhasesKept s t := by
  rw [h.fields]
  exact ⟨rfl, rfl, rfl⟩

theorem RunningKept.memories (h : RunningKept s t) : memoriesKept s t := by
  rw [h.fields]
  exact ⟨fun _ _ => rfl, fun _ => rfl, fun _ => rfl⟩

/-- New coefficients leave the running state of every channel. -/
theorem map_runningChan_setCoeffs (u : Fpu) (k : Coeffs) (chans : List Chan) :
    (chans.map (setCoeffs u k)).map runningChan = chans.map runningChan := List.map_map

theorem runningKept_setResampleRate (u : Fpu) (a : F) (s : State) : RunningKept s (setResampleRate u a s) := by
  unfold setResampleRate
  simp only
  split
  · exact ⟨rfl, rfl⟩
  · exact ⟨rfl, map_runningChan_setCoeffs ..⟩

theorem runningKept_setResampleLfo (u : Fpu) (a b : F) (s : State) : RunningKept s (setResampleLfo u a b s) := by
  unfold setResampleLfo
  rw [lfoSet_ds, lfoSet_ds_dsLfo]
  simp only
  split
  · exact ⟨rfl, map_runningChan_setCoeffs ..⟩
  · exact ⟨rfl, rfl⟩

theorem runningKept_setPlaybackRate (u : Fpu) (a : F) (s : State) : RunningKept s (setPlaybackRate u a s) := by
  unfold setPlaybackRate
  simp only
  split
  · exact ⟨rfl, rfl⟩
  · exact ⟨rfl, rfl⟩

theorem runningKept_setPlaybackLfo (u : Fpu) (a b : F) (s : State) : RunningKept s (setPlaybackLfo u a b s) := by
  unfold setPlaybackLfo
  rw [lfoSet_pb, lfoSet_pb_pbLfo]
  simp only
  split
  · exact ⟨rfl, rfl⟩
  · exact ⟨rfl, rfl⟩

theorem runningKept_setBitcrushAmount (u : Fpu) (a : F) (s : State) : RunningKept s (setBitcrushAmount u a s) := by
  unfold setBitcrushAmount
  simp only
  split
  · exact ⟨rfl, rfl⟩
  · exact ⟨rfl, rfl⟩

theorem runningKept_setBitcrushLfo (u : Fpu) (a b : F) (s : State) : RunningKept s (setBitcrushLfo u a b s) := by
  unfold setBitcrushLfo
  rw [lfoSet_bc, lfoSet_bc_bcLfo]
  simp only
  split
  · exact ⟨rfl, rfl⟩
  · exact ⟨rfl, rfl⟩

theorem runningKept_setSampleRate (u : Fpu) (a : F) (s : State) : RunningKept s (setSampleRate u a s) := by
  unfold setSampleRate
  simp only
  split
  · exact ⟨rfl, map_runningChan_setCoeffs ..⟩
  · exact ⟨rfl, rfl⟩

/-- A setter is one of the seven above or a store outside the running state. -/
theorem runningKept_exec {i : Instr} (hi : isSetter i = true) (h : exec i s = .next t) : RunningKept s t := by
  cases i with
  | nop | process | resetPointers | clearBuffer | filterReset | clearErr => cases hi
  | setSampleRate a => cases h; exact runningKept_setSampleRate ..
  | setResampleRate a => cases h; exact runningKept_setResampleRate ..
  | setResampleLfo a b => cases h; exact runningKept_setResampleLfo ..
  | setPlaybackRate a => cases h; exact runningKept_setPlaybackRate ..
  | setPlaybackLfo a b => cases h; exact runningKept_setPlaybackLfo ..
  | setBitcrushAmount a => cases h; exact runningKept_setBitcrushAmount ..
  | setBitcrushLfo a b => cases h; exact runningKept_setBitcrushLfo ..
  | _ => cases h; exact ⟨rfl, rfl⟩

theorem PhasesKept.trans {r : State} (hs : PhasesKept r s) (ht : PhasesKept s t) : PhasesKept r t :=
  ⟨ht.ds.trans hs.ds, ht.pb.trans hs.pb, ht.bc.trans hs.bc⟩

theorem phasesKept_changeGeometry (nout : Nat) (s : State) : PhasesKept s (changeGeometry nout s) := by
  unfold changeGeometry
  split
  · exact ⟨rfl, rfl, rfl⟩
  · exact ⟨rfl, rfl, rfl⟩

theorem phasesKept_prologue (u : Fpu) (p : Proc) (s : State) : PhasesKept s (prologue u p s) := by
  unfold prologue
  simp only
  split
  · exact ⟨rfl, rfl, rfl⟩
  · exact ⟨rfl, rfl, rfl⟩

/-- The first step of a PROCESS runs no frame, so it moves no phase. -/
theorem phasesKept_processStartsTo {u : Fpu} {sw : Bool} {nin nout n : Nat} (ht : ProcessStartsTo u sw nin nout n s t) :
    PhasesKept s t := by
  cases ht with
  | exceeds | empty | bypass => exact ⟨rfl, rfl, rfl⟩
  | silence =>
    obtain ⟨hds, hpb, hbc⟩ := phasesKept_changeGeometry nout s
    exact ⟨hds, hpb, hbc⟩
  | runs => exact (phasesKept_changeGeometry nout s).trans (phasesKept_prologue u _ _)

theorem phasesKept_exec {i : Instr} (h : exec i s = .next t) : PhasesKept s t := by
  cases hi : isSetter i with
  | true => exact (runningKept_exec hi h).phases
  | false =>
    cases i with
    | process sw nin nout n => cases h; exact phasesKept_processStartsTo (startProcess_cases ..)
    | nop | resetPointers | clearBuffer | filterReset | clearErr => cases h; exact ⟨rfl, rfl, rfl⟩
    | _ => cases hi

/-- Settles O32: the running state by the setters' lemmas, the phases by those of every command. -/
theorem settersKeepRunningState : Obligations.SettersKeepRunningState := by
  intro i s
  obtain ⟨t, ht⟩ := exec_next i s
  obtain ⟨hds, hpb, hbc⟩ := phasesKept_exec ht
  refine ⟨t, ht, fun hi => ?_, hds, hpb, hbc⟩
  have hkept := runningKept_exec hi ht
  exact ⟨hkept.hold, hkept.wp, hkept.chans, hkept.env, hkept.gain, hkept.memories⟩

end Sys2Proof.Proofs
end

section
/-!
PROOFS. The end points of the downsample and the playback target (45_engine_setters.md R341, R342).

The one idea: at a control value of 0 or 1 every product is by 0 or by 1, which is exact, so a target is one rounding of a sum.
1 + (DSMAX - 1) is DSMAX where DSMAX - 1 is a value of the format, and it is one as long as the last place of DSMAX does not
exceed 1.
-/

namespace Sys2Proof.Proofs

open Sys2Proof Sys2Proof.Machine Sys2Proof.Laws

/-! ## Operations on values that are exact -/

theorem isUnits_zero (f : Fmt) : IsUnits f 0 := ⟨0, infMag_pos f, unitsOf_zero f⟩

/-- A rounding depends on the quotient alone. -/
theorem rounded_congr (u : Fpu) (s : Bool) {num den num' den' : Nat} (hd : 0 < den) (hd' : 0 < den')
    (h : num * den' = num' * den) : u.rounded s num den = u.rounded s num' den' := by
  have hround : roundQ u.fmt num den = roundQ u.fmt num' den' :=
    le_antisymm (roundQ_mono u.fmt hd hd' h.le) (roundQ_mono u.fmt hd' hd h.ge)
  rw [Fpu.rounded, Fpu.rounded, hround]

theorem rounded_zero (u : Fpu) (s : Bool) : u.rounded s 0 1 = packMag u.fmt s 0 := by
  have hround := roundQ_exact u.fmt 0 1 Nat.one_pos (Nat.zero_le _)
  rw [unitsOf_zero, Nat.zero_mul] at hround
  rw [Fpu.rounded, hround]

theorem rounded_one (u : Fpu) : u.rounded false (2 ^ unitExp u.fmt) 1 = u.one := by
  rw [Fpu.one, Fpu.ofNat, Nat.one_mul]

/-- A difference of nonnegative values in order is one rounding. -/
theorem sub_fin_of_le (u : Fpu) {a b : F} {m n : Nat} (ha : numOf u.fmt a = .fin false m)
    (hb : numOf u.fmt b = .fin false n) (h : n ≤ m) : u.sub a b = u.rounded false (m - n) 1 := by
  obtain hlt | rfl := h.lt_or_eq
  · exact sub_fin_of_lt u ha hb hlt
  · rw [Nat.sub_self, rounded_zero, Fpu.sub, ha, numOf_neg u b hb, Fpu.addNum, Fpu.addFin, if_neg Bool.noConfusion,
      if_neg (lt_irrefl n), if_neg (lt_irrefl n)]

/-- Zero times a nonnegative value is zero. -/
theorem numOf_mul_zero (u : Fpu) {a b : F} {n : Nat} (ha : numOf u.fmt a = .fin false 0)
    (hb : numOf u.fmt b = .fin false n) : numOf u.fmt (u.mul a b) = .fin false 0 := by
  rw [mul_fin u a b _ _ _ _ ha hb]
  exact numOf_rounded_exact u _ (Nat.two_pow_pos _) (isUnits_zero u.fmt) (by rw [Nat.zero_mul, Nat.zero_mul])

/-- One times a nonnegative value is that value. -/
theorem numOf_mul_one (u : Fpu) {a b : F} {n : Nat} (ha : numOf u.fmt a = .fin false (2 ^ unitExp u.fmt))
    (hb : numOf u.fmt b = .fin false n) : numOf u.fmt (u.mul a b) = .fin false n := by
  rw [mul_fin u a b _ _ _ _ ha hb]
  exact numOf_rounded_exact u _ (Nat.two_pow_pos _) (isUnits_of_numOf hb) (Nat.mul_comm _ _)

/-- What is rounded is not a NaN, so it equals itself. -/
theorem eq_self_rounded (u : Fpu) (s : Bool) (num den : Nat) :
    u.eq (u.rounded s num den) (u.rounded s num den) = true := by
  rw [Fpu.eq, numOf_rounded]
  split_ifs with hfin
  · exact decide_eq_true rfl
  · exact beq_self_eq_true s

theorem eq_of_numOf_fin (u : Fpu) {a b : F} {s : Bool} {n : Nat} (ha : numOf u.fmt a = .fin s n)
    (hb : numOf u.fmt b = .fin s n) : u.eq a b = true := by
  rw [Fpu.eq, ha, hb]
  exact decide_eq_true rfl

theorem exists_units_of_ge_one {u : Fpu} {v : F} (hfin : isFinite u.fmt v = true) (hge : u.ge v u.one = true) :
    ∃ m, numOf u.fmt v = .fin false m ∧ 2 ^ unitExp u.fmt ≤ m := by
  have hv := numOf_of_isFinite u.fmt v hfin
  rw [Fpu.ge, Fpu.le, Fpu.lt, Fpu.eq, numOf_one, hv, Bool.or_eq_true, decide_eq_true_eq, decide_eq_true_eq] at hge
  have hpos := Nat.two_pow_pos (unitExp u.fmt)
  generalize 2 ^ unitExp u.fmt = one at *
  cases hs : signOf u.fmt v with
  | false =>
    rw [hs] at hv hge
    refine ⟨_, hv, ?_⟩
    simp only [Fpu.signedUnits, Bool.false_eq_true, if_false] at hge
    omega
  | true =>
    rw [hs] at hge
    simp only [Fpu.signedUnits, Bool.false_eq_true, if_false, if_true] at hge
    omega

/-! ## The downsample target (R341) -/

/-- Below twice the largest significand, 1 is a multiple of a value's last place, so the value less 1 is a value. -/
theorem isUnits_sub_one {f : Fmt} {m : Nat} (hm : IsUnits f m) (hge : 2 ^ unitExp f ≤ m)
    (hlt : m < 2 ^ (fracBits f + 1) * 2 ^ unitExp f) : IsUnits f (m - 2 ^ unitExp f) := by
  obtain ⟨mag, hmag, rfl⟩ := hm
  obtain ⟨d, c, hbinade, hc, hnormal⟩ := binade_of f mag
  have hunits : unitsOf f mag = c * 2 ^ d := by rw [hbinade, unitsOf_binade f d c hc.le hnormal]
  have hd : d ≤ unitExp f := by
    obtain rfl | hnormal := hnormal
    · exact Nat.zero_le _
    · rw [hunits, Nat.pow_succ, Nat.mul_assoc, ← Nat.pow_succ'] at hlt
      have hpow : 2 ^ d < 2 ^ (unitExp f + 1) :=
        Nat.lt_of_mul_lt_mul_left ((Nat.mul_le_mul_right (2 ^ d) hnormal).trans_lt hlt)
      exact Nat.lt_succ_iff.mp ((Nat.pow_lt_pow_iff_right Nat.one_lt_two).mp hpow)
  obtain ⟨low, hlow⟩ := exists_unitsOf_eq f d (m := c - 2 ^ (unitExp f - d)) ((Nat.sub_le _ _).trans_lt hc)
  have hdiff : unitsOf f low = unitsOf f mag - 2 ^ unitExp f := by
    rw [hlow, hunits, Nat.sub_mul, ← Nat.pow_add, Nat.sub_add_cancel hd]
  exact ⟨low, (le_of_unitsOf_le f (hdiff.trans_le (Nat.sub_le _ _))).trans_lt hmag, hdiff⟩

section DsTarget

variable {u : Fpu} {dsmax : F} {m : Nat}

/-- DSMAX - 1 is a nonnegative number. -/
theorem numOf_dsmax_sub_one (hm : numOf u.fmt dsmax = .fin false m) (hge : 2 ^ unitExp u.fmt ≤ m) :
    ∃ k, numOf u.fmt (u.sub dsmax u.one) = .fin false k := by
  rw [sub_fin_of_le u hm (numOf_one u) hge]
  obtain ⟨k, hk, -, -⟩ := numOf_rounded_between u false Nat.one_pos (isUnits_zero u.fmt) (isUnits_of_numOf hm)
    (num := m - 2 ^ unitExp u.fmt) (Nat.zero_le _) ((Nat.sub_le _ _).trans_eq (Nat.mul_one m).symm)
  exact ⟨k, hk⟩

theorem numOf_one_sub_one (u : Fpu) : numOf u.fmt (u.sub u.one u.one) = .fin false 0 := by
  rw [sub_fin_of_le u (numOf_one u) (numOf_one u) le_rfl]
  exact numOf_rounded_exact u _ Nat.one_pos (isUnits_zero u.fmt) (by omega)

theorem numOf_one_sub_zero (u : Fpu) : numOf u.fmt (u.sub u.one u.zero) = .fin false (2 ^ unitExp u.fmt) := by
  rw [sub_fin_of_le u (numOf_one u) (numOf_zero u) (Nat.zero_le _), Nat.sub_zero, rounded_one, numOf_one]

theorem dsTarget_one (hm : numOf u.fmt dsmax = .fin false m) (hge : 2 ^ unitExp u.fmt ≤ m) :
    dsTarget u dsmax u.one = u.one := by
  obtain ⟨k, hk⟩ := numOf_dsmax_sub_one hm hge
  rw [dsTarget, add_fin_same u (numOf_one u) (numOf_mul_zero u (numOf_one_sub_one u) hk), Nat.add_zero, rounded_one]

/-- The target of 0 is the one rounding of 1 and DSMAX - 1. -/
theorem dsTarget_zero {k : Nat} (hk : numOf u.fmt (u.sub dsmax u.one) = .fin false k) :
    dsTarget u dsmax u.zero = u.rounded false (2 ^ unitExp u.fmt + k) 1 := by
  rw [dsTarget, add_fin_same u (numOf_one u) (numOf_mul_one u (numOf_one_sub_zero u) hk)]

theorem dsTarget_zero_eq_sum (hm : numOf u.fmt dsmax = .fin false m) (hge : 2 ^ unitExp u.fmt ≤ m) :
    u.eq (dsTarget u dsmax u.zero) (u.add u.one (u.sub dsmax u.one)) = true := by
  obtain ⟨k, hk⟩ := numOf_dsmax_sub_one hm hge
  rw [dsTarget_zero hk, add_fin_same u (numOf_one u) hk]
  exact eq_self_rounded u _ _ _

/-- Where DSMAX - 1 is exact, so is the sum, and the target of 0 is DSMAX. -/
theorem dsTarget_zero_eq_dsmax (hm : numOf u.fmt dsmax = .fin false m) (hge : 2 ^ unitExp u.fmt ≤ m)
    (hlt : m < 2 ^ (fracBits u.fmt + 1) * 2 ^ unitExp u.fmt) : u.eq (dsTarget u dsmax u.zero) dsmax = true := by
  have hk : numOf u.fmt (u.sub dsmax u.one) = .fin false (m - 2 ^ unitExp u.fmt) := by
    rw [sub_fin_of_le u hm (numOf_one u) hge]
    exact numOf_rounded_exact u _ Nat.one_pos (isUnits_sub_one (isUnits_of_numOf hm) hge hlt) (Nat.mul_one _).symm
  rw [dsTarget_zero hk, Nat.add_sub_cancel' hge]
  exact eq_of_numOf_fin u (numOf_rounded_exact u _ Nat.one_pos (isUnits_of_numOf hm) (Nat.mul_one _).symm) hm

/-- A bound on the value is a bound on the units. -/
theorem units_lt_of_valueOf_lt (hm : numOf u.fmt dsmax = .fin false m) {e : Nat} (h : valueOf u.fmt dsmax < 2 ^ e) :
    m < 2 ^ e * 2 ^ unitExp u.fmt := by
  have hpos : (0 : ℚ) < 2 ^ unitExp u.fmt := by positivity
  rw [valueOf_of_numOf hm, show Fpu.signedUnits false m = (m : ℤ) from rfl, div_lt_iff₀ hpos] at h
  exact_mod_cast h

end DsTarget

/-! ## The playback target (R342), in quarters -/

theorem numOf_pMin (u : Fpu) : numOf u.fmt (u.ofDec Config.pMin) = .fin false (2 * quarter u.fmt) :=
  numOf_ofDec u (by decide) (isUnits_quarters u.fmt (by decide)) (by simp only [Config.pMin, one_eq_quarters]; ring)

theorem numOf_one_sub_pMin (u : Fpu) : numOf u.fmt (u.sub u.one (u.ofDec Config.pMin)) = .fin false (2 * quarter u.fmt) := by
  rw [sub_fin_of_le u (numOf_one_quarters u) (numOf_pMin u) (by omega)]
  exact numOf_rounded_exact u _ Nat.one_pos (isUnits_quarters u.fmt (by decide)) (by omega)

theorem pbTarget_one (u : Fpu) : pbTarget u u.one = u.one := by
  rw [pbTarget, add_fin_same u (numOf_pMin u) (numOf_mul_one u (numOf_one u) (numOf_one_sub_pMin u)), ← rounded_one,
    one_eq_quarters, ← Nat.add_mul]

theorem pbTarget_zero (u : Fpu) : pbTarget u u.zero = u.ofDec Config.pMin := by
  rw [pbTarget, add_fin_same u (numOf_pMin u) (numOf_mul_zero u (numOf_zero u) (numOf_one_sub_pMin u))]
  exact rounded_congr u false Nat.one_pos (by decide) (by simp only [Config.pMin, one_eq_quarters]; ring)

/-- Settles O55: each product of a target is by 0 or by 1, and the exactness of DSMAX - 1 decides the third clause. -/
theorem targetEndpoints : Obligations.TargetEndpoints := by
  intro u dsmax hfin hge
  obtain ⟨m, hm, hone⟩ := exists_units_of_ge_one hfin hge
  refine ⟨dsTarget_one hm hone, dsTarget_zero_eq_sum hm hone, fun hbound => ?_, pbTarget_one u, pbTarget_zero u⟩
  have hvalue : valueOf u.fmt dsmax < 2 ^ (fracBits u.fmt + 1) := by
    generalize u.fmt = f at hbound ⊢
    cases f with
    | binary32 => exact hbound
    | binary64 => exact hbound
  exact dsTarget_zero_eq_dsmax hm hone (units_lt_of_valueOf_lt hm hvalue)

end Sys2Proof.Proofs
end

section
/-!
PROOFS. The buffer commands and the first step of a PROCESS (46_engine_process.md R382 to R385, R388, R401 to R403).

The one idea: each path of the first step is an equation under the tests that choose it, and the geometry change in front
of the last two paths moves nothing that a copy or the silence test reads.
-/

namespace Sys2Proof.Proofs

open Sys2Proof Sys2Proof.Machine Sys2Proof.Laws

/-! ## The buffer commands (R401 to R403) -/

theorem recRead_clearRec (s : State) (c j : Nat) : recRead (clearRec s) c j = 0#64 := rfl

/-- Settles O17: each command is one store. -/
theorem bufferCommandsResult : Obligations.BufferCommandsResult := fun s =>
  ⟨rfl, rfl, clearRec s, rfl, recRead_clearRec s, rfl⟩

/-! ## The geometry change (R384) -/

/-- A geometry change writes CH_COUNT, REC, the pointers and the channel groups, and nothing else. -/
theorem changeGeometry_kept (nout : Nat) (s : State) :
    changeGeometry nout s = { s with
      chCount := (changeGeometry nout s).chCount, recMem := (changeGeometry nout s).recMem
      ptr := (changeGeometry nout s).ptr, chans := (changeGeometry nout s).chans } := by
  obtain ⟨-, heq⟩ | ⟨-, heq⟩ := changeGeometry_cases nout s
  · rw [heq]
  · rw [heq]; rfl

theorem changeGeometry_ds (nout : Nat) (s : State) : (changeGeometry nout s).ds = s.ds := by
  rw [changeGeometry_kept]

theorem changeGeometry_dsLfo (nout : Nat) (s : State) : (changeGeometry nout s).dsLfo = s.dsLfo := by
  rw [changeGeometry_kept]

theorem changeGeometry_outMem (nout : Nat) (s : State) : (changeGeometry nout s).outMem = s.outMem := by
  rw [changeGeometry_kept]

/-- Settles O34: the two cases of the output channel count. -/
theorem geometryChange : Obligations.GeometryChange := by
  intro nout s
  refine ⟨fun hsame => if_pos hsame, fun hnew hlt => ?_⟩
  have hchange : changeGeometry nout s =
      zeroPointers (clearRec { s with chCount := BitVec.ofNat 8 nout, chans := s.chans.map clearChan }) := if_neg hnew
  refine ⟨?_, ?_, ?_, ?_, changeGeometry_kept nout s⟩
  · rw [hchange]
    exact (BitVec.toNat_ofNat ..).trans (Nat.mod_eq_of_lt hlt)
  · intro c j
    rw [hchange]
    rfl
  · rw [hchange]
    rfl
  · intro c hc
    rw [hchange]
    exact chanAt_map s clearChan c hc

/-! ## The paths of the first step -/

section Paths

variable {u : Fpu} {sw : Bool} {nin nout n : Nat} {s : State}

theorem exec_process (sw : Bool) (nin nout n : Nat) (s : State) :
    exec (.process sw nin nout n) s = .next (startProcess s.fpu sw nin nout n s) := rfl

/-- A PROCESS without frames or without output channels has nothing to do (R383). -/
theorem startProcess_of_empty (hfits : geometryExceeds s nin nout n = false) (hempty : n = 0 ∨ nout = 0) :
    startProcess u sw nin nout n s = s := by
  rw [startProcess, hfits, if_neg Bool.false_ne_true, if_pos hempty]

/-- Under BYPASS a PROCESS only copies (R383). -/
theorem startProcess_of_bypass (hfits : geometryExceeds s nin nout n = false) (hn : n ≠ 0) (hnout : nout ≠ 0)
    (hbypass : s.mix.bypass = true) : startProcess u sw nin nout n s = copyBlock sw nin nout n s := by
  rw [startProcess, hfits, if_neg Bool.false_ne_true, if_neg (not_or.mpr ⟨hn, hnout⟩), if_pos hbypass]

/-- Without BYPASS the geometry change comes first, and the silence test decides the path after it (R384, R385, R388). -/
theorem startProcess_of_active (hfits : geometryExceeds s nin nout n = false) (hn : n ≠ 0) (hnout : nout ≠ 0)
    (hbypass : s.mix.bypass = false) : startProcess u sw nin nout n s =
      if takesSilence u sw nin nout n (changeGeometry nout s) then copyBlock sw nin nout n (changeGeometry nout s)
      else prologue u (startProc sw nin nout n) (changeGeometry nout s) := by
  rw [startProcess, hfits, if_neg Bool.false_ne_true, if_neg (not_or.mpr ⟨hn, hnout⟩), hbypass,
    if_neg Bool.false_ne_true]

/-! ## What the geometry change leaves of the copy and of the silence test -/

theorem changeGeometry_ioIndex (c i : Nat) : ioIndex (changeGeometry nout s) c i = c * s.build.maxBlock + i := by
  rw [ioIndex, changeGeometry_build]

theorem changeGeometry_copiedWord (c i : Nat) :
    copiedWord (changeGeometry nout s) sw nin c i = copiedWord s sw nin c i := by
  simp only [copiedWord, changeGeometry_inRead, ioIndex, changeGeometry_build]

/-- The geometry change moves no traffic, also under a PROCESS put in progress for the silence test. -/
theorem inRead_changeGeometry_proc (proc : Option Proc) (site idx : Nat) :
    inRead { changeGeometry nout s with proc := proc } site idx = inRead { s with proc := proc } site idx := by
  rw [changeGeometry_kept]
  exact inRead_congr site idx ⟨rfl, rfl, rfl, rfl, rfl, rfl, rfl, rfl⟩ rfl

theorem silentBlock_iff : silentBlock u sw nin n s = true ↔
    1 ≤ nin ∧ ∀ i, i < n → u.eq (toFmt u sw (inRead s 0 i)) 0#64 = true := by
  simp [silentBlock, ioIndex, Fpu.zero]

/-- The silence test after the geometry change reads what it read before (R385). -/
theorem takesSilence_changeGeometry_iff : takesSilence u sw nin nout n (changeGeometry nout s) = true ↔
    1 ≤ nin ∧ ∀ i, i < n → u.eq (toFmt u sw (inRead s 0 i)) 0#64 = true ∧
      u.eq (toFmt u sw (inRead { s with proc := some (openingProc sw nin nout n) } 0 i)) 0#64 = true := by
  simp only [takesSilence, Bool.and_eq_true, silentBlock_iff, changeGeometry_inRead, inRead_changeGeometry_proc]
  rw [← and_and_left, ← forall₂_and]

/-- The copy after the geometry change, in the words that stood before it. -/
theorem copyBlock_changeGeometry_reads (hlength : n ≤ s.build.maxBlock) :
    (∀ c i, c < nout → i < n →
      Memory.read none (copyBlock sw nin nout n (changeGeometry nout s)).outMem (c * s.build.maxBlock + i) =
        some (copiedWord s sw nin c i)) ∧
    (∀ idx, (∀ c i, c < nout → i < n → idx ≠ c * s.build.maxBlock + i) →
      Memory.read none (copyBlock sw nin nout n (changeGeometry nout s)).outMem idx = Memory.read none s.outMem idx) := by
  have hreads := copyBlock_reads sw nin nout n (changeGeometry nout s) (by rwa [changeGeometry_build])
  simpa only [changeGeometry_ioIndex, changeGeometry_copiedWord, changeGeometry_outMem] using hreads

/-- The prologue writes BUSY, the PROCESS in progress and, where the DS oscillator runs, the coefficients (R388). -/
theorem prologue_fields (u : Fpu) (p : Proc) (s : State) : prologue u p s = { s with
    status := { s.status with busy := true }
    proc := some p
    ds := if s.dsLfo.en then { s.ds with rho := (lpfDesign u s.ds.actual).rho } else s.ds
    chans := if s.dsLfo.en then s.chans.map (setCoeffs u (lpfDesign u s.ds.actual)) else s.chans } := by
  rw [prologue_eq]
  cases s.dsLfo.en with
  | false => rfl
  | true => rfl

end Paths

/-- Settles O33: the two paths without frames. -/
theorem processZeroLengthAndBypass : Obligations.ProcessZeroLengthAndBypass := by
  intro sw nin nout n s hnin hnout hlength
  have hfits := (geometryExceeds_eq_false_iff s nin nout n).mpr ⟨hnin, hnout, hlength⟩
  refine ⟨fun hempty => ?_, fun hn hnout0 hbypass => ?_⟩
  · rw [exec_process, startProcess_of_empty hfits hempty]
  · rw [exec_process, startProcess_of_bypass hfits hn hnout0 hbypass]
    exact ⟨_, rfl, rfl, copyBlock_reads sw nin nout n s hlength⟩

/-- Settles O35: the silence test holds, so the copy follows the geometry change. -/
theorem processSilenceCopies : Obligations.ProcessSilenceCopies := by
  intro sw nin nout n s hnin hnout hlength hn hnout0 hbypass opening hpos hsilent
  have hfits := (geometryExceeds_eq_false_iff s nin nout n).mpr ⟨hnin, hnout, hlength⟩
  have htakes : takesSilence s.fpu sw nin nout n (changeGeometry nout s) = true :=
    takesSilence_changeGeometry_iff.mpr ⟨hpos, hsilent⟩
  rw [exec_process, startProcess_of_active hfits hn hnout0 hbypass, if_pos htakes]
  exact ⟨_, rfl, rfl, copyBlock_changeGeometry_reads hlength⟩

/-- Settles O36: the silence test fails, so the prologue follows the geometry change. -/
theorem processPrologue : Obligations.ProcessPrologue := by
  intro sw nin nout n s hnin hnout hlength hn hnout0 hbypass opening hsounds g k
  have hfits := (geometryExceeds_eq_false_iff s nin nout n).mpr ⟨hnin, hnout, hlength⟩
  have htakes : ¬ takesSilence s.fpu sw nin nout n g = true := by
    intro htakes
    obtain ⟨hpos, hsilent⟩ := takesSilence_changeGeometry_iff.mp htakes
    obtain hzero | ⟨i, hi, hnow | hlater⟩ := hsounds
    · omega
    · exact Bool.false_ne_true (hnow.symm.trans (hsilent i hi).1)
    · exact Bool.false_ne_true (hlater.symm.trans (hsilent i hi).2)
  rw [exec_process, startProcess_of_active hfits hn hnout0 hbypass, if_neg htakes, prologue_fields, changeGeometry_status,
    changeGeometry_ds, changeGeometry_dsLfo]
  rfl

end Sys2Proof.Proofs
end

section
/-!
PROOFS. One frame (46_engine_process.md R389 to R398): its modulation, what it leaves, and its pointers.

The one idea: a frame is the modulation followed by its playing. The modulation is an equation, field by field; the
playing writes REC, the channel groups, OUT_MEM, LIM_ENV and LIM_GAIN, the pointers and the PROCESS, each once.
-/

namespace Sys2Proof.Proofs

open Sys2Proof Sys2Proof.Machine Sys2Proof.Laws

/-! ## The modulation (R389) -/

theorem modulateDs_eq (u : Fpu) (s : State) : modulateDs u s = { s with
    ds := if s.dsLfo.en then { s.ds with actual := lfoValue u s.dsLfo, incr := incr u (lfoValue u s.dsLfo) } else s.ds
    dsLfo := if s.dsLfo.en then lfoAdvance u s.dsLfo else s.dsLfo } := by
  unfold modulateDs
  split <;> rfl

theorem modulatePb_eq (u : Fpu) (s : State) : modulatePb u s = { s with
    pb := if s.pbLfo.en then { s.pb with actual := lfoValue u s.pbLfo, step := fx u (lfoValue u s.pbLfo) } else s.pb
    pbLfo := if s.pbLfo.en then lfoAdvance u s.pbLfo else s.pbLfo } := by
  unfold modulatePb
  split <;> rfl

theorem modulateBc_eq (u : Fpu) (s : State) : modulateBc u s = { s with
    bc := if s.bcLfo.en then { s.bc with actual := lfoValue u s.bcLfo, bits := bitDepth u (lfoValue u s.bcLfo) } else s.bc
    bcLfo := if s.bcLfo.en then lfoAdvance u s.bcLfo else s.bcLfo } := by
  unfold modulateBc
  split <;> rfl

theorem clampHold_eq (s : State) : clampHold s = { s with
    ptr := { s.ptr with hold := if s.ds.incr.toNat ≤ s.ptr.hold.toNat then 0#32 else s.ptr.hold } } := by
  unfold clampHold
  split <;> rfl

/-- The modulated state: the three oscillators move apart registers, and the clamp reads the new SAMPLE_INCR. -/
theorem modulate_eq (u : Fpu) (s : State) : modulate u s = { s with
    ds := if s.dsLfo.en then { s.ds with actual := lfoValue u s.dsLfo, incr := incr u (lfoValue u s.dsLfo) } else s.ds
    pb := if s.pbLfo.en then { s.pb with actual := lfoValue u s.pbLfo, step := fx u (lfoValue u s.pbLfo) } else s.pb
    bc := if s.bcLfo.en then { s.bc with actual := lfoValue u s.bcLfo, bits := bitDepth u (lfoValue u s.bcLfo) } else s.bc
    dsLfo := if s.dsLfo.en then lfoAdvance u s.dsLfo else s.dsLfo
    pbLfo := if s.pbLfo.en then lfoAdvance u s.pbLfo else s.pbLfo
    bcLfo := if s.bcLfo.en then lfoAdvance u s.bcLfo else s.bcLfo
    ptr := { s.ptr with
      hold := if (modulate u s).ds.incr.toNat ≤ s.ptr.hold.toNat then 0#32 else s.ptr.hold } } := by
  unfold modulate
  rw [clampHold_eq, modulateBc_eq, modulatePb_eq, modulateDs_eq]

theorem modulate_hold (u : Fpu) (s : State) : (modulate u s).ptr.hold =
    if (modulate u s).ds.incr.toNat ≤ s.ptr.hold.toNat then 0#32 else s.ptr.hold := congrArg (·.ptr.hold) (modulate_eq u s)

/-- With its oscillator off, a group of actual values is left by the modulation. -/
theorem modulate_ds_of_off (u : Fpu) {s : State} (hoff : s.dsLfo.en = false) : (modulate u s).ds = s.ds := by
  rw [modulate_eq, hoff]; rfl

theorem modulate_ds_of_on (u : Fpu) {s : State} (hon : s.dsLfo.en = true) : (modulate u s).ds =
    { s.ds with actual := lfoValue u s.dsLfo, incr := incr u (lfoValue u s.dsLfo) } := by
  rw [modulate_eq, hon]; rfl

theorem modulate_pb_of_off (u : Fpu) {s : State} (hoff : s.pbLfo.en = false) : (modulate u s).pb = s.pb := by
  rw [modulate_eq, hoff]; rfl

theorem modulate_bc_of_off (u : Fpu) {s : State} (hoff : s.bcLfo.en = false) : (modulate u s).bc = s.bc := by
  rw [modulate_eq, hoff]; rfl

/-- Settles O38: the modulation's equation with its waveform and phase written out, and a frame's registers by field. -/
theorem frameModulation : Obligations.FrameModulation := by
  intro u s value advance incr'
  refine ⟨?_, fun p => ⟨frame_ds u p s, frame_pb u p s, frame_bc u p s, frame_dsLfo u p s, frame_pbLfo u p s,
    frame_bcLfo u p s⟩⟩
  cases hen : s.dsLfo.en with
  | false =>
    have hincr : incr' = s.ds.incr := if_neg (Bool.eq_false_iff.mp hen)
    rw [modulate_eq, modulate_ds_of_off u hen, hincr, hen]
    rfl
  | true =>
    have hincr : incr' = incr u (lfoValue u s.dsLfo) := if_pos hen
    rw [modulate_eq, modulate_ds_of_on u hen, hincr, hen]
    rfl

/-- The modulation writes of each group only the actual value with its image, and of each oscillator only the phase. -/
theorem modulate_ds_kept (u : Fpu) (s : State) :
    (modulate u s).ds = { s.ds with actual := (modulate u s).ds.actual, incr := (modulate u s).ds.incr } := by
  rw [modulate_eq]
  cases s.dsLfo.en with
  | false => rfl
  | true => rfl

theorem modulate_pb_kept (u : Fpu) (s : State) :
    (modulate u s).pb = { s.pb with actual := (modulate u s).pb.actual, step := (modulate u s).pb.step } := by
  rw [modulate_eq]
  cases s.pbLfo.en with
  | false => rfl
  | true => rfl

theorem modulate_bc_kept (u : Fpu) (s : State) :
    (modulate u s).bc = { s.bc with actual := (modulate u s).bc.actual, bits := (modulate u s).bc.bits } := by
  rw [modulate_eq]
  cases s.bcLfo.en with
  | false => rfl
  | true => rfl

theorem ite_lfoAdvance_kept (u : Fpu) (c : Bool) (l : Lfo) :
    (if c then lfoAdvance u l else l) = { l with phase := (if c then lfoAdvance u l else l).phase } := by
  cases c with
  | false => rfl
  | true => rfl

theorem modulate_dsLfo_kept (u : Fpu) (s : State) :
    (modulate u s).dsLfo = { s.dsLfo with phase := (modulate u s).dsLfo.phase } := by
  rw [modulate_eq]; exact ite_lfoAdvance_kept u _ _

theorem modulate_pbLfo_kept (u : Fpu) (s : State) :
    (modulate u s).pbLfo = { s.pbLfo with phase := (modulate u s).pbLfo.phase } := by
  rw [modulate_eq]; exact ite_lfoAdvance_kept u _ _

theorem modulate_bcLfo_kept (u : Fpu) (s : State) :
    (modulate u s).bcLfo = { s.bcLfo with phase := (modulate u s).bcLfo.phase } := by
  rw [modulate_eq]; exact ite_lfoAdvance_kept u _ _

/-! ## What a frame leaves -/

theorem playFrame_kept (u : Fpu) (p : Proc) (s m : State) : playFrame u p s m = { m with
    lim := (playFrame u p s m).lim
    ptr := (playFrame u p s m).ptr, chans := (playFrame u p s m).chans, recMem := (playFrame u p s m).recMem
    outMem := (playFrame u p s m).outMem, proc := (playFrame u p s m).proc } := by
  rw [← playFrame_build m u p s, ← playFrame_status m u p s, ← playFrame_chCount m u p s, ← playFrame_fs m u p s,
    ← playFrame_dsmax m u p s, ← playFrame_gr m u p s, ← playFrame_ds m u p s, ← playFrame_pb m u p s,
    ← playFrame_bc m u p s, ← playFrame_mix m u p s, ← playFrame_dsLfo m u p s, ← playFrame_pbLfo m u p s,
    ← playFrame_bcLfo m u p s, ← playFrame_inMem m u p s, ← playFrame_audioQ m u p s, ← playFrame_controlQ m u p s,
    ← playFrame_inOld m u p s, ← playFrame_hostIn m u p s, ← playFrame_sched m u p s, ← playFrame_free m u p s]

/-- The detector writes the envelope and the gain. -/
theorem detect_kept (u : Fpu) (l : LimRegs) (sig : List F) :
    detect u l sig = { l with env := (detect u l sig).env, gain := (detect u l sig).gain } := rfl

theorem frame_lim (u : Fpu) (p : Proc) (s : State) :
    (frame u p s).lim = detect u s.lim (frameSignals u (recordFrame u p (modulate u s))) := by
  rw [frame, playFrame_lim, modulate_lim]

theorem frame_lim_kept (u : Fpu) (p : Proc) (s : State) :
    (frame u p s).lim = { s.lim with env := (frame u p s).lim.env, gain := (frame u p s).lim.gain } := by
  rw [frame_lim]
  exact detect_kept u _ _

/-- A frame's next state, by the registers and memories that it writes. -/
theorem frame_kept (u : Fpu) (p : Proc) (s : State) : frame u p s = { s with
    ds := { s.ds with actual := (frame u p s).ds.actual, incr := (frame u p s).ds.incr }
    pb := { s.pb with actual := (frame u p s).pb.actual, step := (frame u p s).pb.step }
    bc := { s.bc with actual := (frame u p s).bc.actual, bits := (frame u p s).bc.bits }
    dsLfo := { s.dsLfo with phase := (frame u p s).dsLfo.phase }
    pbLfo := { s.pbLfo with phase := (frame u p s).pbLfo.phase }
    bcLfo := { s.bcLfo with phase := (frame u p s).bcLfo.phase }
    lim := { s.lim with env := (frame u p s).lim.env, gain := (frame u p s).lim.gain }
    ptr := (frame u p s).ptr, chans := (frame u p s).chans, recMem := (frame u p s).recMem
    outMem := (frame u p s).outMem, proc := (frame u p s).proc } := by
  have hplay := playFrame_kept u p s (modulate u s)
  rw [← frame, frame_lim_kept, modulate_kept, modulate_ds_kept, modulate_pb_kept, modulate_bc_kept, modulate_dsLfo_kept,
    modulate_pbLfo_kept, modulate_bcLfo_kept] at hplay
  simp only [frame_ds, frame_pb, frame_bc, frame_dsLfo, frame_pbLfo, frame_bcLfo]
  exact hplay

theorem frame_chans_length (u : Fpu) (p : Proc) (s : State) : (frame u p s).chans.length = s.chans.length := by
  rw [frame, playFrame_chans, ← modulate_chans u s]
  exact List.length_mapIdx.trans (wetFrame_chans_length u p _)

theorem mem_journalAt {α : Type} {journal : List (Nat × α)} {idx : Nat} {v : α} :
    v ∈ journalAt journal idx ↔ (idx, v) ∈ journal := by
  simp [journalAt]

theorem journalAt_eq_nil {α : Type} {journal : List (Nat × α)} {idx : Nat} (h : ∀ e ∈ journal, idx ≠ e.1) :
    journalAt journal idx = [] := by
  rw [journalAt, List.filter_eq_nil_iff.mpr, List.map_nil]
  exact fun e he heq => h e he (beq_iff_eq.mp heq).symm

/-- Settles O44: the modulation's and the frame's written fields, and the journal that a frame puts its words before. -/
theorem frameLeavesTheRest : Obligations.FrameLeavesTheRest := by
  intro u p s t
  refine ⟨frame_kept u p s, frame_chans_length u p s, rfl, fun c hc => ?_, fun idx hidx => ?_, fun idx w hw => ?_⟩
  · rw [frame_outOverwritten]
    exact List.mem_append_left _ (mem_journalAt.mpr (List.mem_map.mpr ⟨c, List.mem_range.mpr hc, rfl⟩))
  · rw [frame_outOverwritten, journalAt_eq_nil, List.nil_append]
    intro e he
    obtain ⟨c, hc, rfl⟩ := List.mem_map.mp he
    exact hidx c (List.mem_range.mp hc)
  · rw [frame_outOverwritten]
    exact List.mem_append_right _ hw

/-! ## The pointers and the hold counter (R396 to R398) -/

theorem frame_ptr (u : Fpu) (p : Proc) (s : State) : (frame u p s).ptr = advancePtr (modulate u s) := rfl

/-- WP and RP wrap exactly, since they are held in registers that are wide enough for the largest buffer. -/
theorem toNat_frame_wp (u : Fpu) (p : Proc) {s : State} (hpos : 1 ≤ s.build.recCap) (hle : s.build.recCap ≤ 2 ^ 24) :
    (frame u p s).ptr.wp.toNat = (s.ptr.wp.toNat + 1) % s.build.recCap := by
  have hlt := Nat.mod_lt (s.ptr.wp.toNat + 1) hpos
  rw [frame_ptr, advancePtr, modulate_wp, modulate_build, BitVec.toNat_ofNat, Nat.mod_eq_of_lt (by omega)]

theorem toNat_frame_rp (u : Fpu) (p : Proc) {s : State} (hpos : 1 ≤ s.build.recCap) (hle : s.build.recCap ≤ 2 ^ 24) :
    (frame u p s).ptr.rp.toNat =
      (s.ptr.rp.toNat + (frame u p s).pb.step.toNat) % (s.build.recCap * 2 ^ 32) := by
  have hlt := Nat.mod_lt (s.ptr.rp.toNat + (modulate u s).pb.step.toNat) (show 0 < s.build.recCap * 2 ^ 32 by omega)
  rw [frame_ptr, advancePtr, modulate_rp, modulate_build, frame_pb, BitVec.toNat_ofNat, Nat.mod_eq_of_lt (by omega)]

/-- The hold counter counts up to SAMPLE_INCR (R398). -/
theorem toNat_advancePtr_hold (s : State) : (advancePtr s).hold.toNat =
    if s.ds.incr.toNat ≤ s.ptr.hold.toNat + 1 then 0 else s.ptr.hold.toNat + 1 := by
  have hincr := s.ds.incr.isLt
  unfold advancePtr
  simp only
  split
  · rfl
  · rw [BitVec.toNat_add, BitVec.toNat_ofNat, Nat.mod_eq_of_lt (by omega)]

/-- The hold counter wraps before SAMPLE_INCR. -/
theorem advancePtr_hold_lt {s : State} (hpos : 1 ≤ s.ds.incr.toNat) :
    (advancePtr s).hold.toNat < s.ds.incr.toNat := by
  rw [toNat_advancePtr_hold]
  split <;> omega

theorem toNat_modulate_hold (u : Fpu) (s : State) : (modulate u s).ptr.hold.toNat =
    if (modulate u s).ds.incr.toNat ≤ s.ptr.hold.toNat then 0 else s.ptr.hold.toNat := by
  rw [modulate_hold]
  exact apply_ite BitVec.toNat ..

/-- SAMPLE_INCR stays positive: it is left, or it is a hold length. -/
theorem modulate_incr_pos (u : Fpu) {s : State} (hpos : 1 ≤ s.ds.incr.toNat) : 1 ≤ (modulate u s).ds.incr.toNat := by
  rw [modulate_eq]
  cases s.dsLfo.en with
  | false => exact hpos
  | true => exact incr_pos u _

/-- Settles O43: each pointer by its own equation. -/
theorem framePointers : Obligations.FramePointers := by
  intro u p s hpos hle hincr t hold
  have hds : t.ds = (modulate u s).ds := frame_ds u p s
  have hhold : hold = (modulate u s).ptr.hold.toNat := by rw [toNat_modulate_hold, ← hds]
  refine ⟨toNat_frame_wp u p hpos hle, toNat_frame_rp u p hpos hle, ?_, ?_⟩
  · rw [frame_ptr, toNat_advancePtr_hold, hds, hhold]
  · rw [frame_ptr, hds]
    exact advancePtr_hold_lt (modulate_incr_pos u hincr)

end Sys2Proof.Proofs
end

section
/-!
PROOFS. What a frame records, fetches, limits and emits (46_engine_process.md R390 to R395).

The one idea: a frame reads its samples in the modulated state, its signals in that state with the record write, and its
outputs with the new limiter registers. Each is rewritten to the state before the frame, or to the registers after it.
-/

namespace Sys2Proof.Proofs

open Sys2Proof Sys2Proof.Machine Sys2Proof.Laws

section Rules

variable (u : Fpu) (p : Proc) (s : State)

/-! ## The record write (R391) -/

theorem recRead_frame (c j : Nat) : recRead (frame u p s) c j = recRead (recordFrame u p (modulate u s)) c j := by
  rw [recRead, recRead, recIndex, recIndex, frame_build, recordFrame_build, modulate_build]
  rfl

theorem modulate_recSample (c : Nat) : recSample u p (modulate u s) c = recSample u p s c := by
  rw [recSample, recSample, modulate_drySample, modulate_chanAt]

/-- What a frame records: the input of a channel that has one, else its last output. -/
theorem recSample_eq (c : Nat) : recSample u p s c =
    if c < p.nin then toFmt u p.sw (inRead s 1 (c * s.build.maxBlock + p.i)) else (chanAt s c).lastOut := by
  unfold recSample drySample
  split <;> rfl

/-- The cell at WP of every channel holds what the frame recorded. -/
theorem recRead_frame_wp (hwp : s.ptr.wp.toNat < s.build.recCap) {c : Nat} (hc : c < s.chCount.toNat) :
    recRead (frame u p s) c s.ptr.wp.toNat = recSample u p s c := by
  have hreads := (recordFrame_reads u p (modulate u s) (by rwa [modulate_wp, modulate_build])).1 c
    (by rwa [modulate_chCount])
  rwa [modulate_wp, modulate_recSample, ← recRead_frame] at hreads

/-- The frame writes REC nowhere else. -/
theorem read_frame_recMem_other {idx : Nat}
    (hidx : ∀ c, c < s.chCount.toNat → idx ≠ c * s.build.recCap + s.ptr.wp.toNat)
    (hwp : s.ptr.wp.toNat < s.build.recCap) :
    Memory.read 0#64 (frame u p s).recMem idx = Memory.read 0#64 s.recMem idx := by
  have hreads := (recordFrame_reads u p (modulate u s) (by rwa [modulate_wp, modulate_build])).2 idx
  simp only [recIndex, modulate_chCount, modulate_wp, modulate_build, modulate_recMem] at hreads
  exact hreads fun c hc => (hidx c hc).symm

/-! ## The fetch and the hold (R390, R392) -/

/-- The frame fetches where its hold counter is 0 after the clamp. -/
theorem fetching_iff : fetching (recordFrame u p (modulate u s)) = true ↔
    s.ptr.hold = 0#32 ∨ (frame u p s).ds.incr.toNat ≤ s.ptr.hold.toNat := by
  rw [fetching, recordFrame_ptr, modulate_hold, frame_ds, beq_iff_eq]
  split
  case isTrue hclamp => exact iff_of_true rfl (.inr hclamp)
  case isFalse hkept => rw [or_iff_left hkept]

theorem holdChan_held (r : State) (c : Nat) (ch : Chan) : (holdChan u r c ch).held = heldSample r c ch := by
  unfold holdChan
  simp only
  split <;> rfl

/-- HELD of a live channel after a frame. -/
theorem frame_held {c : Nat} (hlen : c < s.chans.length) (hc : c < s.chCount.toNat) :
    (chanAt (frame u p s) c).held = heldSample (recordFrame u p (modulate u s)) c (chanAt s c) := by
  rw [chanAt_frame u p s hlen, if_pos hc]
  exact holdChan_held u _ c _

/-- What a fetching frame holds: the cell at RP, as the frame leaves it. -/
theorem heldSample_of_fetching (hfetch : fetching (recordFrame u p (modulate u s)) = true) (c : Nat) (ch : Chan) :
    heldSample (recordFrame u p (modulate u s)) c ch = recRead (frame u p s) c (s.ptr.rp.toNat / 2 ^ 32) := by
  rw [heldSample, if_pos hfetch, recRead_frame, readIndex, recordFrame_ptr, modulate_rp]

/-! ## The signals of a frame (R392, R393) -/

/-- A live channel's sample behind the filter, as the registers after the frame hold it. -/
theorem filteredSample_frame {c : Nat} (hlen : c < s.chans.length) (hc : c < s.chCount.toNat) :
    filteredSample u (recordFrame u p (modulate u s)) c =
      if s.status.dsActive then (chanAt (frame u p s) c).y1 else (chanAt (frame u p s) c).held := by
  have hstatus : (recordFrame u p (modulate u s)).status = s.status := by rw [recordFrame_status, modulate_status]
  have hchan : chanAt (recordFrame u p (modulate u s)) c = chanAt s c := modulate_chanAt u s c
  rw [filteredSample, hstatus, hchan, frame_held u p s hlen hc]
  split
  case isTrue hactive =>
    rw [chanAt_frame u p s hlen, if_pos hc, holdChan_of_active u (by rw [hstatus, hactive])]
  case isFalse => rfl

/-- A live channel's sample behind the crusher. -/
theorem crushedSample_frame {c : Nat} (hlen : c < s.chans.length) (hc : c < s.chCount.toNat) :
    crushedSample u (recordFrame u p (modulate u s)) c =
      crush u s.build.makeup (frame u p s).bc.bits s.bc.outMix
        (if s.status.dsActive then (chanAt (frame u p s) c).y1 else (chanAt (frame u p s) c).held) := by
  rw [crushedSample, filteredSample_frame u p s hlen hc, recordFrame_build, modulate_build, recordFrame_bc,
    modulate_bcOutMix, frame_bc]

/-! ## The outputs (R394, R395) -/

/-- The mixer's output in a frame: the dry sample and the limited signal of the new limiter registers. -/
theorem outSample_frame (c : Nat) :
    outSample u p (modulate u s) (recordFrame u p (modulate u s)) (wetFrame u p (modulate u s)) c =
      u.add (u.mul s.mix.dry (drySample u p s c))
        (u.mul s.mix.wet (limit u (frame u p s).lim (crushedSample u (recordFrame u p (modulate u s)) c))) := by
  rw [outSample, mixSample, modulate_drySample, wetFrame_mix, modulate_mix]
  rfl

theorem frame_lastOut {c : Nat} (hlen : c < s.chans.length) (hc : c < s.chCount.toNat) :
    (chanAt (frame u p s) c).lastOut =
      outSample u p (modulate u s) (recordFrame u p (modulate u s)) (wetFrame u p (modulate u s)) c := by
  rw [chanAt_frame u p s hlen, if_pos hc]

/-- OUT_MEM of a live channel holds its last output, and no other word changes. -/
theorem frame_outMem_reads (hi : p.i < s.build.maxBlock) :
    (∀ c, c < s.chCount.toNat → c < s.chans.length →
      Memory.read none (frame u p s).outMem (c * s.build.maxBlock + p.i) =
        some (fromFmt u p.sw (chanAt (frame u p s) c).lastOut)) ∧
    (∀ idx, (∀ c, c < s.chCount.toNat → idx ≠ c * s.build.maxBlock + p.i) →
      Memory.read none (frame u p s).outMem idx = Memory.read none s.outMem idx) := by
  have hreads := emitFrame_reads u p
    (outSample u p (modulate u s) (recordFrame u p (modulate u s)) (wetFrame u p (modulate u s)))
    (wetFrame u p (modulate u s)) (by rwa [wetFrame_build, modulate_build])
  rw [← playFrame_outMem u p s, ← frame] at hreads
  simp only [ioIndex, wetFrame_build, wetFrame_chCount, wetFrame_outMem, modulate_build, modulate_chCount,
    modulate_outMem] at hreads
  refine ⟨fun c hc hlen => ?_, fun idx hidx => hreads.2 idx fun c hc => (hidx c hc).symm⟩
  rw [frame_lastOut u p s hlen hc]
  exact hreads.1 c hc

/-! ## The limiter's formulas, written out (R305 to R307) -/

theorem envelope_eq (l : LimRegs) (m : F) :
    envelope u l m = u.add l.env (u.mul (if u.gt m l.env then l.att else l.rel) (u.sub m l.env)) := by
  unfold envelope
  split <;> rfl

/-- The divisor of an envelope: 1 up to the threshold, else by the knee. -/
theorem gainOf_eq (l : LimRegs) (env : F) : gainOf u l env =
    if u.gt (u.mul env l.invT) u.one then
      if l.soft then
        if u.lt (u.mul env l.invT) (kneeEnd u) then
          u.div (u.mul env l.invT) (u.sub (u.mul env l.invT) (kneeSquare u (u.mul env l.invT)))
        else u.div (u.mul env l.invT) (u.add u.one (u.ofDec Config.kneeK))
      else u.mul env l.invT
    else u.one := by
  split
  case isTrue habove =>
    unfold gainOf
    split
    · exact gainSoft_of_gt habove
    · exact gainHard_of_gt habove
  case isFalse hbelow => exact gainOf_of_not_gt (Bool.eq_false_iff.mpr hbelow)

end Rules

/-! ## The settled statements -/

/-- Settles O39: the record write of the modulated state, in the registers before the frame. -/
theorem frameRecords : Obligations.FrameRecords := fun u p s hwp =>
  ⟨fun c hc => (recRead_frame_wp u p s hwp hc).trans (recSample_eq u p s c),
    fun _ hidx => read_frame_recMem_other u p s hidx hwp⟩

/-- Settles O40: the two cases of the hold counter, and the channels that a frame leaves. -/
theorem frameFetchOrHold : Obligations.FrameFetchOrHold := by
  intro u p s c hlen t fetch
  refine ⟨fun hc hfetch => ?_, fun hc hhold => ?_, fun hc => ?_⟩
  · rw [frame_held u p s hlen hc, heldSample_of_fetching u p s ((fetching_iff u p s).mpr hfetch)]
  · rw [frame_held u p s hlen hc, heldSample, if_neg fun hfetch => hhold ((fetching_iff u p s).mp hfetch)]
  · rw [chanAt_frame u p s hlen, if_neg (Nat.not_lt.mpr hc)]

/-- Settles O42: the signals are the crushed samples, the registers the detector's, the outputs the mixer's. -/
theorem frameLimitsAndMixes : Obligations.FrameLimitsAndMixes := by
  intro u p s hchans hi t b steps crushed sig m env q d gain
  have hsig {c : Nat} (hc : c < s.chCount.toNat) : crushedSample u (recordFrame u p (modulate u s)) c = sig c :=
    crushedSample_frame u p s (by omega) hc
  have hsignals : frameSignals u (recordFrame u p (modulate u s)) = (List.range s.chCount.toNat).map sig := by
    rw [frameSignals, recordFrame_chCount, modulate_chCount]
    exact List.map_congr_left fun c hc => hsig (List.mem_range.mp hc)
  have henv : envelope u s.lim (peak u ((List.range s.chCount.toNat).map sig)) = env := envelope_eq u s.lim m
  have hgain : gainOf u s.lim env = gain := gainOf_eq u s.lim env
  have hlim : t.lim = { s.lim with env := env, gain := gain } := by
    rw [frame_lim, hsignals, detect, henv, hgain]
  obtain ⟨hout, hother⟩ := frame_outMem_reads u p s hi
  refine ⟨hlim, fun c hc => ⟨?_, hout c hc (by omega)⟩, hother⟩
  rw [frame_lastOut u p s (by omega) hc, outSample_frame, hsig hc, hlim]
  rfl

end Sys2Proof.Proofs
end

section
/-!
PROOFS. The steps of a PROCESS in progress (46_engine_process.md R381, R396, R397, R399): each is its next frame, the last
its epilogue, and uninterrupted they run to the end.

The one idea: by the machine invariant a frame makes no access outside a space, so it is never a fault. A run to the end is an
induction on the frames that remain.
-/

namespace Sys2Proof.Proofs

open Sys2Proof Sys2Proof.Machine Sys2Proof.Laws

section Steps

variable {s : State} {p : Proc}

theorem inv_tick (h : s.Inv) : (tick s).Inv := inv_of_kept h rfl

/-- In a state that meets the invariant a frame's channels, words and cells exist (10_state.md R62). -/
theorem frameFault_of_inv (h : s.Inv) (hp : s.proc = some p) (hi : p.i < p.n) : frameFault p s = none := by
  have hfits := h.proc p hp
  have hchans := h.chans
  have hcount := h.chCountLe
  have hlength := hfits.length
  have hread : readIndex s < s.build.recCap := (Nat.div_lt_iff_lt_mul (Nat.two_pow_pos 32)).mpr h.rp
  rw [frameFault, if_neg (by omega), if_neg (not_or.mpr ⟨Nat.not_lt.mpr hfits.nin, by omega⟩),
    if_neg (not_or.mpr ⟨Nat.not_le.mpr h.wp, Nat.not_le.mpr hread⟩)]

theorem step_of_proc (hp : s.proc = some p) (hmover : mover s = some .audio) : step s = continueProcess p (tick s) := by
  rw [step_of_mover s _ hmover, agentStep, audioStep, hp]

theorem step_frame (h : s.Inv) (hp : s.proc = some p) (hmover : mover s = some .audio) (hi : p.i < p.n) :
    step s = .next (frame (tick s).fpu p (tick s)) := by
  rw [step_of_proc hp hmover, continueProcess, if_pos hi, frameFault_of_inv (inv_tick h) hp hi]

theorem step_epilogue (hp : s.proc = some p) (hmover : mover s = some .audio) (hi : p.i = p.n) :
    step s = .next (epilogue (tick s).fpu (tick s)) := by
  rw [step_of_proc hp hmover, continueProcess, if_neg (by omega)]

/-- Nothing is there to interrupt the PROCESS in progress: no control command waits, and no input of the host comes. -/
def Uninterrupted (s : State) : Prop := s.controlQ.length < 3 ∧ s.hostIn = []

theorem mover_of_uninterrupted (hp : s.proc = some p) (hquiet : Uninterrupted s) : mover s = some .audio := by
  obtain ⟨hcontrol, hhost⟩ := hquiet
  obtain ⟨a, ha⟩ := exists_mover ((canMove_audio_iff s).mpr (.inl (by rw [hp]; rfl)))
  cases a with
  | audio => exact ha
  | control => exact absurd (length_of_mover_control ha) (Nat.not_le.mpr hcontrol)
  | host =>
    obtain ⟨e, es, hin⟩ := hostIn_of_mover_host ha
    rw [hhost] at hin
    cases hin

theorem uninterrupted_frame (u : Fpu) (hquiet : Uninterrupted s) : Uninterrupted (frame u p s) := by
  rwa [Uninterrupted, frame_controlQ, frame_hostIn]

/-- What the completion of a PROCESS with `k` frames still to run leaves (R396, R397, R399). -/
structure CompletesTo (s t : State) (k : Nat) : Prop where
  proc : t.proc = none
  busy : t.status.busy = false
  audioQ : t.audioQ = s.audioQ
  gr : t.gr = linearGR t.fpu t.lim.gain
  wp : t.ptr.wp.toNat = (s.ptr.wp.toNat + k) % s.build.recCap
  rp : s.pbLfo.en = false →
    t.ptr.rp.toNat = (s.ptr.rp.toNat + k * s.pb.step.toNat) % (s.build.recCap * 2 ^ 32)

theorem completesTo_epilogue (h : s.Inv) : CompletesTo s (epilogue (tick s).fpu (tick s)) 0 where
  proc := rfl
  busy := rfl
  audioQ := rfl
  gr := rfl
  wp := (Nat.mod_eq_of_lt h.wp).symm
  rp _ := by rw [Nat.zero_mul]; exact (Nat.mod_eq_of_lt h.rp).symm

/-- A frame in front of the frames that remain. -/
theorem completesTo_of_frame {t : State} {k : Nat} (u : Fpu) (h : s.Inv) (ht : CompletesTo (frame u p s) t k) :
    CompletesTo s t (k + 1) where
  proc := ht.proc
  busy := ht.busy
  audioQ := ht.audioQ.trans (frame_audioQ u p s)
  gr := ht.gr
  wp := by
    rw [ht.wp, frame_build, toNat_frame_wp u p h.build.recCapPos h.build.recCapLe, Nat.mod_add_mod, Nat.add_right_comm,
      Nat.add_assoc]
  rp hoff := by
    have hpb : (frame u p s).pb = s.pb := (frame_pb u p s).trans (modulate_pb_of_off u hoff)
    have hen : (frame u p s).pbLfo.en = false := by rw [frame_pbLfo, modulate_pbLfo_kept]; exact hoff
    rw [ht.rp hen, frame_build, toNat_frame_rp u p h.build.recCapPos h.build.recCapLe, hpb, Nat.mod_add_mod,
      Nat.add_assoc, Nat.succ_mul, Nat.add_comm (k * _)]

/-- An uninterrupted PROCESS runs its remaining frames and its epilogue. -/
theorem run_completes (k : Nat) (h : s.Inv) (hp : s.proc = some p) (hquiet : Uninterrupted s) (hk : p.n = p.i + k) :
    ∃ t, Host.Core.run Sys2Proof.core (k + 1) s = .next t ∧ CompletesTo s t k := by
  have hmover := mover_of_uninterrupted hp hquiet
  induction k generalizing s p with
  | zero =>
    exact ⟨_, run_succ (M := Sys2Proof.core) (step_epilogue hp hmover hk.symm) 0, completesTo_epilogue h⟩
  | succ k ih =>
    have hi : p.i < p.n := by omega
    have hnext := frame_proc (tick s).fpu p (tick s)
    have hquietNext := uninterrupted_frame (p := p) (tick s).fpu (s := tick s) hquiet
    obtain ⟨t, hrun, ht⟩ := ih (inv_frame (inv_tick h) (tick s).fpu hp hi) hnext hquietNext
      (show p.n = p.i + 1 + k by omega) (mover_of_uninterrupted hnext hquietNext)
    have hall : CompletesTo (tick s) t (k + 1) := completesTo_of_frame _ (inv_tick h) ht
    exact ⟨t, (run_succ (M := Sys2Proof.core) (step_frame h hp hmover hi) (k + 1)).trans hrun,
      { hall with }⟩

end Steps

/-- Settles O37: a frame is no fault, and the epilogue with its read-out written out. -/
theorem stepRunsFrameThenEpilogue : Obligations.StepRunsFrameThenEpilogue := by
  intro s p h hp hmover
  exact ⟨(h.proc p hp).index, step_frame h hp hmover, step_epilogue hp hmover⟩

/-- Settles O46: by induction on the frames that remain. -/
theorem processRunsToCompletion : Obligations.ProcessRunsToCompletion := by
  intro s p h hp hcontrol hhost
  have hindex := (h.proc p hp).index
  obtain ⟨t, hrun, ht⟩ := run_completes (p.n - p.i) h hp ⟨hcontrol, hhost⟩ (by omega)
  exact ⟨t, hrun, ht.proc, ht.busy, ht.audioQ, ht.gr, ht.wp, ht.rp⟩

end Sys2Proof.Proofs
end

section
/-!
PROOFS. The integer images of an amount (46_engine_process.md R386, R387; 43_bitcrusher.md R261).

The one idea: an amount that is at least 1, or above 0, is +∞ or a nonnegative number of units, and each image is one
division of those units; every other amount has the constant image.
-/

namespace Sys2Proof.Proofs

open Sys2Proof Sys2Proof.Machine Sys2Proof.Laws

section Images

variable {u : Fpu} {a : F} {m : Nat}

/-! ## Comparisons with 0 and with 1, on what an amount stands for -/

theorem isFinite_of_numOf {f : Fmt} {v : F} {s : Bool} {n : Nat} (h : numOf f v = .fin s n) : isFinite f v = true := by
  unfold numOf at h
  simp only at h
  split at h
  · exact decide_eq_true ‹_›
  · split at h <;> cases h

theorem isFinite_of_inf {f : Fmt} {v : F} {s : Bool} (h : numOf f v = .inf s) : isFinite f v = false := by
  rw [Bool.eq_false_iff]
  intro hfin
  rw [numOf_of_isFinite f v hfin] at h
  cases h

theorem gt_zero_iff : u.gt a u.zero = true ↔
    numOf u.fmt a = .inf false ∨ ∃ m, numOf u.fmt a = .fin false m ∧ 0 < m := by
  cases ha : numOf u.fmt a with
  | nan => simp [Fpu.gt, Fpu.lt, numOf_zero, ha]
  | inf s => simp [Fpu.gt, Fpu.lt, numOf_zero, ha]
  | fin s m => cases s <;> simp [Fpu.gt, Fpu.lt, numOf_zero, ha, Fpu.signedUnits]

theorem ge_one_iff : u.ge a u.one = true ↔
    numOf u.fmt a = .inf false ∨ ∃ m, numOf u.fmt a = .fin false m ∧ 2 ^ unitExp u.fmt ≤ m := by
  constructor
  · intro hge
    cases hfin : isFinite u.fmt a with
    | true => exact .inr (exists_units_of_ge_one hfin hge)
    | false =>
      cases ha : numOf u.fmt a with
      | nan => simp [Fpu.ge, Fpu.le, Fpu.lt, Fpu.eq, numOf_one, ha] at hge
      | inf s => simpa [Fpu.ge, Fpu.le, Fpu.lt, Fpu.eq, numOf_one, ha] using hge
      | fin s n => exact absurd (isFinite_of_numOf ha) (Bool.eq_false_iff.mp hfin)
  · rintro (hinf | ⟨m, hm, hone⟩)
    · exact ge_one_of_inf hinf
    · exact ge_one_of_le hm hone

theorem valueOf_of_nonneg {f : Fmt} {v : F} {n : Nat} (h : numOf f v = .fin false n) :
    valueOf f v = (n : ℚ) / (2 ^ unitExp f : Nat) := by
  rw [valueOf_of_numOf h]
  simp [Fpu.signedUnits]

/-- The whole part of a nonnegative value is a division of its units. -/
theorem floor_valueOf {f : Fmt} {v : F} {n : Nat} (h : numOf f v = .fin false n) :
    ⌊valueOf f v⌋ = ((n / 2 ^ unitExp f : Nat) : ℤ) := by
  rw [valueOf_of_nonneg h, Rat.floor_natCast_div_natCast]
  rfl

/-! ## The hold length (R386) -/

theorem incr_of_inf (h : numOf u.fmt a = .inf false) : incr u a = 4294967295#32 := by rw [incr, h]

theorem toNat_incr_of_fin (h : numOf u.fmt a = .fin false m) (hone : 2 ^ unitExp u.fmt ≤ m) :
    (incr u a).toNat = min (m / 2 ^ unitExp u.fmt) 4294967295 := by
  have hpos : 1 ≤ m / 2 ^ unitExp u.fmt := (Nat.one_le_div_iff (Nat.two_pow_pos _)).mpr hone
  rw [incr, h]
  simp only
  rw [if_neg (by omega), BitVec.toNat_ofNat, Nat.mod_eq_of_lt (by omega)]

theorem incr_of_not_ge_one (h : u.ge a u.one = false) : incr u a = 1#32 := by
  unfold incr
  split
  case h_1 m hm =>
    have hlt : m < 2 ^ unitExp u.fmt := by
      by_contra hle
      exact Bool.false_ne_true (h.symm.trans (ge_one_iff.mpr (.inr ⟨m, hm, Nat.not_lt.mp hle⟩)))
    rw [Nat.div_eq_of_lt hlt]
    rfl
  case h_2 hinf => exact absurd (h.symm.trans (ge_one_iff.mpr (.inl hinf))) Bool.false_ne_true
  case h_3 => rfl

/-! ## The read-pointer step (R387) -/

theorem fx_of_inf (h : numOf u.fmt a = .inf false) : fx u a = BitVec.ofNat 64 (2 ^ 33) := by rw [fx, h]

theorem toNat_fx_of_fin (h : numOf u.fmt a = .fin false m) :
    (fx u a).toNat = min (roundHalfEven (m * 2 ^ 32) (2 ^ unitExp u.fmt)) (2 ^ 33) := by
  rw [fx, h]
  simp only
  rw [BitVec.toNat_ofNat, Nat.mod_eq_of_lt (by omega)]

theorem roundHalfEven_zero {den : Nat} (hd : 0 < den) : roundHalfEven 0 den = 0 := by
  simpa using roundHalfEven_exact 0 den hd

theorem fx_of_not_gt_zero (h : u.gt a u.zero = false) : fx u a = 0#64 := by
  unfold fx
  split
  case h_1 m hm =>
    have hzero : m = 0 := by
      by_contra hne
      exact Bool.false_ne_true (h.symm.trans (gt_zero_iff.mpr (.inr ⟨m, hm, Nat.pos_of_ne_zero hne⟩)))
    rw [hzero, Nat.zero_mul, roundHalfEven_zero (Nat.two_pow_pos _)]
    rfl
  case h_2 hinf => exact absurd (h.symm.trans (gt_zero_iff.mpr (.inl hinf))) Bool.false_ne_true
  case h_3 => rfl

/-- The distance of a whole number from a quotient. -/
theorem abs_whole_sub_div (r num : Nat) {den : Nat} (hd : 0 < den) :
    |(r : ℚ) - (num : ℚ) / den| = |(r : ℚ) * den - num| / den := by
  have hden : (0 : ℚ) < den := by exact_mod_cast hd
  rw [sub_div' hden.ne', abs_div, abs_of_pos hden]

/-- Rounding to a whole number moves a quotient by at most a half. -/
theorem abs_roundHalfEven_sub_le (num : Nat) {den : Nat} (hd : 0 < den) :
    |(roundHalfEven num den : ℚ) - (num : ℚ) / den| ≤ 1 / 2 := by
  have hden : (0 : ℚ) < den := by exact_mod_cast hd
  have habove : (2 * (roundHalfEven num den * den) : ℚ) ≤ 2 * num + den := by exact_mod_cast roundHalfEven_le num den hd
  have hbelow : (2 * num : ℚ) ≤ 2 * (roundHalfEven num den * den) + den := by exact_mod_cast le_roundHalfEven num den hd
  rw [abs_whole_sub_div _ _ hd, div_le_iff₀ hden, abs_le]
  constructor <;> linarith

/-- A quotient that is moved by a half goes to an even number. -/
theorem roundHalfEven_even_of_half (num : Nat) {den : Nat} (hd : 0 < den)
    (h : |(roundHalfEven num den : ℚ) - (num : ℚ) / den| = 1 / 2) : roundHalfEven num den % 2 = 0 := by
  have hden : (0 : ℚ) < den := by exact_mod_cast hd
  rw [abs_whole_sub_div _ _ hd, div_eq_iff hden.ne', abs_eq (by positivity)] at h
  obtain hup | hdown := h
  · have htie : (2 * (roundHalfEven num den * den) : ℚ) = 2 * num + den := by linarith
    exact roundHalfEven_tie_up num den hd (by exact_mod_cast htie)
  · have htie : (2 * num : ℚ) = 2 * (roundHalfEven num den * den) + den := by linarith
    exact roundHalfEven_tie_down num den hd (by exact_mod_cast htie)

/-- From an amount of 2 on the step is two frames. -/
theorem toNat_fx_of_two_le (hm : numOf u.fmt a = .fin false m) (h : 2 ≤ valueOf u.fmt a) : (fx u a).toNat = 2 ^ 33 := by
  have hpos : (0 : ℚ) < (2 ^ unitExp u.fmt : Nat) := by exact_mod_cast Nat.two_pow_pos _
  rw [valueOf_of_nonneg hm, le_div_iff₀ hpos] at h
  have hunits : 2 * 2 ^ unitExp u.fmt ≤ m := by exact_mod_cast h
  rw [toNat_fx_of_fin hm]
  exact min_eq_right (roundHalfEven_pos_of_le _ _ _ (Nat.two_pow_pos _) (by omega))

/-- Below an amount of 2 the step is the rounded product with 2^32. -/
theorem toNat_fx_of_lt_two (hm : numOf u.fmt a = .fin false m) (h : valueOf u.fmt a < 2) :
    (fx u a).toNat = roundHalfEven (m * 2 ^ 32) (2 ^ unitExp u.fmt) := by
  have hpos : (0 : ℚ) < (2 ^ unitExp u.fmt : Nat) := by exact_mod_cast Nat.two_pow_pos _
  rw [valueOf_of_nonneg hm, div_lt_iff₀ hpos] at h
  have hunits : m < 2 * 2 ^ unitExp u.fmt := by exact_mod_cast h
  rw [toNat_fx_of_fin hm]
  exact min_eq_left (roundHalfEven_le_of_le _ _ _ (Nat.two_pow_pos _) (by omega))

theorem valueOf_mul_two_pow (hm : numOf u.fmt a = .fin false m) :
    valueOf u.fmt a * 2 ^ 32 = ((m * 2 ^ 32 : Nat) : ℚ) / (2 ^ unitExp u.fmt : Nat) := by
  rw [valueOf_of_nonneg hm, Nat.cast_mul, div_mul_eq_mul_div]
  norm_num

/-! ## The bit depth (43_bitcrusher.md R261) -/

theorem bitDepth_of_not_gt_zero (h : u.gt a u.zero = false) : bitDepth u a = 1#8 := by
  rw [bitDepth, h]
  rfl

theorem bitDepth_of_ge_one (h : u.ge a u.one = true) : bitDepth u a = 16#8 := by
  have hpos : u.gt a u.zero = true := by
    obtain hinf | ⟨m, hm, hone⟩ := ge_one_iff.mp h
    · exact gt_zero_iff.mpr (.inl hinf)
    · exact gt_zero_iff.mpr (.inr ⟨m, hm, Nat.lt_of_lt_of_le (Nat.two_pow_pos _) hone⟩)
  rw [bitDepth, hpos, h]
  rfl

/-- A whole number up to 15 is a value of the format. -/
theorem isUnits_whole (f : Fmt) {k : Nat} (hk : k ≤ 15) : IsUnits f (k * 2 ^ unitExp f) := by
  obtain ⟨top, htop, hfifteen⟩ := fifteen_units f
  obtain ⟨mag, hmag⟩ := exists_unitsOf_eq f (unitExp f) (m := k) (by cases f <;> simp only [fracBits] <;> omega)
  have hle : unitsOf f mag ≤ unitsOf f top := by
    rw [hmag, hfifteen]
    exact Nat.mul_le_mul_right _ hk
  exact ⟨mag, (le_of_unitsOf_le f hle).trans_lt htop, hmag⟩

/-- The floor of a value up to 15 is its whole part. -/
theorem toUInt_floorS {v : F} {n : Nat} (hn : numOf u.fmt v = .fin false n) (hle : n ≤ 15 * 2 ^ unitExp u.fmt) :
    u.toUInt (u.floorS v) = n / 2 ^ unitExp u.fmt := by
  have hwhole : n / 2 ^ unitExp u.fmt ≤ 15 := Nat.div_le_of_le_mul (by omega)
  rw [Fpu.toUInt, floorS_fin_pos u v n hn, numOf_rounded_exact u false Nat.one_pos (isUnits_whole u.fmt hwhole)
    (Nat.mul_one _).symm]
  exact Nat.mul_div_cancel _ (Nat.two_pow_pos _)

/-- Between 0 and 1 the product with 15 is a value up to 15. -/
theorem numOf_mul_fifteen (h0 : u.gt a u.zero = true) (h1 : u.ge a u.one = false) :
    ∃ n, numOf u.fmt (u.mul a (u.ofNat 15)) = .fin false n ∧ n ≤ 15 * 2 ^ unitExp u.fmt := by
  obtain ⟨m, hm, -, hlt⟩ := fraction_of u a h0 h1
  rw [mul_fin u a _ _ _ _ _ hm (numOf_fifteen u)]
  obtain ⟨n, hn, -, hle⟩ := numOf_rounded_between u (false != false) (Nat.two_pow_pos (unitExp u.fmt))
    (isUnits_zero u.fmt) (fifteen_units u.fmt) (num := m * (15 * 2 ^ unitExp u.fmt)) (by omega)
    (by rw [Nat.mul_comm]; exact Nat.mul_le_mul_left _ hlt.le)
  exact ⟨n, hn, hle⟩

theorem toNat_bitDepth_of_fraction (h0 : u.gt a u.zero = true) (h1 : u.ge a u.one = false) :
    ((bitDepth u a).toNat : ℤ) = 1 + ⌊valueOf u.fmt (u.mul a (u.ofNat 15))⌋ := by
  obtain ⟨n, hn, hle⟩ := numOf_mul_fifteen h0 h1
  have hwhole : n / 2 ^ unitExp u.fmt ≤ 15 := Nat.div_le_of_le_mul (by omega)
  rw [bitDepth, h0, h1, Bool.not_true, if_neg Bool.false_ne_true, if_neg Bool.false_ne_true, toUInt_floorS hn hle,
    floor_valueOf hn, BitVec.toNat_ofNat, Nat.mod_eq_of_lt (by omega)]
  exact Nat.cast_add _ _

/-! ## The finite amounts above 0 and from 1 on -/

theorem inf_of_ge_one (h : u.ge a u.one = true) (hfin : isFinite u.fmt a = false) : numOf u.fmt a = .inf false :=
  (ge_one_iff.mp h).resolve_right fun ⟨_, hm, _⟩ => Bool.false_ne_true (hfin.symm.trans (isFinite_of_numOf hm))

theorem inf_of_gt_zero (h : u.gt a u.zero = true) (hfin : isFinite u.fmt a = false) : numOf u.fmt a = .inf false :=
  (gt_zero_iff.mp h).resolve_right fun ⟨_, hm, _⟩ => Bool.false_ne_true (hfin.symm.trans (isFinite_of_numOf hm))

theorem fin_of_gt_zero (h : u.gt a u.zero = true) (hfin : isFinite u.fmt a = true) :
    ∃ m, numOf u.fmt a = .fin false m := by
  obtain hinf | ⟨m, hm, -⟩ := gt_zero_iff.mp h
  · exact absurd (hfin.symm.trans (isFinite_of_inf hinf)) (Bool.false_ne_true ∘ Eq.symm)
  · exact ⟨m, hm⟩

end Images

/-- Settles O51: each image on its cases, an infinity, a number of units and the rest. -/
theorem integerImagesExact : Obligations.IntegerImagesExact := by
  intro u a v
  refine ⟨incr_of_not_ge_one, fun h hfin => incr_of_inf (inf_of_ge_one h hfin), fun h hfin => ?_, fx_of_not_gt_zero,
    fun h hfin => ?_, fun h hfin htwo => ?_, fun h hfin htwo => ?_, bitDepth_of_not_gt_zero, bitDepth_of_ge_one,
    toNat_bitDepth_of_fraction⟩
  · obtain ⟨m, hm, hone⟩ := exists_units_of_ge_one hfin h
    rw [toNat_incr_of_fin hm hone, floor_valueOf hm, Nat.cast_min]
    rfl
  · rw [fx_of_inf (inf_of_gt_zero h hfin)]
    rfl
  · obtain ⟨m, hm⟩ := fin_of_gt_zero h hfin
    exact toNat_fx_of_two_le hm htwo
  · obtain ⟨m, hm⟩ := fin_of_gt_zero h hfin
    rw [toNat_fx_of_lt_two hm htwo, valueOf_mul_two_pow hm]
    exact ⟨abs_roundHalfEven_sub_le _ (Nat.two_pow_pos _), roundHalfEven_even_of_half _ (Nat.two_pow_pos _)⟩

end Sys2Proof.Proofs
end

section
/-!
PROOFS. Transparency (46_engine_process.md R400; 44_limiter.md R317): with every effect neutral a frame outputs its input.

The one idea: a finite pattern of the format is its own rounding, so times 1, over 1 and plus a zero of its sign it stays the
same pattern, bit for bit; and a value of magnitude at most 1 passes the clamp.
-/

namespace Sys2Proof.Proofs

open Sys2Proof Sys2Proof.Machine Sys2Proof.Laws

/-! ## Patterns of the format -/

/-- The bits above the format's width are 0. -/
def IsPattern (f : Fmt) (v : F) : Prop := v.toNat < 2 ^ fmtWidth f

theorem two_pow_fmtWidth (f : Fmt) : 2 ^ fmtWidth f = 2 * signWeight f := by cases f <;> decide

/-- A pattern of the format is its sign and its magnitude. -/
theorem packMag_of_isPattern {f : Fmt} {v : F} (h : IsPattern f v) : packMag f (signOf f v) (magOf f v) = v := by
  rw [IsPattern, two_pow_fmtWidth] at h
  have hmag : magOf f v < signWeight f := Nat.mod_lt _ (signWeight_pos f)
  have hdiv : v.toNat / signWeight f < 2 := (Nat.div_lt_iff_lt_mul (signWeight_pos f)).mpr h
  have hparts := Nat.div_add_mod v.toNat (signWeight f)
  apply BitVec.eq_of_toNat_eq
  rw [toNat_packMag f _ _ hmag, magOf, signOf]
  generalize v.toNat / signWeight f = k at *
  obtain rfl | rfl : k = 0 ∨ k = 1 := by omega
  · rw [if_neg (by decide)]; omega
  · rw [if_pos (by decide)]; omega

theorem isPattern_toFmt (u : Fpu) (sw : Bool) (w : IoWord) : IsPattern u.fmt (toFmt u sw w) := by
  cases sw with
  | true => exact toNat_convert_lt u .binary64 u.fmt w
  | false =>
    show IsPattern u.fmt (toFmt32 u (w.setWidth 32))
    cases hfmt : u.fmt with
    | binary32 =>
      rw [toFmt32_binary32 u _ hfmt, IsPattern, BitVec.toNat_setWidth_of_le (by decide)]
      exact (w.setWidth 32).isLt
    | binary64 =>
      rw [toFmt32_binary64 u _ hfmt]
      exact toNat_convert_lt u _ _ _

section Neutral

variable {u : Fpu} {x : F}

/-- A finite pattern is its own rounding. -/
theorem rounded_self (hx : IsPattern u.fmt x) (hfin : isFinite u.fmt x = true) {num den : Nat} (hd : 0 < den)
    (h : num = unitsOf u.fmt (magOf u.fmt x) * den) : u.rounded (signOf u.fmt x) num den = x := by
  have hmag : magOf u.fmt x < infMag u.fmt := of_decide_eq_true hfin
  rw [h, Fpu.rounded, roundQ_exact u.fmt _ den hd hmag.le, packMag_of_isPattern hx]

theorem mul_one_pattern (hx : IsPattern u.fmt x) (hfin : isFinite u.fmt x = true) : u.mul x u.one = x := by
  rw [mul_fin u x _ _ _ _ _ (numOf_of_isFinite _ x hfin) (numOf_one u), Bool.bne_false]
  exact rounded_self hx hfin (Nat.two_pow_pos _) rfl

theorem one_mul_pattern (hx : IsPattern u.fmt x) (hfin : isFinite u.fmt x = true) : u.mul u.one x = x := by
  rw [mul_fin u _ x _ _ _ _ (numOf_one u) (numOf_of_isFinite _ x hfin), Bool.false_bne]
  exact rounded_self hx hfin (Nat.two_pow_pos _) (Nat.mul_comm _ _)

theorem div_one_pattern (hx : IsPattern u.fmt x) (hfin : isFinite u.fmt x = true) : u.div x u.one = x := by
  rw [div_fin u x _ (numOf_of_isFinite _ x hfin) (numOf_one u) (Nat.two_pow_pos _).ne', Bool.bne_false]
  exact rounded_self hx hfin (Nat.two_pow_pos _) rfl

/-- Zero times a finite value is the zero of its sign. -/
theorem numOf_zero_mul (hfin : isFinite u.fmt x = true) : numOf u.fmt (u.mul u.zero x) = .fin (signOf u.fmt x) 0 := by
  rw [mul_fin u _ x _ _ _ _ (numOf_zero u) (numOf_of_isFinite _ x hfin), Bool.false_bne]
  exact numOf_rounded_exact u _ (Nat.two_pow_pos _) (isUnits_zero u.fmt) (by rw [Nat.zero_mul, Nat.zero_mul])

/-- A silent dry path adds a zero of the sample's own sign, which leaves the sample. -/
theorem zero_mul_add_pattern (hx : IsPattern u.fmt x) (hfin : isFinite u.fmt x = true) :
    u.add (u.mul u.zero x) x = x := by
  rw [add_fin_same u (numOf_zero_mul hfin) (numOf_of_isFinite _ x hfin)]
  exact rounded_self hx hfin Nat.one_pos (by omega)

/-- A magnitude of at most 1 has at most the units of 1. -/
theorem units_le_of_absS_le_one (hfin : isFinite u.fmt x = true) (h : u.le (u.absS x) u.one = true) :
    unitsOf u.fmt (magOf u.fmt x) ≤ 2 ^ unitExp u.fmt := by
  have hmag : magOf u.fmt x < infMag u.fmt := of_decide_eq_true hfin
  have habs : numOf u.fmt (u.absS x) = .fin false (unitsOf u.fmt (magOf u.fmt x)) := numOf_packMag u.fmt false _ hmag
  simp only [Fpu.le, Fpu.lt, Fpu.eq, habs, numOf_one, Fpu.signedUnits, Bool.or_eq_true, decide_eq_true_eq,
    Bool.false_eq_true, if_false] at h
  omega

theorem signedUnits_bounds (s : Bool) {n b : Nat} (h : n ≤ b) :
    -(b : ℤ) ≤ Fpu.signedUnits s n ∧ Fpu.signedUnits s n ≤ b := by
  unfold Fpu.signedUnits
  split <;> omega

/-- A value of magnitude at most 1 passes the clamp. -/
theorem clampS_of_absS_le_one (hfin : isFinite u.fmt x = true) (h : u.le (u.absS x) u.one = true) :
    u.clampS x (u.neg u.one) u.one = x := by
  have hnum := numOf_of_isFinite u.fmt x hfin
  obtain ⟨hlo, hhi⟩ := signedUnits_bounds (signOf u.fmt x) (units_le_of_absS_le_one hfin h)
  have hbelow : u.lt x (u.neg u.one) = false := by
    rw [Fpu.lt, hnum, numOf_neg u _ (numOf_one u)]
    exact decide_eq_false (not_lt.mpr hlo)
  have habove : u.lt u.one x = false := by
    rw [Fpu.lt, hnum, numOf_one u]
    exact decide_eq_false (not_lt.mpr hhi)
  rw [Fpu.clampS, Fpu.fmaxS, hbelow, if_neg Bool.false_ne_true, Fpu.fminS, habove, if_neg Bool.false_ne_true]

/-- The limiter without reduction and trim passes a sample of magnitude at most 1 (44_limiter.md R317). -/
theorem limit_neutral {l : LimRegs} (htrim : l.trim = u.one) (hgain : l.gain = u.one) (hx : IsPattern u.fmt x)
    (hfin : isFinite u.fmt x = true) (h : u.le (u.absS x) u.one = true) : limit u l x = x := by
  rw [limit, htrim, hgain, mul_one_pattern hx hfin, div_one_pattern hx hfin, clampS_of_absS_le_one hfin h]

/-- WET = 1 and DRY = 0 pass what the limiter passes. -/
theorem mix_neutral {l : LimRegs} (htrim : l.trim = u.one) (hgain : l.gain = u.one) (hx : IsPattern u.fmt x)
    (hfin : isFinite u.fmt x = true) (h : u.le (u.absS x) u.one = true) :
    u.add (u.mul u.zero x) (u.mul u.one (limit u l x)) = x := by
  rw [limit_neutral htrim hgain hx hfin h, one_mul_pattern hx hfin, zero_mul_add_pattern hx hfin]

end Neutral

theorem fmtMask_of_isPattern {f : Fmt} {v : F} (h : IsPattern f v) : fmtMask f v = v := by
  rw [fmtMask, Nat.mod_eq_of_lt h, BitVec.ofNat_toNat, BitVec.setWidth_eq]

/-- A binary32 sample of a binary32 build goes in and out as its low half. -/
theorem fromFmt_toFmt_narrow {u : Fpu} (hfmt : u.fmt = .binary32) {sw : Bool} (hsw : sw = false) (w : IoWord) :
    fromFmt u sw (toFmt u sw w) = (w.setWidth 32).setWidth 64 := by
  subst hsw
  have hpattern := isPattern_toFmt u false w
  rw [hfmt] at hpattern
  rw [fromFmt_same_narrow u _ hfmt, fmtMask_of_isPattern hpattern]
  exact toFmt32_binary32 u _ hfmt

/-! ## A neutral frame (R400) -/

/-- What R400 asks of the path from the record write to the crusher: the DS and BC oscillators and the filter off, every
frame a fetch, RP at WP, and 16 bits. -/
structure PathNeutral (s : State) : Prop where
  dsOff : s.dsLfo.en = false
  bcOff : s.bcLfo.en = false
  bits : s.bc.bits = 16#8
  filterOff : s.status.dsActive = false
  incr : s.ds.incr = 1#32
  rp : s.ptr.rp.toNat = s.ptr.wp.toNat * 2 ^ 32
  wp : s.ptr.wp.toNat < s.build.recCap

section Frame

variable {u : Fpu} {p : Proc} {s : State} {c : Nat}

/-- With SAMPLE_INCR = 1 every frame fetches. -/
theorem fetching_of_neutral (h : PathNeutral s) : fetching (recordFrame u p (modulate u s)) = true := by
  rw [fetching_iff, frame_ds, modulate_ds_of_off u h.dsOff, h.incr]
  obtain hzero | hpos := Nat.eq_zero_or_pos s.ptr.hold.toNat
  · exact .inl (BitVec.eq_of_toNat_eq hzero)
  · exact .inr hpos

/-- The signal of a live channel is what the frame has just recorded for it. -/
theorem crushedSample_neutral (h : PathNeutral s) (hlen : c < s.chans.length) (hc : c < s.chCount.toNat) :
    crushedSample u (recordFrame u p (modulate u s)) c = recSample u p s c := by
  have hcell : s.ptr.rp.toNat / 2 ^ 32 = s.ptr.wp.toNat := by
    rw [h.rp, Nat.mul_div_cancel _ (Nat.two_pow_pos 32)]
  have hbits : (frame u p s).bc.bits = 16#8 := by rw [frame_bc, modulate_bc_of_off u h.bcOff, h.bits]
  rw [crushedSample_frame u p s hlen hc, hbits, crush_of_sixteen_le u _ _ _ (by decide), h.filterOff,
    if_neg Bool.false_ne_true, frame_held u p s hlen hc, heldSample_of_fetching u p s (fetching_of_neutral h), hcell,
    recRead_frame_wp u p s h.wp hc]

/-- The signals of a frame whose channels all have an input are the input samples. -/
theorem frameSignals_neutral (h : PathNeutral s) (hchans : s.chCount.toNat ≤ s.chans.length)
    (hnin : p.nin = s.chCount.toNat) : frameSignals u (recordFrame u p (modulate u s)) =
      (List.range s.chCount.toNat).map (fun c => toFmt u p.sw (inRead s 1 (c * s.build.maxBlock + p.i))) := by
  rw [frameSignals, recordFrame_chCount, modulate_chCount]
  refine List.map_congr_left fun c hc => ?_
  have hlive := List.mem_range.mp hc
  rw [crushedSample_neutral h (by omega) hlive, recSample_eq, if_pos (by omega)]

/-- RP stays at WP where PB_STEP is one frame: both advance by one frame and wrap together. -/
theorem toNat_frame_rp_of_neutral (h : PathNeutral s) (hbuild : Build.Valid s.build) (hoff : s.pbLfo.en = false)
    (hstep : s.pb.step = BitVec.ofNat 64 (2 ^ 32)) :
    (frame u p s).ptr.rp.toNat = (frame u p s).ptr.wp.toNat * 2 ^ 32 := by
  have hone : (BitVec.ofNat 64 (2 ^ 32)).toNat = 1 * 2 ^ 32 := by decide
  rw [toNat_frame_rp u p hbuild.recCapPos hbuild.recCapLe, toNat_frame_wp u p hbuild.recCapPos hbuild.recCapLe, frame_pb,
    modulate_pb_of_off u hoff, hstep, h.rp, hone, ← Nat.add_mul, Nat.mul_mod_mul_right]

end Frame

/-- Settles O45: the limiter's divisor is 1, so each output is a zero of its input's sign plus the input. -/
theorem frameTransparent : Obligations.FrameTransparent := by
  intro p s h hproc hi hnin hdsOff hpbOff hbcOff hbits hfilterOff hincr hstep hwet hdry htrim hrp x hinput hquiet t
  have hneutral : PathNeutral s := ⟨hdsOff, hbcOff, hbits, hfilterOff, hincr, hrp, h.wp⟩
  have hlen : s.chCount.toNat ≤ s.chans.length := h.chCountLe.trans h.chans.ge
  have hlength := (h.proc p hproc).length
  have hgain : t.lim.gain = s.fpu.one := by
    rw [frame_lim, frameSignals_neutral hneutral hlen hnin]
    exact gainOf_of_not_gt hquiet
  have htrimNew : t.lim.trim = s.fpu.one := by
    rw [frame_lim_kept]
    exact htrim
  have hlast {c : Nat} (hc : c < s.chCount.toNat) : (chanAt t c).lastOut = x c := by
    obtain ⟨hfin, hle⟩ := hinput c hc
    have hsample : recSample s.fpu p s c = x c := by rw [recSample_eq, if_pos (by omega)]
    have hdrySample : drySample s.fpu p s c = x c := if_pos (by omega)
    rw [frame_lastOut s.fpu p s (by omega) hc, outSample_frame, crushedSample_neutral hneutral (by omega) hc, hsample,
      hdrySample, hdry, hwet]
    exact mix_neutral htrimNew hgain (isPattern_toFmt s.fpu p.sw _) hfin hle
  have hword {c : Nat} (hc : c < s.chCount.toNat) :
      Memory.read none t.outMem (c * s.build.maxBlock + p.i) = some (fromFmt s.fpu p.sw (x c)) := by
    rw [(frame_outMem_reads s.fpu p s (by omega)).1 c hc (by omega), hlast hc]
  refine ⟨fun c hc => ⟨hword hc, fun hfmt hsw => ?_⟩, toNat_frame_rp_of_neutral hneutral h.build hpbOff hstep⟩
  exact (hword hc).trans (congrArg some (fromFmt_toFmt_narrow hfmt hsw _))

end Sys2Proof.Proofs
end

section
/-!
PROOFS. The errors and the halted block (60_exceptions.md R440 to R449).

The one idea: an error and a discarded command are each one update of the state, and in a halted block every step of every
agent keeps all that the read port shows, so the halt is kept by induction on the steps.
-/

namespace Sys2Proof.Proofs

open Sys2Proof Sys2Proof.Machine Sys2Proof.Laws

/-! ## Errors (R440, R441, R443, R448) -/

/-- A command that does not decode is taken and its code recorded. -/
theorem runCommand_of_decode_error {p : Port} {s : State} {e : DecodeError} (hfatal : s.status.fatal = false)
    (h : decode p (headCommand p s) = .error e) :
    runCommand p s = .next (raiseError (decodeErrorCode e) (takeCommand p s)) := by
  simp [runCommand, hfatal, h]

/-- An error on a command just taken records its code in the STATUS from before. -/
theorem raiseError_takeCommand (code : BitVec 4) (p : Port) (s : State) :
    raiseError code (takeCommand p s) = { takeCommand p s with status := recordError code s.status } := by
  rw [raiseError, takeCommand_status]

theorem geometryExceeds_iff (s : State) (nin nout n : Nat) : geometryExceeds s nin nout n = true ↔
    s.build.nMax < nin ∨ s.build.nMax < nout ∨ s.build.maxBlock < n := by
  simp [geometryExceeds, or_assoc]

/-- A PROCESS beyond the built limits halts the block (R446). -/
theorem startProcess_of_exceeds {u : Fpu} {sw : Bool} {nin nout n : Nat} {s : State}
    (h : geometryExceeds s nin nout n = true) : startProcess u sw nin nout n s = raiseFatal 4#4 s := by
  rw [startProcess, if_pos h]

/-- Settles O10: each source of an error is one `raiseError`, or `raiseFatal` for GEOMETRY. -/
theorem errorsKeepTheFirstCode : Obligations.ErrorsKeepTheFirstCode := by
  refine ⟨fun s p e hmover hproc hfatal hdecode => ?_, fun s a hrefused => ?_, fun s sw nin nout n hexceeds => ?_⟩
  · rw [step_of_port_mover hmover hproc, runCommand_of_decode_error hfatal hdecode, raiseError_takeCommand]
    cases e <;> rfl
  · have hnot : rateAccepted s.fpu (toFmt32 s.fpu a) = false := hrefused
    rw [exec_setSampleRate, setSampleRate_of_refused hnot]
    rfl
  · rw [exec_process, startProcess_of_exceeds ((geometryExceeds_iff s nin nout n).mpr hexceeds)]
    rfl

/-- Settles O19: the acknowledgment is one update of STATUS. -/
theorem clearErrResult : Obligations.ClearErrResult := fun _ => rfl

/-! ## No step stops (R440, R449) -/

theorem goesOn_next (s : State) : goesOn (.next s) := ⟨s, rfl⟩

/-- A command taken from a port is discarded, is an error or has a meaning: each is a next state. -/
theorem goesOn_runCommand (p : Port) (s : State) : goesOn (runCommand p s) := by
  unfold runCommand
  split
  · exact goesOn_next _
  · split
    · exact goesOn_next _
    · exact exec_next _ _

theorem goesOn_hostStep (s : State) : goesOn (hostStep s) := by
  unfold hostStep
  split
  · exact goesOn_next _
  · exact goesOn_next _

/-- Settles O16: only a frame can be a fault, and under the invariant none is. -/
theorem stepNeverStops : Obligations.StepNeverStops := by
  intro s h
  cases hmover : mover s with
  | none => exact ⟨s, step_of_no_mover hmover⟩
  | some a =>
    cases a with
    | audio =>
      cases hproc : s.proc with
      | none =>
        rw [step_of_port_mover (p := .audio) hmover fun _ => hproc]
        exact goesOn_runCommand .audio s
      | some p =>
        obtain hi | hi := (h.proc p hproc).index.lt_or_eq
        · exact ⟨_, step_frame h hproc hmover hi⟩
        · exact ⟨_, step_epilogue hproc hmover hi⟩
    | control =>
      rw [step_of_port_mover (p := .control) hmover nofun]
      exact goesOn_runCommand .control s
    | host =>
      rw [step_of_mover s .host hmover]
      exact goesOn_hostStep s

/-! ## The halted block (R447) -/

/-- `t` holds what `s` holds but for the traffic: the ports, IN_MEM with its journal, and the model's own fields. -/
def AllButTrafficKept (s t : State) : Prop :=
  t = { s with
    audioQ := t.audioQ, controlQ := t.controlQ, inMem := t.inMem, inOld := t.inOld, hostIn := t.hostIn
    sched := t.sched, free := t.free }

namespace AllButTrafficKept

variable {r s t : State}

theorem trans (hst : AllButTrafficKept s t) (htr : AllButTrafficKept t r) : AllButTrafficKept s r := by
  unfold AllButTrafficKept at hst htr ⊢
  rw [htr, hst]

theorem status (h : AllButTrafficKept s t) : t.status = s.status := by rw [h]

theorem proc (h : AllButTrafficKept s t) : t.proc = s.proc := by rw [h]

theorem recRead (h : AllButTrafficKept s t) (c j : Nat) : recRead t c j = recRead s c j := by rw [h]; rfl

theorem outMem (h : AllButTrafficKept s t) : t.outMem = s.outMem := by rw [h]

/-- The read port shows nothing of the traffic. -/
theorem readPort (h : AllButTrafficKept s t) (a : BitVec 12) : readPort t a = readPort s a := by rw [h]; rfl

end AllButTrafficKept

theorem allButTrafficKept_takeCommand (p : Port) (s : State) : AllButTrafficKept s (takeCommand p s) := by
  cases p <;> rfl

theorem allButTrafficKept_of_deliversTo {e : HostEvent} {s t : State} (h : DeliversTo e s t) : AllButTrafficKept s t := by
  cases h with
  | pushed p w => cases p <;> rfl
  | put idx w => rfl
  | nothing => rfl

theorem allButTrafficKept_afterInput (e : HostEvent) (es : List HostEvent) (s : State) :
    AllButTrafficKept s (afterInput e es s) := by
  have htick : AllButTrafficKept s (tick { s with hostIn := es }) := rfl
  exact htick.trans (allButTrafficKept_of_deliversTo (deliversTo_afterInput e es s))

/-- A command that is taken moves no memory. -/
theorem memoriesKept_takeCommand (p : Port) (s : State) : memoriesKept s (takeCommand p s) := by
  have hkept := allButTrafficKept_takeCommand p s
  have hin : (takeCommand p s).inMem = s.inMem := by cases p <;> rfl
  exact ⟨hkept.recRead, fun i => by rw [hin], fun i => by rw [hkept.outMem]⟩

/-- A halted block discards the command of the port that moves. -/
theorem step_of_port_halted {p : Port} {s : State} (hfatal : s.status.fatal = true) (hmover : mover s = some (agentOf p))
    (hproc : p = .audio → s.proc = none) : step s = .next (takeCommand p s) := by
  rw [step_of_port_mover hmover hproc, runCommand, if_pos hfatal]

/-- The block is halted, and no reset is to come. -/
structure HaltedForGood (s : State) : Prop where
  fatal : s.status.fatal = true
  proc : s.proc = none
  noReset : noReset s

/-- What keeps all but the traffic, and of the host's inputs at most those still to come, stays halted. -/
theorem HaltedForGood.of_kept {s t : State} (h : HaltedForGood s) (hkept : AllButTrafficKept s t)
    (hinputs : t.hostIn ⊆ s.hostIn) : HaltedForGood t where
  fatal := (congrArg Status.fatal hkept.status).trans h.fatal
  proc := hkept.proc.trans h.proc
  noReset e he := h.noReset e (hinputs he)

theorem HaltedForGood.takeCommand {s : State} (h : HaltedForGood s) (p : Port) : HaltedForGood (takeCommand p s) := by
  have hinputs : (Machine.takeCommand p s).hostIn = s.hostIn := by cases p <;> rfl
  exact h.of_kept (allButTrafficKept_takeCommand p s) (hinputs ▸ List.Subset.refl _)

theorem HaltedForGood.afterInput {s : State} (h : HaltedForGood s) {e : HostEvent} {es : List HostEvent}
    (hin : s.hostIn = e :: es) : HaltedForGood (afterInput e es s) := by
  refine h.of_kept (allButTrafficKept_afterInput e es s) ?_
  rw [afterInput_hostIn, hin]
  exact List.subset_cons_self e es

/-- The key step of R447: whichever agent moves, a halted block keeps all but the traffic and stays halted. -/
theorem HaltedForGood.step {s : State} (h : HaltedForGood s) :
    ∃ t, step s = .next t ∧ AllButTrafficKept s t ∧ HaltedForGood t := by
  cases hmover : mover s with
  | none => exact ⟨s, step_of_no_mover hmover, rfl, h⟩
  | some a =>
    cases a with
    | audio =>
      exact ⟨_, step_of_port_halted (p := .audio) h.fatal hmover fun _ => h.proc,
        allButTrafficKept_takeCommand .audio s, h.takeCommand .audio⟩
    | control =>
      exact ⟨_, step_of_port_halted (p := .control) h.fatal hmover nofun,
        allButTrafficKept_takeCommand .control s, h.takeCommand .control⟩
    | host =>
      obtain ⟨e, es, hin⟩ := hostIn_of_mover_host hmover
      have he : e ≠ .reset := h.noReset e (hin ▸ List.mem_cons_self)
      exact ⟨_, (step_of_mover s .host hmover).trans (hostStep_cons hin he),
        allButTrafficKept_afterInput e es s, h.afterInput hin⟩

/-- However many steps run, a halted block keeps all but the traffic. -/
theorem HaltedForGood.run {s : State} (h : HaltedForGood s) (n : Nat) :
    ∃ t, Host.Core.run Sys2Proof.core n s = .next t ∧ AllButTrafficKept s t := by
  induction n generalizing s with
  | zero => exact ⟨s, rfl, rfl⟩
  | succ n ih =>
    obtain ⟨r, hstep, hkept, hhalted⟩ := h.step
    obtain ⟨t, hrun, hrest⟩ := ih hhalted
    exact ⟨t, (run_succ (M := Sys2Proof.core) hstep n).trans hrun, hkept.trans hrest⟩

/-- Settles O11: a discarded command moves only the traffic, and so does every step of a run of the halted block. -/
theorem haltedIsFinal : Obligations.HaltedIsFinal := by
  refine ⟨fun s p hfatal hmover hproc => ?_, fun n s hfatal hproc hreset => ?_⟩
  · have hkept := allButTrafficKept_takeCommand p s
    exact ⟨step_of_port_halted hfatal hmover hproc, queueOf_takeCommand p s, hkept.status, hkept.readPort,
      memoriesKept_takeCommand p s⟩
  · obtain ⟨t, hrun, hkept⟩ := HaltedForGood.run ⟨hfatal, hproc, hreset⟩ n
    exact ⟨t, hrun, hkept.status, hkept.readPort, hkept.recRead, fun i => by rw [hkept.outMem]⟩

end Sys2Proof.Proofs
end

section
/-!
PROOFS. Reset (70_reset_and_hazards.md R480 to R484).

The one idea: after its tick a reset step is `assertReset`, whose state is that of `State.resetWith` but for OUT_MEM and the
model's own fields; OUT_MEM is known only where the abandoned PROCESS has kept an overwritten word.
-/

namespace Sys2Proof.Proofs

open Sys2Proof Sys2Proof.Machine Sys2Proof.Laws

/-! ## OUT_MEM after reset (R482) -/

/-- With no PROCESS to abandon, nothing of OUT_MEM is known. -/
theorem read_outAfterReset_of_no_proc {s : State} (hproc : s.proc = none) (idx : Nat) :
    Memory.read none (outAfterReset s) idx = none := by
  rw [outAfterReset, hproc, read_nil]

theorem outOverwritten_of_proc {s : State} {p : Proc} (hproc : s.proc = some p) (idx : Nat) :
    outOverwritten s idx = journalAt p.outOld idx := by
  rw [outOverwritten, hproc]

/-- A word that the abandoned PROCESS had not written is not known. -/
theorem read_outAfterReset_of_unwritten {s : State} {p : Proc} (hproc : s.proc = some p) {idx : Nat}
    (h : ∀ e ∈ p.outOld, e.1 ≠ idx) : Memory.read none (outAfterReset s) idx = none := by
  have hnil : outOverwritten s idx = [] := by
    rw [outOverwritten_of_proc hproc, journalAt_eq_nil fun e he => (h e he).symm]
  obtain ⟨hnone, -⟩ | ⟨hwritten, -⟩ := outAfterReset_reads s idx
  · exact hnone
  · exact absurd hnil hwritten

/-- A word that the abandoned PROCESS had written holds its present value or one that was overwritten. -/
theorem read_outAfterReset_of_written {s : State} {p : Proc} (hproc : s.proc = some p) {idx : Nat}
    (h : ∃ e ∈ p.outOld, e.1 = idx) :
    Memory.read none (outAfterReset s) idx = Memory.read none s.outMem idx ∨
      Memory.read none (outAfterReset s) idx ∈ outOverwritten s idx := by
  obtain ⟨e, he, rfl⟩ := h
  have hold : e.2 ∈ outOverwritten s e.1 := by
    rw [outOverwritten_of_proc hproc]
    exact mem_journalAt.mpr he
  obtain ⟨-, hnil⟩ | ⟨-, hread⟩ := outAfterReset_reads s e.1
  · exact absurd hnil (List.ne_nil_of_mem hold)
  · exact List.mem_cons.mp hread

/-! ## The step that asserts reset (R480) -/

/-- The state after the host's reset input, in a new atomic step. -/
theorem step_of_reset {s : State} {es : List HostEvent} (hmover : mover s = some .host) (hin : s.hostIn = .reset :: es) :
    step s = .next (assertReset (tick { s with hostIn := es })) := by
  rw [step_of_mover s .host hmover, agentStep, hostStep, hin]
  rfl

/-- The read port shows nothing of OUT_MEM and of the model's own fields, so after reset it shows the reset values. -/
theorem readPort_assertReset (s : State) (a : BitVec 12) :
    readPort (assertReset s) a = readPort (State.resetWith s.fpu s.build) a := rfl

theorem recRead_assertReset (s : State) (c j : Nat) : recRead (assertReset s) c j = 0#64 := read_nil _ _

/-- Settles O58: the step is `assertReset`, and OUT_MEM by whether the abandoned PROCESS had written the word. -/
theorem resetFromAnywhere : Obligations.ResetFromAnywhere := by
  intro s es hmover hin
  let ticked := tick { s with hostIn := es }
  exact ⟨assertReset ticked, step_of_reset hmover hin, rfl, rfl, rfl, recRead_assertReset _, read_nil _,
    read_outAfterReset_of_no_proc (s := ticked),
    fun _ hproc _ hunwritten => read_outAfterReset_of_unwritten (s := ticked) hproc hunwritten,
    fun _ hproc _ hwritten => read_outAfterReset_of_written (s := ticked) hproc hwritten,
    readPort_assertReset _, rfl⟩

/-! ## The invariants at reset (10_state.md R62) -/

/-- The reference build is within the limits of its parameters (00_scope.md R7). -/
theorem valid_referenceBuild : Build.Valid Config.referenceBuild := by
  constructor <;> decide

/-- Settles O15: the reset state of a build meets both invariants, and the reference build is valid. -/
theorem resetEstablishesInvariants : Obligations.ResetEstablishesInvariants :=
  ⟨fun b k hb => ⟨inv_resetWith hb k, derived_resetWith b k⟩,
    inv_resetWith valid_referenceBuild 0, derived_resetWith Config.referenceBuild 0⟩

/-! ## The read-out of the reference build (R484) -/

section Registers

variable (s : State)

theorem readPort_dsmax : readPort s 0x008#12 = fmtMask s.build.fmt s.dsmax := rfl

theorem readPort_rho : readPort s 0x014#12 = fmtMask s.build.fmt s.ds.rho := rfl

theorem readPort_dsLfo_inc : readPort s 0x083#12 = fmtMask s.build.fmt s.dsLfo.inc :=
  readPort_lfo s .ds (k := 3) (by decide)

theorem readPort_dsLfo_lo : readPort s 0x085#12 = fmtMask s.build.fmt s.dsLfo.lo :=
  readPort_lfo s .ds (k := 5) (by decide)

end Registers

/-- FS_INIT / FLOOR_HZ = 44100 / 1000, rounded. -/
theorem reset_dsmax : State.reset.dsmax = 0x42306666#64 := by decide +kernel

/-- At DS_ACTUAL = 1 the cutoff ratio 0.5 is above its bound, so it is that bound, 0.45. -/
theorem reset_rho : State.reset.ds.rho = 0x3EE66666#64 := by decide +kernel

/-- At rate 0 the increment is that of the lowest frequency, 2π · 0.1 / 44100. -/
theorem reset_dsLfo_inc : State.reset.dsLfo.inc = 0x376F08EB#64 := by decide +kernel

/-- With depth 0 the band starts at DS_TARGET = 1. -/
theorem reset_dsLfo_lo : State.reset.dsLfo.lo = 0x3F800000#64 := by decide +kernel

/-- Settles O57: the computed registers by their values, the constants as they stand, and 0x120 as the channel group after
the last one built. -/
theorem resetReadOut : Obligations.ResetReadOut := by
  unfold Obligations.ResetReadOut
  rw [readPort_dsmax, reset_dsmax, readPort_rho, reset_rho, readPort_dsLfo_inc, reset_dsLfo_inc, readPort_dsLfo_lo,
    reset_dsLfo_lo]
  exact ⟨rfl, rfl, rfl, rfl, rfl, rfl, rfl, rfl, rfl, rfl, rfl, rfl, readPort_gap _ _ (by decide)⟩

end Sys2Proof.Proofs
end
